-- ==== Sys2Proof/Word.lean ====
section
/-! DEFINITION. The words of the part: bytes, 16-bit and 32-bit fields, stamps, and the record of R1. -/

namespace Sys2Proof

/-- One byte on the link, in a payload or in the array. -/
abbrev Byte := BitVec 8

/-- A 16-bit field (R187). -/
abbrev Half := BitVec 16

/-- The 32-bit pattern of a lane (R47). -/
abbrev Lane := BitVec 32

/-- A 48-bit stamp (R1). -/
abbrev Stamp := BitVec 48

/-- A record: stamp, source and six lanes (R1). It carries no sequence number. -/
structure Record where
  stamp  : Stamp
  source : Half
  lanes  : Vector Lane 6
  deriving DecidableEq, Repr

end Sys2Proof
end

