-- ==== Sys2Proof/Config.lean ====
section
/-! DEFINITION. What the manual leaves open: the free values of the model. Each is opaque, so no proof can know it. -/

namespace Sys2Proof.Config

/-- FREE VALUE (log 6). The order in which several things of one change are done where the manual gives none; the
argument is the number of the draw. Read by `Machine.State.freely`. -/
opaque freeOrder : Nat → Nat

/-- FREE VALUE (log 7). The supply in millivolts that a sample measures when no command carries the measurement (R120,
R132); the argument is the number of the draw. The value is kept in the range of R120 where it is used. -/
opaque supplyMeasured : Nat → Nat

end Sys2Proof.Config
end

