-- ==== Sys2Proof/Syntax.lean ====
section
/-! DEFINITION. The commands of the part: one constructor of `Instr` per row of spec/opcode_table.json, with the fields
that a request's payload carries (R188) or that the outside world decides at an event. -/

namespace Sys2Proof

/-- A byte as the receiver has sampled it from LRX: its value, and whether its stop bit was low (R170, log 33). -/
structure LineByte where
  value : Byte
  framingError : Bool
  deriving DecidableEq, Repr

/-- One term place of a SCAN payload (R188). -/
structure TermPlace where
  lane : Byte
  predicate : Byte
  threshold : Lane
  deriving DecidableEq, Repr

/-- The 50 payload bytes of SCAN, by field (R188). -/
structure ScanFields where
  series : Byte
  rangeKind : Byte
  mode : Byte
  upperPresence : Byte
  lower : Stamp
  upper : Stamp
  hitLimit : Half
  sourcePresence : Byte
  source : Half
  termCount : Byte
  combine : Byte
  maskAbsent : Byte
  maskFault : Byte
  maskTiny : Byte
  terms : Vector TermPlace 4
  deriving DecidableEq, Repr

/-- The ten array timing settings as SET_ARRAY_TIMING carries them (R110, R188). -/
structure TimingFields where
  openDelay : Byte
  closeDelay : Byte
  readLatency : Byte
  writeRecovery : Byte
  refreshInterval : Half
  refreshDuration : Half
  shortCal : Half
  longCal : Half
  wakeDelay : Byte
  referenceFitted : Byte
  deriving DecidableEq, Repr

/-- The six monitor settings as SET_MONITOR carries them (R131, R188). -/
structure MonitorFields where
  sampleInterval : Half
  hotThreshold : Byte
  kT : Half
  kV : Half
  dueThreshold : Half
  hardLimit : Half
  deriving DecidableEq, Repr

/-- The nine port settings as SET_PRESERVE_PORT carries them (R150, R188). -/
structure PortFields where
  setup : Byte
  strobe : Byte
  hold : Byte
  turnaround : Byte
  waitEnable : Byte
  waitPolarity : Byte
  maxWaitCode : Byte
  slotCount : Byte
  slotPages : Half
  deriving DecidableEq, Repr

/-- What a die gives to its identity read (R107). The temperature is in degrees Celsius. -/
inductive IdentityAnswer where
  | noAnswer
  | otherCode
  | arrayCode (temperature : Int)
  deriving DecidableEq, Repr

/-- The kinds of request (R180, R188). -/
inductive Kind where
  | identify | status | setLink | cancel | reset
  | create | seal | drop | describe | append | fetch
  | scan
  | startArray | setArrayTiming | power
  | setMonitor | calibrate
  | setPreservePort | preserve | recover
  deriving DecidableEq, Repr

/-- A request as its frame carries it, field by field and unjudged (R188). -/
inductive Request where
  | identify
  | status
  | setLink (rateCode : Byte)
  | cancel (target : Byte)
  | reset
  | create (series : Byte) (base count : Half) (lanes policy : Byte)
  | seal (series : Byte)
  | drop (series : Byte)
  | describe (series : Byte)
  | append (series count : Byte) (records : List Record)
  | fetch (series : Byte) (first : BitVec 32) (count : Byte)
  | scan (fields : ScanFields)
  | startArray
  | setArrayTiming (fields : TimingFields)
  | power (level : Byte)
  | setMonitor (fields : MonitorFields)
  | calibrate (die kind : Byte)
  | setPreservePort (fields : PortFields)
  | preserve (series slot : Byte)
  | recover (slot target basePresence : Byte) (base : Half)
  deriving DecidableEq, Repr

/-- The commands. A request row carries its tag and its payload's fields (R188); an event row carries which die or bank
it happens to and what the outside world delivers with it. -/
inductive Instr where
  /-- RESET_N; `supply` is the first supply sample, in mV (R186, R133). -/
  | powerOnReset (supply : Nat)
  /-- Bytes arrive on LRX, one after the other (R172). -/
  | frameReceived (bytes : List LineByte)
  | receiveGapTimeout
  | skipIdleTimeout
  | decodeFrame
  /-- `hold` is the HOLD input at that moment (R175). -/
  | transmitFrameStart (hold : Bool)
  | frameSent
  | identify (tag : Byte)
  | status (tag : Byte)
  | setLink (tag rateCode : Byte)
  | cancel (tag target : Byte)
  | reset (tag : Byte)
  | create (tag series : Byte) (base count : Half) (lanes policy : Byte)
  | describe (tag series : Byte)
  | seal (tag series : Byte)
  | drop (tag series : Byte)
  | append (tag series count : Byte) (records : List Record)
  | fetch (tag series : Byte) (first : BitVec 32) (count : Byte)
  | scan (tag : Byte) (fields : ScanFields)
  | startArray (tag : Byte)
  | setArrayTiming (tag : Byte) (fields : TimingFields)
  | powerRun (tag : Byte)
  | powerRest (tag : Byte)
  | powerDeep (tag : Byte)
  | setMonitor (tag : Byte) (fields : MonitorFields)
  | calibrate (tag die kind : Byte)
  | setPreservePort (tag : Byte) (fields : PortFields)
  | preserve (tag series slot : Byte)
  | recover (tag slot target basePresence : Byte) (base : Half)
  | openStep (die : Fin 2) (bank : Fin 8)
  | closeStep (die : Fin 2) (bank : Fin 8)
  | transferStep (die : Fin 2) (bank : Fin 8)
  | statusReadStep (die : Fin 2)
  | openDelayElapsed (die : Fin 2) (bank : Fin 8)
  | closeDelayElapsed (die : Fin 2) (bank : Fin 8)
  | writeRecoveryElapsed (die : Fin 2) (bank : Fin 8)
  | batchWriteComplete (die : Fin 2) (bank : Fin 8)
  | fetchReadComplete (die : Fin 2) (bank : Fin 8)
  | rowReadComplete (die : Fin 2) (bank : Fin 8)
  | edgeProbeComplete (die : Fin 2) (bank : Fin 8)
  | binaryProbeComplete (die : Fin 2) (bank : Fin 8)
  | refreshTimerExpiry (die : Fin 2)
  | refreshStart (die : Fin 2)
  | refreshEnd (die : Fin 2)
  | calibrationStart (die : Fin 2)
  | calibrationEnd (die : Fin 2)
  /-- `supply` in mV; `firstDie` is the die whose status read is placed first (R95, R120). -/
  | sample (supply : Nat) (firstDie : Fin 2)
  /-- `temperature` in degrees Celsius (R97). -/
  | statusReadComplete (die : Fin 2) (temperature : Int)
  | resetSequenceEnd (die : Fin 2)
  | identityReadEnd (die : Fin 2) (answer : IdentityAnswer)
  | timingLoadEnd
  | enterResting (die : Fin 2)
  | enterOff (die : Fin 2)
  | wakeDelayElapsed (die : Fin 2)
  | turnaroundElapsed
  /-- `pwait` is the level of PWAIT at the test that ends the strobe (true is high), `word` is PD0-PD15 (R147, R149). -/
  | portAccessEnd (pwait : Bool) (word : Half)
  /-- `pwait` is the level of PWAIT at the last test (R149). -/
  | accessTimeout (pwait : Bool)
  | preserveReadComplete (die : Fin 2) (bank : Fin 8)
  | recoverWriteComplete (die : Fin 2) (bank : Fin 8)
  | byteReceivedInSkip (byte : LineByte)
  deriving DecidableEq, Repr

end Sys2Proof
end

