-- ==== Sys2Proof/Decode.lean ====
section
/-! DEFINITION. The byte layouts of what crosses the link towards the part (chapter 10): field order, the record, the
request payloads and the frame with its check, each with its reader. No row of the opcode table has bits, so
`decodeTableWord` reads none. -/

namespace Sys2Proof

/-! ### Fields, least significant byte first (R187) -/

/-- The `n` lowest bytes of a number, least significant first (R187). -/
def leBytes : Nat → Nat → List Byte
  | 0, _ => []
  | n + 1, v => BitVec.ofNat 8 v :: leBytes n (v / 256)

/-- The number that bytes spell, least significant first (R187). -/
def leNat : List Byte → Nat
  | [] => 0
  | b :: bs => b.toNat + 256 * leNat bs

/-- The bytes of a field of `w` bits. -/
def fieldBytes {w : Nat} (v : BitVec w) : List Byte := leBytes (w / 8) v.toNat

/-- The field of `w` bits at byte `offset`. -/
def fieldAt (w : Nat) (bytes : List Byte) (offset : Nat) : BitVec w :=
  BitVec.ofNat w (leNat ((bytes.drop offset).take (w / 8)))

/-- The byte at an offset. -/
def byteAt (bytes : List Byte) (offset : Nat) : Byte := bytes.getD offset 0

/-! ### The record (R190) -/

/-- The 32 bytes of a record (R190). -/
def recordBytes (r : Record) : List Byte :=
  fieldBytes r.stamp ++ fieldBytes r.source ++ fieldBytes r.lanes[0] ++ fieldBytes r.lanes[1] ++ fieldBytes r.lanes[2]
    ++ fieldBytes r.lanes[3] ++ fieldBytes r.lanes[4] ++ fieldBytes r.lanes[5]

/-- The record in 32 bytes (R190). -/
def recordOf (bytes : List Byte) : Record where
  stamp := fieldAt 48 bytes 0
  source := fieldAt 16 bytes 6
  lanes := #v[fieldAt 32 bytes 8, fieldAt 32 bytes 12, fieldAt 32 bytes 16, fieldAt 32 bytes 20, fieldAt 32 bytes 24,
    fieldAt 32 bytes 28]

/-- `n` records, one after the other. -/
def recordsOf : Nat → List Byte → List Record
  | 0, _ => []
  | n + 1, bytes => recordOf (bytes.take 32) :: recordsOf n (bytes.drop 32)

/-- The bytes of records, one after the other. -/
def recordsBytes : List Record → List Byte
  | [] => []
  | r :: rs => recordBytes r ++ recordsBytes rs

/-! ### Kinds (R188) -/

/-- The code of a request kind (R188). -/
def Kind.code : Kind → Byte
  | .identify => 0x01
  | .status => 0x02
  | .setLink => 0x03
  | .cancel => 0x04
  | .reset => 0x05
  | .create => 0x10
  | .seal => 0x11
  | .drop => 0x12
  | .describe => 0x13
  | .append => 0x14
  | .fetch => 0x15
  | .scan => 0x18
  | .startArray => 0x20
  | .setArrayTiming => 0x21
  | .power => 0x22
  | .setMonitor => 0x30
  | .calibrate => 0x31
  | .setPreservePort => 0x40
  | .preserve => 0x41
  | .recover => 0x42

/-- The kind a code names, if it is a request kind (check 1 of R179). -/
def Kind.ofCode (b : Byte) : Option Kind :=
  match b.toNat with
  | 0x01 => some .identify
  | 0x02 => some .status
  | 0x03 => some .setLink
  | 0x04 => some .cancel
  | 0x05 => some .reset
  | 0x10 => some .create
  | 0x11 => some .seal
  | 0x12 => some .drop
  | 0x13 => some .describe
  | 0x14 => some .append
  | 0x15 => some .fetch
  | 0x18 => some .scan
  | 0x20 => some .startArray
  | 0x21 => some .setArrayTiming
  | 0x22 => some .power
  | 0x30 => some .setMonitor
  | 0x31 => some .calibrate
  | 0x40 => some .setPreservePort
  | 0x41 => some .preserve
  | 0x42 => some .recover
  | _ => none

/-- The payload lengths a kind allows (R188, check 2 of R179). -/
def Kind.lengthOk : Kind → Nat → Bool
  | .identify, n => n == 0
  | .status, n => n == 0
  | .setLink, n => n == 1
  | .cancel, n => n == 1
  | .reset, n => n == 0
  | .create, n => n == 7
  | .seal, n => n == 1
  | .drop, n => n == 1
  | .describe, n => n == 1
  | .append, n => 2 ≤ n && n ≤ 962 && (n - 2) % 32 == 0
  | .fetch, n => n == 6
  | .scan, n => n == 50
  | .startArray, n => n == 0
  | .setArrayTiming, n => n == 14
  | .power, n => n == 1
  | .setMonitor, n => n == 11
  | .calibrate, n => n == 2
  | .setPreservePort, n => n == 10
  | .preserve, n => n == 2
  | .recover, n => n == 5

/-- The kind of a request. -/
def Request.kind : Request → Kind
  | .identify => .identify
  | .status => .status
  | .setLink _ => .setLink
  | .cancel _ => .cancel
  | .reset => .reset
  | .create .. => .create
  | .seal _ => .seal
  | .drop _ => .drop
  | .describe _ => .describe
  | .append .. => .append
  | .fetch .. => .fetch
  | .scan _ => .scan
  | .startArray => .startArray
  | .setArrayTiming _ => .setArrayTiming
  | .power _ => .power
  | .setMonitor _ => .setMonitor
  | .calibrate .. => .calibrate
  | .setPreservePort _ => .setPreservePort
  | .preserve .. => .preserve
  | .recover .. => .recover

/-! ### Settings and the SCAN payload, also reported by STATUS (R188, R189) -/

/-- SET_ARRAY_TIMING's 14 bytes. -/
def timingBytes (f : TimingFields) : List Byte :=
  [f.openDelay, f.closeDelay, f.readLatency, f.writeRecovery] ++ fieldBytes f.refreshInterval
    ++ fieldBytes f.refreshDuration ++ fieldBytes f.shortCal ++ fieldBytes f.longCal ++ [f.wakeDelay, f.referenceFitted]

def timingOf (p : List Byte) : TimingFields where
  openDelay := byteAt p 0
  closeDelay := byteAt p 1
  readLatency := byteAt p 2
  writeRecovery := byteAt p 3
  refreshInterval := fieldAt 16 p 4
  refreshDuration := fieldAt 16 p 6
  shortCal := fieldAt 16 p 8
  longCal := fieldAt 16 p 10
  wakeDelay := byteAt p 12
  referenceFitted := byteAt p 13

/-- SET_MONITOR's 11 bytes. -/
def monitorBytes (f : MonitorFields) : List Byte :=
  fieldBytes f.sampleInterval ++ [f.hotThreshold] ++ fieldBytes f.kT ++ fieldBytes f.kV ++ fieldBytes f.dueThreshold
    ++ fieldBytes f.hardLimit

def monitorOf (p : List Byte) : MonitorFields where
  sampleInterval := fieldAt 16 p 0
  hotThreshold := byteAt p 2
  kT := fieldAt 16 p 3
  kV := fieldAt 16 p 5
  dueThreshold := fieldAt 16 p 7
  hardLimit := fieldAt 16 p 9

/-- SET_PRESERVE_PORT's 10 bytes. -/
def portBytes (f : PortFields) : List Byte :=
  [f.setup, f.strobe, f.hold, f.turnaround, f.waitEnable, f.waitPolarity, f.maxWaitCode, f.slotCount]
    ++ fieldBytes f.slotPages

def portOf (p : List Byte) : PortFields where
  setup := byteAt p 0
  strobe := byteAt p 1
  hold := byteAt p 2
  turnaround := byteAt p 3
  waitEnable := byteAt p 4
  waitPolarity := byteAt p 5
  maxWaitCode := byteAt p 6
  slotCount := byteAt p 7
  slotPages := fieldAt 16 p 8

def termBytes (t : TermPlace) : List Byte := [t.lane, t.predicate] ++ fieldBytes t.threshold

def termOf (p : List Byte) (offset : Nat) : TermPlace :=
  ⟨byteAt p offset, byteAt p (offset + 1), fieldAt 32 p (offset + 2)⟩

/-- SCAN's 50 bytes. -/
def scanBytes (f : ScanFields) : List Byte :=
  [f.series, f.rangeKind, f.mode, f.upperPresence] ++ fieldBytes f.lower ++ fieldBytes f.upper ++ fieldBytes f.hitLimit
    ++ [f.sourcePresence] ++ fieldBytes f.source ++ [f.termCount, f.combine, f.maskAbsent, f.maskFault, f.maskTiny]
    ++ termBytes f.terms[0] ++ termBytes f.terms[1] ++ termBytes f.terms[2] ++ termBytes f.terms[3]

def scanOf (p : List Byte) : ScanFields where
  series := byteAt p 0
  rangeKind := byteAt p 1
  mode := byteAt p 2
  upperPresence := byteAt p 3
  lower := fieldAt 48 p 4
  upper := fieldAt 48 p 10
  hitLimit := fieldAt 16 p 16
  sourcePresence := byteAt p 18
  source := fieldAt 16 p 19
  termCount := byteAt p 21
  combine := byteAt p 22
  maskAbsent := byteAt p 23
  maskFault := byteAt p 24
  maskTiny := byteAt p 25
  terms := #v[termOf p 26, termOf p 32, termOf p 38, termOf p 44]

/-! ### Request payloads (R188) -/

/-- The payload of a request (R188). -/
def Request.payload : Request → List Byte
  | .identify => []
  | .status => []
  | .setLink code => [code]
  | .cancel target => [target]
  | .reset => []
  | .create series base count lanes policy => [series] ++ fieldBytes base ++ fieldBytes count ++ [lanes, policy]
  | .seal series => [series]
  | .drop series => [series]
  | .describe series => [series]
  | .append series count records => [series, count] ++ recordsBytes records
  | .fetch series first count => [series] ++ fieldBytes first ++ [count]
  | .scan f => scanBytes f
  | .startArray => []
  | .setArrayTiming f => timingBytes f
  | .power level => [level]
  | .setMonitor f => monitorBytes f
  | .calibrate die kind => [die, kind]
  | .setPreservePort f => portBytes f
  | .preserve series slot => [series, slot]
  | .recover slot target presence base => [slot, target, presence] ++ fieldBytes base

/-- The request that a payload of an allowed length spells (R188). -/
def Request.ofPayload (k : Kind) (p : List Byte) : Request :=
  match k with
  | .identify => .identify
  | .status => .status
  | .setLink => .setLink (byteAt p 0)
  | .cancel => .cancel (byteAt p 0)
  | .reset => .reset
  | .create => .create (byteAt p 0) (fieldAt 16 p 1) (fieldAt 16 p 3) (byteAt p 5) (byteAt p 6)
  | .seal => .seal (byteAt p 0)
  | .drop => .drop (byteAt p 0)
  | .describe => .describe (byteAt p 0)
  | .append => .append (byteAt p 0) (byteAt p 1) (recordsOf ((p.length - 2) / 32) (p.drop 2))
  | .fetch => .fetch (byteAt p 0) (fieldAt 32 p 1) (byteAt p 5)
  | .scan => .scan (scanOf p)
  | .startArray => .startArray
  | .setArrayTiming => .setArrayTiming (timingOf p)
  | .power => .power (byteAt p 0)
  | .setMonitor => .setMonitor (monitorOf p)
  | .calibrate => .calibrate (byteAt p 0) (byteAt p 1)
  | .setPreservePort => .setPreservePort (portOf p)
  | .preserve => .preserve (byteAt p 0) (byteAt p 1)
  | .recover => .recover (byteAt p 0) (byteAt p 1) (byteAt p 2) (fieldAt 16 p 3)

/-! ### The frame (R171, R187) -/

/-- One bit of the CRC: polynomial 0x1021, most significant bit first (R171). -/
def crcBit (crc : Half) : Half :=
  if crc.msb then (crc <<< 1) ^^^ 0x1021#16 else crc <<< 1

/-- One byte fed into the CRC (R171). -/
def crcByte (crc : Half) (b : Byte) : Half :=
  crcBit (crcBit (crcBit (crcBit (crcBit (crcBit (crcBit (crcBit (crc ^^^ (b.setWidth 16 <<< 8)))))))))

/-- The CRC-16 of R171: initial value 0xFFFF, neither reflected nor inverted. -/
def crc16 (bytes : List Byte) : Half := bytes.foldl crcByte 0xFFFF#16

/-! ### A byte on the line (R170) -/

/-- The ten bit times of a byte, in time order and true for a high line: the low start bit, the data bits from the least
significant on, the high stop bit (R170). -/
def lineBits (b : Byte) : List Bool := false :: (List.range 8).map (fun n => b.getLsbD n) ++ [true]

/-- The number that bits spell, least significant first. -/
def bitsNat : List Bool → Nat
  | [] => 0
  | b :: bs => b.toNat + 2 * bitsNat bs

/-- The byte that ten sampled bit times give; a low stop bit is a framing error (R170). -/
def sampleBits (bits : List Bool) : LineByte := ⟨BitVec.ofNat 8 (bitsNat ((bits.drop 1).take 8)), !bits.getD 9 true⟩

/-- The start byte of a frame (R171). -/
def startByte : Byte := 0xA7

/-- The bytes of a frame whose kind, tag and payload are `body` (R171). -/
def frameBytes (body : List Byte) : List Byte :=
  let counted := leBytes 2 body.length ++ body
  startByte :: (counted ++ fieldBytes (crc16 counted))

/-- The body of a request's frame: kind, tag, payload (R171). -/
def requestBody (tag : Byte) (r : Request) : List Byte := r.kind.code :: tag :: r.payload

/-! ### The opcode table's words -/

/-- The command that a word of the opcode table spells. No row of this table has bits (log 29). -/
def decodeTableWord (_nbits _w : Nat) : Option Instr := none

end Sys2Proof
end

