-- ==== Sys2Proof/Machine/State.lean ====
section
/-! DEFINITION. The state of the part: every register, buffer, counter, queue and mode of chapters 1 to 9, block by
block, and the machine right after power-on reset. -/

namespace Sys2Proof.Machine

/-! ### Results and outbound frames -/

/-- The result codes of a response (R180, chapter 10.6). -/
inductive Result where
  | ok | unknownKind | badLength | badValue | tagInUse | tableFull | busy | state | notReady
  | noSeries | seriesExists | overlap | noMemory | sealed | lost | full | order | seqExhausted | range
  | overtaken | badFilter | cancelled | seriesGone | notCancellable | unknownTag | portTimeout
  | imageTooLarge | imageIncomplete | imageDamaged
  deriving DecidableEq, Repr

/-- The kinds of outbound frame (R175). -/
inductive OutKind where
  | response | hits | notice
  deriving DecidableEq, Repr

/-- A frame of the outbound queue. `rateMark` is the new rate a SET_LINK response is marked with (R185). -/
structure Frame where
  kind : OutKind
  tag : Byte
  payload : List Byte
  rateMark : Option (Fin 5)
  deriving DecidableEq, Repr

/-! ### The link (chapter 9) -/

/-- Receiver states (R172). -/
inductive RxState where
  | hunt | header | body | check | skip
  deriving DecidableEq, Repr

/-- States of an inbound buffer (R173). -/
inductive BufState where
  | free | filling | held | resetHeld
  deriving DecidableEq, Repr

/-- An inbound buffer. While FILLING its bytes are those received after the start byte; while HELD they are the kind,
the tag and the payload (R173). -/
structure InBuf where
  state : BufState
  bytes : List Byte
  deriving DecidableEq, Repr

/-- The notices (R178). -/
inductive Notice where
  | linkError
  | hot (die : Fin 2)
  | calOverdue (die : Fin 2)
  | refreshMissed (die : Fin 2)
  deriving DecidableEq, Repr

/-- Who may claim a free slot (R177). -/
inductive Claimant where
  | decoder
  | scan (k : Fin 4)
  | notice (n : Notice)
  deriving DecidableEq, Repr

/-- The RESET in progress: what its response will carry (R182, R183). -/
structure ResetOp where
  tag : Byte
  entriesRemoved : Nat
  framesRemoved : Nat
  deriving DecidableEq, Repr

/-- The frame link unit (R170 to R178, R182, R185). `rxIdle` counts array clock cycles since the last received byte. -/
structure Link where
  rate : Fin 5
  rx : RxState
  rxIdle : Nat
  bufs : Vector InBuf 2
  heldOrder : List (Fin 2)
  decoderSlot : Bool
  queue : List Frame
  tx : Option (List Byte)
  claims : List Claimant
  discards : Nat
  reset : Option ResetOp
  deriving DecidableEq, Repr

/-! ### The request table (R180) -/

/-- States of a table entry (R180). -/
inductive EntryState where
  | working | ending
  deriving DecidableEq, Repr

/-- The blocks that own requests (R180). -/
inductive Owner where
  | linkAndTable | storeUnit | scanEngine | arrayController | monitor | preservePort
  deriving DecidableEq, Repr

/-- An entry of the request table (R180). -/
structure TableEntry where
  tag : Byte
  kind : Kind
  owner : Owner
  state : EntryState
  deriving DecidableEq, Repr

/-! ### The directory and the store unit (chapters 1 and 2) -/

/-- Series states (R16). -/
inductive SeriesState where
  | free | opened | sealed | dropping | lost | recovering
  deriving DecidableEq, Repr

/-- What happens when a series is full (R6). -/
inductive Policy where
  | wrap | halt
  deriving DecidableEq, Repr

/-- A batch of a pending batch list (R11); `lastStamp` is the stamp of its last record (R29). `finish` orders the complete
batches of a list by the moment at which they became complete (R41); it is 0 while a write is outstanding. -/
structure Batch where
  tag : Byte
  first : Nat
  count : Nat
  writes : Nat
  done : Nat
  lastStamp : Stamp
  finish : Nat
  deriving DecidableEq, Repr

/-- The preserve slot of an entry with the image head that goes with it (R12). -/
structure SlotClaim where
  slot : Nat
  head : Nat
  deriving DecidableEq, Repr

/-- A directory entry (R10). -/
structure Entry where
  state : SeriesState
  base : Nat
  count : Nat
  lanes : Nat
  policy : Policy
  reserved : Nat
  committed : Nat
  oldest : Nat
  lastReserved : Stamp
  lastCommitted : Stamp
  dirty : Bool
  image : Option SlotClaim
  batches : List Batch
  deriving DecidableEq, Repr

/-- A fetch of the store unit (R34). `part0` and `part1` are the room: what the first and the second read brought. -/
structure Fetch where
  tag : Byte
  series : Fin 32
  first : Nat
  count : Nat
  reads : Nat
  done : Nat
  part0 : List Record
  part1 : List Record
  deriving DecidableEq, Repr

/-- A DROP that waits for its entry to become FREE (R40). -/
structure DropOp where
  tag : Byte
  series : Fin 32
  deriving DecidableEq, Repr

/-! ### Filters and scan contexts (chapters 3 and 4) -/

/-- The eight predicates (R50). -/
inductive Predicate where
  | below | notAbove | above | notBelow | equal | unequal | missing | present
  deriving DecidableEq, Repr

/-- A term of a filter (R49). -/
structure Term where
  lane : Fin 6
  predicate : Predicate
  threshold : Lane
  deriving DecidableEq, Repr

/-- How the term results are joined (R54). -/
inductive Combine where
  | all | any
  deriving DecidableEq, Repr

/-- A filter (R49). A mask is true when its condition is masked. -/
structure Filter where
  source : Option Half
  terms : List Term
  combine : Combine
  maskAbsent : Bool
  maskFault : Bool
  maskTiny : Bool
  deriving DecidableEq, Repr

/-- A set of conditions (R55). -/
structure Conditions where
  absent : Bool
  fault : Bool
  tiny : Bool
  deriving DecidableEq, Repr

/-- States of a context in use (R64); a FREE context is `none` in `State.ctxs`. -/
inductive CtxState where
  | resolving | searching | running | paused | draining
  deriving DecidableEq, Repr

/-- The range a SCAN asks for (R63, R65). -/
inductive RangeAsked where
  | sequence (first : Nat) (last : Option Nat)
  | stamp (lower : Stamp) (upper : Option Stamp)
  deriving DecidableEq, Repr

/-- Whether hits are delivered or only counted (R63). -/
inductive ScanMode where
  | list | count
  deriving DecidableEq, Repr

/-- Why a scan ended (R63). -/
inductive EndReason where
  | endOfRange | hitLimit | stopped | cancelled | seriesGone | lost
  deriving DecidableEq, Repr

/-- A row buffer in use: its span, and when filled how many leading records were found overtaken and the records after
them (R63, R73). -/
structure RowBuf where
  first : Nat
  last : Nat
  filled : Bool
  skipped : Nat
  records : List Record
  deriving DecidableEq, Repr

/-- An entry of a hit buffer (R76). -/
structure Hit where
  number : Nat
  record : Record
  deriving DecidableEq, Repr

/-- Where a scan stopped and on which unmasked conditions (R57). -/
structure StopDetails where
  number : Nat
  conditions : Conditions
  deriving DecidableEq, Repr

/-- A scan context in use (R63). `resolved` says that the range has a start: it is not empty and any search has ended
with one (R83, range count). -/
structure Ctx where
  state : CtxState
  tag : Byte
  series : Fin 32
  range : RangeAsked
  low : Nat
  high : Nat
  resolved : Bool
  searchLow : Nat
  searchHigh : Nat
  filter : Filter
  mode : ScanMode
  hitLimit : Option Nat
  cursor : Nat
  readPoint : Nat
  buf0 : Option RowBuf
  buf1 : Option RowBuf
  hits : List Hit
  examined : Nat
  hitCount : Nat
  overtaken : Nat
  absents : Nat
  faults : Nat
  tinies : Nat
  lastEval : Option Nat
  endReason : Option EndReason
  stop : Option StopDetails
  deriving DecidableEq, Repr

/-! ### The array controller (chapters 5 to 7) -/

/-- Die states (R90). -/
inductive DieState where
  | unpowered | initializing | ready | waking | resting | off | missing
  deriving DecidableEq, Repr

/-- Kinds of calibration (R125). -/
inductive CalKind where
  | short | long
  deriving DecidableEq, Repr

/-- Activities of a die (R91). -/
inductive Activity where
  | none | refreshing | calibrating (kind : CalKind) | statusRead
  deriving DecidableEq, Repr

/-- Rest targets (R135). -/
inductive RestTarget where
  | none | rest | deep
  deriving DecidableEq, Repr

/-- What holds a command path (R89, R91, R97, R107). -/
inductive CommandPath where
  | free
  | write (bank : Fin 8)
  | statusRead
  | refresh
  | calibration
  | resetSequence
  | identityRead
  deriving DecidableEq, Repr

/-- Bank states, with the open row where there is one (R92). -/
inductive BankState where
  | idle
  | opening (row : Nat)
  | opened (row : Nat)
  | closing
  deriving DecidableEq, Repr

/-- A bank record (R92); `recovering` while write recovery runs (R93). -/
structure Bank where
  state : BankState
  recovering : Bool
  deriving DecidableEq, Repr

/-- A die record (R89). `timer` is `none` while the refresh timer is stopped. -/
structure Die where
  state : DieState
  activity : Activity
  holdRefresh : Bool
  holdCal : Bool
  driftHold : Bool
  debt : Nat
  timer : Option Nat
  hot : Bool
  path : CommandPath
  restTarget : RestTarget
  overruns : Nat
  banks : Vector Bank 8
  deriving DecidableEq, Repr

/-- Who issued a transaction (R94): a batch by its series and tag, a fetch by its tag and which of its reads, a scan
context's row read by the buffer it fills, a probe by its number, a preserve read by its first number and which half of
the page it brings. -/
inductive Origin where
  | batch (series : Fin 32) (tag : Byte)
  | fetch (tag : Byte) (second : Bool)
  | scanRow (k : Fin 4) (second : Bool)
  | edgeProbe (k : Fin 4) (number : Nat)
  | binaryProbe (k : Fin 4) (number : Nat)
  | preserveRead (first : Nat) (second : Bool)
  | recoverWrite
  | statusRead
  deriving DecidableEq, Repr

/-- READ or WRITE (R94, R147). -/
inductive Dir where
  | read | write
  deriving DecidableEq, Repr

/-- Bank, row and run of slots of a transaction (R94). -/
structure Place where
  bank : Fin 8
  row : Nat
  slot : Nat
  count : Nat
  deriving DecidableEq, Repr

/-- A transaction (R94). `data` is the write data, or what a read found during its step (R97). `live` is false once the
work that issued it has ended: its completion is then discarded (R97, R98). -/
structure Txn where
  origin : Origin
  dir : Dir
  die : Fin 2
  place : Option Place
  data : List Record
  issued : Bool
  passOver : Nat
  live : Bool
  deriving DecidableEq, Repr

/-- A load of array timing settings in progress; the tag is gone when RESET removed the request (R112). -/
structure TimingLoad where
  settings : TimingFields
  tag : Option Byte
  deriving DecidableEq, Repr

/-- The levels of POWER (R134). -/
inductive PowerLevel where
  | run | rest | deep
  deriving DecidableEq, Repr

/-- The POWER in the request table (R134). -/
structure PowerOp where
  tag : Byte
  level : PowerLevel
  deriving DecidableEq, Repr

/-- The array controller (R89, R94, R95, R110). `queue` is in entry order. -/
structure ArrayCtl where
  dies : Vector Die 2
  queue : List Txn
  waiting : List Txn
  timing : TimingFields
  load : Option TimingLoad
  startTag : Option Byte
  power : Option PowerOp
  deriving DecidableEq, Repr

/-! ### The monitor (chapter 6) -/

/-- How far a calibration request has come: pending, granted, or its calibration running (R125, R127). -/
inductive CalStage where
  | pending | granted | running
  deriving DecidableEq, Repr

/-- A die's calibration request (R125). `made` orders requests by the moment of their first making. -/
structure CalReq where
  kind : CalKind
  stage : CalStage
  made : Nat
  joined : List Byte
  deriving DecidableEq, Repr

/-- Baselines: Tcal in degrees Celsius and Vcal in millivolts (R123). -/
structure Baselines where
  tcal : Int
  vcal : Nat
  deriving DecidableEq, Repr

/-- What the monitor keeps for a die (R121, R123, R125). -/
structure DieMonitor where
  temp : Option Int
  base : Option Baselines
  drift : Nat
  req : Option CalReq
  deriving DecidableEq, Repr

/-- The monitor and calibration unit (R120, R126, R131). `sinceMs` and `subMs` are the sample timer: milliseconds since
the last sample, and array cycles of the running millisecond. -/
structure Monitor where
  settings : MonitorFields
  supply : Nat
  sinceMs : Nat
  subMs : Nat
  dies : Vector DieMonitor 2
  reference : Option (Fin 2)
  made : Nat
  deriving DecidableEq, Repr

/-! ### The preserve port (chapter 8) -/

/-- A page transfer: 264 accesses of one direction (R152). `index` is the word of the running access; `words` are the
words to write, or those read so far; `extension` is the extension count of the running access (R149); `begun` is false
while the turnaround before the next access runs (R148). -/
structure Transfer where
  dir : Dir
  page : Nat
  index : Nat
  words : List Half
  extension : Nat
  timedOut : Bool
  begun : Bool
  deriving DecidableEq, Repr

/-- Phases of an image operation (R155). -/
inductive Phase where
  | headerRead | headerWrite | pageRead | pageWrite | finalWrite | ending
  deriving DecidableEq, Repr

/-- What an image operation does (R155). -/
inductive ImageKind where
  | preserve | recover
  deriving DecidableEq, Repr

/-- The header fields of an image (R154). -/
structure ImageHeader where
  state : Byte
  generation : Nat
  series : Byte
  lanes : Byte
  policy : Byte
  base : Nat
  count : Nat
  oldest : Nat
  head : Nat
  firstStamp : Stamp
  lastStamp : Stamp
  records : Nat
  seriesState : Byte
  deriving DecidableEq, Repr

/-- The image operation record (R155). `half0` and `half1` are the records read for the page being built, `formed` the
records formed from a page and not yet issued, `header` the header a RECOVER has taken, `detail` the refusal detail that
goes with `result`, and `abandoned` says that RESET removed the request (R169). -/
structure ImageOp where
  kind : ImageKind
  tag : Byte
  slot : Nat
  series : Fin 32
  baseOverride : Option Nat
  phase : Phase
  snapOldest : Nat
  snapHead : Nat
  snapStamp : Stamp
  generation : Nat
  page : Nat
  half0 : List Record
  half1 : List Record
  formed : List Record
  lastStamp : Stamp
  firstStamp : Stamp
  pagesWritten : Nat
  damaged : Nat
  timedOut : Nat
  corrected : Nat
  header : Option ImageHeader
  result : Option Result
  detail : List Byte
  abandoned : Bool
  deriving DecidableEq, Repr

/-- The preserve port (R148, R150, R155). -/
structure Port where
  settings : PortFields
  lastDir : Dir
  transfer : Option Transfer
  op : Option ImageOp
  deriving DecidableEq, Repr

/-! ### The whole part -/

/-- The state of the part, and the queue of commands that wait. -/
structure State where
  pending : List Instr
  link : Link
  table : List TableEntry
  dir : Vector Entry 32
  fetches : List Fetch
  drops : List DropOp
  ctxs : Vector (Option Ctx) 4
  arr : ArrayCtl
  mon : Monitor
  port : Port
  mem : List Host.Cell
  freeDraws : Nat
  deriving DecidableEq, Repr

/-- No fault exists: the manual answers every error with a response or a notice, and the part goes on (log 3). -/
inductive Fault where
  deriving DecidableEq, Repr

/-- Refusals of the model. -/
inductive Refusal where
  /-- Raised by an arm of `exec` for a row that has no meaning yet; none has this today. Safe: the model stops. -/
  | notModelled (mnemonic : String)
  deriving DecidableEq, Repr

/-! ### After power-on reset -/

/-- A FREE entry (R18). -/
def Entry.free : Entry where
  state := .free
  base := 0
  count := 0
  lanes := 1
  policy := .wrap
  reserved := 0
  committed := 0
  oldest := 0
  lastReserved := 0
  lastCommitted := 0
  dirty := false
  image := none
  batches := []

/-- The link after power-on reset (R186). -/
def Link.reset0 : Link where
  rate := 0
  rx := .hunt
  rxIdle := 0
  bufs := Vector.replicate 2 ⟨.free, []⟩
  heldOrder := []
  decoderSlot := false
  queue := []
  tx := none
  claims := []
  discards := 0
  reset := none

/-- An IDLE bank (R92). -/
def Bank.idle : Bank := ⟨.idle, false⟩

/-- A die after power-on reset (R113, R133, R146). -/
def Die.reset0 : Die where
  state := .unpowered
  activity := .none
  holdRefresh := false
  holdCal := false
  driftHold := false
  debt := 0
  timer := none
  hot := false
  path := .free
  restTarget := .none
  overruns := 0
  banks := Vector.replicate 8 Bank.idle

/-- The defaults of R110. -/
def defaultTiming : TimingFields := ⟨10, 10, 12, 8, 3120, 84, 256, 1024, 30, 1⟩

/-- The defaults of R131. -/
def defaultMonitor : MonitorFields := ⟨100, 85, 60, 12, 400, 1000⟩

/-- The defaults of R150. -/
def defaultPort : PortFields := ⟨4, 8, 2, 2, 1, 0, 63, 8, 4096⟩

/-- The array controller after power-on reset (R113). -/
def ArrayCtl.reset0 : ArrayCtl where
  dies := Vector.replicate 2 Die.reset0
  queue := []
  waiting := []
  timing := defaultTiming
  load := none
  startTag := none
  power := none

/-- The monitor after power-on reset, its first supply sample being `supply` (R133). -/
def Monitor.reset0 (supply : Nat) : Monitor where
  settings := defaultMonitor
  supply := supply
  sinceMs := 0
  subMs := 0
  dies := Vector.replicate 2 ⟨none, none, 0, none⟩
  reference := none
  made := 0

/-- The port after power-on reset (R169). -/
def Port.reset0 : Port where
  settings := defaultPort
  lastDir := .read
  transfer := none
  op := none

/-- The supply sample of `State.reset`: VDRAM's typical 1.20 V. DESIGN CHOICE, unsafe (log 8): R133 has the sample
measured, the manual cannot say what it gives. -/
def resetSupply : Nat := 1200

/-- The machine right after power-on reset (R186, R23, R46, R61, R87, R113, R133, R146, R169). -/
def State.reset : State where
  pending := []
  link := .reset0
  table := []
  dir := Vector.replicate 32 Entry.free
  fetches := []
  drops := []
  ctxs := Vector.replicate 4 none
  arr := .reset0
  mon := .reset0 resetSupply
  port := .reset0
  mem := []
  freeDraws := 0

end Sys2Proof.Machine
end

