-- ==== Sys2Proof/Machine/Ops.lean ====
section
/-! DEFINITION. The named operations on State that every block shares: the updates of one field, the array's memory, the
outbound queue and its slots, the access queue, and the moments that several blocks wait for. -/

namespace Sys2Proof.Machine

/-- What a command answers; every row answers a next state (log 3). -/
abbrev Answer : Type := Host.Outcome State Fault Refusal

/-! ### One update per part of the state -/

def State.modLink (f : Link → Link) (s : State) : State := { s with link := f s.link }
def State.setTable (t : List TableEntry) (s : State) : State := { s with table := t }
def State.setEntry (i : Fin 32) (e : Entry) (s : State) : State := { s with dir := s.dir.set i e }
def State.setFetches (l : List Fetch) (s : State) : State := { s with fetches := l }
def State.setDrops (l : List DropOp) (s : State) : State := { s with drops := l }
def State.setCtx (k : Fin 4) (c : Option Ctx) (s : State) : State := { s with ctxs := s.ctxs.set k c }
def State.modArr (f : ArrayCtl → ArrayCtl) (s : State) : State := { s with arr := f s.arr }
def State.modMon (f : Monitor → Monitor) (s : State) : State := { s with mon := f s.mon }
def State.modPort (f : Port → Port) (s : State) : State := { s with port := f s.port }
def State.setMem (m : List Host.Cell) (s : State) : State := { s with mem := m }

/-- The entry of a series id. -/
def State.entry (s : State) (i : Fin 32) : Entry := s.dir[i]
/-- The record of a die. -/
def State.die (s : State) (d : Fin 2) : Die := s.arr.dies[d]
/-- The record of a bank. -/
def State.bank (s : State) (d : Fin 2) (b : Fin 8) : Bank := (s.die d).banks[b]
/-- A scan context; `none` is FREE. -/
def State.ctx (s : State) (k : Fin 4) : Option Ctx := s.ctxs[k]
/-- What the monitor keeps for a die. -/
def State.dieMon (s : State) (d : Fin 2) : DieMonitor := s.mon.dies[d]

def State.setDie (d : Fin 2) (x : Die) (s : State) : State := s.modArr fun a => { a with dies := a.dies.set d x }
def State.setBank (d : Fin 2) (b : Fin 8) (x : Bank) (s : State) : State :=
  s.setDie d { s.die d with banks := (s.die d).banks.set b x }
def State.setDieMon (d : Fin 2) (x : DieMonitor) (s : State) : State := s.modMon fun m => { m with dies := m.dies.set d x }
def State.setQueues (queue waiting : List Txn) (s : State) : State :=
  s.modArr fun a => { a with queue := queue, waiting := waiting }

/-- The two dies, the eight banks, the four contexts and the 32 series ids, in number order. -/
def allDies : List (Fin 2) := [0, 1]
def allBanks : List (Fin 8) := [0, 1, 2, 3, 4, 5, 6, 7]
def allCtxs : List (Fin 4) := [0, 1, 2, 3]
def allSeries : List (Fin 32) := List.finRange 32

/-- Do `f` for each element, in list order. -/
def forEach {α : Type} (l : List α) (f : α → State → State) (s : State) : State := l.foldl (fun t a => f a t) s

/-! ### A free order (log 6) -/

/-- The order that `choice` picks among all orders of a list. -/
def shuffle {α : Type} : Nat → Nat → List α → List α
  | 0, _, l => l
  | _ + 1, _, [] => []
  | n + 1, choice, x :: xs =>
    let l := x :: xs
    let i := choice % l.length
    l.getD i x :: shuffle n (choice / l.length) (l.eraseIdx i)

/-- The elements in an order that nothing constrains; one element or none needs no draw (log 6). -/
def State.freely {α : Type} (l : List α) (s : State) : List α × State :=
  if l.length ≤ 1 then (l, s)
  else (shuffle l.length (Config.freeOrder s.freeDraws) l, { s with freeDraws := s.freeDraws + 1 })

/-! ### The array's memory (R7, R8, R190) -/

/-- What an array byte reads as that nothing has written. DESIGN CHOICE, unsafe (log 9). -/
def Memory.blank : Byte := 0

/-- The byte at an address. -/
def Memory.read : List Host.Cell → Nat → Byte
  | [], _ => Memory.blank
  | c :: m, a => if c.1 = a then c.2 else Memory.read m a

/-- Put a cell in front, unless it holds what an unlisted address reads as. -/
def Memory.cons (a : Nat) (v : Byte) (m : List Host.Cell) : List Host.Cell :=
  if v = Memory.blank then m else (a, v) :: m

/-- The memory with one byte written, in canonical form again. -/
def Memory.write : List Host.Cell → Nat → Byte → List Host.Cell
  | [], a, v => Memory.cons a v []
  | c :: m, a, v =>
    if a < c.1 then Memory.cons a v (c :: m)
    else if a = c.1 then Memory.cons a v m
    else c :: Memory.write m a v

/-- The canonical form: addresses strictly rising, no byte listed that an unlisted address reads as. -/
abbrev Memory.wf (m : List Host.Cell) : Prop :=
  m.Pairwise (fun x y => x.1 < y.1) ∧ ∀ c ∈ m, c.2 ≠ Memory.blank

/-- `n` bytes from an address on. -/
def Memory.readBytes (m : List Host.Cell) : Nat → Nat → List Byte
  | _, 0 => []
  | a, n + 1 => Memory.read m a :: Memory.readBytes m (a + 1) n

/-- Bytes written from an address on. -/
def Memory.writeBytes (m : List Host.Cell) : Nat → List Byte → List Host.Cell
  | _, [] => m
  | a, b :: bs => Memory.writeBytes (Memory.write m a b) (a + 1) bs

/-- The bytes of one die: 16,384 rows of 8 banks of 64 slots of 32 bytes (R7). -/
def dieBytes : Nat := 268435456

/-- The address of a place's first slot (R7, R8). -/
def Place.address (p : Place) (d : Fin 2) : Nat :=
  ((((d.val * 16384 + p.row) * 8 + p.bank.val) * 64) + p.slot) * 32

/-- The records of a place as the row holds them (R97, R190). -/
def Memory.records (m : List Host.Cell) (d : Fin 2) (p : Place) : List Record :=
  recordsOf p.count (Memory.readBytes m (p.address d) (p.count * 32))

/-- The memory with records written from a place's first slot on (R97, R190). -/
def Memory.putRecords (m : List Host.Cell) (d : Fin 2) (p : Place) (rs : List Record) : List Host.Cell :=
  Memory.writeBytes m (p.address d) (recordsBytes rs)

/-- The memory with the contents of one die gone (R144). -/
def Memory.forgetDie (m : List Host.Cell) (d : Fin 2) : List Host.Cell :=
  m.filter fun c => c.1 / dieBytes ≠ d.val

/-! ### Codes and frames (R180, R189, chapter 10.6) -/

/-- The code of a result. -/
def Result.code : Result → Byte
  | .ok => 0
  | .unknownKind => 1
  | .badLength => 2
  | .badValue => 3
  | .tagInUse => 4
  | .tableFull => 5
  | .busy => 6
  | .state => 7
  | .notReady => 8
  | .noSeries => 10
  | .seriesExists => 11
  | .overlap => 12
  | .noMemory => 13
  | .sealed => 14
  | .lost => 15
  | .full => 16
  | .order => 17
  | .seqExhausted => 18
  | .range => 19
  | .overtaken => 20
  | .badFilter => 21
  | .cancelled => 22
  | .seriesGone => 23
  | .notCancellable => 24
  | .unknownTag => 25
  | .portTimeout => 26
  | .imageTooLarge => 27
  | .imageIncomplete => 28
  | .imageDamaged => 29

/-- The code of an outbound kind. -/
def OutKind.code : OutKind → Byte
  | .response => 0x80
  | .hits => 0x81
  | .notice => 0x82

/-- The code of a die state. -/
def DieState.code : DieState → Byte
  | .unpowered => 0
  | .initializing => 1
  | .ready => 2
  | .waking => 3
  | .resting => 4
  | .off => 5
  | .missing => 6

/-- The code of a series state. -/
def SeriesState.code : SeriesState → Byte
  | .free => 0
  | .opened => 1
  | .sealed => 2
  | .dropping => 3
  | .lost => 4
  | .recovering => 5

/-- The code of a policy. -/
def Policy.code : Policy → Byte
  | .wrap => 0
  | .halt => 1

/-- The code of a calibration kind. -/
def CalKind.code : CalKind → Byte
  | .short => 0
  | .long => 1

/-- A flag as the part writes it (R187). -/
def flagByte (b : Bool) : Byte := if b then 1 else 0

/-- A temperature, signed two's complement (R187). -/
def temperatureByte (t : Int) : Byte := BitVec.ofInt 8 t

/-- A RESPONSE frame of an admitted request: kind, result, fields (R189). -/
def Frame.response (tag : Byte) (k : Kind) (r : Result) (fields : List Byte) : Frame :=
  ⟨.response, tag, k.code :: r.code :: fields, none⟩

/-- A refusal at the frame checks: tag 0, kind byte, result, tag byte as received (R179, R189). -/
def Frame.checkRefusal (kindByte tagByte : Byte) (r : Result) : Frame :=
  ⟨.response, 0, [kindByte, r.code, tagByte], none⟩

/-- A HITS frame: the entry count, then 4 bytes of sequence number and the record for each entry (R190). -/
def Frame.hits (tag : Byte) (hits : List Hit) : Frame :=
  ⟨.hits, tag, BitVec.ofNat 8 hits.length :: hits.flatMap fun h => leBytes 4 h.number ++ recordBytes h.record, none⟩

/-- A NOTICE frame: notice kind, die or 0xFF, and a 2-byte value (R190). -/
def Frame.notice (kindCode die : Byte) (value : List Byte) : Frame := ⟨.notice, 0, [kindCode, die] ++ value, none⟩

/-- The die states that STATE refusals and POWER responses carry (R189). -/
def State.dieStates (s : State) : List Byte := [(s.die 0).state.code, (s.die 1).state.code]

/-! ### The request table (R180) -/

/-- The block that owns the requests of a kind (R180). -/
def ownerOf : Kind → Owner
  | .identify | .status | .setLink | .cancel | .reset => .linkAndTable
  | .create | .seal | .drop | .describe | .append | .fetch => .storeUnit
  | .scan => .scanEngine
  | .startArray | .setArrayTiming | .power => .arrayController
  | .setMonitor | .calibrate => .monitor
  | .setPreservePort | .preserve | .recover => .preservePort

/-- The entry that a request of a kind takes at its admission (R179, R180). -/
def TableEntry.admitted (tag : Byte) (k : Kind) : TableEntry := ⟨tag, k, ownerOf k, .working⟩

/-! ### Outbound slots, responses and notices (R175 to R180) -/

/-- The frames queued (R176). -/
def State.queued (s : State) : Nat := s.link.queue.length
/-- The reservations outstanding (R176): one per table entry. -/
def State.reserved (s : State) : Nat := s.table.length
/-- The slot the decoder has in hand, if any (R179). -/
def State.inHand (s : State) : Nat := if s.link.decoderSlot then 1 else 0
/-- The slots that can be granted: those not queued, not reserved and not in the decoder's hand (R176). -/
def State.freeSlots (s : State) : Nat := 32 - (s.queued + s.reserved + s.inHand)

/-- A frame enters the outbound queue at its tail (R175). -/
def State.enqueue (f : Frame) (s : State) : State := s.modLink fun l => { l with queue := l.queue ++ [f] }

/-- The entry that holds a tag (R180). -/
def State.entryOf (s : State) (tag : Byte) : Option TableEntry := s.table.find? fun e => e.tag == tag

/-- The entry of a tag is released (R180). -/
def State.release (tag : Byte) (s : State) : State := s.setTable (s.table.filter fun e => e.tag != tag)

/-- The entry of a tag becomes ENDING (R180). -/
def State.markEnding (tag : Byte) (s : State) : State :=
  s.setTable (s.table.map fun e => if e.tag == tag then { e with state := .ending } else e)

/-- The final response of an admitted request: it uses the reservation, and the entry is released (R176, R180). -/
def State.respond (tag : Byte) (k : Kind) (r : Result) (fields : List Byte) (s : State) : State :=
  (s.enqueue (Frame.response tag k r fields)).release tag

/-- A BAD_VALUE refusal; `index` is the setting's, or 0xFF for any other field (R189). -/
def State.badValue (tag : Byte) (k : Kind) (index : Byte) (s : State) : State := s.respond tag k .badValue [index]

/-- Whether a notice flag is set: its claim waits (R178, log 25). -/
def State.noticePending (s : State) (n : Notice) : Bool := s.link.claims.contains (.notice n)

/-- The NOTICE frame of a notice, with the values of this moment (R178, R190). -/
def State.noticeFrame (s : State) : Notice → Frame
  | .linkError => Frame.notice 0 0xFF (leBytes 2 s.link.discards)
  | .hot d => Frame.notice 1 (BitVec.ofNat 8 d.val) (fieldBytes (BitVec.ofInt 16 ((s.dieMon d).temp.getD 0)))
  | .calOverdue d => Frame.notice 2 (BitVec.ofNat 8 d.val) (leBytes 2 (s.dieMon d).drift)
  | .refreshMissed d => Frame.notice 3 (BitVec.ofNat 8 d.val) (leBytes 2 (s.die d).overruns)

/-- The count a notice has carried returns to 0 (R174, R118). -/
def State.noticeSent (n : Notice) (s : State) : State :=
  match n with
  | .linkError => s.modLink fun l => { l with discards := 0 }
  | .refreshMissed d => s.setDie d { s.die d with overruns := 0 }
  | .hot _ => s
  | .calOverdue _ => s

/-- The notice is queued (R178). -/
def State.queueNotice (n : Notice) (s : State) : State := (s.enqueue (s.noticeFrame n)).noticeSent n

/-- A claim joins the waiting claims, once (R177). -/
def State.waitForSlot (c : Claimant) (s : State) : State :=
  if s.link.claims.contains c then s else s.modLink fun l => { l with claims := l.claims ++ [c] }

/-- A notice is made pending: queued at once when a slot is free, else one claim waits (R177, R178). -/
def State.raise (n : Notice) (s : State) : State :=
  if s.noticePending n then s else if 0 < s.freeSlots then s.queueNotice n else s.waitForSlot (.notice n)

/-- A discard is counted (R174). -/
def State.countDiscard (s : State) : State :=
  s.modLink fun l => { l with discards := if l.discards < 65535 then l.discards + 1 else 65535 }

/-! ### Banks, dies and the access queue (R92 to R98, R140) -/

/-- The open row of a bank, while OPENING or OPEN (R92). -/
def Bank.row (b : Bank) : Option Nat :=
  match b.state with
  | .opening r => some r
  | .opened r => some r
  | .idle => none
  | .closing => none

/-- Every bank of the die is IDLE (R103). -/
def Die.allIdle (x : Die) : Bool := allBanks.all fun b => x.banks[b].state == .idle

/-- READY, RESTING or WAKING, and not on the way to OFF (R20, R25, R33, R65, R162 with R143). -/
def Die.usable (x : Die) : Bool :=
  (x.state == .ready || x.state == .resting || x.state == .waking) && x.restTarget != .deep

/-- A RESTING die begins to wake (R140). -/
def State.beginWake (d : Fin 2) (s : State) : State :=
  if (s.die d).state = .resting then
    s.setDie d { s.die d with
      state := .waking, activity := .none, banks := Vector.replicate 8 Bank.idle, timer := none, debt := 0 }
  else s

/-- A transaction is issued: it enters the queue while there is a place, else it joins the waiting list (R95). A
transaction of array work wakes a RESTING die (R140); monitor status reads never do. -/
def State.issue (t : Txn) (s : State) : State :=
  let s := if s.arr.queue.length < 32 then s.setQueues (s.arr.queue ++ [t]) s.arr.waiting
    else s.setQueues s.arr.queue (s.arr.waiting ++ [t])
  if t.origin = .statusRead then s else s.beginWake t.die

/-- Places that have become free take the head of the waiting list (R95). -/
def State.refill (s : State) : State :=
  let n := 32 - s.arr.queue.length
  s.setQueues (s.arr.queue ++ s.arr.waiting.take n) (s.arr.waiting.drop n)

/-- Work ends: its WAITING transactions leave the queue and the waiting list, and its ISSUED ones will complete with
their completions discarded (R98). -/
def State.withdraw (mine : Txn → Bool) (s : State) : State :=
  let kept := s.arr.queue.filter fun t => !(mine t && !t.issued)
  (s.setQueues (kept.map fun t => if mine t then { t with live := false } else t)
    (s.arr.waiting.filter fun t => !mine t)).refill

/-- The bank of a transaction, if it has one (R94). -/
def Txn.bank (t : Txn) : Option (Fin 8) := t.place.map Place.bank

/-- Whether a transaction is for a bank. -/
def Txn.isFor (t : Txn) (d : Fin 2) (b : Fin 8) : Bool := t.die == d && t.bank == some b

/-- A monitor status read of a die: no bank (R101). -/
def Txn.isStatus (t : Txn) (d : Fin 2) : Bool := t.die == d && t.origin == .statusRead && t.bank == none

/-- The ISSUED transaction of a bank; there is at most one (R96). -/
def State.issuedAt (s : State) (d : Fin 2) (b : Fin 8) : Option Txn :=
  s.arr.queue.find? fun t => t.issued && t.isFor d b

/-- The ISSUED status read of a die (R101). -/
def State.issuedStatus (s : State) (d : Fin 2) : Option Txn :=
  s.arr.queue.find? fun t => t.issued && t.isStatus d

/-- The first transaction that fits leaves the queue, and the waiting list moves up (R95, R97). -/
def State.leaveQueue (fits : Txn → Bool) (s : State) : State :=
  (s.setQueues (s.arr.queue.eraseP fits) s.arr.waiting).refill

/-- A read of a bank completes: the transaction leaves the queue (R97). -/
def State.completeRead (d : Fin 2) (b : Fin 8) (s : State) : State :=
  s.leaveQueue fun t => t.issued && t.isFor d b

/-- A write of a bank completes: its data is in the array, the command path is free, write recovery runs, and the
transaction leaves the queue (R93, R97). -/
def State.completeWrite (d : Fin 2) (b : Fin 8) (t : Txn) (s : State) : State :=
  let s := match t.place with
    | some p => s.setMem (Memory.putRecords s.mem d p t.data)
    | none => s
  let s := s.setDie d { s.die d with path := .free }
  let s := s.setBank d b { s.bank d b with recovering := true }
  s.leaveQueue fun t => t.issued && t.isFor d b

/-- A transaction for the die is WAITING, or waits for room (R116, R137). -/
def State.workFor (s : State) (d : Fin 2) : Bool :=
  s.arr.queue.any (fun t => !t.issued && t.die == d) || s.arr.waiting.any fun t => t.die == d

/-! ### What a transaction belongs to -/

/-- A read or probe of context `k`. -/
def Origin.ofCtx (o : Origin) (k : Fin 4) : Bool :=
  match o with
  | .scanRow j _ => j == k
  | .edgeProbe j _ => j == k
  | .binaryProbe j _ => j == k
  | _ => false

/-- A transaction of the image operation. -/
def Origin.ofImage : Origin → Bool
  | .preserveRead _ _ => true
  | .recoverWrite => true
  | _ => false

/-- A write of a batch of the series. -/
def Origin.ofBatches (o : Origin) (i : Fin 32) : Bool :=
  match o with
  | .batch j _ => j == i
  | _ => false

/-- A read of the fetch with this tag. -/
def Origin.ofFetch (o : Origin) (tag : Byte) : Bool :=
  match o with
  | .fetch t _ => t == tag
  | _ => false

/-- A read or probe of context `k` is ISSUED (R82). -/
def State.ctxIssued (s : State) (k : Fin 4) : Bool := s.arr.queue.any fun t => t.issued && t.origin.ofCtx k

/-- A transaction of the image operation is ISSUED (R156). -/
def State.imageIssued (s : State) : Bool := s.arr.queue.any fun t => t.issued && t.origin.ofImage

/-- An ISSUED transaction of request work remains (R114, log 18). -/
def State.requestWorkIssued (s : State) : Bool := s.arr.queue.any fun t => t.issued && t.origin != .statusRead

/-- A port access is under way (R155). -/
def Port.accessing (p : Port) : Bool :=
  match p.transfer with
  | some t => t.begun
  | none => false

/-! ### Moments that requests wait for -/

/-- The RESET response, once nothing discarded is ISSUED and no port access runs (R183). -/
def State.checkReset (s : State) : State :=
  match s.link.reset with
  | none => s
  | some r =>
    if s.requestWorkIssued || s.port.accessing then s
    else
      (s.respond r.tag .reset .ok [BitVec.ofNat 8 r.entriesRemoved, BitVec.ofNat 8 r.framesRemoved]).modLink fun l =>
        { l with reset := none, bufs := Vector.replicate 2 ⟨.free, []⟩ }

/-- The moment of the response of a POWER of a level (R136, R142, R144). -/
def State.powerDone (s : State) (level : PowerLevel) : Bool :=
  match level with
  | .run => allDies.all fun d => (s.die d).state != .resting && (s.die d).state != .waking
  | .rest => allDies.all fun d => (s.die d).restTarget != .rest
  | .deep => allDies.all fun d => (s.die d).restTarget != .deep

/-- The POWER response, once its moment has come (R136, R142, R144). -/
def State.checkPower (s : State) : State :=
  match s.arr.power with
  | none => s
  | some p =>
    if s.powerDone p.level then (s.respond p.tag .power .ok s.dieStates).modArr fun a => { a with power := none } else s

/-- A reference is fitted (R110). -/
def ArrayCtl.fitted (a : ArrayCtl) : Bool := a.timing.referenceFitted == 1

/-- The outcome of a die in the START_ARRAY response: state, and the calibration outcome of a READY die (R109, R187). -/
def State.startOutcome (s : State) (d : Fin 2) : List Byte :=
  [(s.die d).state.code,
    if (s.die d).state = .ready then (if s.arr.fitted then 0 else 1) else 0xFF]

/-- The START_ARRAY response, once each die is READY or MISSING (R109). -/
def State.checkStart (s : State) : State :=
  match s.arr.startTag with
  | none => s
  | some tag =>
    if allDies.all fun d => (s.die d).state == .ready || (s.die d).state == .missing then
      (s.respond tag .startArray .ok (s.startOutcome 0 ++ s.startOutcome 1)).modArr fun a => { a with startTag := none }
    else s

end Sys2Proof.Machine
end

