-- ==== Sys2Proof/Machine/Operands.lean ====
section
/-! DEFINITION. What the fields of requests and entries mean: series ids and codes, the places of records (R6 to R9), the
dies a series lies on, and the ranges of settings (R110, R111, R131, R150, R151). -/

namespace Sys2Proof.Machine

/-! ### Codes that a payload carries (R188, chapter 10.6) -/

/-- A series id from 0 to 31. -/
def seriesOf (b : Byte) : Option (Fin 32) := if h : b.toNat < 32 then some ⟨b.toNat, h⟩ else none

/-- A die, 0 or 1. -/
def dieOf (b : Byte) : Option (Fin 2) := if h : b.toNat < 2 then some ⟨b.toNat, h⟩ else none

/-- A bit rate code, 0 to 4 (R170). -/
def rateOf (b : Byte) : Option (Fin 5) := if h : b.toNat < 5 then some ⟨b.toNat, h⟩ else none

/-- The bit rate of a code, in bits per second (R170). -/
def bitRate (r : Fin 5) : Nat :=
  match r with
  | 0 => 115200
  | 1 => 460800
  | 2 => 1000000
  | 3 => 3000000
  | 4 => 6000000

def policyOf (b : Byte) : Option Policy :=
  match b.toNat with
  | 0 => some .wrap
  | 1 => some .halt
  | _ => none

def calKindOf (b : Byte) : Option CalKind :=
  match b.toNat with
  | 0 => some .short
  | 1 => some .long
  | _ => none

def levelOf (b : Byte) : Option PowerLevel :=
  match b.toNat with
  | 0 => some .run
  | 1 => some .rest
  | 2 => some .deep
  | _ => none

def PowerLevel.code : PowerLevel → Byte
  | .run => 0
  | .rest => 1
  | .deep => 2

def modeOf (b : Byte) : Option ScanMode :=
  match b.toNat with
  | 0 => some .list
  | 1 => some .count
  | _ => none

/-- An optional field: its presence byte is 0 for absent, any other value for present (R187). -/
def optional {α : Type} (presence : Byte) (v : α) : Option α := if presence = 0 then none else some v

/-! ### Places (R6 to R9) -/

/-- The capacity C (R6). -/
def Entry.capacity (e : Entry) : Nat := 512 * e.count

/-- The fill: reserved head less oldest (R6). -/
def Entry.fill (e : Entry) : Nat := e.reserved - e.oldest

/-- The ring position of a sequence number (R8). -/
def Entry.position (e : Entry) (q : Nat) : Nat := q % e.capacity

/-- The stripe of a sequence number (R8). -/
def Entry.stripe (e : Entry) (q : Nat) : Nat := e.base + e.position q / 512

/-- The die of a stripe (R7). -/
def stripeDie (stripe : Nat) : Fin 2 := if stripe < 16384 then 0 else 1

/-- The die of a sequence number (R8). -/
def Entry.dieOf (e : Entry) (q : Nat) : Fin 2 := stripeDie (e.stripe q)

/-- The bank of a ring position (R8). -/
def bankOfPosition (p : Nat) : Fin 8 := ⟨p % 512 / 64, by omega⟩

/-- Where `n` records from number `q` on lie, all in one row (R8). -/
def Entry.place (e : Entry) (q n : Nat) : Place where
  bank := bankOfPosition (e.position q)
  row := e.stripe q % 16384
  slot := e.position q % 64
  count := n

/-- How many records from number `q` on lie in the row of `q` (R9). -/
def Entry.roomInRow (e : Entry) (q : Nat) : Nat := 64 - e.position q % 64

/-- A run of at most 64 records, cut at the row boundary: one part or two, each a first number and a count (R9). -/
def Entry.cut (e : Entry) (q n : Nat) : List (Nat × Nat) :=
  if n ≤ e.roomInRow q then [(q, n)] else [(q, e.roomInRow q), (q + e.roomInRow q, n - e.roomInRow q)]

/-- A range of stripes has a stripe on a die (R7). -/
def rangeOnDie (base count : Nat) (d : Fin 2) : Bool :=
  if d = 0 then base < 16384 && 0 < count else 16384 < base + count && 0 < count

/-- The series has a stripe on the die (R7). -/
def Entry.onDie (e : Entry) (d : Fin 2) : Bool := rangeOnDie e.base e.count d

/-- Every die that holds a stripe of the range is usable (R20, R25, R33, R65, R157, R164). -/
def State.rangeUsable (s : State) (base count : Nat) : Bool :=
  allDies.all fun d => !rangeOnDie base count d || (s.die d).usable

/-- Two ranges of stripes share one (R15). -/
def rangesMeet (base count base' count' : Nat) : Bool :=
  base < base' + count' && base' < base + count && 0 < count && 0 < count'

/-- The lowest series id, other than `except`, whose stripes meet a range (R15, R20, R164). -/
def State.overlapping (s : State) (base count : Nat) (except : Option (Fin 32)) : Option (Fin 32) :=
  allSeries.find? fun i =>
    (s.entry i).state != .free && some i != except && rangesMeet base count (s.entry i).base (s.entry i).count

/-- The transaction for `n` records from number `q` on of a series (R8, R94). -/
def Entry.txn (e : Entry) (o : Origin) (dir : Dir) (q n : Nat) (data : List Record) : Txn where
  origin := o
  dir := dir
  die := e.dieOf q
  place := some (e.place q n)
  data := data
  issued := false
  passOver := 0
  live := true

/-- A monitor status read: a die and no bank (R101). -/
def statusTxn (d : Fin 2) : Txn where
  origin := .statusRead
  dir := .read
  die := d
  place := none
  data := []
  issued := false
  passOver := 0
  live := true

/-! ### Records as a series keeps them (R2) -/

/-- The canonical ABSENT and FAULTED codes (R47). -/
def absentCode : Lane := 0x7FC00000
def faultedCode : Lane := 0x7FA00000

/-- A record with its lanes from the lane count up replaced by the ABSENT code (R2). -/
def maskLanes (lanes : Nat) (r : Record) : Record :=
  { r with lanes := Vector.ofFn fun i : Fin 6 => if i.val < lanes then r.lanes[i] else absentCode }

/-! ### Settings (R110, R111, R131, R150, R151) -/

/-- The index of the first check that fails. -/
def firstFailing (checks : List Bool) : Option Nat := checks.findIdx? fun b => !b

/-- A number lies in a range. -/
def within (low high v : Nat) : Bool := low ≤ v && v ≤ high

/-- The index that refuses array timing settings: ranges first, then the two relations (R110, checks 3 to 5 of R111). -/
def timingFault (f : TimingFields) : Option Nat :=
  match firstFailing [within 4 31 f.openDelay.toNat, within 4 31 f.closeDelay.toNat, within 4 31 f.readLatency.toNat,
      within 2 31 f.writeRecovery.toNat, within 1000 16000 f.refreshInterval.toNat,
      within 40 400 f.refreshDuration.toNat, within 100 1000 f.shortCal.toNat, within 400 4000 f.longCal.toNat,
      within 10 200 f.wakeDelay.toNat, within 0 1 f.referenceFitted.toNat] with
  | some i => some i
  | none =>
    if f.longCal.toNat > 2 * f.refreshInterval.toNat then some 7
    else if f.shortCal.toNat > f.longCal.toNat then some 6
    else none

/-- The index that refuses monitor settings (R131). -/
def monitorFault (f : MonitorFields) : Option Nat :=
  firstFailing [within 10 1000 f.sampleInterval.toNat, within 60 105 f.hotThreshold.toNat, within 0 500 f.kT.toNat,
    within 0 500 f.kV.toNat, within 50 5000 f.dueThreshold.toNat,
    within (f.dueThreshold.toNat + 1) 10000 f.hardLimit.toNat]

/-- The index that refuses port settings (R150, checks 2 and 3 of R151). -/
def portFault (f : PortFields) : Option Nat :=
  match firstFailing [within 1 16 f.setup.toNat, within 1 64 f.strobe.toNat, within 1 16 f.hold.toNat,
      within 1 8 f.turnaround.toNat, within 0 1 f.waitEnable.toNat, within 0 1 f.waitPolarity.toNat,
      within 0 255 f.maxWaitCode.toNat, within 1 64 f.slotCount.toNat, within 2 63550 f.slotPages.toNat] with
  | some i => some i
  | none => if f.slotCount.toNat * f.slotPages.toNat > 63550 then some 8 else none

end Sys2Proof.Machine
end

