-- ==== Sys2Proof/Machine/Directory.lean ====
section
/-! DEFINITION. The changes of a directory entry that several blocks make: work in flight, becoming FREE, the end of a
DROP, commits, and the move to LOST as the entry sees it (R12 to R18, R29, R43). -/

namespace Sys2Proof.Machine

/-- A context not FREE on the series that did not end LOST (R13). -/
def ctxHolds (i : Fin 32) : Option Ctx → Bool
  | none => false
  | some c => c.series == i && c.endReason != some .lost

/-- A PRESERVE of the series is running (R13). -/
def Port.preserving (p : Port) (i : Fin 32) : Bool :=
  match p.op with
  | none => false
  | some op => op.kind == .preserve && op.series == i && !op.abandoned

/-- Work in flight on a series (R13). -/
def State.inFlight (s : State) (i : Fin 32) : Bool :=
  !(s.entry i).batches.isEmpty || s.fetches.any (fun f => f.series == i)
    || allCtxs.any (fun k => ctxHolds i (s.ctx k)) || s.port.preserving i || (s.entry i).state == .recovering

/-- The entry becomes FREE and releases its stripes (R18). -/
def State.freeEntry (i : Fin 32) (s : State) : State := s.setEntry i Entry.free

/-- When no work in flight remains on a DROPPING entry, it becomes FREE and its DROP answers OK (R43). -/
def State.checkDrop (i : Fin 32) (s : State) : State :=
  if (s.entry i).state = .dropping ∧ s.inFlight i = false then
    let s' := s.freeEntry i
    match s.drops.find? fun d => d.series == i with
    | none => s'
    | some d =>
      (s'.setDrops (s.drops.filter fun x => x.series != i)).respond d.tag .drop .ok [BitVec.ofNat 8 i.val]
  else s

/-- All writes of the batch have completed (R28). -/
def Batch.complete (b : Batch) : Bool := b.writes ≤ b.done

/-- The entry as a commit of its head batch leaves it (R29). -/
def Entry.commit (e : Entry) (b : Batch) (rest : List Batch) : Entry :=
  { e with committed := e.committed + b.count, lastCommitted := b.lastStamp, dirty := true, batches := rest }

/-- The fields of an APPEND's OK response (R29, R189). -/
def Batch.okFields (b : Batch) (i : Fin 32) : List Byte :=
  [BitVec.ofNat 8 i.val] ++ leBytes 4 b.first ++ [BitVec.ofNat 8 b.count]

/-- Commits from the head of the list while the head is complete, each with its response (R29, R30). The list given is
the entry's pending batch list. -/
def State.commits (i : Fin 32) : List Batch → State → State
  | [], s => s
  | b :: rest, s =>
    if b.complete then
      State.commits i rest ((s.setEntry i ((s.entry i).commit b rest)).respond b.tag .append .ok (b.okFields i))
    else s

/-- The entry after committing the leading complete batches, with the batches behind them (RESET, R24). -/
def Entry.commitLeading : Entry → List Batch → Entry × List Batch
  | e, [] => (e, [])
  | e, b :: rest => if b.complete then Entry.commitLeading (e.commit b rest) rest else (e, b :: rest)

/-- The entry as it enters LOST (R17). -/
def Entry.toLost (e : Entry) : Entry :=
  { e with state := .lost, batches := [], reserved := e.committed, lastReserved := e.lastCommitted }

/-- The entry as RESET leaves it, by its state (R24). -/
def Entry.afterReset (e : Entry) : Entry :=
  match e.state with
  | .opened | .sealed =>
    let (e', left) := e.commitLeading e.batches
    { e' with batches := [], reserved := e'.committed, lastReserved := e'.lastCommitted,
              dirty := e'.dirty || !left.isEmpty }
  | .dropping => Entry.free
  | .recovering => e.toLost
  | .free | .lost => e

/-- The claim of an entry on its preserve slot is gone, and the series counts as changed (R12, R151, R158). -/
def Entry.unclaim (e : Entry) : Entry := { e with image := none, dirty := true }

/-- Entries whose slot claim `hit` says is gone lose it (R151, R158). -/
def State.unclaimSlots (hit : SlotClaim → Bool) (s : State) : State :=
  forEach allSeries (fun i s =>
    match (s.entry i).image with
    | some c => if (s.entry i).state ≠ .free ∧ hit c then s.setEntry i (s.entry i).unclaim else s
    | none => s) s

/-- The state check of APPEND and SEAL (R19): the refusal, if any. -/
def refusalToWrite : SeriesState → Option Result
  | .opened => none
  | .free | .dropping => some .noSeries
  | .sealed => some .sealed
  | .lost => some .lost
  | .recovering => some .notReady

/-- The state check of FETCH, SCAN and PRESERVE (R19). -/
def refusalToRead : SeriesState → Option Result
  | .opened | .sealed => none
  | .free | .dropping => some .noSeries
  | .lost => some .lost
  | .recovering => some .notReady

/-- The state check of DROP (R19). -/
def refusalToDrop : SeriesState → Option Result
  | .opened | .sealed | .lost => none
  | .free | .dropping => some .noSeries
  | .recovering => some .notReady

end Sys2Proof.Machine
end

