-- ==== Sys2Proof/Machine/Flags.lean ====
section
/-! DEFINITION. Chapter 3: the class of a lane, the exact comparison, predicates and conditions, the test of one record
against a filter, and the checks a filter must pass. -/

namespace Sys2Proof.Machine

/-! ### Classes and values (R47, R48) -/

/-- The classes; TINY is within NUMBER, see `laneTiny` (R47). -/
inductive LaneClass where
  | number | absent | faulted
  deriving DecidableEq, Repr

/-- The exponent field (R47). -/
def laneExponent (p : Lane) : Nat := p.toNat / 8388608 % 256
/-- The fraction field (R47). -/
def laneFraction (p : Lane) : Nat := p.toNat % 8388608

/-- The class of a lane (R47). -/
def laneClass (p : Lane) : LaneClass :=
  if laneExponent p = 255 then
    if laneFraction p = 0 then .number
    else if 4194304 ≤ laneFraction p then .absent
    else .faulted
  else .number

/-- The lane is TINY (R47). -/
def laneTiny (p : Lane) : Bool := laneExponent p == 0 && laneFraction p != 0

/-- The magnitude of a NUMBER, times 2^149. An infinity takes the first power of two above every finite magnitude, so
that it lies beyond every finite value and equals itself (R48). -/
def laneMagnitude (p : Lane) : Nat :=
  if laneExponent p = 0 then laneFraction p else (8388608 + laneFraction p) * 2 ^ (laneExponent p - 1)

/-- The value of a NUMBER, times 2^149 (R48). Both zeros are 0. -/
def laneValue (p : Lane) : Int := if p.msb then -(laneMagnitude p : Int) else laneMagnitude p

/-! ### Predicates and conditions (R50, R55) -/

/-- The six comparing predicates (R50). -/
def Predicate.comparing : Predicate → Bool
  | .below | .notAbove | .above | .notBelow | .equal | .unequal => true
  | .missing | .present => false

/-- The four ordered predicates (R50). -/
def Predicate.ordered : Predicate → Bool
  | .below | .notAbove | .above | .notBelow => true
  | .equal | .unequal | .missing | .present => false

/-- A predicate on a NUMBER lane (R50). -/
def Predicate.onNumber (p : Predicate) (lane threshold : Lane) : Bool :=
  match p with
  | .below => laneValue lane < laneValue threshold
  | .notAbove => laneValue lane ≤ laneValue threshold
  | .above => laneValue threshold < laneValue lane
  | .notBelow => laneValue threshold ≤ laneValue lane
  | .equal => laneValue lane = laneValue threshold
  | .unequal => laneValue lane ≠ laneValue threshold
  | .missing => false
  | .present => true

/-- A predicate on a lane that is ABSENT or FAULTED (R50). -/
def Predicate.onMissing : Predicate → Bool
  | .unequal | .missing => true
  | .below | .notAbove | .above | .notBelow | .equal | .present => false

/-- The result of a term for a record (R50). -/
def Term.result (t : Term) (r : Record) : Bool :=
  match laneClass r.lanes[t.lane] with
  | .number => t.predicate.onNumber r.lanes[t.lane] t.threshold
  | .absent => t.predicate.onMissing
  | .faulted => t.predicate.onMissing

/-- No condition. -/
def Conditions.none : Conditions := ⟨false, false, false⟩
/-- Both sets together. -/
def Conditions.union (a b : Conditions) : Conditions := ⟨a.absent || b.absent, a.fault || b.fault, a.tiny || b.tiny⟩
/-- Some condition is in the set. -/
def Conditions.nonempty (c : Conditions) : Bool := c.absent || c.fault || c.tiny
/-- The byte that stands for the set (R187). -/
def Conditions.byte (c : Conditions) : Byte :=
  (if c.absent then 1 else 0) + (if c.fault then 2 else 0) + (if c.tiny then 4 else 0)

/-- The conditions a term raises for a record (R55). -/
def Term.raises (t : Term) (r : Record) : Conditions where
  absent := t.predicate.ordered && laneClass r.lanes[t.lane] == .absent
  fault := t.predicate.comparing && laneClass r.lanes[t.lane] == .faulted
  tiny := t.predicate.comparing && laneTiny r.lanes[t.lane]

/-! ### The test of a record (R52 to R57) -/

/-- The record passes the source match (R53). -/
def Filter.sourceOk (f : Filter) (r : Record) : Bool :=
  match f.source with
  | some v => r.source == v
  | none => true

/-- The combine over all term results (R54). -/
def Filter.combined (f : Filter) (r : Record) : Bool :=
  match f.combine with
  | .all => f.terms.all fun t => t.result r
  | .any => f.terms.isEmpty || f.terms.any fun t => t.result r

/-- The conditions a record raises: every term is evaluated (R54, R55). -/
def Filter.raised (f : Filter) (r : Record) : Conditions :=
  f.terms.foldl (fun c t => c.union (t.raises r)) .none

/-- Those conditions that are unmasked (R57). -/
def Filter.unmasked (f : Filter) (c : Conditions) : Conditions :=
  ⟨c.absent && !f.maskAbsent, c.fault && !f.maskFault, c.tiny && !f.maskTiny⟩

/-- Those conditions that are masked (R56). -/
def Filter.masked (f : Filter) (c : Conditions) : Conditions :=
  ⟨c.absent && f.maskAbsent, c.fault && f.maskFault, c.tiny && f.maskTiny⟩

/-- The outcomes of a test: HIT and MISS hand over the masked conditions raised, STOP the unmasked ones (R52). -/
inductive TestOutcome where
  | mismatch
  | stop (unmasked : Conditions)
  | hit (masked : Conditions)
  | miss (masked : Conditions)
  deriving DecidableEq, Repr

/-- The test of one record against one filter (R52). -/
def Filter.test (f : Filter) (r : Record) : TestOutcome :=
  if !f.sourceOk r then .mismatch
  else if (f.unmasked (f.raised r)).nonempty then .stop (f.unmasked (f.raised r))
  else if f.combined r then .hit (f.masked (f.raised r))
  else .miss (f.masked (f.raised r))

/-! ### Filter checks (R51, R59, R60) -/

/-- The fault kinds of BAD_FILTER with the term index where there is one (R59). -/
inductive FilterFault where
  | termCount
  | combine
  | predicate (term : Nat)
  | lane (term : Nat)
  | threshold (term : Nat)
  deriving DecidableEq, Repr

/-- The two detail bytes of a BAD_FILTER refusal (R189). -/
def FilterFault.bytes : FilterFault → List Byte
  | .termCount => [0, 0xFF]
  | .combine => [1, 0xFF]
  | .predicate i => [2, BitVec.ofNat 8 i]
  | .lane i => [3, BitVec.ofNat 8 i]
  | .threshold i => [4, BitVec.ofNat 8 i]

/-- The predicate of a code (chapter 10.6). -/
def predicateOf (b : Byte) : Option Predicate :=
  match b.toNat with
  | 0 => some .below
  | 1 => some .notAbove
  | 2 => some .above
  | 3 => some .notBelow
  | 4 => some .equal
  | 5 => some .unequal
  | 6 => some .missing
  | 7 => some .present
  | _ => none

/-- The combine of a code (chapter 10.6). -/
def combineOf (b : Byte) : Option Combine :=
  match b.toNat with
  | 0 => some .all
  | 1 => some .any
  | _ => none

/-- Checks 3 to 5 of R59 for the term with index `i`, in a series with `lanes` lanes. -/
def checkTerm (lanes i : Nat) (t : TermPlace) : Except FilterFault Term :=
  match predicateOf t.predicate with
  | none => .error (.predicate i)
  | some p =>
    if h : t.lane.toNat < 6 then
      if t.lane.toNat < lanes then
        if p.comparing && laneClass t.threshold != .number then .error (.threshold i)
        else .ok ⟨⟨t.lane.toNat, h⟩, p, t.threshold⟩
      else .error (.lane i)
    else .error (.lane i)

/-- The terms in list order, each checked in full before the next (R59). -/
def checkTerms (lanes : Nat) : Nat → List TermPlace → Except FilterFault (List Term)
  | _, [] => .ok []
  | i, t :: ts =>
    match checkTerm lanes i t with
    | .error e => .error e
    | .ok u =>
      match checkTerms lanes (i + 1) ts with
      | .error e => .error e
      | .ok us => .ok (u :: us)

/-- The filter checks (R59): the filter, or the fault that refuses the SCAN. -/
def checkFilter (f : ScanFields) (lanes : Nat) : Except FilterFault Filter :=
  if 4 < f.termCount.toNat then .error .termCount
  else
    match combineOf f.combine with
    | none => .error .combine
    | some c =>
      match checkTerms lanes 0 (f.terms.toList.take f.termCount.toNat) with
      | .error e => .error e
      | .ok terms =>
        .ok ⟨optional f.sourcePresence f.source, terms, c, f.maskAbsent ≠ 0, f.maskFault ≠ 0, f.maskTiny ≠ 0⟩

end Sys2Proof.Machine
end

