-- ==== Sys2Proof/Machine/ScanEngine.lean ====
section
/-! DEFINITION. The scan engine: contexts, range resolution, the stamp search, row reads, evaluation, hit frames and the
ends of a scan (R63 to R88). -/

namespace Sys2Proof.Machine

/-- A context in use changes. -/
def State.modCtx (k : Fin 4) (f : Ctx → Ctx) (s : State) : State :=
  match s.ctx k with
  | none => s
  | some c => s.setCtx k (some (f c))

/-- The code of a context's state (chapter 10.6). -/
def CtxState.code : CtxState → Byte
  | .resolving => 1
  | .searching => 2
  | .running => 3
  | .paused => 4
  | .draining => 5

/-- The code of an end reason (chapter 10.6). -/
def EndReason.code : EndReason → Byte
  | .endOfRange => 0
  | .hitLimit => 1
  | .stopped => 2
  | .cancelled => 3
  | .seriesGone => 4
  | .lost => 5

/-! ### The final response (R83) -/

/-- The range count of the report (R83). -/
def Ctx.rangeCount (c : Ctx) : Nat := if c.resolved then c.high + 1 - c.low else 0

/-- The scan report, from byte 2 of the payload (R83, R189). -/
def Ctx.report (c : Ctx) : List Byte :=
  [match c.endReason with | some r => r.code | none => 0]
    ++ leBytes 4 c.low ++ leBytes 4 c.rangeCount
    ++ [flagByte c.lastEval.isSome] ++ leBytes 4 (c.lastEval.getD 0)
    ++ leBytes 4 c.examined ++ leBytes 4 c.hitCount ++ leBytes 4 c.overtaken
    ++ leBytes 4 c.absents ++ leBytes 4 c.faults ++ leBytes 4 c.tinies
    ++ (match c.stop with
        | some d => leBytes 4 d.number ++ [d.conditions.byte]
        | none => leBytes 4 0 ++ [0])

/-- A DRAINING context with no read ISSUED and an empty hit buffer answers, is FREE again, and may let a DROP end (R82,
R83, R43). -/
def State.finishScan (k : Fin 4) (s : State) : State :=
  match s.ctx k with
  | none => s
  | some c =>
    if c.state = .draining ∧ c.hits = [] ∧ s.ctxIssued k = false then
      ((s.respond c.tag .scan .ok c.report).setCtx k none).checkDrop c.series
    else s

/-! ### Hit frames (R77, R78, R82) -/

/-- The hit buffer is queued as a HITS frame and is empty (R77). -/
def State.sendHits (k : Fin 4) (s : State) : State :=
  match s.ctx k with
  | none => s
  | some c => (s.enqueue (Frame.hits c.tag c.hits)).setCtx k (some { c with hits := [] })

/-- A full hit buffer claims a slot: the frame is queued, or the context is PAUSED (R77, R78). -/
def State.fullHits (k : Fin 4) (s : State) : State :=
  if 0 < s.freeSlots then s.sendHits k
  else (s.modCtx k fun c => { c with state := .paused }).waitForSlot (.scan k)

/-- The remaining hits of a DRAINING context claim a slot; a claim made in PAUSED is kept (R82). -/
def State.drainHits (k : Fin 4) (s : State) : State :=
  match s.ctx k with
  | none => s
  | some c =>
    if c.hits = [] ∨ s.link.claims.contains (.scan k) then s
    else if 0 < s.freeSlots then s.sendHits k
    else s.waitForSlot (.scan k)

/-! ### The end of a scan (R82) -/

/-- A context still in a search reports the search low as its resolved low (R71, R83). -/
def Ctx.lowAtEnd (c : Ctx) : Nat :=
  match c.state with
  | .resolving | .searching => c.searchLow
  | .running | .paused | .draining => c.low

/-- The context as it enters DRAINING with its end reason (R82). -/
def Ctx.drain (c : Ctx) (r : EndReason) : Ctx :=
  { c with state := .draining, endReason := some r, low := c.lowAtEnd, buf0 := none, buf1 := none }

/-- A scan ends: DRAINING, its reads withdrawn, its table entry ENDING, its hits sent when a slot is free, and its final
response when nothing is left to wait for (R82, R83). A DRAINING context keeps its reason (R84). -/
def State.endScan (k : Fin 4) (r : EndReason) (s : State) : State :=
  match s.ctx k with
  | none => s
  | some c =>
    if c.state = .draining then s
    else
      ((((s.setCtx k (some (c.drain r))).withdraw fun t => t.origin.ofCtx k).markEnding c.tag).drainHits k).finishScan k

/-! ### Row reads (R72) -/

/-- A row buffer of a context. -/
def Ctx.buf (c : Ctx) (second : Bool) : Option RowBuf := if second then c.buf1 else c.buf0
def Ctx.setBuf (c : Ctx) (second : Bool) (b : Option RowBuf) : Ctx :=
  if second then { c with buf1 := b } else { c with buf0 := b }

/-- The numbers that left the series unread are counted, and the read point is at oldest (R72). -/
def Ctx.passOvertaken (c : Ctx) (oldest : Nat) : Ctx :=
  if c.readPoint < oldest then
    { c with overtaken := c.overtaken + (min oldest (c.high + 1) - c.readPoint), readPoint := oldest }
  else c

/-- A row read into one buffer, if it is free and the read point allows (R72). -/
def State.readInto (k : Fin 4) (second : Bool) (s : State) : State :=
  match s.ctx k with
  | none => s
  | some c =>
    if (c.buf second).isSome ∨ c.high < c.readPoint then s
    else
      let e := s.entry c.series
      let c := c.passOvertaken e.oldest
      if c.high < c.readPoint then s.setCtx k (some c)
      else
        let q := c.readPoint
        let n := min (e.roomInRow q) (c.high + 1 - q)
        let c := ({ c with readPoint := q + n }).setBuf second (some ⟨q, q + n - 1, false, 0, []⟩)
        (s.setCtx k (some c)).issue (e.txn (.scanRow k second) .read q n [])

/-- Row reads into the free buffers (R72); where both are free buffer 0 takes the earlier span (log 39). -/
def State.issueReads (k : Fin 4) (s : State) : State := (s.readInto k false).readInto k true

/-! ### Evaluation (R74 to R76) -/

/-- The record passes the upper stamp of the range (R75). -/
def Ctx.pastUpper (c : Ctx) (r : Record) : Bool :=
  match c.range with
  | .stamp _ (some upper) => upper.toNat < r.stamp.toNat
  | .stamp _ none => false
  | .sequence _ _ => false

/-- The counts after a test of record `q` that gave MISMATCH, MISS or HIT (R58, R76). -/
def Ctx.counted (c : Ctx) (q : Nat) (m : Conditions) : Ctx :=
  { c with
    cursor := q + 1, examined := c.examined + 1, lastEval := some q
    absents := c.absents + m.absent.toNat, faults := c.faults + m.fault.toNat, tinies := c.tinies + m.tiny.toNat }

/-- The context with a hit added (R58, R76). -/
def Ctx.withHit (c : Ctx) (q : Nat) (r : Record) : Ctx :=
  { c with
    hitCount := c.hitCount + 1
    hits := match c.mode with
      | .list => c.hits ++ [⟨q, r⟩]
      | .count => c.hits }

/-- The hit limit is present and reached (R76). -/
def Ctx.limitReached (c : Ctx) : Bool :=
  match c.hitLimit with
  | some n => n ≤ c.hitCount
  | none => false

/-- One record of the range is evaluated (R75, R76). A 24th hit on the last record of the range claims its slot before the
end of the range is taken (log 35); a hit that reaches the limit ends the scan first (log 20). -/
def State.evalRecord (k : Fin 4) (q : Nat) (r : Record) (s : State) : State :=
  match s.ctx k with
  | none => s
  | some c =>
    if c.pastUpper r then s.endScan k .endOfRange
    else
      match c.filter.test r with
      | .mismatch => s.setCtx k (some (c.counted q .none))
      | .miss m => s.setCtx k (some (c.counted q m))
      | .stop u => (s.setCtx k (some { c with stop := some ⟨q, u⟩ })).endScan k .stopped
      | .hit m =>
        let c := (c.counted q m).withHit q r
        let s := s.setCtx k (some c)
        if c.limitReached then s.endScan k .hitLimit
        else if 24 ≤ c.hits.length then s.fullHits k
        else s

/-- The context is RUNNING. -/
def State.ctxRunning (s : State) (k : Fin 4) : Bool :=
  match s.ctx k with
  | some c => c.state == .running
  | none => false

/-- Records numbered from `q` on, one at a time, while the context is RUNNING (R74). -/
def State.evalRecords (k : Fin 4) : Nat → List Record → State → State
  | _, [], s => s
  | q, r :: rs, s => if s.ctxRunning k then State.evalRecords k (q + 1) rs (s.evalRecord k q r) else s

/-- The current buffer: of those in use, the one with the lower span (R74). -/
def Ctx.current (c : Ctx) : Option (Bool × RowBuf) :=
  match c.buf0, c.buf1 with
  | none, none => none
  | some b, none => some (false, b)
  | none, some b => some (true, b)
  | some a, some b => if a.first ≤ b.first then some (false, a) else some (true, b)

/-- The buffer just evaluated is free, the cursor is past its span (R74). -/
def Ctx.leaveBuf (c : Ctx) (second : Bool) (b : RowBuf) : Ctx :=
  ({ c with cursor := b.last + 1 }).setBuf second none

/-- Buffers are evaluated in sequence order as long as the current one is filled; each one left is read into again;
with none in use the range is done (R74). Two buffers can be filled, so four rounds are enough. Where a 24th hit is the last
record of its buffer and no slot is free, the pause comes before the buffer is left, which is then still in use and read into
only when the context runs again (R78; log 43, DESIGN CHOICE). -/
def State.evalBuffers (k : Fin 4) : Nat → State → State
  | 0, s => s
  | n + 1, s =>
    match s.ctx k with
    | none => s
    | some c =>
      if c.state ≠ .running then s
      else
        match c.current with
        | none => s.endScan k .endOfRange
        | some (second, b) =>
          let start := max c.cursor (b.first + b.skipped)
          let s := s.setCtx k (some { c with cursor := max c.cursor b.first })
          if b.filled = false then s
          else
            let s := s.evalRecords k start (b.records.drop (start - (b.first + b.skipped)))
            if s.ctxRunning k then
              State.evalBuffers k n ((s.modCtx k fun c => c.leaveBuf second b).issueReads k)
            else s

/-- The context evaluates as far as it can. -/
def State.evaluate (k : Fin 4) (s : State) : State := s.evalBuffers k 4

/-! ### The range (R66 to R71) -/

/-- The range has a start: the context enters RUNNING and issues its first reads (R67, R71, R72). -/
def State.startRange (k : Fin 4) (q : Nat) (s : State) : State :=
  ((s.modCtx k fun c => { c with
      state := .running, low := q, cursor := q, readPoint := q, resolved := true }).issueReads k).evaluate k

/-- An edge probe at the search low (R68, R69). -/
def State.probeEdge (k : Fin 4) (s : State) : State :=
  match s.ctx k with
  | none => s
  | some c =>
    (s.setCtx k (some { c with state := .resolving })).issue
      ((s.entry c.series).txn (.edgeProbe k c.searchLow) .read c.searchLow 1 [])

/-- A binary probe at the middle of the search span (R70). -/
def State.probeMiddle (k : Fin 4) (s : State) : State :=
  match s.ctx k with
  | none => s
  | some c =>
    let m := c.searchLow + (c.searchHigh - c.searchLow) / 2
    (s.setCtx k (some { c with state := .searching })).issue
      ((s.entry c.series).txn (.binaryProbe k m) .read m 1 [])

/-- The search goes on from its bounds: every candidate gone, the bounds met, or the next probe (R69 to R71). -/
def State.searchOn (k : Fin 4) (next : State → State) (s : State) : State :=
  match s.ctx k with
  | none => s
  | some c =>
    if c.searchHigh < c.searchLow then s.endScan k .endOfRange
    else if c.searchLow = c.searchHigh then s.startRange k c.searchHigh
    else next s

/-- The lower stamp of a STAMP range. -/
def Ctx.lower (c : Ctx) : Nat :=
  match c.range with
  | .stamp lower _ => lower.toNat
  | .sequence _ _ => 0

/-- The edge probe of number `q` has brought record `r` (R69). -/
def State.edgeProbed (k : Fin 4) (q : Nat) (r : Record) (s : State) : State :=
  match s.ctx k with
  | none => s
  | some c =>
    let oldest := (s.entry c.series).oldest
    if q < oldest then
      (s.setCtx k (some { c with searchLow := oldest })).searchOn k (State.probeEdge k)
    else if c.lower ≤ r.stamp.toNat then s.startRange k q
    else (s.setCtx k (some { c with searchLow := q + 1 })).searchOn k (State.probeMiddle k)

/-- A binary probe of number `m` has brought record `r` (R70, R71). -/
def State.binaryProbed (k : Fin 4) (m : Nat) (r : Record) (s : State) : State :=
  match s.ctx k with
  | none => s
  | some c =>
    let oldest := (s.entry c.series).oldest
    let c :=
      if m < oldest then { c with searchLow := oldest }
      else if c.lower ≤ r.stamp.toNat then { c with searchHigh := m }
      else { c with searchLow := m + 1 }
    (s.setCtx k (some c)).searchOn k (State.probeMiddle k)

/-- The range of a context just taken is resolved (R67, R68). `e` is the entry at admission. -/
def State.resolve (k : Fin 4) (e : Entry) (s : State) : State :=
  match s.ctx k with
  | none => s
  | some c =>
    match c.range with
    | .sequence first last =>
      let high := match last with
        | some l => min l (e.committed - 1)
        | none => e.committed - 1
      let empty := e.committed = e.oldest ∨ e.committed ≤ first ∨ (match last with
        | some l => decide (l < e.oldest)
        | none => false) = true
      let s := s.setCtx k (some { c with low := max first e.oldest, high := high })
      if empty then s.endScan k .endOfRange else s.startRange k (max first e.oldest)
    | .stamp lower _ =>
      if e.committed = e.oldest ∨ e.lastCommitted.toNat < lower.toNat then
        (s.setCtx k (some { c with low := e.committed, high := e.committed - 1 })).endScan k .endOfRange
      else
        (s.setCtx k (some { c with
          low := e.oldest, high := e.committed - 1, searchLow := e.oldest, searchHigh := e.committed - 1 })).searchOn k
          (State.probeEdge k)

/-! ### Admitting a SCAN (R65, R66) -/

/-- The bounds of a range, when check 4 of R65 accepts them (R65, R188). -/
def rangeOf (f : ScanFields) : Option RangeAsked :=
  match f.rangeKind.toNat with
  | 0 =>
    let last := (optional f.upperPresence f.upper).map BitVec.toNat
    let lastOk := match last with
      | some l => decide (l ≤ 4294967295 ∧ f.lower.toNat ≤ l)
      | none => true
    if f.lower.toNat ≤ 4294967295 ∧ lastOk = true then some (.sequence f.lower.toNat last) else none
  | 1 =>
    let upper := optional f.upperPresence f.upper
    let upperOk := match upper with
      | some u => decide (f.lower.toNat ≤ u.toNat)
      | none => true
    if upperOk = true then some (.stamp f.lower upper) else none
  | _ => none

/-- The lowest-numbered FREE context (R66). -/
def State.freeCtx (s : State) : Option (Fin 4) := allCtxs.find? fun k => (s.ctx k).isNone

/-- A context as SCAN takes it, its range not yet resolved (R66). -/
def Ctx.taken (tag : Byte) (i : Fin 32) (range : RangeAsked) (filter : Filter) (mode : ScanMode) (limit : Half) : Ctx where
  state := .running
  tag := tag
  series := i
  range := range
  low := 0
  high := 0
  resolved := false
  searchLow := 0
  searchHigh := 0
  filter := filter
  mode := mode
  hitLimit := if limit = 0 then none else some limit.toNat
  cursor := 0
  readPoint := 0
  buf0 := none
  buf1 := none
  hits := []
  examined := 0
  hitCount := 0
  overtaken := 0
  absents := 0
  faults := 0
  tinies := 0
  lastEval := none
  endReason := none
  stop := none

/-- SCAN, admitted under `tag` (R65, R66). -/
def takeScan (tag : Byte) (f : ScanFields) (s : State) : State :=
  match seriesOf f.series with
  | none => s.badValue tag .scan 0xFF
  | some i =>
    let e := s.entry i
    match refusalToRead e.state with
    | some r => s.respond tag .scan r []
    | none =>
      if s.rangeUsable e.base e.count = false then s.respond tag .scan .notReady []
      else
        match modeOf f.mode, rangeOf f with
        | some mode, some range =>
          match checkFilter f e.lanes with
          | .error x => s.respond tag .scan .badFilter x.bytes
          | .ok filter =>
            match s.freeCtx with
            | none => s.respond tag .scan .busy []
            | some k => (s.setCtx k (some (Ctx.taken tag i range filter mode f.hitLimit))).resolve k e
        | _, _ => s.badValue tag .scan 0xFF

/-! ### Completions of a context's reads (R69, R70, R73, R82) -/

/-- The buffer as its read fills it: the numbers below oldest are skipped (R73). -/
def RowBuf.fill (b : RowBuf) (oldest : Nat) (data : List Record) : RowBuf :=
  let skipped := min (oldest - b.first) (b.last + 1 - b.first)
  { b with filled := true, skipped := skipped, records := data.drop skipped }

/-- A row read of a context not ended has completed (R73). -/
def State.rowFilled (k : Fin 4) (second : Bool) (data : List Record) (s : State) : State :=
  match s.ctx k with
  | none => s
  | some c =>
    match c.buf second with
    | none => s
    | some b =>
      let b := b.fill (s.entry c.series).oldest data
      (s.setCtx k (some (({ c with overtaken := c.overtaken + b.skipped }).setBuf second (some b)))).evaluate k

/-- ROW_READ_COMPLETE (R73, R82, R97). -/
def rowReadComplete (d : Fin 2) (b : Fin 8) (s : State) : State :=
  match s.issuedAt d b with
  | none => s
  | some t =>
    match t.origin with
    | .scanRow k second =>
      let s := s.completeRead d b
      (if t.live then s.rowFilled k second t.data else s.finishScan k).checkReset
    | _ => s

/-- EDGE_PROBE_COMPLETE (R69, R82, R97). -/
def edgeProbeComplete (d : Fin 2) (b : Fin 8) (s : State) : State :=
  match s.issuedAt d b with
  | none => s
  | some t =>
    match t.origin, t.data with
    | .edgeProbe k q, r :: _ =>
      let s := s.completeRead d b
      (if t.live then s.edgeProbed k q r else s.finishScan k).checkReset
    | _, _ => s

/-- BINARY_PROBE_COMPLETE (R70, R82, R97). -/
def binaryProbeComplete (d : Fin 2) (b : Fin 8) (s : State) : State :=
  match s.issuedAt d b with
  | none => s
  | some t =>
    match t.origin, t.data with
    | .binaryProbe k m, r :: _ =>
      let s := s.completeRead d b
      (if t.live then s.binaryProbed k m r else s.finishScan k).checkReset
    | _, _ => s

/-! ### A slot granted to a context (R78, R82) -/

/-- The link grants the context's claim a free slot (R78, R82). -/
def State.grantScan (k : Fin 4) (s : State) : State :=
  match s.ctx k with
  | none => s
  | some c =>
    match c.state with
    | .paused => (((s.sendHits k).modCtx k fun c => { c with state := .running }).issueReads k).evaluate k
    | .draining => (s.sendHits k).finishScan k
    | .resolving | .searching | .running => s

/-! ### The rows of this family -/

/-- ROW_READ_COMPLETE (R73). -/
def execRowReadComplete (d : Fin 2) (b : Fin 8) (s : State) : Answer := .next (rowReadComplete d b s)

/-- EDGE_PROBE_COMPLETE (R69). -/
def execEdgeProbeComplete (d : Fin 2) (b : Fin 8) (s : State) : Answer := .next (edgeProbeComplete d b s)

/-- BINARY_PROBE_COMPLETE (R70). -/
def execBinaryProbeComplete (d : Fin 2) (b : Fin 8) (s : State) : Answer := .next (binaryProbeComplete d b s)

end Sys2Proof.Machine
end

