-- ==== Sys2Proof/Machine/LinkUnit.lean ====
section
/-! DEFINITION. The frame link: the receiver and its buffers, discards, the slot arbiter, the decoder's claim, and the
transmitter (R170 to R178, R182, R185). -/

namespace Sys2Proof.Machine

/-! ### Buffers and pins (R173) -/

def Link.buf (l : Link) (j : Fin 2) : InBuf := l.bufs[j]
def Link.setBuf (l : Link) (j : Fin 2) (b : InBuf) : Link := { l with bufs := l.bufs.set j b }

/-- The lower-numbered buffer in a state (log 11). -/
def Link.firstBuf (l : Link) (x : BufState) : Option (Fin 2) := [0, 1].find? fun j => (l.buf j).state == x

/-- The RDY output (R173). -/
def State.rdy (s : State) : Bool := (s.link.firstBuf .free).isSome && s.link.reset.isNone

/-- The receiver is inside a frame. -/
def RxState.inFrame : RxState → Bool
  | .header | .body | .check => true
  | .hunt | .skip => false

/-! ### Discards (R172, R174) -/

/-- The FILLING buffer, if any, is free again. -/
def Link.dropFilling (l : Link) : Link :=
  match l.firstBuf .filling with
  | some j => l.setBuf j ⟨.free, []⟩
  | none => l

/-- A discard: the buffer is free, the count rises, LINK_ERROR is made pending, the receiver goes on in `next` (R172,
R174). -/
def State.discard (next : RxState) (s : State) : State :=
  ((s.modLink fun l => { l.dropFilling with rx := next }).countDiscard).raise .linkError

/-! ### The decoder's claim (R177, R179) -/

/-- The frame is a RESET that passes checks 1 to 3 of R179, which needs no slot (R182). -/
def resetFrame (body : List Byte) : Bool :=
  match body with
  | [kind, tag] => kind == Kind.reset.code && tag != 0
  | _ => false

/-- The body of the oldest HELD frame (R173). -/
def State.oldestHeld (s : State) : Option (List Byte) := s.link.heldOrder.head?.map fun j => (s.link.buf j).bytes

/-- The decoder claims a slot for the oldest HELD frame, unless it has one in hand or the frame needs none (R177, R179). -/
def State.claimDecoder (s : State) : State :=
  match s.oldestHeld with
  | none => s
  | some body =>
    if resetFrame body ∨ s.link.decoderSlot = true then s
    else if 0 < s.freeSlots then s.modLink fun l => { l with decoderSlot := true }
    else s.waitForSlot .decoder

/-- A frame is complete in buffer `j`: it is HELD (R173), and claims a slot once it is the oldest (R179). -/
def State.hold (j : Fin 2) (body : List Byte) (s : State) : State :=
  (s.modLink fun l =>
    { l.setBuf j ⟨.held, body⟩ with rx := .hunt, heldOrder := l.heldOrder ++ [j] }).claimDecoder

/-! ### The receiver, byte by byte (R171, R172) -/

/-- The length field of a frame being received. -/
def frameLength (bytes : List Byte) : Nat := leNat (bytes.take 2)

/-- The check of a frame matches: over the length, the kind, the tag and the payload (R171). -/
def checkMatches (bytes : List Byte) : Bool :=
  let counted := bytes.take (2 + frameLength bytes)
  fieldAt 16 (bytes.drop (2 + frameLength bytes)) 0 == crc16 counted

/-- A byte is stored in the FILLING buffer, and the frame goes on, completes or is discarded (R172). -/
def State.store (j : Fin 2) (b : Byte) (s : State) : State :=
  let bytes := (s.link.buf j).bytes ++ [b]
  let s := s.modLink fun l => l.setBuf j ⟨.filling, bytes⟩
  let goOn (next : RxState) : State := s.modLink fun l => { l with rx := next }
  match s.link.rx with
  | .header =>
    if bytes.length < 2 then s
    else if within 2 1022 (frameLength bytes) then goOn .body
    else s.discard .skip
  | .body => if bytes.length < 2 + frameLength bytes then s else goOn .check
  | .check =>
    if bytes.length < 4 + frameLength bytes then s
    else if checkMatches bytes then s.hold j ((bytes.drop 2).take (frameLength bytes))
    else s.discard .skip
  | .hunt => s
  | .skip => s

/-- A start byte in HUNT (R172). -/
def State.startFrame (s : State) : State :=
  match s.link.firstBuf .free with
  | some j => s.modLink fun l => { l.setBuf j ⟨.filling, []⟩ with rx := .header }
  | none => s.discard .skip

/-- A byte on LRX (R172). -/
def State.rxByte (x : LineByte) (s : State) : State :=
  let s := s.modLink fun l => { l with rxIdle := 0 }
  match s.link.rx with
  | .hunt => if x.value = startByte ∧ x.framingError = false then s.startFrame else s
  | .skip => s
  | .header | .body | .check =>
    if x.framingError then s.discard .skip
    else
      match s.link.firstBuf .filling with
      | some j => s.store j x.value
      | none => s

/-- Bytes on LRX, one after the other (R172). -/
def State.rxBytes (xs : List LineByte) (s : State) : State := forEach xs State.rxByte s

/-- A gap of more than 32 byte-times (R172). -/
def State.gapTimeout (s : State) : State := if s.link.rx.inFrame then s.discard .hunt else s

/-- 32 byte-times with no byte in SKIP (R172). -/
def State.skipTimeout (s : State) : State :=
  if s.link.rx = .skip then s.modLink fun l => { l with rx := .hunt } else s

/-- A byte that arrives in SKIP (R172). -/
def byteInSkip (s : State) : State := if s.link.rx = .skip then s.modLink fun l => { l with rxIdle := 0 } else s

/-! ### The slot arbiter (R177, R178) -/

/-- A claim is granted a free slot (R177). -/
def State.grant (c : Claimant) (s : State) : State :=
  match c with
  | .decoder => s.modLink fun l => { l with decoderSlot := true }
  | .scan k => s.grantScan k
  | .notice n => s.queueNotice n

/-- Free slots go to the waiting claims in the order in which they were made (R177). At most 12 wait, and a claimant that
is granted may claim again. -/
def State.grantClaims : Nat → State → State
  | 0, s => s
  | n + 1, s =>
    match s.link.claims with
    | [] => s
    | c :: rest =>
      if 0 < s.freeSlots then State.grantClaims n ((s.modLink fun l => { l with claims := rest }).grant c) else s

/-- How many grants one change can need: 12 claims, and again for each of the four contexts (R177). -/
def grantRounds : Nat := 16

/-! ### The transmitter (R175, R185) -/

/-- The bytes of an outbound frame (R171). -/
def Frame.bytes (f : Frame) : List Byte := frameBytes (f.kind.code :: f.tag :: f.payload)

/-- The levels of LTX, bit time by bit time, for the frame on it; with none the line rests high (R170, R175). -/
def Link.txBits (l : Link) : List Bool := (l.tx.getD []).flatMap lineBits

/-- TRANSMIT_FRAME_START (R175); `hold` is the HOLD input. -/
def transmitFrameStart (hold : Bool) (s : State) : State :=
  match s.link.tx, s.link.queue, hold with
  | none, f :: _, false => s.modLink fun l => { l with tx := some f.bytes }
  | _, _, _ => s

/-- The change of rate that a marked response carries takes place (R185). -/
def State.changeRate (r : Fin 5) (s : State) : State :=
  let s := s.modLink fun l => { l with rate := r }
  if s.link.rx.inFrame then s.discard .skip else s

/-- FRAME_SENT (R175 to R178, R185). The freed slot is granted before the change of rate takes place (log 38). -/
def frameSent (s : State) : State :=
  match s.link.tx, s.link.queue with
  | some _, f :: rest =>
    let s := (s.modLink fun l => { l with queue := rest, tx := none }).grantClaims grantRounds
    match f.rateMark with
    | some r => s.changeRate r
    | none => s
  | _, _ => s

/-! ### The rows of this family -/

/-- FRAME_RECEIVED (R172). -/
def execFrameReceived (bytes : List LineByte) (s : State) : Answer := .next (s.rxBytes bytes)

/-- RECEIVE_GAP_TIMEOUT (R172). -/
def execReceiveGapTimeout (s : State) : Answer := .next (s.gapTimeout)

/-- SKIP_IDLE_TIMEOUT (R172). -/
def execSkipIdleTimeout (s : State) : Answer := .next (s.skipTimeout)

/-- BYTE_RECEIVED_IN_SKIP (R172): the byte is ignored whatever it is. -/
def execByteReceivedInSkip (_byte : LineByte) (s : State) : Answer := .next (byteInSkip s)

/-- TRANSMIT_FRAME_START (R175). -/
def execTransmitFrameStart (hold : Bool) (s : State) : Answer := .next (transmitFrameStart hold s)

/-- FRAME_SENT (R176). -/
def execFrameSent (s : State) : Answer := .next (frameSent s)

end Sys2Proof.Machine
end

