-- ==== Sys2Proof/Machine/ArrayControl.lean ====
section
/-! DEFINITION. The array controller: idle demands, each die's arbiter and its steps, the delays of the banks, and the
requests START_ARRAY and SET_ARRAY_TIMING (R89 to R114, R116). The outcome of an identity read is the monitor's file. -/

namespace Sys2Proof.Machine

/-! ### Idle demands (R103, R116, R135) -/

/-- A die that has a rest target is entering rest (R135). -/
def Die.enteringRest (x : Die) : Bool := x.restTarget != .none

/-- A READY die is due an opportunistic refresh (R116). -/
def State.dueRefresh (s : State) (d : Fin 2) : Bool :=
  let x := s.die d
  x.state == .ready && within 1 5 x.debt && !x.holdRefresh && !x.holdCal && !x.enteringRest && !s.workFor d

/-- The die has an idle demand (R103). -/
def State.idleDemand (s : State) (d : Fin 2) : Bool :=
  let x := s.die d
  x.holdRefresh || x.holdCal || x.driftHold || s.dueRefresh d || x.enteringRest

/-- A die whose arbiter or controller may begin something: READY, no activity, path free (R99, R104). -/
def Die.quiet (x : Die) : Bool := x.state == .ready && x.activity == .none && x.path == .free

/-- A drained die: quiet, every bank IDLE (R104). -/
def Die.drained (x : Die) : Bool := x.quiet && x.allIdle

/-! ### Eligible steps (R99, R101) -/

/-- The steps an arbiter takes for a bank (R99). -/
inductive BankStep where
  | openRow (row : Nat)
  | close
  | transfer
  deriving DecidableEq, Repr

/-- The head transaction of a bank: its oldest WAITING transaction (R96). -/
def State.headOf (s : State) (d : Fin 2) (b : Fin 8) : Option Txn := s.arr.queue.find? fun t => !t.issued && t.isFor d b

/-- The row a transaction is for. -/
def Txn.row (t : Txn) : Nat := (t.place.map Place.row).getD 0

/-- The bank's close step is eligible as far as the bank itself goes (R93). -/
def State.closable (s : State) (d : Fin 2) (b : Fin 8) : Bool := (s.issuedAt d b).isNone && !(s.bank d b).recovering

/-- The eligible step of a bank, if any (R99). -/
def State.bankStep (s : State) (d : Fin 2) (b : Fin 8) : Option BankStep :=
  match (s.bank d b).state, s.headOf d b with
  | .idle, some t => if s.idleDemand d then none else some (.openRow t.row)
  | .opened row, some t =>
    if t.row = row ∧ s.idleDemand d = false then (if (s.issuedAt d b).isNone then some .transfer else none)
    else if s.closable d b then some .close
    else none
  | .opened _, none => if s.idleDemand d ∧ s.closable d b then some .close else none
  | .idle, none => none
  | .opening _, _ => none
  | .closing, _ => none

/-- The die's status read is eligible; `Die.quiet` is asked for by the choice (R101). -/
def State.statusEligible (s : State) (d : Fin 2) : Bool :=
  let x := s.die d
  s.arr.queue.any (fun t => !t.issued && t.isStatus d)
    && !x.holdRefresh && !x.holdCal && !x.enteringRest

/-! ### The choice (R100) -/

/-- What an arbiter takes at a choice (R100). -/
inductive Choice where
  | status
  | bank (b : Fin 8) (step : BankStep)
  deriving DecidableEq, Repr

/-- The class of a bank's eligible step in the order of R100; class 2 is the status read. -/
def State.stepClass (s : State) (d : Fin 2) (b : Fin 8) : Option Nat :=
  match s.bankStep d b, s.headOf d b with
  | none, _ => none
  | some _, none => some 5
  | some step, some t =>
    if t.passOver = 8 then some 1
    else
      match step with
      | .transfer => some 3
      | .openRow _ => some 4
      | .close => if (s.bank d b).row = some t.row then some 5 else some 4

/-- The bank of a class whose head transaction entered the queue earliest (R100). -/
def State.earliest (s : State) (d : Fin 2) (cls : Nat) : Option (Fin 8) :=
  (s.arr.queue.filter fun t => !t.issued && t.die == d).findSome? fun t =>
    match t.bank with
    | some b => if s.stepClass d b = some cls then some b else none
    | none => none

/-- The step of the chosen bank. -/
def State.choose (s : State) (d : Fin 2) (b : Fin 8) : Option Choice := (s.bankStep d b).map (Choice.bank b)

/-- What the arbiter of a die takes, if it makes a choice now (R99, R100). -/
def State.choice (s : State) (d : Fin 2) : Option Choice :=
  if (s.die d).quiet then
    match s.earliest d 1 with
    | some b => s.choose d b
    | none =>
      if s.statusEligible d then some .status
      else
        match s.earliest d 3 with
        | some b => s.choose d b
        | none =>
          match s.earliest d 4 with
          | some b => s.choose d b
          | none =>
            match allBanks.find? fun b => s.stepClass d b = some 5 with
            | some b => s.choose d b
            | none => none
  else none

/-! ### Taking a step (R92, R97, R100) -/

/-- The pass-over count of a head that was passed over (R100). -/
def Txn.passed (t : Txn) : Txn := { t with passOver := min 8 (t.passOver + 1) }

/-- The queue with the head transaction of each bank of `banks` passed over (R100). -/
def passHeads (d : Fin 2) : List (Fin 8) → List Txn → List Txn
  | _, [] => []
  | banks, t :: ts =>
    match t.bank with
    | some b =>
      if !t.issued && t.die == d && banks.contains b then t.passed :: passHeads d (banks.erase b) ts
      else t :: passHeads d banks ts
    | none => t :: passHeads d banks ts

/-- The heads of the other banks that had an eligible step are passed over, unless the die has an idle demand (R100). -/
def State.passOthers (d : Fin 2) (b : Fin 8) (s : State) : State :=
  if s.idleDemand d then s
  else s.setQueues (passHeads d (allBanks.filter fun c => c != b && (s.bankStep d c).isSome) s.arr.queue) s.arr.waiting

/-- The first element that fits, changed. -/
def updateFirst {α : Type} (fits : α → Bool) (f : α → α) : List α → List α
  | [] => []
  | x :: xs => if fits x then f x :: xs else x :: updateFirst fits f xs

/-- A transaction becomes ISSUED; its pass-over count is dropped (R96, R100). -/
def Txn.issue (data : List Record) (t : Txn) : Txn := { t with issued := true, passOver := 0, data := data }

/-- The state of a bank changes. -/
def State.setBankState (d : Fin 2) (b : Fin 8) (x : BankState) (s : State) : State :=
  s.setBank d b { s.bank d b with state := x }

/-- What a transaction carries once its step is over: its write data, or the records of its slots (R97, log 14). -/
def State.carried (s : State) (t : Txn) : List Record :=
  match t.dir, t.place with
  | .read, some p => Memory.records s.mem t.die p
  | .read, none => []
  | .write, _ => t.data

/-- The transfer step of a bank's head: it is ISSUED, and a WRITE holds the command path until it completes (R96, R97,
log 13). -/
def State.transferHead (d : Fin 2) (b : Fin 8) (s : State) : State :=
  match s.headOf d b with
  | none => s
  | some t =>
    let s := s.setQueues (updateFirst (fun t => !t.issued && t.isFor d b) (Txn.issue (s.carried t)) s.arr.queue)
      s.arr.waiting
    match t.dir with
    | .read => s
    | .write => s.setDie d { s.die d with path := .write b }

/-- OPEN_STEP (R92, R99, R100). -/
def openStep (d : Fin 2) (b : Fin 8) (s : State) : State :=
  match s.choice d with
  | some (.bank c (.openRow row)) => if c = b then (s.passOthers d b).setBankState d b (.opening row) else s
  | _ => s

/-- CLOSE_STEP (R93, R99, R100). -/
def closeStep (d : Fin 2) (b : Fin 8) (s : State) : State :=
  match s.choice d with
  | some (.bank c .close) => if c = b then (s.passOthers d b).setBankState d b .closing else s
  | _ => s

/-- TRANSFER_STEP (R97, R99, R100). -/
def transferStep (d : Fin 2) (b : Fin 8) (s : State) : State :=
  match s.choice d with
  | some (.bank c .transfer) => if c = b then (s.passOthers d b).transferHead d b else s
  | _ => s

/-- STATUS_READ_STEP (R100, R101). -/
def statusReadStep (d : Fin 2) (s : State) : State :=
  match s.choice d with
  | some .status =>
    (s.setQueues (updateFirst (fun t => !t.issued && t.isStatus d) (Txn.issue []) s.arr.queue)
      s.arr.waiting).setDie d { s.die d with activity := .statusRead, path := .statusRead }
  | _ => s

/-! ### Delays of a bank (R92, R93) -/

/-- OPEN_DELAY_ELAPSED (R92). -/
def openDelayElapsed (d : Fin 2) (b : Fin 8) (s : State) : State :=
  match (s.bank d b).state with
  | .opening row => s.setBankState d b (.opened row)
  | _ => s

/-- CLOSE_DELAY_ELAPSED (R92). -/
def closeDelayElapsed (d : Fin 2) (b : Fin 8) (s : State) : State :=
  match (s.bank d b).state with
  | .closing => s.setBankState d b .idle
  | _ => s

/-- WRITE_RECOVERY_ELAPSED (R93). -/
def writeRecoveryElapsed (d : Fin 2) (b : Fin 8) (s : State) : State :=
  if (s.bank d b).recovering then s.setBank d b { s.bank d b with recovering := false } else s

/-! ### START_ARRAY (R106) -/

/-- Every die is UNPOWERED or OFF (R106, R111). -/
def State.allDown (s : State) : Bool := allDies.all fun d => (s.die d).state == .unpowered || (s.die d).state == .off

/-- A die as START_ARRAY takes it: INITIALIZING, its reset sequence on its command path (R106, R107). -/
def Die.started (x : Die) : Die :=
  { x with
    state := .initializing, activity := .none, holdRefresh := false, holdCal := false, driftHold := false
    debt := 0, timer := none, hot := false, path := .resetSequence, banks := Vector.replicate 8 Bank.idle }

/-- START_ARRAY, admitted under `tag` (R106). -/
def takeStartArray (tag : Byte) (s : State) : State :=
  if s.allDown = false then s.respond tag .startArray .state s.dieStates
  else if s.arr.load.isSome then s.respond tag .startArray .busy []
  else ((s.setDie 0 (s.die 0).started).setDie 1 (s.die 1).started).modArr fun a => { a with startTag := some tag }

/-- RESET_SEQUENCE_END (R107). -/
def resetSequenceEnd (d : Fin 2) (s : State) : State :=
  if (s.die d).state = .initializing ∧ (s.die d).path = .resetSequence then
    s.setDie d { s.die d with path := .identityRead }
  else s

/-! ### SET_ARRAY_TIMING (R111, R112) -/

/-- SET_ARRAY_TIMING, admitted under `tag` (R111, R112). -/
def takeSetArrayTiming (tag : Byte) (f : TimingFields) (s : State) : State :=
  if s.allDown = false then s.respond tag .setArrayTiming .state s.dieStates
  else if s.arr.load.isSome then s.respond tag .setArrayTiming .busy []
  else
    match timingFault f with
    | some i => s.badValue tag .setArrayTiming (BitVec.ofNat 8 i)
    | none => s.modArr fun a => { a with load := some ⟨f, some tag⟩ }

/-- TIMING_LOAD_END (R112). -/
def timingLoadEnd (s : State) : State :=
  match s.arr.load with
  | none => s
  | some l =>
    let s := s.modArr fun a => { a with timing := l.settings, load := none }
    match l.tag with
    | some tag => s.respond tag .setArrayTiming .ok []
    | none => s

/-! ### The rows of this family -/

/-- OPEN_STEP (R92). -/
def execOpenStep (d : Fin 2) (b : Fin 8) (s : State) : Answer := .next (openStep d b s)

/-- CLOSE_STEP (R93). -/
def execCloseStep (d : Fin 2) (b : Fin 8) (s : State) : Answer := .next (closeStep d b s)

/-- TRANSFER_STEP (R97). -/
def execTransferStep (d : Fin 2) (b : Fin 8) (s : State) : Answer := .next (transferStep d b s)

/-- STATUS_READ_STEP (R101). -/
def execStatusReadStep (d : Fin 2) (s : State) : Answer := .next (statusReadStep d s)

/-- OPEN_DELAY_ELAPSED (R92). -/
def execOpenDelayElapsed (d : Fin 2) (b : Fin 8) (s : State) : Answer := .next (openDelayElapsed d b s)

/-- CLOSE_DELAY_ELAPSED (R92). -/
def execCloseDelayElapsed (d : Fin 2) (b : Fin 8) (s : State) : Answer := .next (closeDelayElapsed d b s)

/-- WRITE_RECOVERY_ELAPSED (R93). -/
def execWriteRecoveryElapsed (d : Fin 2) (b : Fin 8) (s : State) : Answer := .next (writeRecoveryElapsed d b s)

/-- RESET_SEQUENCE_END (R107). -/
def execResetSequenceEnd (d : Fin 2) (s : State) : Answer := .next (resetSequenceEnd d s)

/-- TIMING_LOAD_END (R112). -/
def execTimingLoadEnd (s : State) : Answer := .next (timingLoadEnd s)

end Sys2Proof.Machine
end

