-- ==== Sys2Proof/Machine/Power.lean ====
section
/-! DEFINITION. Rest and deep rest: the arrival of a die in RESTING and in OFF, the end of a wake, and POWER (R134 to
R146). -/

namespace Sys2Proof.Machine

/-! ### Leaving READY (R129, R137, R144) -/

/-- A request of the die that is still pending is removed (R129). -/
def State.dropPendingCal (d : Fin 2) (s : State) : State :=
  match (s.dieMon d).req with
  | some r => if r.stage = .pending then s.setDieMon d { s.dieMon d with req := none } else s
  | none => s

/-- Monitor status reads of the die that are WAITING or waiting for room are withdrawn (R137, R144). -/
def State.withdrawStatus (d : Fin 2) (s : State) : State := s.withdraw fun t => t.isStatus d

/-- The die may become RESTING (step 4 of R137). -/
def Die.readyToRest (x : Die) : Bool :=
  x.drained && x.restTarget == .rest && !x.holdRefresh && !x.holdCal && x.debt == 0

/-- A POWER RUN is in the request table (R137, R142). -/
def State.powerRunWaits (s : State) : Bool :=
  match s.arr.power with
  | some p => p.level == .run
  | none => false

/-- The die becomes RESTING, and begins to wake in the same change where work or a POWER RUN waits (R137, R140). -/
def State.becomeResting (d : Fin 2) (s : State) : State :=
  let s := s.setDie d { s.die d with state := .resting, timer := none, restTarget := .none, driftHold := false }
  let s := (s.dropPendingCal d).withdrawStatus d
  (if s.workFor d || s.powerRunWaits then s.beginWake d else s).checkPower

/-- ENTER_RESTING (R137). -/
def enterResting (d : Fin 2) (s : State) : State := if (s.die d).readyToRest then s.becomeResting d else s

/-- The die record of a die that becomes OFF (R144). -/
def Die.off (x : Die) : Die :=
  { x with
    state := .off, activity := .none, holdRefresh := false, holdCal := false, driftHold := false
    debt := 0, timer := none, path := .free, restTarget := .none, banks := Vector.replicate 8 Bank.idle }

/-- The die becomes OFF and its records are gone (R144). -/
def State.becomeOff (d : Fin 2) (s : State) : State :=
  (((s.setDie d (s.die d).off).setMem (Memory.forgetDie s.mem d)).dropPendingCal d).withdrawStatus d

/-- The die may become OFF (R144). -/
def Die.readyForOff (x : Die) : Bool := x.drained && x.restTarget == .deep && !x.holdRefresh && !x.holdCal

/-- ENTER_OFF (R144). -/
def enterOff (d : Fin 2) (s : State) : State := if (s.die d).readyForOff then (s.becomeOff d).checkPower else s

/-! ### Waking (R141) -/

/-- A die as it becomes READY, from a wake or from START_ARRAY: its timer starts from zero (R108, R115, R141). -/
def Die.ready (x : Die) : Die :=
  { x with
    state := .ready, activity := .none, holdRefresh := false, holdCal := false, driftHold := false
    debt := 0, timer := some 0, path := .free, banks := Vector.replicate 8 Bank.idle }

/-- WAKE_DELAY_ELAPSED (R141). -/
def wakeDelayElapsed (d : Fin 2) (s : State) : State :=
  if (s.die d).state = .waking then (s.setDie d (s.die d).ready).checkPower else s

/-! ### POWER (R134, R136, R142, R143) -/

/-- The kinds whose requests hold back a rest (check 3 of R134). -/
def kindHoldsRest : Kind → Bool
  | .append | .fetch | .scan | .drop | .preserve | .recover | .calibrate | .startArray => true
  | .identify | .status | .setLink | .cancel | .reset | .create | .seal | .describe | .setArrayTiming | .power
  | .setMonitor | .setPreservePort => false

/-- The refusal of a POWER of a level, if any: checks 2 to 6 of R134. -/
def State.powerFault (s : State) (level : PowerLevel) : Option Result :=
  let anyDie (f : Die → Bool) : Bool := allDies.any fun d => f (s.die d)
  let down : Bool := level != .run
  if s.arr.power.isSome then some .busy
  else if down && s.table.any (fun e => kindHoldsRest e.kind) then some .busy
  else if anyDie fun x => x.state == .initializing then some .busy
  else if down && anyDie (fun x => x.state == .waking || x.enteringRest) then some .busy
  else if anyDie fun x => x.state == .ready || x.state == .resting || (!down && x.state == .waking) then none
  else some .state

/-- A READY die takes a rest target (R136, R143). -/
def State.aimRest (target : RestTarget) (d : Fin 2) (s : State) : State :=
  if (s.die d).state = .ready then s.setDie d { s.die d with restTarget := target } else s

/-- The entry as POWER DEEP leaves it (R143). -/
def Entry.deepRest (e : Entry) : Entry :=
  match e.state with
  | .opened | .sealed => e.toLost
  | .free | .dropping | .lost | .recovering => e

/-- Every entry as POWER DEEP leaves it (R143). -/
def State.deepRestAll (s : State) : State := forEach allSeries (fun i s => s.setEntry i (s.entry i).deepRest) s

/-- A die at POWER DEEP: a READY one takes the target, a RESTING one becomes OFF (R143). -/
def State.deepDie (d : Fin 2) (s : State) : State :=
  if (s.die d).state = .resting then s.becomeOff d else s.aimRest .deep d

/-- The change that a POWER of a level makes to the dies and the directory (R136, R142, R143). A READY die that has
nothing to drain arrives in the same change (log 15). -/
def State.applyPower (level : PowerLevel) (s : State) : State :=
  match level with
  | .run => (s.beginWake 0).beginWake 1
  | .rest => enterResting 1 (enterResting 0 ((s.aimRest .rest 0).aimRest .rest 1))
  | .deep => enterOff 1 (enterOff 0 ((s.deepRestAll.deepDie 0).deepDie 1))

/-- POWER, admitted under `tag` (R134, R136, R142, R143). -/
def takePower (tag level : Byte) (s : State) : State :=
  match levelOf level with
  | none => s.badValue tag .power 0xFF
  | some l =>
    match s.powerFault l with
    | some .state => s.respond tag .power .state s.dieStates
    | some r => s.respond tag .power r []
    | none => ((s.modArr fun a => { a with power := some ⟨tag, l⟩ }).applyPower l).checkPower

/-! ### The rows of this family -/

/-- ENTER_RESTING (R137). -/
def execEnterResting (d : Fin 2) (s : State) : Answer := .next (enterResting d s)

/-- ENTER_OFF (R144). -/
def execEnterOff (d : Fin 2) (s : State) : Answer := .next (enterOff d s)

/-- WAKE_DELAY_ELAPSED (R141). -/
def execWakeDelayElapsed (d : Fin 2) (s : State) : Answer := .next (wakeDelayElapsed d s)

end Sys2Proof.Machine
end

