-- ==== Sys2Proof/Machine/Image.lean ====
section
/-! DEFINITION. Series images: pages of 264 words, their spare area and check bytes, the header page, and how a page read
back is classed (R152 to R154, R191). -/

namespace Sys2Proof.Machine

/-! ### Words and bytes of a page (R191) -/

/-- Bytes two to a word, the lower byte on PD0-PD7 (R191). -/
def wordsOfBytes : List Byte → List Half
  | a :: b :: rest => BitVec.ofNat 16 (a.toNat + 256 * b.toNat) :: wordsOfBytes rest
  | [a] => [BitVec.ofNat 16 a.toNat]
  | [] => []

/-- The bytes that words carry (R191). -/
def bytesOfWords (ws : List Half) : List Byte := ws.flatMap fun w => fieldBytes w

/-! ### The check: an extended Hamming code (R153) -/

/-- The next code position: the next whole number that is not a power of 2 (R153). -/
def nextPosition (p : Nat) : Nat := if (p + 1) &&& p = 0 then p + 2 else p + 1

/-- The running check: the code position of the next protected bit, check bits 0 to 12, and the parity of the protected
bits (R153). -/
structure Ecc where
  position : Nat
  checks : Nat
  parity : Bool
  deriving DecidableEq, Repr

def Ecc.start : Ecc := ⟨3, 0, false⟩

def Ecc.bit (e : Ecc) (v : Bool) : Ecc :=
  ⟨nextPosition e.position, if v then e.checks ^^^ e.position else e.checks, e.parity ^^ v⟩

/-- The bits of a byte from its least significant on (R153). -/
def Ecc.byte (e : Ecc) (b : Byte) : Ecc :=
  (((((((e.bit (b.getLsbD 0)).bit (b.getLsbD 1)).bit (b.getLsbD 2)).bit (b.getLsbD 3)).bit (b.getLsbD 4)).bit
    (b.getLsbD 5)).bit (b.getLsbD 6)).bit (b.getLsbD 7)

/-- The check over the protected bytes. -/
def Ecc.of (bytes : List Byte) : Ecc := bytes.foldl Ecc.byte Ecc.start

/-- The exclusive or of check bits 0 to 12. -/
def checksParity (c : Nat) : Bool := (List.range 13).foldl (fun p t => p ^^ c.testBit t) false

/-- The 9 check bytes over 512 data bytes and 7 spare bytes (R153). -/
def checkBytes (protectedBytes : List Byte) : List Byte :=
  let e := Ecc.of protectedBytes
  let all := e.checks + (if e.parity ^^ checksParity e.checks then 8192 else 0)
  leBytes 2 all ++ List.replicate 7 0

/-- The classes of a page read (R153). -/
inductive PageClass where
  | clean | corrected | uncorrectable
  deriving DecidableEq, Repr

/-- One byte with the protected bit at code position `target` inverted, if it is in this byte; and the position after
the byte. -/
def flipInByte (target position : Nat) (b : Byte) : Nat × Byte :=
  (List.range 8).foldl (fun (p, v) i => (nextPosition p, if p = target then v ^^^ BitVec.ofNat 8 (2 ^ i) else v))
    (position, b)

/-- Bytes with the protected bit at code position `target` inverted. -/
def flipAt (target : Nat) : Nat → List Byte → List Byte
  | _, [] => []
  | position, b :: bs =>
    let (next, v) := flipInByte target position b
    v :: flipAt target next bs

/-- A page as read: its class and its bytes as delivered (R153). -/
def classPage (bytes : List Byte) (timedOut : Bool) : PageClass × List Byte :=
  if timedOut then (.uncorrectable, bytes)
  else
    let prot := bytes.take 519
    let asRead := leNat ((bytes.drop 519).take 2)
    let checksRead := asRead % 8192
    let e := Ecc.of prot
    let syndrome := checksRead ^^^ e.checks
    let parity := asRead.testBit 13 ^^ (e.parity ^^ checksParity checksRead)
    if parity = false then
      if syndrome = 0 then (.clean, bytes) else (.uncorrectable, bytes)
    else if 4165 < syndrome then (.uncorrectable, bytes)
    else if syndrome &&& (syndrome - 1) = 0 then (.corrected, bytes)
    else (.corrected, flipAt syndrome 3 prot ++ bytes.drop 519)

/-! ### Pages (R152, R154, R191) -/

/-- A page as the port forms it: 512 data bytes, the spare area, the check (R152, R153). -/
def pageBytes (data : List Byte) (index generation records : Nat) : List Byte :=
  let prot := data ++ leBytes 2 index ++ leBytes 4 generation ++ [BitVec.ofNat 8 records]
  prot ++ checkBytes prot

/-- Bytes filled up to 512 with all ones (R154, R191). -/
def fillPage (bytes : List Byte) : List Byte := bytes ++ List.replicate (512 - bytes.length) 0xFF

/-- The fields of a page's spare area (R152, R191). -/
def pageIndexOf (bytes : List Byte) : Nat := leNat ((bytes.drop 512).take 2)
def pageGenerationOf (bytes : List Byte) : Nat := leNat ((bytes.drop 514).take 4)
def pageRecordsOf (bytes : List Byte) : Nat := (byteAt bytes 518).toNat

/-- The image magic (R191). -/
def imageMagic : Nat := 0xC608A1D5

/-- The header page's data bytes (R154, R191). -/
def headerBytes (h : ImageHeader) : List Byte :=
  fillPage (leBytes 4 imageMagic ++ [1, h.state] ++ leBytes 4 h.generation ++ [h.series, h.lanes, h.policy]
    ++ leBytes 2 h.base ++ leBytes 2 h.count ++ leBytes 4 h.oldest ++ leBytes 4 h.head ++ fieldBytes h.firstStamp
    ++ fieldBytes h.lastStamp ++ leBytes 4 h.records ++ [h.seriesState])

/-- The page carries the image magic (R154, R158). -/
def magicOk (bytes : List Byte) : Bool := leNat (bytes.take 4) == imageMagic

/-- The header fields of a page (R191). -/
def headerOf (bytes : List Byte) : ImageHeader where
  state := byteAt bytes 5
  generation := leNat ((bytes.drop 6).take 4)
  series := byteAt bytes 10
  lanes := byteAt bytes 11
  policy := byteAt bytes 12
  base := leNat ((bytes.drop 13).take 2)
  count := leNat ((bytes.drop 15).take 2)
  oldest := leNat ((bytes.drop 17).take 4)
  head := leNat ((bytes.drop 21).take 4)
  firstStamp := fieldAt 48 bytes 25
  lastStamp := fieldAt 48 bytes 31
  records := leNat ((bytes.drop 37).take 4)
  seriesState := byteAt bytes 41

/-- How many data pages hold `n` records: ceil(n / 16) (R154). -/
def dataPages (n : Nat) : Nat := (n + 15) / 16

/-- How many records data page `k` of an image of `n` records holds (R154). -/
def pageCount (n k : Nat) : Nat := min 16 (n - 16 * (k - 1))

/-- Test 4 of R163: the header's fields are consistent. -/
def ImageHeader.consistent (h : ImageHeader) (slotPages : Nat) : Bool :=
  h.state.toNat ≤ 1 && within 1 6 h.lanes.toNat && h.policy.toNat ≤ 1 && within 1 4096 h.count
    && (h.seriesState == SeriesState.code .opened || h.seriesState == SeriesState.code .sealed)
    && h.oldest ≤ h.head && h.records == h.head - h.oldest && h.records ≤ 512 * h.count
    && 1 + dataPages h.records ≤ slotPages

/-- The stamps of records are non-decreasing from a lower bound on (R165). -/
def stampsRise : Nat → List Record → Bool
  | _, [] => true
  | low, r :: rs => low ≤ r.stamp.toNat && stampsRise r.stamp.toNat rs

/-- A record of a damaged page (R2, R165). -/
def damagedRecord (lanes : Nat) (stamp : Stamp) : Record where
  stamp := stamp
  source := 0xFFFF
  lanes := Vector.ofFn fun i : Fin 6 => if i.val < lanes then faultedCode else absentCode

/-- A page read for page `k` with `n` records, under a header and after stamp `last`, is sound (R165). -/
def pageSound (cls : PageClass) (bytes : List Byte) (h : ImageHeader) (k n : Nat) (last : Stamp) : Bool :=
  let rs := recordsOf n bytes
  cls != .uncorrectable && pageIndexOf bytes == k && pageGenerationOf bytes == h.generation && pageRecordsOf bytes == n
    && stampsRise last.toNat rs && rs.all fun r => r.stamp.toNat ≤ h.lastStamp.toNat

end Sys2Proof.Machine
end

