-- ==== Sys2Proof/Machine/PreservePort.lean ====
section
/-! DEFINITION. The preserve port: accesses and page transfers, and the image operations PRESERVE and RECOVER with every
way they end (R147 to R169). -/

namespace Sys2Proof.Machine

/-! ### Settings and the lines (R147 to R150) -/

def Port.slotPages (p : Port) : Nat := p.settings.slotPages.toNat
def Port.slotCount (p : Port) : Nat := p.settings.slotCount.toNat

/-- The longest extension, (n + 1) × 16 port cycles (R149). -/
def Port.extensionLimit (p : Port) : Nat := (p.settings.maxWaitCode.toNat + 1) * 16

/-- With wait enable on, PWAIT at this level is active (R149, R150). -/
def Port.waits (p : Port) (level : Bool) : Bool :=
  p.settings.waitEnable == 1 && (if p.settings.waitPolarity = 0 then !level else level)

/-- The length of an access in port cycles (R147). -/
def Port.accessTime (p : Port) (extension : Nat) : Nat :=
  p.settings.setup.toNat + p.settings.strobe.toNat + extension + p.settings.hold.toNat

/-- The phases of an access (R147). -/
inductive AccessPhase where
  | setup | strobe | hold
  deriving DecidableEq, Repr

/-- The port lines; a control line is true while asserted (R147). -/
structure PortLines where
  address : Option Nat
  data : Option Half
  cs : Bool
  oe : Bool
  we : Bool
  deriving DecidableEq, Repr

/-- The word address of a transfer's running access (R152). -/
def Transfer.address (t : Transfer) : Nat := t.page * 264 + t.index

/-- The lines during a phase of the running access (R147). When none runs, as during a turnaround, the control lines are
released and no data is driven (R148); that the address is undriven then too is log 44 (DESIGN CHOICE). -/
def Port.lines (p : Port) (phase : AccessPhase) : PortLines :=
  match p.transfer with
  | none => ⟨none, none, false, false, false⟩
  | some t =>
    if t.begun then
      ⟨some t.address,
        match t.dir with
        | .write => some (t.words.getD t.index 0)
        | .read => none,
        true, t.dir == .read && phase == .strobe, t.dir == .write && phase == .strobe⟩
    else ⟨none, none, false, false, false⟩

/-! ### Page transfers (R148, R152) -/

def State.setTransfer (t : Option Transfer) (s : State) : State := s.modPort fun p => { p with transfer := t }

/-- A page transfer starts: its first access begins, or the turnaround before it (R148, R152). `k` is the page within the
slot. -/
def State.startPage (dir : Dir) (slot k : Nat) (words : List Half) (s : State) : State :=
  s.modPort fun p =>
    { p with
      transfer := some ⟨dir, slot * p.slotPages + k, 0, words, 0, false, p.lastDir == dir⟩ }

/-- The image operation record changes. -/
def State.modOp (f : ImageOp → ImageOp) (s : State) : State := s.modPort fun p => { p with op := p.op.map f }

/-- A transaction of the image operation, not ended, is on its way: WAITING, waiting for room or ISSUED (R155). -/
def State.imageOutstanding (s : State) : Bool :=
  s.arr.queue.any (fun t => t.live && t.origin.ofImage) || s.arr.waiting.any fun t => t.origin.ofImage

/-! ### Reports and the end of an operation (R156, R161, R166, R167, R189) -/

/-- The PRESERVE report (R189). -/
def ImageOp.preserveReport (op : ImageOp) : List Byte :=
  [BitVec.ofNat 8 op.series.val, BitVec.ofNat 8 op.slot] ++ leBytes 4 op.generation ++ leBytes 4 op.snapOldest
    ++ leBytes 4 op.snapHead ++ leBytes 2 op.page ++ leBytes 2 op.pagesWritten

/-- The header fields of a RECOVER report, 0 while not known (R189). -/
def headerFields : Option ImageHeader → List Byte
  | some h => [h.series, h.seriesState] ++ leBytes 2 h.base ++ leBytes 2 h.count ++ leBytes 4 h.oldest ++ leBytes 4 h.head
  | none => List.replicate 14 0

/-- The RECOVER report (R189). -/
def ImageOp.recoverReport (op : ImageOp) : List Byte :=
  [BitVec.ofNat 8 op.series.val, BitVec.ofNat 8 op.slot] ++ leBytes 4 op.generation ++ headerFields op.header
    ++ leBytes 2 op.damaged ++ leBytes 2 op.timedOut ++ leBytes 2 op.corrected

/-- The response fields of an operation that ended (R189). -/
def ImageOp.report (op : ImageOp) : List Byte :=
  (match op.kind with
    | .preserve => op.preserveReport
    | .recover => op.recoverReport) ++ op.detail

def ImageKind.kind : ImageKind → Kind
  | .preserve => .preserve
  | .recover => .recover

/-- An operation in ENDING answers once no access runs and none of its transactions is ISSUED (R156); the end of a
PRESERVE may let a DROP end (R43). -/
def State.finishOp (s : State) : State :=
  match s.port.op with
  | none => s
  | some op =>
    match op.result with
    | none => s
    | some r =>
      if s.port.accessing ∨ s.imageIssued then s
      else ((s.respond op.tag op.kind.kind r op.report).modPort fun p => { p with op := none }).checkDrop op.series

/-- An operation has its result: it enters ENDING (R156). An operation that has a result keeps it. -/
def State.endOp (r : Result) (detail : List Byte) (s : State) : State :=
  match s.port.op with
  | none => s
  | some op =>
    if op.result.isSome ∨ op.abandoned then s
    else
      (((((s.modOp fun op => { op with phase := .ending, result := some r, detail := detail }).withdraw fun t =>
        t.origin.ofImage).setTransfer (if s.port.accessing then s.port.transfer else none)).markEnding op.tag)).finishOp

/-! ### PRESERVE (R157 to R161) -/

/-- How many records the operation's snapshot holds. -/
def ImageOp.records (op : ImageOp) : Nat := op.snapHead - op.snapOldest

/-- The first number of the current page (R154). -/
def ImageOp.pageFirst (op : ImageOp) : Nat := op.snapOldest + 16 * (op.page - 1)

/-- How many records the current page holds (R154). -/
def ImageOp.pageRecords (op : ImageOp) : Nat := pageCount op.records op.page

/-- The header a PRESERVE writes (R158, R160). -/
def ImageOp.headerFor (op : ImageOp) (e : Entry) (complete : Bool) : ImageHeader where
  state := flagByte complete
  generation := op.generation
  series := BitVec.ofNat 8 op.series.val
  lanes := BitVec.ofNat 8 e.lanes
  policy := e.policy.code
  base := e.base
  count := e.count
  oldest := op.snapOldest
  head := op.snapHead
  firstStamp := if complete then (if op.records = 0 then op.snapStamp else op.firstStamp) else 0
  lastStamp := if complete then op.snapStamp else 0
  records := op.records
  seriesState := if complete then e.state.code else SeriesState.code .opened

/-- The header is written over page 0 (R158, R160). -/
def State.writeHeader (phase : Phase) (complete : Bool) (s : State) : State :=
  match s.port.op with
  | none => s
  | some op =>
    (s.modOp fun op => { op with phase := phase, page := 0 }).startPage .write op.slot 0
      (wordsOfBytes (pageBytes (headerBytes (op.headerFor (s.entry op.series) complete)) 0 op.generation 0))

/-- The array reads of data page `k` are issued (R159). -/
def State.preservePage (k : Nat) (s : State) : State :=
  match s.port.op with
  | none => s
  | some op =>
    let op := { op with phase := .pageRead, page := k, half0 := [], half1 := [] }
    let e := s.entry op.series
    let s := s.modPort fun p => { p with op := some op }
    forEach (e.cut op.pageFirst op.pageRecords) (fun part =>
      State.issue (e.txn (.preserveRead part.1 (part.1 != op.pageFirst)) .read part.1 part.2 [])) s

/-- The generation a PRESERVE takes, from the page it found at page 0 (R158). -/
def nextGeneration (words : List Half) (timedOut : Bool) : Nat :=
  let (cls, bytes) := classPage (bytesOfWords words) timedOut
  if cls ≠ .uncorrectable ∧ magicOk bytes = true then
    if (headerOf bytes).generation = 4294967295 then 1 else (headerOf bytes).generation + 1
  else 1

/-- The page read from the array is formed and its write begins (R159). -/
def State.writePage (s : State) : State :=
  match s.port.op with
  | none => s
  | some op =>
    let rs := op.half0 ++ op.half1
    let op := { op with
      phase := .pageWrite
      firstStamp := if op.page = 1 then (rs.head?.map Record.stamp).getD 0 else op.firstStamp }
    (s.modPort fun p => { p with op := some op }).startPage .write op.slot op.page
      (wordsOfBytes (pageBytes (fillPage (recordsBytes rs)) op.page op.generation op.pageRecords))

/-- After page `k` the next page, or the final header (R159, R160). -/
def State.nextPreservePage (k : Nat) (s : State) : State :=
  match s.port.op with
  | none => s
  | some op => if dataPages op.records ≤ k then s.writeHeader .finalWrite true else s.preservePage (k + 1)

/-- PRESERVE completes (R160). -/
def State.completePreserve (op : ImageOp) (s : State) : State :=
  let e := s.entry op.series
  (s.setEntry op.series { e with
    image := some ⟨op.slot, op.snapHead⟩
    dirty := if e.committed = op.snapHead then false else e.dirty }).endOp .ok []

/-- A page transfer of a PRESERVE has ended (R158 to R160). -/
def State.preservePageEnd (op : ImageOp) (t : Transfer) (s : State) : State :=
  match op.phase with
  | .headerRead =>
    (s.modOp fun op => { op with generation := nextGeneration t.words t.timedOut }).writeHeader .headerWrite false
  | .headerWrite => if t.timedOut then s.endOp .portTimeout [] else s.nextPreservePage 0
  | .pageWrite =>
    if t.timedOut then s.endOp .portTimeout []
    else (s.modOp fun op => { op with pagesWritten := op.pagesWritten + 1 }).nextPreservePage op.page
  | .finalWrite => if t.timedOut then s.endOp .portTimeout [] else s.completePreserve op
  | .pageRead | .ending => s

/-- A new image operation record (R155). -/
def ImageOp.start (kind : ImageKind) (tag : Byte) (slot : Nat) (i : Fin 32) : ImageOp where
  kind := kind
  tag := tag
  slot := slot
  series := i
  baseOverride := none
  phase := .headerRead
  snapOldest := 0
  snapHead := 0
  snapStamp := 0
  generation := 0
  page := 0
  half0 := []
  half1 := []
  formed := []
  lastStamp := 0
  firstStamp := 0
  pagesWritten := 0
  damaged := 0
  timedOut := 0
  corrected := 0
  header := none
  result := none
  detail := []
  abandoned := false

/-- PRESERVE, admitted under `tag` (R157, R158). -/
def takePreserve (tag series slot : Byte) (s : State) : State :=
  match seriesOf series with
  | none => s.badValue tag .preserve 0xFF
  | some i =>
    if s.port.slotCount ≤ slot.toNat then s.badValue tag .preserve 0xFF
    else
      let e := s.entry i
      match refusalToRead e.state with
      | some r => s.respond tag .preserve r []
      | none =>
        if s.rangeUsable e.base e.count = false then s.respond tag .preserve .notReady []
        else if s.port.op.isSome then s.respond tag .preserve .busy []
        else if s.port.slotPages < 1 + dataPages (e.committed - e.oldest) then
          s.respond tag .preserve .imageTooLarge (leBytes 4 (e.committed - e.oldest) ++ leBytes 2 s.port.slotPages)
        else
          ((s.unclaimSlots fun c => c.slot == slot.toNat).modPort fun p =>
            { p with op := some { ImageOp.start .preserve tag slot.toNat i with
                snapOldest := e.oldest, snapHead := e.committed, snapStamp := e.lastCommitted } }).startPage
            .read slot.toNat 0 []

/-! ### RECOVER (R162 to R167) -/

/-- RECOVER completes (R166). -/
def State.completeRecover (s : State) : State :=
  match s.port.op with
  | none => s
  | some op =>
    match op.header with
    | none => s
    | some h =>
      let e := s.entry op.series
      (s.setEntry op.series { e with
        state := if h.seriesState = SeriesState.code .sealed then .sealed else .opened
        dirty := false
        image := some ⟨op.slot, op.snapHead⟩
        lastReserved := op.lastStamp
        lastCommitted := op.lastStamp }).endOp .ok []

/-- The read of data page `k` begins (R165). -/
def State.recoverPage (k : Nat) (s : State) : State :=
  match s.port.op with
  | none => s
  | some op => (s.modOp fun op => { op with phase := .pageRead, page := k }).startPage .read op.slot k []

/-- The target as the stripe step makes it (R164). -/
def Entry.taken (e : Entry) (h : ImageHeader) : Entry :=
  { e with
    state := .recovering
    base := h.base, count := h.count, lanes := h.lanes.toNat
    policy := if h.policy = 1 then .halt else .wrap
    reserved := h.head, committed := h.head, oldest := h.oldest
    lastReserved := h.lastStamp, lastCommitted := h.lastStamp
    batches := [] }

/-- The stripe step, for a header whose base is the base of the range to take (R164). -/
def State.stripeStep (op : ImageOp) (h : ImageHeader) (s : State) : State :=
  let s := s.modOp fun op => { op with generation := h.generation, header := some h }
  if 32768 < h.base + h.count then s.endOp .badValue [0xFF]
  else if s.rangeUsable h.base h.count = false then s.endOp .noMemory []
  else
    match s.overlapping h.base h.count (some op.series) with
    | some i => s.endOp .overlap [BitVec.ofNat 8 i.val]
    | none =>
      let s := (s.setEntry op.series ((s.entry op.series).taken h)).modOp fun op =>
        { op with snapOldest := h.oldest, snapHead := h.head, snapStamp := h.lastStamp, lastStamp := h.firstStamp }
      if h.records = 0 then s.completeRecover else s.recoverPage 1

/-- The header read of a RECOVER has ended: the tests of R163 in order, then the stripe step. The header taken carries the
base of the range, so a base override stands in the report (log 23). -/
def State.recoverHeader (op : ImageOp) (t : Transfer) (s : State) : State :=
  let (cls, bytes) := classPage (bytesOfWords t.words) t.timedOut
  let h := headerOf bytes
  if cls = .uncorrectable then s.endOp .imageDamaged []
  else if magicOk bytes = false ∨ byteAt bytes 4 ≠ 1 then s.endOp .imageDamaged []
  else if pageIndexOf bytes ≠ 0 ∨ pageRecordsOf bytes ≠ 0 ∨ pageGenerationOf bytes = 0
      ∨ pageGenerationOf bytes ≠ h.generation then s.endOp .imageDamaged []
  else if h.consistent s.port.slotPages = false then s.endOp .imageDamaged []
  else if h.state ≠ 1 then
    (s.modOp fun op => { op with generation := h.generation }).endOp .imageIncomplete []
  else s.stripeStep op { h with base := op.baseOverride.getD h.base }

/-- The records formed from a page are issued as writes, and the next page is read (R165). -/
def State.issueFormed (s : State) : State :=
  match s.port.op with
  | none => s
  | some op =>
    let e := s.entry op.series
    let s := s.modOp fun op => { op with formed := [] }
    let s := forEach (e.cut op.pageFirst op.formed.length) (fun part =>
      State.issue (e.txn .recoverWrite .write part.1 part.2
        ((op.formed.drop (part.1 - op.pageFirst)).take part.2))) s
    if op.page < dataPages op.records then s.recoverPage (op.page + 1) else s

/-- A data page of a RECOVER has been read: it is judged and its records are formed (R165). -/
def State.recoverData (op : ImageOp) (h : ImageHeader) (t : Transfer) (s : State) : State :=
  let (cls, bytes) := classPage (bytesOfWords t.words) t.timedOut
  let n := op.pageRecords
  let sound := pageSound cls bytes h op.page n op.lastStamp
  let lanes := h.lanes.toNat
  let rs := if sound then (recordsOf n bytes).map (maskLanes lanes) else List.replicate n (damagedRecord lanes op.lastStamp)
  let s := s.modOp fun op => { op with
    formed := rs
    lastStamp := (rs.getLast?.map Record.stamp).getD op.lastStamp
    damaged := op.damaged + (!sound).toNat
    timedOut := op.timedOut + t.timedOut.toNat
    corrected := op.corrected + (sound && cls == .corrected).toNat }
  if s.imageOutstanding then s else s.issueFormed

/-- A page transfer of a RECOVER has ended (R163, R165). -/
def State.recoverPageEnd (op : ImageOp) (t : Transfer) (s : State) : State :=
  match op.phase, op.header with
  | .headerRead, _ => s.recoverHeader op t
  | .pageRead, some h => s.recoverData op h t
  | _, _ => s

/-- RECOVER, admitted under `tag` (R162). -/
def takeRecover (tag slot target basePresence : Byte) (base : Half) (s : State) : State :=
  let override := (optional basePresence base).map BitVec.toNat
  match seriesOf target with
  | none => s.badValue tag .recover 0xFF
  | some i =>
    if s.port.slotCount ≤ slot.toNat ∨ 32767 < override.getD 0 then s.badValue tag .recover 0xFF
    else if (s.entry i).state ≠ .free ∧ (s.entry i).state ≠ .lost then s.respond tag .recover .seriesExists []
    else if (allDies.any fun d => (s.die d).usable) = false then s.respond tag .recover .notReady []
    else if s.port.op.isSome then s.respond tag .recover .busy []
    else
      (s.modPort fun p =>
        { p with op := some { ImageOp.start .recover tag slot.toNat i with baseOverride := override } }).startPage
        .read slot.toNat 0 []

/-- A RECOVER has passed its stripe step (R164, R167). -/
def ImageOp.striped (op : ImageOp) : Bool := op.kind == .recover && op.phase == .pageRead

/-- CANCEL reaches the image operation (R161, R167): a RECOVER past its stripe step leaves its target LOST. -/
def State.cancelOp (s : State) : State :=
  match s.port.op with
  | none => s
  | some op =>
    if op.striped then (s.setEntry op.series (s.entry op.series).toLost).endOp .cancelled []
    else s.endOp .cancelled []

/-! ### Completions of the operation's transactions (R159, R165, R166) -/

/-- The records of a preserve read go into the page being built, or the operation is OVERTAKEN (R159). -/
def State.preserveRead (op : ImageOp) (first : Nat) (second : Bool) (data : List Record) (s : State) : State :=
  if first < (s.entry op.series).oldest then s.endOp .overtaken []
  else
    let s := s.modOp fun op => if second then { op with half1 := data } else { op with half0 := data }
    if s.imageOutstanding then s else s.writePage

/-- PRESERVE_READ_COMPLETE (R159, R97). -/
def preserveReadComplete (d : Fin 2) (b : Fin 8) (s : State) : State :=
  match s.issuedAt d b with
  | none => s
  | some t =>
    match t.origin with
    | .preserveRead first second =>
      let s := s.completeRead d b
      (match s.port.op with
        | some op => if t.live then s.preserveRead op first second t.data else s.finishOp
        | none => s).checkReset
    | _ => s

/-- A recover write of an operation not ended has completed (R165, R166). -/
def State.recoverWritten (op : ImageOp) (s : State) : State :=
  if s.imageOutstanding then s
  else if op.formed ≠ [] then s.issueFormed
  else if dataPages op.records ≤ op.page ∧ s.port.transfer = none then s.completeRecover
  else s

/-- RECOVER_WRITE_COMPLETE (R166, R97). -/
def recoverWriteComplete (d : Fin 2) (b : Fin 8) (s : State) : State :=
  match s.issuedAt d b with
  | none => s
  | some t =>
    match t.origin with
    | .recoverWrite =>
      let s := s.completeWrite d b t
      (match s.port.op with
        | some op => if t.live then s.recoverWritten op else s.finishOp
        | none => s).checkReset
    | _ => s

/-! ### Accesses (R147 to R149) -/

/-- A page transfer has ended: what its operation does next (R156, R158 to R160, R163, R165, R169). -/
def State.pageEnd (t : Transfer) (s : State) : State :=
  match s.port.op with
  | none => s
  | some op =>
    if op.abandoned then s.modPort fun p => { p with op := none }
    else if op.result.isSome then s.finishOp
    else
      match op.kind with
      | .preserve => s.preservePageEnd op t
      | .recover => s.recoverPageEnd op t

/-- The operation wants no further access of the page (R156, R169). -/
def Port.opOver (p : Port) : Bool :=
  match p.op with
  | none => true
  | some op => op.result.isSome || op.abandoned

/-- PORT_ACCESS_END (R147, R149): with PWAIT active the strobe is extended by a cycle; else the access ends, a READ takes
the word, and the next access of the page begins or the page transfer ends. -/
def portAccessEnd (pwait : Bool) (word : Half) (s : State) : State :=
  match s.port.transfer with
  | none => s
  | some t =>
    if t.begun = false then s
    else if t.timedOut = false ∧ s.port.waits pwait = true then
      if t.extension < s.port.extensionLimit then s.setTransfer (some { t with extension := t.extension + 1 }) else s
    else
      let t := match t.dir with
        | .read => { t with words := t.words ++ [word] }
        | .write => t
      if t.timedOut ∨ 263 ≤ t.index ∨ s.port.opOver then ((s.setTransfer none).pageEnd t).checkReset
      else s.setTransfer (some { t with index := t.index + 1, extension := 0 })

/-- ACCESS_TIMEOUT (R149): the extension is at its limit with PWAIT still active. -/
def accessTimeout (pwait : Bool) (s : State) : State :=
  match s.port.transfer with
  | none => s
  | some t =>
    if t.begun = true ∧ t.timedOut = false ∧ s.port.waits pwait = true then
      s.setTransfer (some { t with extension := s.port.extensionLimit, timedOut := true })
    else s

/-- TURNAROUND_ELAPSED (R148): the access that waited begins, and its direction is the one remembered. -/
def turnaroundElapsed (s : State) : State :=
  match s.port.transfer with
  | none => s
  | some t =>
    if t.begun then s
    else (s.setTransfer (some { t with begun := true })).modPort fun p => { p with lastDir := t.dir }

/-! ### SET_PRESERVE_PORT (R151) -/

/-- SET_PRESERVE_PORT, admitted under `tag` (R151). -/
def takeSetPreservePort (tag : Byte) (f : PortFields) (s : State) : State :=
  if s.port.op.isSome then s.respond tag .setPreservePort .busy []
  else
    match portFault f with
    | some i => s.badValue tag .setPreservePort (BitVec.ofNat 8 i)
    | none =>
      let old := s.port.settings
      let s := s.modPort fun p => { p with settings := f }
      let s :=
        if f.slotPages ≠ old.slotPages then s.unclaimSlots fun _ => true
        else if f.slotCount ≠ old.slotCount then s.unclaimSlots fun c => f.slotCount.toNat ≤ c.slot
        else s
      s.respond tag .setPreservePort .ok []

/-! ### The rows of this family -/

/-- TURNAROUND_ELAPSED (R148). -/
def execTurnaroundElapsed (s : State) : Answer := .next (turnaroundElapsed s)

/-- PORT_ACCESS_END (R147). -/
def execPortAccessEnd (pwait : Bool) (word : Half) (s : State) : Answer := .next (portAccessEnd pwait word s)

/-- ACCESS_TIMEOUT (R149). -/
def execAccessTimeout (pwait : Bool) (s : State) : Answer := .next (accessTimeout pwait s)

/-- PRESERVE_READ_COMPLETE (R159). -/
def execPreserveReadComplete (d : Fin 2) (b : Fin 8) (s : State) : Answer := .next (preserveReadComplete d b s)

/-- RECOVER_WRITE_COMPLETE (R166). -/
def execRecoverWriteComplete (d : Fin 2) (b : Fin 8) (s : State) : Answer := .next (recoverWriteComplete d b s)

end Sys2Proof.Machine
end

