-- ==== Sys2Proof/Machine/Series.lean ====
section
/-! DEFINITION. The store unit and its directory requests: CREATE, DESCRIBE, SEAL, APPEND, FETCH, DROP, the completions of
batch writes and fetch reads, and the end of a series' work when it enters LOST (R20 to R46, R118). -/

namespace Sys2Proof.Machine

/-! ### CREATE and DESCRIBE (R20 to R22) -/

/-- The entry that CREATE makes (R21). -/
def Entry.created (base count lanes : Nat) (policy : Policy) : Entry where
  state := .opened
  base := base
  count := count
  lanes := lanes
  policy := policy
  reserved := 0
  committed := 0
  oldest := 0
  lastReserved := 0
  lastCommitted := 0
  dirty := true
  image := none
  batches := []

/-- The image operation record names the id as the target of a RECOVER (R16, R20). -/
def Port.recovering (p : Port) (i : Fin 32) : Bool :=
  match p.op with
  | none => false
  | some op => op.kind == .recover && op.series == i

/-- CREATE, admitted under `tag` (R20, R21). -/
def takeCreate (tag series : Byte) (base count : Half) (lanes policy : Byte) (s : State) : State :=
  if (allDies.any fun d => (s.die d).usable) = false then s.respond tag .create .notReady []
  else
    match seriesOf series, policyOf policy with
    | some i, some p =>
      if within 1 4096 count.toNat = false ∨ within 1 6 lanes.toNat = false then s.badValue tag .create 0xFF
      else if (s.entry i).state ≠ .free ∨ s.port.recovering i = true then s.respond tag .create .seriesExists []
      else if 32768 < base.toNat + count.toNat then s.badValue tag .create 0xFF
      else if s.rangeUsable base.toNat count.toNat = false then s.respond tag .create .noMemory []
      else
        match s.overlapping base.toNat count.toNat none with
        | some j => s.respond tag .create .overlap [BitVec.ofNat 8 j.val]
        | none =>
          let e := Entry.created base.toNat count.toNat lanes.toNat p
          (s.setEntry i e).respond tag .create .ok ([series] ++ leBytes 4 e.capacity)
    | _, _ => s.badValue tag .create 0xFF

/-- The DESCRIBE fields of an entry, from byte 2 (R22, R189). -/
def Entry.describe (e : Entry) (series : Byte) : List Byte :=
  [series, e.state.code] ++ leBytes 2 e.base ++ leBytes 2 e.count ++ leBytes 4 e.capacity
    ++ [BitVec.ofNat 8 e.lanes, e.policy.code] ++ leBytes 4 e.reserved ++ leBytes 4 e.committed ++ leBytes 4 e.oldest
    ++ leBytes 4 (e.committed - e.oldest) ++ fieldBytes e.lastReserved ++ fieldBytes e.lastCommitted
    ++ [flagByte e.dirty]
    ++ (match e.image with
        | some c => [BitVec.ofNat 8 c.slot] ++ leBytes 4 c.head
        | none => [0xFF] ++ leBytes 4 0)
    ++ [BitVec.ofNat 8 e.batches.length]

/-- DESCRIBE, admitted under `tag` (R22). -/
def takeDescribe (tag series : Byte) (s : State) : State :=
  match seriesOf series with
  | none => s.badValue tag .describe 0xFF
  | some i =>
    if (s.entry i).state = .free then s.respond tag .describe .noSeries []
    else s.respond tag .describe .ok ((s.entry i).describe series)

/-! ### SEAL (R37) -/

/-- SEAL, admitted under `tag` (R37). -/
def takeSeal (tag series : Byte) (s : State) : State :=
  match seriesOf series with
  | none => s.badValue tag .seal 0xFF
  | some i =>
    let e := s.entry i
    match refusalToWrite e.state with
    | some r => s.respond tag .seal r []
    | none =>
      (s.setEntry i { e with state := .sealed, dirty := true }).respond tag .seal .ok
        ([series] ++ leBytes 4 e.reserved ++ [BitVec.ofNat 8 e.batches.length])

/-! ### APPEND (R25 to R27) -/

/-- The index of the first record out of order after a record with stamp `last`, counting from `index` (R25). -/
def firstDisorder : Nat → Nat → List Record → Option Nat
  | _, _, [] => none
  | index, last, r :: rs =>
    if r.stamp.toNat < last then some index else firstDisorder (index + 1) r.stamp.toNat rs

/-- The stamp of the last record, `last` where there is none. -/
def lastStampOf (last : Stamp) (rs : List Record) : Stamp := (rs.getLast?.map Record.stamp).getD last

/-- The entry as the admission of a batch of `n` records leaves it (R26). -/
def Entry.withBatch (e : Entry) (tag : Byte) (rs : List Record) : Entry :=
  let h := e.reserved
  let n := rs.length
  let last := lastStampOf e.lastReserved rs
  { e with
    reserved := h + n
    lastReserved := last
    oldest := if e.policy = .wrap ∧ e.capacity < h + n - e.oldest then h + n - e.capacity else e.oldest
    batches := e.batches ++ [⟨tag, h, n, (e.cut h n).length, 0, last, 0⟩] }

/-- The writes of a batch, the first part before the second (R27). `e` is the entry before the admission. -/
def Entry.batchWrites (e : Entry) (i : Fin 32) (tag : Byte) (rs : List Record) : List Txn :=
  (e.cut e.reserved rs.length).map fun part =>
    e.txn (.batch i tag) .write part.1 part.2
      (((rs.drop (part.1 - e.reserved)).take part.2).map (maskLanes e.lanes))

/-- Transactions issued one after the other (R95). -/
def State.issueAll (ts : List Txn) (s : State) : State := forEach ts State.issue s

/-- The check of R25 that refuses an APPEND to an entry that can be written, if any: checks 4 to 8. -/
def Entry.appendFault (e : Entry) (count : Nat) (rs : List Record) : Option (Result × List Byte) :=
  if within 1 30 count = false then some (.badValue, [0xFF])
  else if rs.length ≠ count then some (.badLength, [])
  else
    match firstDisorder 0 e.lastReserved.toNat rs with
    | some index => some (.order, [BitVec.ofNat 8 index] ++ fieldBytes e.lastReserved)
    | none =>
      if 4294967295 < e.reserved + count then some (.seqExhausted, leBytes 4 e.reserved)
      else if e.policy = .halt ∧ e.capacity < e.reserved + count - e.oldest then
        some (.full, [BitVec.ofNat 8 (e.capacity - e.fill)])
      else none

/-- APPEND, admitted under `tag` (R25 to R27). -/
def takeAppend (tag series count : Byte) (rs : List Record) (s : State) : State :=
  match seriesOf series with
  | none => s.badValue tag .append 0xFF
  | some i =>
    let e := s.entry i
    match refusalToWrite e.state with
    | some r => s.respond tag .append r []
    | none =>
      if s.rangeUsable e.base e.count = false then s.respond tag .append .notReady []
      else
        match e.appendFault count.toNat rs with
        | some (r, detail) => s.respond tag .append r detail
        | none => (s.setEntry i (e.withBatch tag rs)).issueAll (e.batchWrites i tag rs)

/-- The place of the next batch that becomes complete, after every batch of the list that is complete (R41). -/
def nextFinish (batches : List Batch) : Nat := batches.foldr (fun b n => max b.finish n) 0 + 1

/-- A batch with one more write completed; with its last write it takes its place among the complete ones (R28, R41). -/
def Batch.counted (place : Nat) (b : Batch) : Batch :=
  { b with done := b.done + 1, finish := if b.writes ≤ b.done + 1 then place else b.finish }

/-- The pending batch list with one more write completed for the batch of `tag` (R28). -/
def countWrite (tag : Byte) (batches : List Batch) : List Batch :=
  batches.map fun b => if b.tag == tag then b.counted (nextFinish batches) else b

/-- A batch put before the first one of a list that became complete no sooner. -/
def Batch.putByFinish (b : Batch) : List Batch → List Batch
  | [] => [b]
  | c :: cs => if b.finish ≤ c.finish then b :: c :: cs else c :: b.putByFinish cs

/-- Batches in the order in which they became complete (R41). -/
def byFinish (batches : List Batch) : List Batch := batches.foldr Batch.putByFinish []

/-- The complete batches of a DROPPING entry leave the list and answer SERIES_GONE, in the order in which they became
complete (R40, R41). -/
def State.batchesGone (i : Fin 32) (s : State) : State :=
  let e := s.entry i
  forEach (byFinish (e.batches.filter Batch.complete)) (fun b s => s.respond b.tag .append .seriesGone [])
    (s.setEntry i { e with batches := e.batches.filter fun b => !b.complete })

/-- A write of a pending batch has completed (R28 to R30, R41). -/
def State.batchWritten (i : Fin 32) (tag : Byte) (s : State) : State :=
  let e := { s.entry i with batches := countWrite tag (s.entry i).batches }
  let s := s.setEntry i e
  if e.state = .dropping then (s.batchesGone i).checkDrop i else s.commits i e.batches

/-- BATCH_WRITE_COMPLETE (R28, R97). -/
def batchWriteComplete (d : Fin 2) (b : Fin 8) (s : State) : State :=
  match s.issuedAt d b with
  | none => s
  | some t =>
    match t.origin with
    | .batch i tag =>
      let s := s.completeWrite d b t
      (if t.live then s.batchWritten i tag else s).checkReset
    | _ => s

/-! ### FETCH (R33 to R35, R42) -/

/-- FETCH, admitted under `tag` (R33, R34). -/
def takeFetch (tag series : Byte) (first : BitVec 32) (count : Byte) (s : State) : State :=
  match seriesOf series with
  | none => s.badValue tag .fetch 0xFF
  | some i =>
    let e := s.entry i
    match refusalToRead e.state with
    | some r => s.respond tag .fetch r []
    | none =>
      if s.rangeUsable e.base e.count = false then s.respond tag .fetch .notReady []
      else if within 1 30 count.toNat = false then s.badValue tag .fetch 0xFF
      else if first.toNat < e.oldest ∨ e.committed < first.toNat + count.toNat then
        s.respond tag .fetch .range (leBytes 4 e.oldest ++ leBytes 4 e.committed)
      else
        let parts := e.cut first.toNat count.toNat
        (s.setFetches (s.fetches ++ [⟨tag, i, first.toNat, count.toNat, parts.length, 0, [], []⟩])).issueAll
          (parts.map fun part => e.txn (.fetch tag (part.1 != first.toNat)) .read part.1 part.2 [])

/-- How many numbers of the fetch lie below oldest (R35). -/
def Fetch.overtaken (f : Fetch) (oldest : Nat) : Nat := min (oldest - f.first) f.count

/-- The fields of a fetch's OK or OVERTAKEN response (R35, R189). -/
def Fetch.fields (f : Fetch) (k : Nat) : List Byte :=
  [BitVec.ofNat 8 f.series.val] ++ leBytes 4 (f.first + k) ++ [BitVec.ofNat 8 (f.count - k)]
    ++ recordsBytes ((f.part0 ++ f.part1).drop k)

/-- The fetch with the records of one read in its room (R34). -/
def Fetch.take (f : Fetch) (second : Bool) (data : List Record) : Fetch :=
  if second then { f with done := f.done + 1, part1 := data } else { f with done := f.done + 1, part0 := data }

/-- A fetch leaves the store unit. -/
def State.endFetch (tag : Byte) (s : State) : State := s.setFetches (s.fetches.filter fun f => f.tag != tag)

/-- The last read of a fetch has completed: its final response (R35, R42). -/
def State.answerFetch (f : Fetch) (s : State) : State :=
  let e := s.entry f.series
  let k := f.overtaken e.oldest
  ((if e.state = .dropping then s.respond f.tag .fetch .seriesGone []
    else s.respond f.tag .fetch (if k = 0 then .ok else .overtaken) (f.fields k)).endFetch f.tag).checkDrop f.series

/-- A read of a fetch has completed (R34). -/
def State.fetchRead (tag : Byte) (second : Bool) (data : List Record) (s : State) : State :=
  match s.fetches.find? fun f => f.tag == tag with
  | none => s
  | some f =>
    let f := f.take second data
    if f.reads ≤ f.done then s.answerFetch f
    else s.setFetches (s.fetches.map fun g => if g.tag == tag then f else g)

/-- FETCH_READ_COMPLETE (R34, R35, R97). -/
def fetchReadComplete (d : Fin 2) (b : Fin 8) (s : State) : State :=
  match s.issuedAt d b with
  | none => s
  | some t =>
    match t.origin with
    | .fetch tag second =>
      let s := s.completeRead d b
      (if t.live then s.fetchRead tag second t.data else s).checkReset
    | _ => s

/-! ### DROP (R39, R40) -/

/-- The scans on a series end, in a free order where there are several (R80, R81, log 6). -/
def State.endScansOf (i : Fin 32) (r : EndReason) (s : State) : State :=
  let mine := allCtxs.filter fun k => match s.ctx k with
    | some c => c.series == i && c.state != .draining
    | none => false
  let (order, s) := s.freely mine
  forEach order (fun k => State.endScan k r) s

/-- The DROP waits, and the work in flight is told (R40): complete batches, then scans, then the PRESERVE (log 34). -/
def State.beginDrop (i : Fin 32) (tag : Byte) (s : State) : State :=
  let s := (s.setEntry i { s.entry i with state := .dropping }).setDrops (s.drops ++ [⟨tag, i⟩])
  let s := (s.batchesGone i).endScansOf i .seriesGone
  (if s.port.preserving i then s.endOp .seriesGone [] else s).checkDrop i

/-- DROP, admitted under `tag` (R39, R40). -/
def takeDrop (tag series : Byte) (s : State) : State :=
  match seriesOf series with
  | none => s.badValue tag .drop 0xFF
  | some i =>
    let e := s.entry i
    match refusalToDrop e.state with
    | some r => s.respond tag .drop r []
    | none =>
      if e.state = .lost ∨ s.inFlight i = false then (s.freeEntry i).respond tag .drop .ok [series]
      else s.beginDrop i tag

/-! ### A series enters LOST (R17, R32, R36, R44, R81, R161, R167) -/

/-- The pending batches of an entry answer LOST in list order, and their writes are withdrawn (R32, R44). -/
def State.loseBatches (i : Fin 32) (batches : List Batch) (s : State) : State :=
  (forEach batches (fun b s => s.respond b.tag .append .lost []) s).withdraw fun t => t.origin.ofBatches i

/-- The fetches of a series end with LOST, in a free order where there are several (R36, R44, log 6). -/
def State.loseFetches (i : Fin 32) (s : State) : State :=
  let (order, s) := s.freely (s.fetches.filter fun f => f.series == i)
  forEach order (fun f s =>
    ((s.respond f.tag .fetch .lost []).endFetch f.tag).withdraw fun t => t.origin.ofFetch f.tag) s

/-- The image operation depends on the series: a PRESERVE of it, or a RECOVER into it past its stripe step (R161, R167). -/
def Port.worksOn (p : Port) (i : Fin 32) : Bool :=
  match p.op with
  | none => false
  | some op => op.series == i && (op.kind == .preserve || op.striped)

/-- The readers of a series end with LOST (R36, R81, R161, R167). -/
def State.loseReaders (i : Fin 32) (s : State) : State :=
  let s := (s.loseFetches i).endScansOf i .lost
  if s.port.worksOn i then s.endOp .lost [] else s

/-- What a refresh overrun does to one entry on the die (R118, R44). -/
def State.overrunEntry (i : Fin 32) (s : State) : State :=
  let e := s.entry i
  match e.state with
  | .opened | .sealed | .recovering => ((s.setEntry i e.toLost).loseBatches i e.batches).loseReaders i
  | .dropping =>
    (((s.setEntry i { e with batches := [] }).loseBatches i e.batches).loseReaders i).checkDrop i
  | .free | .lost => s

/-! ### The rows of this family -/

/-- BATCH_WRITE_COMPLETE (R28). -/
def execBatchWriteComplete (d : Fin 2) (b : Fin 8) (s : State) : Answer := .next (batchWriteComplete d b s)

/-- FETCH_READ_COMPLETE (R35). -/
def execFetchReadComplete (d : Fin 2) (b : Fin 8) (s : State) : Answer := .next (fetchReadComplete d b s)

end Sys2Proof.Machine
end

