-- ==== Sys2Proof/Machine/Monitor.lean ====
section
/-! DEFINITION. Refresh, sampling, temperature, drift, the calibration reference, and the requests SET_MONITOR and
CALIBRATE, with the end of an identity read (R107, R108, R115 to R133, R137). -/

namespace Sys2Proof.Machine

/-! ### Refresh (R115 to R118) -/

/-- The refresh period of a die (R115). -/
def State.refreshPeriod (s : State) (d : Fin 2) : Nat :=
  let interval := s.arr.timing.refreshInterval.toNat
  if (s.die d).hot then interval / 2 else interval

/-- The entries that a refresh overrun on the die touches (R118). -/
def State.overrunSeries (s : State) (d : Fin 2) : List (Fin 32) :=
  allSeries.filter fun i => (s.entry i).state != .free && (s.entry i).state != .lost && (s.entry i).onDie d

/-- A refresh overrun on the die (R118); entries touched together have a free order (log 6). -/
def State.overrun (d : Fin 2) (s : State) : State :=
  let s := s.setDie d { s.die d with overruns := min 255 ((s.die d).overruns + 1) }
  let (order, s) := s.freely (s.overrunSeries d)
  (forEach order State.overrunEntry s).raise (.refreshMissed d)

/-- The debt after an expiry below 8, and the hold that an expiry to 6 sets (R115, R117). -/
def Die.owe (x : Die) : Die := { x with debt := x.debt + 1, holdRefresh := x.holdRefresh || x.debt + 1 == 6 }

/-- The timer of the die expires (R115, R117, R118). -/
def State.expire (d : Fin 2) (s : State) : State :=
  let s := s.setDie d { s.die d with timer := some 0 }
  if (s.die d).debt < 8 then s.setDie d (s.die d).owe else s.overrun d

/-- REFRESH_TIMER_EXPIRY (R115). -/
def refreshTimerExpiry (d : Fin 2) (s : State) : State := if (s.die d).timer.isSome then s.expire d else s

/-- A drained die starts a refresh: under its hold, when due, or to settle its debt before rest (R104, R116, R117, R137). -/
def State.wantsRefresh (s : State) (d : Fin 2) : Bool :=
  let x := s.die d
  x.holdRefresh || (!x.holdCal && (s.dueRefresh d || (x.restTarget == .rest && 0 < x.debt)))

/-- REFRESH_START (R104). -/
def refreshStart (d : Fin 2) (s : State) : State :=
  if (s.die d).drained && s.wantsRefresh d then
    s.setDie d { s.die d with activity := .refreshing, path := .refresh }
  else s

/-- The die record at the end of a refresh (R116, R117). -/
def Die.refreshed (x : Die) : Die :=
  { x with debt := x.debt - 1, holdRefresh := x.holdRefresh && 1 < x.debt, activity := .none, path := .free }

/-- REFRESH_END (R116, R117); the last settlement refresh and the arrival in RESTING are one change (R138). -/
def refreshEnd (d : Fin 2) (s : State) : State :=
  if (s.die d).activity = .refreshing then enterResting d (s.setDie d (s.die d).refreshed) else s

/-! ### The reference arbiter (R125 to R128) -/

/-- The die has a pending request. -/
def State.calPending (s : State) (d : Fin 2) : Bool :=
  match (s.dieMon d).req with
  | some r => r.stage == .pending
  | none => false

/-- The moment of the first making of a die's request. -/
def State.calMade (s : State) (d : Fin 2) : Nat :=
  match (s.dieMon d).req with
  | some r => r.made
  | none => 0

/-- The die whose pending request the arbiter grants: drift hold first, then the earlier request (R126). -/
def State.calChoice (s : State) : Option (Fin 2) :=
  if s.calPending 0 && s.calPending 1 then
    if (s.die 0).driftHold && !(s.die 1).driftHold then some 0
    else if (s.die 1).driftHold && !(s.die 0).driftHold then some 1
    else if s.calMade 0 ≤ s.calMade 1 then some 0 else some 1
  else if s.calPending 0 then some 0
  else if s.calPending 1 then some 1
  else none

/-- The stage of a die's request changes. -/
def State.setCalStage (d : Fin 2) (stage : CalStage) (s : State) : State :=
  s.setDieMon d { s.dieMon d with req := (s.dieMon d).req.map fun r => { r with stage := stage } }

/-- The calibration of the die's request begins (step 2 of R127). -/
def State.beginCal (d : Fin 2) (s : State) : State :=
  match (s.dieMon d).req with
  | none => s
  | some r =>
    (s.setCalStage d .running).setDie d { s.die d with activity := .calibrating r.kind, path := .calibration }

/-- The reference goes to a die: an INITIALIZING die begins at once, a READY die is held (step 1 of R127, R108). -/
def State.grantTo (d : Fin 2) (s : State) : State :=
  let s := (s.modMon fun m => { m with reference := some d }).setCalStage d .granted
  if (s.die d).state = .initializing then s.beginCal d else s.setDie d { s.die d with holdCal := true }

/-- The arbiter grants the reference if it is free and a request is pending (R126). -/
def State.tryGrant (s : State) : State :=
  match s.mon.reference, s.calChoice with
  | none, some d => s.grantTo d
  | _, _ => s

/-- The code of a calibration outcome: DONE 0, DEFAULT 1. -/
def calOutcome (done : Bool) : Byte := if done then 0 else 1

/-- The fields of a CALIBRATE response (R130, R189). -/
def State.calFields (s : State) (d : Fin 2) (kind : CalKind) (done : Bool) : List Byte :=
  [BitVec.ofNat 8 d.val, kind.code, calOutcome done]
    ++ (match (s.dieMon d).base with
        | some b => [temperatureByte b.tcal] ++ leBytes 2 b.vcal
        | none => [temperatureByte (-128)] ++ leBytes 2 0)

/-- The baselines that a calibration records: the latest temperature and the latest supply sample (R127, log 28). -/
def State.newBase (s : State) (d : Fin 2) : Option Baselines :=
  match (s.dieMon d).temp with
  | some t => some ⟨t, s.mon.supply⟩
  | none => (s.dieMon d).base

/-- What every end of a calibration does: baselines, drift 0, drift hold clear, an INITIALIZING die READY, and the answers,
in the order in which their CALIBRATEs joined (step 3 of R127, R108, R109, R128, log 36). -/
def State.recordCal (d : Fin 2) (kind : CalKind) (joined : List Byte) (done : Bool) (s : State) : State :=
  let s := s.setDieMon d { s.dieMon d with base := s.newBase d, drift := 0, req := none }
  let s := s.setDie d { s.die d with driftHold := false }
  let s := if (s.die d).state = .initializing then s.setDie d (s.die d).ready else s
  (forEach joined (fun tag s => s.respond tag .calibrate .ok (s.calFields d kind done)) s).checkStart

/-- The kind of a request that another one joins (R125). -/
def CalReq.joinKind (r : CalReq) (kind : CalKind) : CalKind :=
  match r.stage, kind with
  | .running, _ => r.kind
  | _, .long => .long
  | _, .short => r.kind

/-- A calibration request is made, or joins the one the die has; without a reference it ends at once (R125, R126, R128). -/
def State.requestCal (d : Fin 2) (kind : CalKind) (joined : List Byte) (s : State) : State :=
  if s.arr.fitted then
    match (s.dieMon d).req with
    | some r =>
      s.setDieMon d { s.dieMon d with req := some { r with kind := r.joinKind kind, joined := r.joined ++ joined } }
    | none =>
      ((s.setDieMon d { s.dieMon d with req := some ⟨kind, .pending, s.mon.made, joined⟩ }).modMon fun m =>
        { m with made := m.made + 1 }).tryGrant
  else s.recordCal d kind joined false

/-- CALIBRATION_START of a drained READY die that holds the reference (R104, R127). -/
def calibrationStart (d : Fin 2) (s : State) : State :=
  if (s.die d).drained && (s.die d).holdCal && !(s.die d).holdRefresh then s.beginCal d else s

/-- The die record at the end of a calibration (R127). -/
def Die.calibrated (x : Die) : Die := { x with holdCal := false, activity := .none, path := .free }

/-- CALIBRATION_END (step 3 of R127). -/
def calibrationEnd (d : Fin 2) (s : State) : State :=
  match (s.dieMon d).req with
  | none => s
  | some r =>
    if r.stage = .running then
      (((s.setDie d (s.die d).calibrated).modMon fun m => { m with reference := none }).recordCal d r.kind r.joined
        true).tryGrant
    else s

/-! ### Sampling (R120) -/

/-- A status read of the die is WAITING, waiting for room or ISSUED (R120). -/
def State.statusOutstanding (s : State) (d : Fin 2) : Bool :=
  s.arr.queue.any (fun t => t.isStatus d)
    || s.arr.waiting.any fun t => t.isStatus d

/-- The monitor issues a status read for a READY die that has none outstanding (R120). -/
def State.readStatus (d : Fin 2) (s : State) : State :=
  if (s.die d).state = .ready ∧ s.statusOutstanding d = false then s.issue (statusTxn d) else s

/-- A sample of the supply, the timer restarted, and the status reads in the order given (R120, R95). -/
def State.takeSample (supply : Nat) (order : List (Fin 2)) (s : State) : State :=
  forEach order State.readStatus (s.modMon fun m => { m with supply := supply, sinceMs := 0, subMs := 0 })

/-- The other die. -/
def otherDie (d : Fin 2) : Fin 2 := if d = 0 then 1 else 0

/-- SAMPLE (R120). -/
def sample (supply : Nat) (firstDie : Fin 2) (s : State) : State := s.takeSample supply [firstDie, otherDie firstDie]

/-- A sample that no command carries: its measurement and the order of its status reads are free (log 6, log 7). -/
def State.sampleFree (s : State) : State :=
  let supply := Config.supplyMeasured s.freeDraws % 2048
  let s := { s with freeDraws := s.freeDraws + 1 }
  let (order, s) := s.freely (allDies.filter fun d => (s.die d).state = .ready ∧ s.statusOutstanding d = false)
  s.takeSample supply order

/-! ### Temperature and drift (R121 to R124) -/

/-- The running timer is at or above the die's period (R115). -/
def State.overdue (s : State) (d : Fin 2) : Bool :=
  match (s.die d).timer with
  | some n => s.refreshPeriod d ≤ n
  | none => false

/-- The hot flag is tested against a temperature (R122); on the shorter period the timer may expire at once (R115). -/
def State.testHot (d : Fin 2) (t : Int) (s : State) : State :=
  let threshold : Int := s.mon.settings.hotThreshold.toNat
  if threshold ≤ t then
    if (s.die d).hot then s
    else
      let s := (s.setDie d { s.die d with hot := true }).raise (.hot d)
      if s.overdue d then s.expire d else s
  else if t ≤ threshold - 5 then s.setDie d { s.die d with hot := false }
  else s

/-- The drift of R123. -/
def State.driftOf (s : State) (t : Int) (b : Baselines) : Nat :=
  min 65535 (s.mon.settings.kT.toNat * (t - b.tcal).natAbs
    + s.mon.settings.kV.toNat * ((s.mon.supply : Int) - (b.vcal : Int)).natAbs)

/-- The hard limit: drift hold and CAL_OVERDUE, once (R124). -/
def State.applyHardLimit (d : Fin 2) (s : State) : State :=
  if s.mon.settings.hardLimit.toNat ≤ (s.dieMon d).drift ∧ (s.die d).driftHold = false then
    (s.setDie d { s.die d with driftHold := true }).raise (.calOverdue d)
  else s

/-- The due threshold and the hard limit, after a drift computation (R124). -/
def State.applyLimits (d : Fin 2) (s : State) : State :=
  if s.mon.settings.dueThreshold.toNat ≤ (s.dieMon d).drift then (s.requestCal d .short []).applyHardLimit d else s

/-- Step 3 of R121: the drift, where a reference is fitted and the die has baselines (R123, R124). -/
def State.computeDrift (d : Fin 2) (t : Int) (s : State) : State :=
  if s.arr.fitted then
    match (s.dieMon d).base with
    | some b => (s.setDieMon d { s.dieMon d with drift := s.driftOf t b }).applyLimits d
    | none => s
  else s

/-- Steps 1 and 2 of R121. -/
def State.takeTemperature (d : Fin 2) (t : Int) (s : State) : State :=
  (s.setDieMon d { s.dieMon d with temp := some t }).testHot d t

/-- STATUS_READ_COMPLETE (R97, R101, R121). -/
def statusReadComplete (d : Fin 2) (t : Int) (s : State) : State :=
  match s.issuedStatus d with
  | none => s
  | some _ =>
    let s := s.leaveQueue fun t => t.issued && t.isStatus d
    let s := s.setDie d { s.die d with activity := .none, path := .free }
    (s.takeTemperature d t).computeDrift d t

/-! ### The end of an identity read (R107, R108) -/

/-- IDENTITY_READ_END (R107, R108, R109). -/
def identityReadEnd (d : Fin 2) (answer : IdentityAnswer) (s : State) : State :=
  if (s.die d).state = .initializing ∧ (s.die d).path = .identityRead then
    match answer with
    | .arrayCode t => ((s.setDie d { s.die d with path := .free }).takeTemperature d t).requestCal d .long []
    | .noAnswer | .otherCode =>
      (s.setDie d { s.die d with
        state := .missing, path := .free, timer := none, banks := Vector.replicate 8 Bank.idle }).checkStart
  else s

/-! ### SET_MONITOR and CALIBRATE (R130 to R132) -/

/-- SET_MONITOR, admitted under `tag` (R131, R132). -/
def takeSetMonitor (tag : Byte) (f : MonitorFields) (s : State) : State :=
  match monitorFault f with
  | some i => s.badValue tag .setMonitor (BitVec.ofNat 8 i)
  | none =>
    let s := (s.modMon fun m => { m with settings := f }).respond tag .setMonitor .ok []
    if f.sampleInterval.toNat ≤ s.mon.sinceMs then s.sampleFree else s

/-- CALIBRATE, admitted under `tag` (R130). -/
def takeCalibrate (tag die kind : Byte) (s : State) : State :=
  match dieOf die, calKindOf kind with
  | some d, some k =>
    if (s.die d).state ≠ .ready ∨ (s.die d).restTarget ≠ .none then s.respond tag .calibrate .state s.dieStates
    else s.requestCal d k [tag]
  | _, _ => s.badValue tag .calibrate 0xFF

/-! ### The rows of this family -/

/-- REFRESH_TIMER_EXPIRY (R115). -/
def execRefreshTimerExpiry (d : Fin 2) (s : State) : Answer := .next (refreshTimerExpiry d s)

/-- REFRESH_START (R104). -/
def execRefreshStart (d : Fin 2) (s : State) : Answer := .next (refreshStart d s)

/-- REFRESH_END (R116). -/
def execRefreshEnd (d : Fin 2) (s : State) : Answer := .next (refreshEnd d s)

/-- CALIBRATION_START (R127). -/
def execCalibrationStart (d : Fin 2) (s : State) : Answer := .next (calibrationStart d s)

/-- CALIBRATION_END (R127). -/
def execCalibrationEnd (d : Fin 2) (s : State) : Answer := .next (calibrationEnd d s)

/-- SAMPLE (R120). -/
def execSample (supply : Nat) (firstDie : Fin 2) (s : State) : Answer := .next (sample supply firstDie s)

/-- STATUS_READ_COMPLETE (R121). -/
def execStatusReadComplete (d : Fin 2) (t : Int) (s : State) : Answer := .next (statusReadComplete d t s)

/-- IDENTITY_READ_END (R107). -/
def execIdentityReadEnd (d : Fin 2) (answer : IdentityAnswer) (s : State) : Answer := .next (identityReadEnd d answer s)

end Sys2Proof.Machine
end

