-- ==== Sys2Proof/Machine/Clock.lean ====
section
/-! DEFINITION. The pins and the clock: POWER_ON_RESET, and one array clock cycle with nothing commanded (R23, R46, R61,
R87, R113, R115, R120, R133, R146, R169, R172, R186). -/

namespace Sys2Proof.Machine

/-! ### One array clock cycle (log 4) -/

/-- A running refresh timer counts one cycle (R115). -/
def State.countRefresh (d : Fin 2) (s : State) : State :=
  match (s.die d).timer with
  | some n => s.setDie d { s.die d with timer := some (n + 1) }
  | none => s

/-- The refresh timers count, and those at their period expire; two that expire together have a free order (R115, log 6). -/
def State.tickRefresh (s : State) : State :=
  let s := (s.countRefresh 0).countRefresh 1
  let (order, s) := s.freely (allDies.filter fun d => s.overdue d)
  forEach order State.expire s

/-- 32 byte-times in array cycles times the bit rate: 320 bit times of a second of 400,000,000 cycles (R170, log 27). -/
def idleLimit : Nat := 320 * 400000000

/-- The receiver's idle time counts, and ends a gap or SKIP (R172). -/
def State.tickLink (s : State) : State :=
  let s := s.modLink fun l => { l with rxIdle := l.rxIdle + 1 }
  let idle := s.link.rxIdle * bitRate s.link.rate
  if s.link.rx = .skip ∧ idleLimit ≤ idle then s.skipTimeout
  else if s.link.rx.inFrame = true ∧ idleLimit < idle then s.gapTimeout
  else s

/-- Array cycles of a millisecond at the nominal clock (log 4). -/
def cyclesPerMs : Nat := 400000

/-- The sample timer counts, and takes a sample at its interval (R120). -/
def State.tickSample (s : State) : State :=
  if s.mon.subMs + 1 < cyclesPerMs then s.modMon fun m => { m with subMs := m.subMs + 1 }
  else
    let s := s.modMon fun m => { m with subMs := 0, sinceMs := m.sinceMs + 1 }
    if s.mon.settings.sampleInterval.toNat ≤ s.mon.sinceMs then s.sampleFree else s

/-- One array clock cycle with nothing commanded (log 4). -/
def tick (s : State) : State := s.tickRefresh.tickLink.tickSample

/-! ### RESET_N (R186) -/

/-- POWER_ON_RESET: the machine after reset, with the supply sample taken at its end (R133, R186). The queue of commands
and the count of free draws are the model's own and stay. -/
def powerOnReset (supply : Nat) (s : State) : State :=
  { State.reset with pending := s.pending, freeDraws := s.freeDraws, mon := .reset0 supply }

/-- POWER_ON_RESET (R186). -/
def execPowerOnReset (supply : Nat) (s : State) : Answer := .next (powerOnReset supply s)

end Sys2Proof.Machine
end

