-- ==== Sys2Proof/Machine/Requests.lean ====
section
/-! DEFINITION. The request table and the link's own requests: admission and the frame checks, IDENTIFY, STATUS, SET_LINK,
CANCEL, RESET, the hand-over to each kind's owner, and a request's whole passage (R173, R179 to R185, R24, R46, R87, R114,
R133, R146, R169). -/

namespace Sys2Proof.Machine

/-! ### IDENTIFY and STATUS (R184, R189) -/

/-- The IDENTIFY fields from byte 2 (R184, R189). -/
def State.identity (s : State) : List Byte :=
  leBytes 2 0x0B3D ++ leBytes 2 608 ++ [1, 1, 32, 16, 32, 4, 32, 2, 8, 64] ++ [BitVec.ofNat 8 s.link.rate.val]

/-- IDENTIFY, admitted under `tag` (R184). -/
def takeIdentify (tag : Byte) (s : State) : State := s.respond tag .identify .ok s.identity

/-- Codes of chapter 10.6. -/
def RxState.code : RxState → Byte
  | .hunt => 0
  | .header => 1
  | .body => 2
  | .check => 3
  | .skip => 4

def BufState.code : BufState → Byte
  | .free => 0
  | .filling => 1
  | .held => 2
  | .resetHeld => 3

def EntryState.code : EntryState → Byte
  | .working => 0
  | .ending => 1

def RestTarget.code : RestTarget → Byte
  | .none => 0
  | .rest => 1
  | .deep => 2

def Activity.code : Activity → Byte
  | .none => 0
  | .refreshing => 1
  | .calibrating .short => 2
  | .calibrating .long => 3
  | .statusRead => 4

def Phase.code : Phase → Byte
  | .headerRead => 0
  | .headerWrite => 1
  | .pageRead => 2
  | .pageWrite => 3
  | .finalWrite => 4
  | .ending => 5

def ImageKind.code : ImageKind → Byte
  | .preserve => 1
  | .recover => 2

/-- The calibration request state: none 0, pending SHORT 1, pending LONG 2, in progress 3 (R125, R132). -/
def calRequestCode : Option CalReq → Byte
  | none => 0
  | some r =>
    match r.stage, r.kind with
    | .pending, .short => 1
    | .pending, .long => 2
    | .granted, _ => 3
    | .running, _ => 3

/-- The pending notices, added together (R189). -/
def State.noticeSet (s : State) : Byte :=
  let bit (n : Notice) (v : Nat) : Nat := if s.noticePending n then v else 0
  BitVec.ofNat 8 (bit .linkError 1 + bit (.hot 0) 2 + bit (.hot 1) 4 + bit (.calOverdue 0) 8 + bit (.calOverdue 1) 16
    + bit (.refreshMissed 0) 32 + bit (.refreshMissed 1) 64)

/-- Bytes 2 to 11: the link, with the table as `others` (R189, log 17). -/
def State.statusLink (s : State) (others : List TableEntry) : List Byte :=
  [BitVec.ofNat 8 s.link.rate.val, s.link.rx.code, (s.link.buf 0).state.code, (s.link.buf 1).state.code,
    BitVec.ofNat 8 s.queued, BitVec.ofNat 8 others.length, BitVec.ofNat 8 (32 - s.queued - others.length), s.noticeSet]
    ++ leBytes 2 s.link.discards

/-- Bytes 12 to 59: 16 table places in admission order (R189, log 10); all three bytes of an unused place are 0
(log 42). -/
def statusTable (others : List TableEntry) : List Byte :=
  (List.range 16).flatMap fun n =>
    match others[n]? with
    | some e => [e.tag, e.kind.code, e.state.code]
    | none => [0, 0, 0]

/-- A die's 9 bytes (R189). -/
def Die.statusBytes (x : Die) : List Byte :=
  [x.state.code, x.restTarget.code, x.activity.code, flagByte x.holdRefresh, flagByte x.holdCal, flagByte x.driftHold,
    BitVec.ofNat 8 x.debt, flagByte x.hot, BitVec.ofNat 8 x.overruns]

/-- A die's 7 monitor bytes (R189); absent values as R187 gives them. -/
def DieMonitor.statusBytes (x : DieMonitor) : List Byte :=
  [temperatureByte (x.temp.getD (-128)), temperatureByte ((x.base.map Baselines.tcal).getD (-128))]
    ++ leBytes 2 ((x.base.map Baselines.vcal).getD 0) ++ leBytes 2 x.drift ++ [calRequestCode x.req]

/-- A context's 2 bytes (R189). -/
def ctxStatus : Option Ctx → List Byte
  | some c => [c.state.code, c.tag]
  | none => [0, 0]

/-- The image operation's 6 bytes (R189); the five that follow the kind are 0 where it is none (log 41). -/
def opStatus : Option ImageOp → List Byte
  | some op => [op.kind.code, op.tag, BitVec.ofNat 8 op.slot, op.phase.code] ++ leBytes 2 op.page
  | none => List.replicate 6 0

/-- The STATUS fields from byte 2; `others` is the table without the STATUS itself (R184, R189, log 17). -/
def State.snapshot (s : State) (others : List TableEntry) : List Byte :=
  s.statusLink others ++ statusTable others ++ (s.die 0).statusBytes ++ (s.die 1).statusBytes
    ++ timingBytes s.arr.timing
    ++ [BitVec.ofNat 8 s.arr.queue.length, BitVec.ofNat 8 s.arr.waiting.length]
    ++ monitorBytes s.mon.settings ++ leBytes 2 s.mon.supply
    ++ (s.dieMon 0).statusBytes ++ (s.dieMon 1).statusBytes
    ++ allCtxs.flatMap (fun k => ctxStatus (s.ctx k))
    ++ portBytes s.port.settings ++ opStatus s.port.op

/-- STATUS, admitted under `tag` (R184). -/
def takeStatus (tag : Byte) (s : State) : State :=
  s.respond tag .status .ok (s.snapshot (s.table.filter fun e => e.tag != tag))

/-! ### SET_LINK and CANCEL (R185, R181) -/

/-- SET_LINK, admitted under `tag` (R185): the response is marked with the new rate. -/
def takeSetLink (tag code : Byte) (s : State) : State :=
  match rateOf code with
  | none => s.badValue tag .setLink 0xFF
  | some r => (s.enqueue { Frame.response tag .setLink .ok [code] with rateMark := some r }).release tag

/-- The context that serves a tag. -/
def State.ctxOf (s : State) (tag : Byte) : Option (Fin 4) :=
  allCtxs.find? fun k => match s.ctx k with
    | some c => c.tag == tag
    | none => false

/-- The scan of a tag ends CANCELLED (R79). -/
def State.cancelScan (target : Byte) (s : State) : State :=
  match s.ctxOf target with
  | some k => s.endScan k .cancelled
  | none => s

/-- CANCEL, admitted under `tag` (R181): its own response comes first. -/
def takeCancel (tag target : Byte) (s : State) : State :=
  match s.entryOf target with
  | none => s.respond tag .cancel .unknownTag []
  | some e =>
    match e.kind with
    | .scan => (s.respond tag .cancel .ok []).cancelScan target
    | .preserve | .recover => (s.respond tag .cancel .ok []).cancelOp
    | .identify | .status | .setLink | .cancel | .reset | .create | .seal | .drop | .describe | .append | .fetch
    | .startArray | .setArrayTiming | .power | .setMonitor | .calibrate | .setPreservePort =>
      s.respond tag .cancel .notCancellable []

/-! ### RESET (R182, R183) -/

/-- Whether a frame beside the RESET's own, in buffer `j`, is discarded: HELD or FILLING (step 1 of R182). -/
def Link.otherFrame (l : Link) (j : Fin 2) : Bool :=
  let x := (l.buf (if j = 0 then 1 else 0)).state
  x == .held || x == .filling

/-- The outbound queue at RESET: only a frame whose transmission has begun stays (step 3 of R182). -/
def Link.begunFrames (l : Link) : List Frame :=
  match l.tx with
  | some _ => l.queue.take 1
  | none => []

/-- Claims of notices go on waiting (step 3 of R182). -/
def Claimant.isNotice : Claimant → Bool
  | .notice _ => true
  | .decoder => false
  | .scan _ => false

/-- The link and the table as RESET takes them; its frame lies in buffer `j` (R182). -/
def State.resetLink (tag : Byte) (j : Fin 2) (s : State) : State :=
  let l := s.link
  let removed : ResetOp := ⟨tag, s.table.length, l.queue.length - l.begunFrames.length⟩
  let s := if l.otherFrame j then s.countDiscard else s
  (s.setTable [.admitted tag .reset]).modLink fun m =>
    { m with
      rx := if l.rx.inFrame then .skip else l.rx
      bufs := Vector.replicate 2 ⟨.resetHeld, []⟩
      heldOrder := []
      decoderSlot := false
      queue := l.begunFrames
      claims := l.claims.filter Claimant.isNotice
      reset := some removed }

/-- The directory and the store unit at RESET (R24, R46). -/
def State.resetStore (s : State) : State :=
  ((forEach allSeries (fun i s => s.setEntry i (s.entry i).afterReset) s).setFetches []).setDrops []

/-- The scan engine at RESET: every context is FREE at once (R87). -/
def State.resetScans (s : State) : State := { s with ctxs := Vector.replicate 4 none }

/-- The array controller and the rest state at RESET: no response is owed any more (R109, R112, R114, R146). -/
def State.resetArray (s : State) : State :=
  (s.withdraw fun t => t.origin != .statusRead).modArr fun a =>
    { a with power := none, startTag := none, load := a.load.map fun l => { l with tag := none } }

/-- The monitor at RESET: calibrations take place, nothing is answered (R130, R133). -/
def State.resetMonitor (s : State) : State :=
  forEach allDies (fun d s =>
    s.setDieMon d { s.dieMon d with req := (s.dieMon d).req.map fun r => { r with joined := [] } }) s

/-- The preserve port at RESET: an access in progress runs to its end, no further one is begun (R169). -/
def State.resetPort (s : State) : State :=
  s.modPort fun p =>
    if p.accessing then { p with op := p.op.map fun op => { op with abandoned := true } }
    else { p with op := none, transfer := none }

/-- RESET, taken from buffer `j` (R182, R183). Its own discard makes LINK_ERROR pending before the slots it frees are
granted: a notice that waits already carries the raised count (R174, log 19). The notices granted those slots are queued
before the response of a RESET that answers in this change (log 40). -/
def takeReset (tag : Byte) (j : Fin 2) (s : State) : State :=
  let discarded := s.link.otherFrame j
  let s := (s.resetLink tag j).resetStore.resetScans.resetArray.resetMonitor.resetPort
  let s := if discarded then s.waitForSlot (.notice .linkError) else s
  (s.grantClaims grantRounds).checkReset

/-! ### Hand-over to the owner (R180) -/

/-- An admitted request is taken by its owner (R179, R180). A RESET never comes this way: it is taken as soon as it is
decoded (R182). -/
def take (tag : Byte) (r : Request) (s : State) : State :=
  match r with
  | .identify => takeIdentify tag s
  | .status => takeStatus tag s
  | .setLink code => takeSetLink tag code s
  | .cancel target => takeCancel tag target s
  | .reset => s
  | .create series base count lanes policy => takeCreate tag series base count lanes policy s
  | .seal series => takeSeal tag series s
  | .drop series => takeDrop tag series s
  | .describe series => takeDescribe tag series s
  | .append series count records => takeAppend tag series count records s
  | .fetch series first count => takeFetch tag series first count s
  | .scan fields => takeScan tag fields s
  | .startArray => takeStartArray tag s
  | .setArrayTiming fields => takeSetArrayTiming tag fields s
  | .power level => takePower tag level s
  | .setMonitor fields => takeSetMonitor tag fields s
  | .calibrate die kind => takeCalibrate tag die kind s
  | .setPreservePort fields => takeSetPreservePort tag fields s
  | .preserve series slot => takePreserve tag series slot s
  | .recover slot target presence base => takeRecover tag slot target presence base s

/-! ### Decoding (R179) -/

/-- The frame checks, in order: the refusal, or the kind (R179). -/
def State.frameCheck (s : State) (kindByte tag : Byte) (payload : List Byte) : Except Result Kind :=
  match Kind.ofCode kindByte with
  | none => .error .unknownKind
  | some k =>
    if k.lengthOk payload.length = false then .error .badLength
    else if tag = 0 then .error .badValue
    else if (s.entryOf tag).isSome then .error .tagInUse
    else if 16 ≤ s.table.length then .error .tableFull
    else .ok k

/-- A request is admitted: it takes a table entry, the slot in hand becomes its reservation, and its owner takes it
(R179, R180). -/
def State.enterTable (tag : Byte) (r : Request) (s : State) : State :=
  take tag r (s.setTable (s.table ++ [.admitted tag r.kind]))

/-- The decode of a frame with a slot in hand (R179). -/
def State.decodeBody (body : List Byte) (s : State) : State :=
  let kindByte := byteAt body 0
  let tag := byteAt body 1
  let payload := body.drop 2
  let s := s.modLink fun l => { l with decoderSlot := false }
  match s.frameCheck kindByte tag payload with
  | .error r => s.enqueue (Frame.checkRefusal kindByte tag r)
  | .ok k => s.enterTable tag (Request.ofPayload k payload)

/-- The decode of buffer `j` ends: the buffer is free, and the next HELD frame claims its slot (R173, R179), behind the
claims that the decoded request itself made (log 37). -/
def State.endDecode (j : Fin 2) (s : State) : State :=
  (s.modLink fun l => { l.setBuf j ⟨.free, []⟩ with heldOrder := l.heldOrder.tail }).claimDecoder

/-- DECODE_FRAME (R179, R182): the oldest HELD frame is decoded once its slot is granted; a RESET needs none. -/
def decodeFrame (s : State) : State :=
  match s.link.heldOrder with
  | [] => s
  | j :: _ =>
    let body := (s.link.buf j).bytes
    if resetFrame body then takeReset (byteAt body 1) j s
    else if s.link.decoderSlot then (s.decodeBody body).endDecode j
    else s

/-! ### A request's whole passage (log 1) -/

/-- The bytes of a frame as the receiver samples them from the line (R170, R171). -/
def lineBytes (body : List Byte) : List LineByte := (frameBytes body).map fun b => sampleBits (lineBits b)

/-- A whole frame arrives. In HUNT, with a length the receiver accepts, its bytes end in one step: HELD in a free buffer,
or discarded, as its bytes do one by one (R172, log 1; Obligations.RequestRowIsReceptionAndDecode). -/
def State.receive (body : List Byte) (s : State) : State :=
  if s.link.rx = .hunt ∧ within 2 1022 body.length = true then
    let s := s.modLink fun l => { l with rxIdle := 0 }
    match s.link.firstBuf .free with
    | some j => s.hold j body
    | none => s.discard .skip
  else s.rxBytes (lineBytes body)

/-- A request row: the frame arrives, and the decoder decodes in order as far as it can; the two buffers hold at most two
frames (R173, R179, log 1). -/
def hostRequest (tag : Byte) (r : Request) (s : State) : State := decodeFrame (decodeFrame (s.receive (requestBody tag r)))

/-! ### The rows of this family -/

/-- DECODE_FRAME (R179). -/
def execDecodeFrame (s : State) : Answer := .next (decodeFrame s)

/-- IDENTIFY (R184). -/
def execIdentify (tag : Byte) (s : State) : Answer := .next (hostRequest tag .identify s)

/-- STATUS (R184). -/
def execStatus (tag : Byte) (s : State) : Answer := .next (hostRequest tag .status s)

/-- SET_LINK (R185). -/
def execSetLink (tag : Byte) (rateCode : Byte) (s : State) : Answer := .next (hostRequest tag (.setLink rateCode) s)

/-- CANCEL (R181). -/
def execCancel (tag : Byte) (target : Byte) (s : State) : Answer := .next (hostRequest tag (.cancel target) s)

/-- RESET (R182). -/
def execReset (tag : Byte) (s : State) : Answer := .next (hostRequest tag .reset s)

/-- CREATE (R20). -/
def execCreate (tag series : Byte) (base count : Half) (lanes policy : Byte) (s : State) : Answer :=
  .next (hostRequest tag (.create series base count lanes policy) s)

/-- DESCRIBE (R22). -/
def execDescribe (tag : Byte) (series : Byte) (s : State) : Answer := .next (hostRequest tag (.describe series) s)

/-- SEAL (R37). -/
def execSeal (tag : Byte) (series : Byte) (s : State) : Answer := .next (hostRequest tag (.seal series) s)

/-- DROP (R39). -/
def execDrop (tag : Byte) (series : Byte) (s : State) : Answer := .next (hostRequest tag (.drop series) s)

/-- APPEND (R25). -/
def execAppend (tag series count : Byte) (records : List Record) (s : State) : Answer :=
  .next (hostRequest tag (.append series count records) s)

/-- FETCH (R33). -/
def execFetch (tag series : Byte) (first : BitVec 32) (count : Byte) (s : State) : Answer :=
  .next (hostRequest tag (.fetch series first count) s)

/-- SCAN (R65). -/
def execScan (tag : Byte) (fields : ScanFields) (s : State) : Answer := .next (hostRequest tag (.scan fields) s)

/-- START_ARRAY (R106). -/
def execStartArray (tag : Byte) (s : State) : Answer := .next (hostRequest tag .startArray s)

/-- SET_ARRAY_TIMING (R111). -/
def execSetArrayTiming (tag : Byte) (fields : TimingFields) (s : State) : Answer :=
  .next (hostRequest tag (.setArrayTiming fields) s)

/-- POWER with level RUN (R142, log 30). -/
def execPowerRun (tag : Byte) (s : State) : Answer := .next (hostRequest tag (.power PowerLevel.run.code) s)

/-- POWER with level REST (R136, log 30). -/
def execPowerRest (tag : Byte) (s : State) : Answer := .next (hostRequest tag (.power PowerLevel.rest.code) s)

/-- POWER with level DEEP (R143, log 30). -/
def execPowerDeep (tag : Byte) (s : State) : Answer := .next (hostRequest tag (.power PowerLevel.deep.code) s)

/-- SET_MONITOR (R131). -/
def execSetMonitor (tag : Byte) (fields : MonitorFields) (s : State) : Answer :=
  .next (hostRequest tag (.setMonitor fields) s)

/-- CALIBRATE (R130). -/
def execCalibrate (tag die kind : Byte) (s : State) : Answer := .next (hostRequest tag (.calibrate die kind) s)

/-- SET_PRESERVE_PORT (R151). -/
def execSetPreservePort (tag : Byte) (fields : PortFields) (s : State) : Answer :=
  .next (hostRequest tag (.setPreservePort fields) s)

/-- PRESERVE (R157). -/
def execPreserve (tag series slot : Byte) (s : State) : Answer := .next (hostRequest tag (.preserve series slot) s)

/-- RECOVER (R162). -/
def execRecover (tag slot target basePresence : Byte) (base : Half) (s : State) : Answer :=
  .next (hostRequest tag (.recover slot target basePresence base) s)

end Sys2Proof.Machine
end

