-- ==== Sys2Proof/Machine/Dispatch.lean ====
section
/-! DEFINITION. One arm per row of the opcode table: the row's meaning on everything but the queue of commands. -/

namespace Sys2Proof.Machine

/-- The effect of a command (every row has its meaning). -/
def exec (i : Instr) (s : State) : Host.Outcome State Fault Refusal :=
  match i with
  | .powerOnReset supply => Sys2Proof.Machine.execPowerOnReset supply s
  | .frameReceived bytes => Sys2Proof.Machine.execFrameReceived bytes s
  | .receiveGapTimeout => Sys2Proof.Machine.execReceiveGapTimeout s
  | .skipIdleTimeout => Sys2Proof.Machine.execSkipIdleTimeout s
  | .decodeFrame => Sys2Proof.Machine.execDecodeFrame s
  | .transmitFrameStart hold => Sys2Proof.Machine.execTransmitFrameStart hold s
  | .frameSent => Sys2Proof.Machine.execFrameSent s
  | .identify tag => Sys2Proof.Machine.execIdentify tag s
  | .status tag => Sys2Proof.Machine.execStatus tag s
  | .setLink tag rateCode => Sys2Proof.Machine.execSetLink tag rateCode s
  | .cancel tag target => Sys2Proof.Machine.execCancel tag target s
  | .reset tag => Sys2Proof.Machine.execReset tag s
  | .create tag series base count lanes policy => Sys2Proof.Machine.execCreate tag series base count lanes policy s
  | .describe tag series => Sys2Proof.Machine.execDescribe tag series s
  | .seal tag series => Sys2Proof.Machine.execSeal tag series s
  | .drop tag series => Sys2Proof.Machine.execDrop tag series s
  | .append tag series count records => Sys2Proof.Machine.execAppend tag series count records s
  | .fetch tag series first count => Sys2Proof.Machine.execFetch tag series first count s
  | .scan tag fields => Sys2Proof.Machine.execScan tag fields s
  | .startArray tag => Sys2Proof.Machine.execStartArray tag s
  | .setArrayTiming tag fields => Sys2Proof.Machine.execSetArrayTiming tag fields s
  | .powerRun tag => Sys2Proof.Machine.execPowerRun tag s
  | .powerRest tag => Sys2Proof.Machine.execPowerRest tag s
  | .powerDeep tag => Sys2Proof.Machine.execPowerDeep tag s
  | .setMonitor tag fields => Sys2Proof.Machine.execSetMonitor tag fields s
  | .calibrate tag die kind => Sys2Proof.Machine.execCalibrate tag die kind s
  | .setPreservePort tag fields => Sys2Proof.Machine.execSetPreservePort tag fields s
  | .preserve tag series slot => Sys2Proof.Machine.execPreserve tag series slot s
  | .recover tag slot target basePresence base => Sys2Proof.Machine.execRecover tag slot target basePresence base s
  | .openStep die bank => Sys2Proof.Machine.execOpenStep die bank s
  | .closeStep die bank => Sys2Proof.Machine.execCloseStep die bank s
  | .transferStep die bank => Sys2Proof.Machine.execTransferStep die bank s
  | .statusReadStep die => Sys2Proof.Machine.execStatusReadStep die s
  | .openDelayElapsed die bank => Sys2Proof.Machine.execOpenDelayElapsed die bank s
  | .closeDelayElapsed die bank => Sys2Proof.Machine.execCloseDelayElapsed die bank s
  | .writeRecoveryElapsed die bank => Sys2Proof.Machine.execWriteRecoveryElapsed die bank s
  | .batchWriteComplete die bank => Sys2Proof.Machine.execBatchWriteComplete die bank s
  | .fetchReadComplete die bank => Sys2Proof.Machine.execFetchReadComplete die bank s
  | .rowReadComplete die bank => Sys2Proof.Machine.execRowReadComplete die bank s
  | .edgeProbeComplete die bank => Sys2Proof.Machine.execEdgeProbeComplete die bank s
  | .binaryProbeComplete die bank => Sys2Proof.Machine.execBinaryProbeComplete die bank s
  | .refreshTimerExpiry die => Sys2Proof.Machine.execRefreshTimerExpiry die s
  | .refreshStart die => Sys2Proof.Machine.execRefreshStart die s
  | .refreshEnd die => Sys2Proof.Machine.execRefreshEnd die s
  | .calibrationStart die => Sys2Proof.Machine.execCalibrationStart die s
  | .calibrationEnd die => Sys2Proof.Machine.execCalibrationEnd die s
  | .sample supply firstDie => Sys2Proof.Machine.execSample supply firstDie s
  | .statusReadComplete die temperature => Sys2Proof.Machine.execStatusReadComplete die temperature s
  | .resetSequenceEnd die => Sys2Proof.Machine.execResetSequenceEnd die s
  | .identityReadEnd die answer => Sys2Proof.Machine.execIdentityReadEnd die answer s
  | .timingLoadEnd => Sys2Proof.Machine.execTimingLoadEnd s
  | .enterResting die => Sys2Proof.Machine.execEnterResting die s
  | .enterOff die => Sys2Proof.Machine.execEnterOff die s
  | .wakeDelayElapsed die => Sys2Proof.Machine.execWakeDelayElapsed die s
  | .turnaroundElapsed => Sys2Proof.Machine.execTurnaroundElapsed s
  | .portAccessEnd pwait word => Sys2Proof.Machine.execPortAccessEnd pwait word s
  | .accessTimeout pwait => Sys2Proof.Machine.execAccessTimeout pwait s
  | .preserveReadComplete die bank => Sys2Proof.Machine.execPreserveReadComplete die bank s
  | .recoverWriteComplete die bank => Sys2Proof.Machine.execRecoverWriteComplete die bank s
  | .byteReceivedInSkip byte => Sys2Proof.Machine.execByteReceivedInSkip byte s

end Sys2Proof.Machine
end

