-- ==== Sys2Proof/Machine/Step.lean ====
section
/-! DEFINITION. One step of the part: the command at the front of the queue, or one array clock cycle where none waits. -/

namespace Sys2Proof.Machine

/-- The state with another queue of commands. -/
def State.setPending (l : List Instr) (s : State) : State := { s with pending := l }

/-- One step: the front command is taken from the queue and executed; with none waiting, one array clock cycle passes
(log 4). -/
def step (s : State) : Host.Outcome State Fault Refusal :=
  match s.pending with
  | c :: rest => exec c (s.setPending rest)
  | [] => .next (tick s)

/-- `s` with the command that a word spells at the front of its queue. No row has bits, so none does (log 29). -/
def State.withFetchWord (s : State) (nbits w : Nat) : State :=
  match decodeTableWord nbits w with
  | some c => s.setPending (c :: s.pending)
  | none => s

end Sys2Proof.Machine
end

