-- ==== Sys2Proof/Safety.lean ====
section
/-! DEFINITION. What the part keeps true: the invariants that statements speak of, and the conditions under which a request
is taken at once. -/

namespace Sys2Proof.Machine

/-! ### Dies (R90, R91, R115, R118) -/

/-- The activities that need every bank IDLE (R91). -/
def Activity.needsIdle : Activity → Bool
  | .refreshing => true
  | .calibrating _ => true
  | .none => false
  | .statusRead => false

/-- A die record as the manual keeps it: debt at most 8 (R115), overrun count at most 255 (R118), banks IDLE outside READY
(R90) and during a refresh or calibration (R91). -/
abbrev Die.Ok (x : Die) : Prop :=
  x.debt ≤ 8 ∧ x.overruns ≤ 255 ∧ (x.state ≠ .ready → x.allIdle = true) ∧ (x.activity.needsIdle = true → x.allIdle = true)

/-- Both dies are as the manual keeps them. -/
abbrev State.DiesOk (s : State) : Prop := ∀ d : Fin 2, (s.die d).Ok

/-! ### The access queue (R94, R95, R96) -/

/-- How many transactions of a bank are ISSUED. -/
def issuedCount (q : List Txn) (d : Fin 2) (b : Fin 8) : Nat := (q.filter fun t => t.issued && t.isFor d b).length

/-- A queue and its waiting list as the manual keeps them: at most 32 transactions in the queue (R95), none waiting for
room ISSUED, pass-over counts at most 8 (R94), at most one ISSUED transaction per bank (R96). -/
abbrev QueuesOk (q w : List Txn) : Prop :=
  q.length ≤ 32 ∧ (∀ t ∈ w, t.issued = false) ∧ (∀ t ∈ q ++ w, t.passOver ≤ 8) ∧
    ∀ (d : Fin 2) (b : Fin 8), issuedCount q d b ≤ 1

/-- The access queue is as the manual keeps it. -/
abbrev State.QueueOk (s : State) : Prop := QueuesOk s.arr.queue s.arr.waiting

/-! ### The directory (R15, R18) -/

/-- No two entries that are not FREE hold a common stripe (R15), and a FREE entry holds none (R18). -/
abbrev State.StripesApart (s : State) : Prop :=
  (∀ i : Fin 32, (s.entry i).state = .free → (s.entry i).count = 0) ∧
    ∀ i j : Fin 32, i ≠ j → (s.entry i).state ≠ .free → (s.entry j).state ≠ .free →
      rangesMeet (s.entry i).base (s.entry i).count (s.entry j).base (s.entry j).count = false

/-! ### Counts (R174, R180, R123) -/

/-- The discard count, the table and the drifts stay in their ranges (R174, R180, R123). -/
abbrev State.CountsOk (s : State) : Prop :=
  s.link.discards ≤ 65535 ∧ s.table.length ≤ 16 ∧ ∀ d : Fin 2, (s.dieMon d).drift ≤ 65535

/-! ### The counters of an entry (R4, R11) -/

/-- The records of pending batches (R11). -/
def pendingRecords (bs : List Batch) : Nat := (bs.map Batch.count).sum

/-- The counters of an entry as R4 gives them, with the pending batches between the committed and the reserved head. -/
abbrev Entry.CountersOk (e : Entry) : Prop :=
  e.oldest ≤ e.committed ∧ e.committed + pendingRecords e.batches = e.reserved ∧ e.reserved - e.oldest ≤ e.capacity ∧
    e.reserved ≤ 4294967295

/-- The counters of an entry as every step keeps them: CountersOk, but for a DROPPING entry, whose complete batches leave
without a commit (R40, R41), the bounds alone; and an entry that takes records holds a stripe. -/
abbrev Entry.CountersKept (e : Entry) : Prop :=
  (e.state ≠ .dropping → e.CountersOk) ∧
    (e.oldest ≤ e.committed ∧ e.committed + pendingRecords e.batches ≤ e.reserved ∧
      e.reserved - e.oldest ≤ e.capacity ∧ e.reserved ≤ 4294967295) ∧
    (e.state = .opened ∨ e.state = .sealed ∨ e.state = .recovering → 1 ≤ e.count)

/-- The counters of every entry are so. -/
abbrev State.CountersKept (s : State) : Prop := ∀ i : Fin 32, (s.entry i).CountersKept

/-- While a write of a RECOVER that has not ended is on its way, the RECOVER's target is RECOVERING (R164 to R167). -/
abbrev State.RecoverTargets (s : State) : Prop :=
  ∀ op, s.port.op = some op → (∃ x ∈ s.arr.queue, x.origin = .recoverWrite ∧ x.live = true) →
    (s.entry op.series).state = .recovering

/-- No entry's reserved head leads its committed head by so much that two more APPENDs of 30 records could pass 512, the
smallest capacity; or the request table has no place for an APPEND (R4). -/
abbrev State.LeadsOk (s : State) : Prop :=
  16 ≤ s.table.length ∨ ∀ i : Fin 32, (s.entry i).reserved ≤ (s.entry i).committed + 452

/-! ### A link that takes the next request at once (R172, R173, R177, R179) -/

/-- The link is at rest and has a slot: HUNT, both buffers free, no frame HELD, no slot in the decoder's hand. -/
abbrev State.LinkFree (s : State) : Prop :=
  s.link.rx = .hunt ∧ s.link.bufs = Vector.replicate 2 ⟨.free, []⟩ ∧ s.link.heldOrder = [] ∧
    s.link.decoderSlot = false ∧ 0 < s.freeSlots

/-- A request under `tag` will be admitted: checks 3 to 5 of R179 pass. -/
abbrev State.Admits (s : State) (tag : Byte) : Prop :=
  s.LinkFree ∧ tag ≠ 0 ∧ s.entryOf tag = none ∧ s.table.length < 16

/-- The state after one request that answered at once: a response queued, the idle time restarted, nothing else. -/
def State.answered (tag : Byte) (k : Kind) (r : Result) (fields : List Byte) (s : State) : State :=
  s.modLink fun l => { l with rxIdle := 0, queue := l.queue ++ [Frame.response tag k r fields] }

/-- The state after a request was admitted: it holds a table entry, and the idle time is restarted. -/
def State.admitted (tag : Byte) (k : Kind) (s : State) : State :=
  (s.setTable (s.table ++ [.admitted tag k])).modLink fun l => { l with rxIdle := 0 }

/-! ### Records that do not end a scan (R52, R58, R75, R76) -/

/-- The record is a HIT of the filter (R52). -/
def isHit (f : Filter) (r : Record) : Bool :=
  match f.test r with
  | .hit _ => true
  | _ => false

/-- The record is a HIT or a MISS that hands over a masked condition (R58). -/
def handsOver (f : Filter) (g : Conditions → Bool) (r : Record) : Bool :=
  match f.test r with
  | .hit m => g m
  | .miss m => g m
  | _ => false

/-- The record does not pass the upper stamp of the range (R75). -/
def Ctx.inStamps (c : Ctx) (r : Record) : Prop :=
  ∀ lower upper, c.range = .stamp lower (some upper) → r.stamp.toNat ≤ upper.toNat

/-- Records that do not end the scan: none past the upper stamp, none a STOP, the hit limit not reached (R75, R76). -/
def Ctx.GoesOn (c : Ctx) (rs : List Record) : Prop :=
  (∀ r ∈ rs, c.inStamps r ∧ ∀ u, c.filter.test r ≠ .stop u) ∧
    ∀ n, c.hitLimit = some n → c.hitCount + (rs.filter (isHit c.filter)).length < n

/-- The context after records numbered from `q` on that were tested as MISMATCH, MISS or HIT, its hit buffer aside: each is
examined, each HIT is a hit, each HIT and MISS counts the masked conditions it hands over, the last one is last evaluated
(R58, R76), and the cursor is past it (R74). -/
def Ctx.tested (c : Ctx) (q : Nat) (rs : List Record) : Ctx :=
  { c with
    examined := c.examined + rs.length, hitCount := c.hitCount + (rs.filter (isHit c.filter)).length
    absents := c.absents + (rs.filter (handsOver c.filter Conditions.absent)).length
    faults := c.faults + (rs.filter (handsOver c.filter Conditions.fault)).length
    tinies := c.tinies + (rs.filter (handsOver c.filter Conditions.tiny)).length
    lastEval := if rs = [] then c.lastEval else some (q + rs.length - 1)
    cursor := if rs = [] then c.cursor else q + rs.length }

/-- The hits of the buffer and then those of records numbered from `q` on, in order; none in COUNT mode (R76). -/
def Ctx.listed (c : Ctx) (q : Nat) (rs : List Record) : List Hit :=
  if c.mode = .list then
    c.hits ++ ((rs.zipIdx q).filter fun p => isHit c.filter p.1).map (fun p => (⟨p.2, p.1⟩ : Hit))
  else []

/-! ### The check of a page (R153) -/

/-- Bit `n` of bytes, each byte from its least significant bit. -/
def bitAt (bytes : List Byte) (n : Nat) : Bool := (byteAt bytes (n / 8)).getLsbD (n % 8)

/-- Bytes with bit `n` inverted. -/
def invertBit (n : Nat) (bytes : List Byte) : List Byte :=
  bytes.set (n / 8) (byteAt bytes (n / 8) ^^^ BitVec.ofNat 8 (2 ^ (n % 8)))

/-- The code positions of the 4,152 protected bits, in their order: the whole numbers from 3 to 4,165 that are not a power
of 2. -/
def codePositions : List Nat := (List.range' 3 4163).filter fun p => p &&& (p - 1) ≠ 0

/-- The exclusive or of bits. -/
def xorOf (bits : List Bool) : Bool := bits.foldl (· ^^ ·) false

/-! ### The end of an image operation (R43, R156, R189) -/

/-- Work in flight on a series beside a PRESERVE of it (R13). -/
abbrev State.otherWork (s : State) (i : Fin 32) : Prop :=
  (s.entry i).batches ≠ [] ∨ (∃ f ∈ s.fetches, f.series = i) ∨
    ∃ (k : Fin 4) (c : Ctx), s.ctx k = some c ∧ c.series = i ∧ c.endReason ≠ some .lost

/-- The final response of an image operation with the result `r`, with its report (R189). -/
def ImageOp.answer (op : ImageOp) (r : Result) : Frame :=
  ⟨.response, op.tag, [if op.kind = .preserve then 0x41 else 0x42, r.code]
    ++ (if op.kind = .preserve then op.preserveReport else op.recoverReport) ++ op.detail, none⟩

/-- `t` is what the last moment of ENDING makes of `s`: the operation answers `r` and is over, its entry leaves the table
(R156). A DROPPING series on which no other work is left becomes FREE in the same change, and its DROP answers (R43). -/
def State.OpAnswers (s t : State) (op : ImageOp) (r : Result) : Prop :=
  t.port = { s.port with op := none, transfer := none } ∧ t.fetches = s.fetches ∧ t.ctxs = s.ctxs ∧ t.mem = s.mem ∧
    ((s.entry op.series).state ≠ .dropping ∨ s.otherWork op.series →
      t.dir = s.dir ∧ t.drops = s.drops ∧ t.table = s.table.filter (fun e => e.tag != op.tag) ∧
      t.link = { s.link with queue := s.link.queue ++ [op.answer r] }) ∧
    (∀ w, (s.entry op.series).state = .dropping → ¬ s.otherWork op.series →
      s.drops.find? (fun w => w.series == op.series) = some w →
      t.dir = s.dir.set op.series ⟨.free, 0, 0, 1, .wrap, 0, 0, 0, 0, 0, false, none, []⟩ ∧
      t.drops = s.drops.filter (fun w => w.series != op.series) ∧
      t.table = s.table.filter (fun e => e.tag != op.tag && e.tag != w.tag) ∧
      t.link = { s.link with
        queue := s.link.queue ++ [op.answer r, ⟨.response, w.tag, [0x12, 0, BitVec.ofNat 8 op.series.val], none⟩] })

/-! ### The arrival of a die in rest (R136, R137, R140) -/

/-- `t` is what the arrival of die `d` in RESTING makes of `s`: its timer is stopped, its pending calibration request and its
waiting status reads are gone; it begins to wake at once where work or a POWER RUN waits; and a POWER REST answers when no
die has rest target REST any more. -/
def State.RestArrives (s t : State) (d : Fin 2) : Prop :=
  (t.die d).timer = none ∧ (t.die d).debt = 0 ∧ (t.die d).restTarget = .none ∧ (t.die d).driftHold = false ∧
    (t.die d).hot = (s.die d).hot ∧ (t.die d).overruns = (s.die d).overruns ∧
    t.die (otherDie d) = s.die (otherDie d) ∧
    ((∀ x ∈ s.arr.queue, x.die = d → x.issued = true ∨ x.isStatus d = true) →
      (∀ x ∈ s.arr.waiting, x.die = d → x.isStatus d = true) → (∀ p, s.arr.power = some p → p.level ≠ .run) →
      (t.die d).state = .resting) ∧
    ((∃ x ∈ s.arr.queue ++ s.arr.waiting, x.issued = false ∧ x.die = d ∧ x.isStatus d = false) ∨
      (∃ p, s.arr.power = some p ∧ p.level = .run) → (t.die d).state = .waking) ∧
    (∀ r, (s.dieMon d).req = some r → r.stage = .pending → (t.dieMon d).req = none) ∧
    (∀ x ∈ t.arr.queue ++ t.arr.waiting, x.isStatus d = true → x.issued = true) ∧ t.dir = s.dir ∧ t.mem = s.mem ∧
    (s.arr.power = none ∨ (∃ tag, s.arr.power = some ⟨tag, .run⟩) ∨
        (∃ tag, s.arr.power = some ⟨tag, .rest⟩ ∧ (s.die (otherDie d)).restTarget = .rest) →
      t.link = s.link ∧ t.table = s.table ∧ t.arr.power = s.arr.power) ∧
    (∀ tag, s.arr.power = some ⟨tag, .rest⟩ → (s.die (otherDie d)).restTarget ≠ .rest →
      t.link = { s.link with queue := s.link.queue
        ++ [⟨.response, tag, [0x22, 0, (t.die 0).state.code, (t.die 1).state.code], none⟩] } ∧
      t.table = s.table.filter (fun e => e.tag != tag) ∧ t.arr.power = none)

/-! ### The request of a row -/

/-- The request that a request row carries, with its tag (log 1, log 30). -/
def requestOf : Instr → Option (Byte × Request)
  | .identify tag => some (tag, .identify)
  | .status tag => some (tag, .status)
  | .setLink tag code => some (tag, .setLink code)
  | .cancel tag target => some (tag, .cancel target)
  | .reset tag => some (tag, .reset)
  | .create tag series base count lanes policy => some (tag, .create series base count lanes policy)
  | .describe tag series => some (tag, .describe series)
  | .seal tag series => some (tag, .seal series)
  | .drop tag series => some (tag, .drop series)
  | .append tag series count records => some (tag, .append series count records)
  | .fetch tag series first count => some (tag, .fetch series first count)
  | .scan tag fields => some (tag, .scan fields)
  | .startArray tag => some (tag, .startArray)
  | .setArrayTiming tag fields => some (tag, .setArrayTiming fields)
  | .powerRun tag => some (tag, .power 0)
  | .powerRest tag => some (tag, .power 1)
  | .powerDeep tag => some (tag, .power 2)
  | .setMonitor tag fields => some (tag, .setMonitor fields)
  | .calibrate tag die kind => some (tag, .calibrate die kind)
  | .setPreservePort tag fields => some (tag, .setPreservePort fields)
  | .preserve tag series slot => some (tag, .preserve series slot)
  | .recover tag slot target presence base => some (tag, .recover slot target presence base)
  | .powerOnReset _ | .frameReceived _ | .receiveGapTimeout | .skipIdleTimeout | .decodeFrame | .transmitFrameStart _
  | .frameSent | .openStep _ _ | .closeStep _ _ | .transferStep _ _ | .statusReadStep _ | .openDelayElapsed _ _
  | .closeDelayElapsed _ _ | .writeRecoveryElapsed _ _ | .batchWriteComplete _ _ | .fetchReadComplete _ _
  | .rowReadComplete _ _ | .edgeProbeComplete _ _ | .binaryProbeComplete _ _ | .refreshTimerExpiry _ | .refreshStart _
  | .refreshEnd _ | .calibrationStart _ | .calibrationEnd _ | .sample _ _ | .statusReadComplete _ _
  | .resetSequenceEnd _ | .identityReadEnd _ _ | .timingLoadEnd | .enterResting _ | .enterOff _ | .wakeDelayElapsed _
  | .turnaroundElapsed | .portAccessEnd _ _ | .accessTimeout _ | .preserveReadComplete _ _ | .recoverWriteComplete _ _
  | .byteReceivedInSkip _ => none

/-- The commands that never store in the array: all but the two that complete a write, the deep rests, the decoder and the
requests, and RESET_N. -/
def storesNothing : Instr → Bool
  | .powerOnReset _ | .decodeFrame | .batchWriteComplete _ _ | .recoverWriteComplete _ _ | .enterOff _ => false
  | c => (requestOf c).isNone

end Sys2Proof.Machine
end

