-- ==== Sys2Proof/WellFormed.lean ====
section
/-! DEFINITION. Which commands the outside world can give: measured values lie in the ranges the manual states, and an
APPEND fits a frame. Everything else a command carries is any value of its field: the part's own checks judge it. -/

namespace Sys2Proof

/-- The supply the monitor can measure, 0 to 2,047 mV (R120). -/
def supplyOk (supply : Nat) : Bool := supply ≤ 2047

/-- The temperature a die can deliver, -40 to 125 degrees (R97, R121). -/
def temperatureOk (t : Int) : Bool := -40 ≤ t && t ≤ 125

/-- Well-formed commands. -/
def Instr.wellFormed : Instr → Bool
  | .powerOnReset supply => supplyOk supply
  | .sample supply _ => supplyOk supply
  | .statusReadComplete _ t => temperatureOk t
  | .identityReadEnd _ (.arrayCode t) => temperatureOk t
  | .identityReadEnd _ .noAnswer => true
  | .identityReadEnd _ .otherCode => true
  | .append _ _ _ records => records.length ≤ 31
  | .frameReceived _ | .receiveGapTimeout | .skipIdleTimeout | .decodeFrame | .transmitFrameStart _ | .frameSent
  | .identify _ | .status _ | .setLink _ _ | .cancel _ _ | .reset _ | .create _ _ _ _ _ _ | .describe _ _ | .seal _ _
  | .drop _ _ | .fetch _ _ _ _ | .scan _ _ | .startArray _ | .setArrayTiming _ _ | .powerRun _ | .powerRest _
  | .powerDeep _ | .setMonitor _ _ | .calibrate _ _ _ | .setPreservePort _ _ | .preserve _ _ _ | .recover _ _ _ _ _
  | .openStep _ _ | .closeStep _ _ | .transferStep _ _ | .statusReadStep _ | .openDelayElapsed _ _
  | .closeDelayElapsed _ _ | .writeRecoveryElapsed _ _ | .batchWriteComplete _ _ | .fetchReadComplete _ _
  | .rowReadComplete _ _ | .edgeProbeComplete _ _ | .binaryProbeComplete _ _ | .refreshTimerExpiry _ | .refreshStart _
  | .refreshEnd _ | .calibrationStart _ | .calibrationEnd _ | .resetSequenceEnd _ | .timingLoadEnd | .enterResting _
  | .enterOff _ | .wakeDelayElapsed _ | .turnaroundElapsed | .portAccessEnd _ _ | .accessTimeout _
  | .preserveReadComplete _ _ | .recoverWriteComplete _ _ | .byteReceivedInSkip _ => true

end Sys2Proof
end

