-- ==== Sys2Proof/Certificates/Slice0/Obligations.lean ====
section
/-! DEFINITION. The statements for the provers, in the order of OBLIGATIONS.json. -/

section

open Sys2Proof Sys2Proof.Machine

/-! ### The machine -/

/-- A step takes the command at the front of the queue and executes it on the state with the queue's rest. -/
def Obligations.StepTakesFrontCommand : Prop :=
  ∀ (c : Instr) (rest : List Instr) (s : State), s.pending = c :: rest → step s = exec c { s with pending := rest }

/-- With nothing commanded a step is one array clock cycle (log 4, the model's choice): each running refresh timer counts
1, a stopped one stays stopped, the receiver's idle time and the sample timer count 1, and nothing else changes as long as
no period ends. -/
def Obligations.IdleStepCountsOneCycle : Prop :=
  ∀ s : State, s.pending = [] → s.link.rx = .hunt → s.mon.subMs + 1 < 400000 →
    (∀ (d : Fin 2) (n : Nat), (s.die d).timer = some n →
      n + 1 < (if (s.die d).hot then s.arr.timing.refreshInterval.toNat / 2 else s.arr.timing.refreshInterval.toNat)) →
    step s = .next { s with
      link := { s.link with rxIdle := s.link.rxIdle + 1 }
      mon := { s.mon with subMs := s.mon.subMs + 1 }
      arr := { s.arr with dies := s.arr.dies.map fun x => { x with timer := x.timer.map (· + 1) } } }

/-- Every command answers a next state, and leaves the queue of commands as it is. -/
def Obligations.EveryCommandAnswers : Prop :=
  ∀ (c : Instr) (s : State), ∃ t, exec c s = .next t ∧ t.pending = s.pending

/-- RESET_N puts the whole part into its reset state, with the supply sample measured at its end; the queue of commands and
the count of free draws are the model's own. What that state is: the register values of R186, R23, R61, R87, R113, R133,
R146 and R169, with the defaults of R110, R131 and R150. -/
def Obligations.Reset : Prop :=
  (∀ (v : Nat) (s : State), exec (.powerOnReset v) s =
     .next { State.reset with
       pending := s.pending, freeDraws := s.freeDraws, mon := { State.reset.mon with supply := v } }) ∧
  (State.reset.link.rate = 0 ∧ State.reset.link.rx = .hunt ∧ (∀ j : Fin 2, State.reset.link.bufs[j].state = .free) ∧
   State.reset.link.queue = [] ∧ State.reset.link.tx = none ∧ State.reset.link.claims = [] ∧
   State.reset.link.discards = 0 ∧ State.reset.link.reset = none ∧ State.reset.rdy = true ∧ State.reset.table = [] ∧
   (∀ i : Fin 32, State.reset.entry i = ⟨.free, 0, 0, 1, .wrap, 0, 0, 0, 0, 0, false, none, []⟩) ∧
   State.reset.fetches = [] ∧ State.reset.drops = [] ∧ (∀ k : Fin 4, State.reset.ctx k = none) ∧
   (∀ d : Fin 2, (State.reset.die d).state = .unpowered ∧ (State.reset.die d).activity = .none ∧
     (State.reset.die d).holdRefresh = false ∧ (State.reset.die d).holdCal = false ∧
     (State.reset.die d).driftHold = false ∧ (State.reset.die d).debt = 0 ∧ (State.reset.die d).timer = none ∧
     (State.reset.die d).hot = false ∧ (State.reset.die d).path = .free ∧ (State.reset.die d).restTarget = .none ∧
     (State.reset.die d).overruns = 0 ∧ ∀ b : Fin 8, (State.reset.bank d b).state = .idle) ∧
   State.reset.arr.queue = [] ∧ State.reset.arr.waiting = [] ∧ State.reset.arr.load = none ∧
   State.reset.arr.startTag = none ∧ State.reset.arr.power = none ∧
   State.reset.arr.timing = ⟨10, 10, 12, 8, 3120, 84, 256, 1024, 30, 1⟩ ∧
   State.reset.mon.settings = ⟨100, 85, 60, 12, 400, 1000⟩ ∧ State.reset.mon.reference = none ∧
   (∀ d : Fin 2, State.reset.dieMon d = ⟨none, none, 0, none⟩) ∧
   State.reset.port.op = none ∧ State.reset.port.transfer = none ∧ State.reset.port.lastDir = .read ∧
   State.reset.port.settings = ⟨4, 8, 2, 2, 1, 0, 63, 8, 4096⟩)

/-! ### What every step keeps -/

/-- Every step keeps the canonical form of the memory. -/
def Obligations.StepKeepsMemoryCanonical : Prop :=
  ∀ s t : State, Memory.wf s.mem → step s = .next t → Memory.wf t.mem

/-- Every step keeps the directory's stripes apart (R15, R18). -/
def Obligations.StepKeepsStripesApart : Prop :=
  ∀ s t : State, s.StripesApart → step s = .next t → t.StripesApart

/-- Every step keeps the access queue in order (R94, R95, R96). -/
def Obligations.StepKeepsQueueOk : Prop :=
  ∀ s t : State, s.QueueOk → step s = .next t → t.QueueOk

/-- Every step keeps the die records in order (R90, R91, R115, R118). -/
def Obligations.StepKeepsDiesOk : Prop :=
  ∀ s t : State, s.DiesOk → step s = .next t → t.DiesOk

/-- Every step keeps the discard count, the table and the drifts in range (R174, R180, R123). -/
def Obligations.StepKeepsCountsOk : Prop :=
  ∀ s t : State, s.CountsOk → step s = .next t → t.CountsOk

/-- The reset state has every invariant, and meets the premises under which a step keeps the counters of its entries
(Obligations.AppendKeepsCounters). -/
def Obligations.ResetMeetsInvariants : Prop :=
  Memory.wf State.reset.mem ∧ State.reset.StripesApart ∧ State.reset.QueueOk ∧ State.reset.DiesOk ∧
    State.reset.CountsOk ∧ (∀ i : Fin 32, (State.reset.entry i).CountersOk) ∧ State.reset.CountersKept ∧
    State.reset.RecoverTargets ∧ State.reset.LeadsOk

/-- Commands that never store in the array leave every byte of it (R97: only writes store; R144: only a die that becomes
OFF loses its records). -/
def Obligations.MemoryFrame : Prop :=
  ∀ (c : Instr) (s t : State), storesNothing c = true → exec c s = .next t →
    ∀ a : Nat, Memory.read t.mem a = Memory.read s.mem a

/-! ### Formats -/

/-- Every request reads back from the payload that carries it: no bit of a layout is dropped (R187, R188, R190). -/
def Obligations.RequestReadsBack : Prop :=
  ∀ r : Request, Request.ofPayload r.kind r.payload = r

/-- The frame (R171): start byte, length, body and check; the check of the nine bytes of "123456789"; and a frame's own
check matches. A byte on the line (R170): a low start bit, the data bits from the least significant on, a high stop bit; it
is sampled as that byte, with a framing error where its stop bit is low. -/
def Obligations.FrameLayout : Prop :=
  (∀ body : List Byte, frameBytes body =
    [0xA7] ++ leBytes 2 body.length ++ body ++ fieldBytes (crc16 (leBytes 2 body.length ++ body))) ∧
  crc16 [0x31, 0x32, 0x33, 0x34, 0x35, 0x36, 0x37, 0x38, 0x39] = 0x29B1 ∧
  (∀ body : List Byte, body.length ≤ 1022 → checkMatches ((frameBytes body).drop 1) = true) ∧
  ∀ (b : Byte) (stop : Bool),
    let data := [b.getLsbD 0, b.getLsbD 1, b.getLsbD 2, b.getLsbD 3, b.getLsbD 4, b.getLsbD 5, b.getLsbD 6, b.getLsbD 7]
    lineBits b = [false] ++ data ++ [true] ∧ sampleBits ([false] ++ data ++ [stop]) = ⟨b, !stop⟩

/-- Where a record lies (R8): stripe, die, row, bank and slot from the ring position, and two numbers less than a capacity
apart lie in different slots, at different addresses of the one address space that log 9 (the model's choice) gives the
array. How a run of at most 64 numbers is cut (R9): into one part where it lies in one row, else into two, each in one row,
that hold the run's numbers in order. How a series keeps a record (R2, R27): stamp, source and its lanes as carried, every
other lane ABSENT. -/
def Obligations.RecordPlace : Prop :=
  (∀ (e : Entry) (q : Nat), 0 < e.count → e.base + e.count ≤ 32768 →
     (let p := q % (512 * e.count)
      let stripe := e.base + p / 512
      (e.dieOf q).val = stripe / 16384 ∧ ∀ n, e.place q n = ⟨⟨p % 512 / 64, by omega⟩, stripe % 16384, p % 64, n⟩) ∧
     ∀ q', q < q' → q' < q + 512 * e.count →
       ((e.dieOf q, e.place q 1) ≠ (e.dieOf q', e.place q' 1)) ∧
       (e.place q 1).address (e.dieOf q) ≠ (e.place q' 1).address (e.dieOf q')) ∧
  (∀ (e : Entry) (q n : Nat), 0 < e.count → 1 ≤ n → n ≤ 64 →
     let slot := fun q : Nat => q % (512 * e.count) % 64
     (e.cut q n).length = (if slot q + n ≤ 64 then 1 else 2) ∧
     (∀ part ∈ e.cut q n, 1 ≤ part.2 ∧ slot part.1 + part.2 ≤ 64) ∧
     (e.cut q n).flatMap (fun part => List.range' part.1 part.2) = List.range' q n) ∧
  ∀ (lanes : Nat) (r : Record), (maskLanes lanes r).stamp = r.stamp ∧ (maskLanes lanes r).source = r.source ∧
    ∀ j : Fin 6, (maskLanes lanes r).lanes[j] = if j.val < lanes then r.lanes[j] else 0x7FC00000

/-! ### Lanes and filters -/

/-- The value of a NUMBER, times 2^149, and the exact comparison (R48): two patterns stand for the same value only if they
are equal or both zero, and an infinity lies beyond every finite value. -/
def Obligations.LaneComparison : Prop :=
  (∀ p : Lane, 1 ≤ laneExponent p → laneExponent p ≤ 254 →
    laneValue p = (if p.msb then -1 else 1) * ((8388608 + laneFraction p) * 2 ^ (laneExponent p - 1) : Nat)) ∧
  (∀ p : Lane, laneExponent p = 0 → laneValue p = (if p.msb then -1 else 1) * (laneFraction p : Int)) ∧
  (∀ p q : Lane, laneClass p = .number → laneClass q = .number →
    (laneValue p = laneValue q ↔ p = q ∨ (laneValue p = 0 ∧ laneValue q = 0))) ∧
  (∀ p : Lane, laneValue p = 0 ↔ p = 0x00000000 ∨ p = 0x80000000) ∧
  (∀ p : Lane, laneClass p = .number → p ≠ 0x7F800000 → laneValue p < laneValue 0x7F800000) ∧
  (∀ p : Lane, laneClass p = .number → p ≠ 0xFF800000 → laneValue 0xFF800000 < laneValue p)

/-- The result of a term by predicate and class of its lane (R50). -/
def Obligations.TermResult : Prop :=
  ∀ (t : Term) (r : Record),
    (laneClass r.lanes[t.lane] = .number →
      (t.predicate = .below → (t.result r = true ↔ laneValue r.lanes[t.lane] < laneValue t.threshold)) ∧
      (t.predicate = .notAbove → (t.result r = true ↔ laneValue r.lanes[t.lane] ≤ laneValue t.threshold)) ∧
      (t.predicate = .above → (t.result r = true ↔ laneValue r.lanes[t.lane] > laneValue t.threshold)) ∧
      (t.predicate = .notBelow → (t.result r = true ↔ laneValue r.lanes[t.lane] ≥ laneValue t.threshold)) ∧
      (t.predicate = .equal → (t.result r = true ↔ laneValue r.lanes[t.lane] = laneValue t.threshold)) ∧
      (t.predicate = .unequal → (t.result r = true ↔ laneValue r.lanes[t.lane] ≠ laneValue t.threshold)) ∧
      (t.predicate = .missing → t.result r = false) ∧ (t.predicate = .present → t.result r = true)) ∧
    (laneClass r.lanes[t.lane] = .absent ∨ laneClass r.lanes[t.lane] = .faulted →
      (t.result r = true ↔ t.predicate = .unequal ∨ t.predicate = .missing))

/-- The conditions a term raises, and those a record raises: each at most once, by any of its terms (R55). -/
def Obligations.ConditionsRaised : Prop :=
  (∀ (t : Term) (r : Record),
    ((t.raises r).absent = true ↔
      (t.predicate = .below ∨ t.predicate = .notAbove ∨ t.predicate = .above ∨ t.predicate = .notBelow) ∧
        laneClass r.lanes[t.lane] = .absent) ∧
    ((t.raises r).fault = true ↔
      t.predicate ≠ .missing ∧ t.predicate ≠ .present ∧ laneClass r.lanes[t.lane] = .faulted) ∧
    ((t.raises r).tiny = true ↔
      t.predicate ≠ .missing ∧ t.predicate ≠ .present ∧ laneTiny r.lanes[t.lane] = true)) ∧
  ∀ (f : Filter) (r : Record),
    ((f.raised r).absent = true ↔ ∃ t ∈ f.terms, (t.raises r).absent = true) ∧
    ((f.raised r).fault = true ↔ ∃ t ∈ f.terms, (t.raises r).fault = true) ∧
    ((f.raised r).tiny = true ↔ ∃ t ∈ f.terms, (t.raises r).tiny = true)

/-- The class of a lane by its exponent and fraction (R47). The combine joins the results of all terms (R54), and two
filters that differ only in the order of their terms give every record the same outcome. The outcome of a test (R52,
R53, R56, R57): MISMATCH by source, else STOP on an unmasked condition, else HIT or MISS by the combine with the masked
conditions raised. -/
def Obligations.FilterTest : Prop :=
  (∀ p : Lane,
     let e := p.toNat / 8388608 % 256
     let f := p.toNat % 8388608
     laneExponent p = e ∧ laneFraction p = f ∧
     laneClass p = (if e < 255 ∨ f = 0 then .number else if 4194304 ≤ f then .absent else .faulted) ∧
     (laneTiny p = true ↔ e = 0 ∧ f ≠ 0)) ∧
  ((∀ (f : Filter) (r : Record), f.terms = [] → f.combined r = true ∧ f.raised r = ⟨false, false, false⟩) ∧
   (∀ (f : Filter) (r : Record), f.combine = .all → (f.combined r = true ↔ ∀ t ∈ f.terms, t.result r = true)) ∧
   (∀ (f : Filter) (r : Record), f.combine = .any → f.terms ≠ [] →
     (f.combined r = true ↔ ∃ t ∈ f.terms, t.result r = true)) ∧
   ∀ (f g : Filter) (r : Record), f.terms.Perm g.terms → g = { f with terms := g.terms } → f.test r = g.test r) ∧
  (∀ (f : Filter) (r : Record),
     ((∃ v, f.source = some v ∧ r.source ≠ v) → f.test r = .mismatch) ∧
     ((∀ v, f.source = some v → r.source = v) →
       let u : Conditions := ⟨(f.raised r).absent && !f.maskAbsent, (f.raised r).fault && !f.maskFault,
         (f.raised r).tiny && !f.maskTiny⟩
       let m : Conditions := ⟨(f.raised r).absent && f.maskAbsent, (f.raised r).fault && f.maskFault,
         (f.raised r).tiny && f.maskTiny⟩
       (u ≠ ⟨false, false, false⟩ → f.test r = .stop u) ∧
       (u = ⟨false, false, false⟩ → f.test r = if f.combined r then .hit m else .miss m)))

/-! ### The receiver, the decoder and the transmitter -/

/-- A frame whose check matches is HELD (R172, R173), and claims a free slot at once unless it is a RESET (R177, R179). A
frame whose check does not match is discarded: the buffer is free again, the receiver is in SKIP, and the discard is counted;
LINK_ERROR is sent with the count where a slot is free, claims one where none is, and waits on where it waits already (R172,
R174, R177, R178). -/
def Obligations.FrameReception : Prop :=
  (∀ (s : State) (body : List Byte), s.LinkFree → 2 ≤ body.length → body.length ≤ 1022 →
     exec (.frameReceived ((frameBytes body).map fun b => ⟨b, false⟩)) s = .next { s with
       link := { s.link with
         rxIdle := 0, bufs := #v[⟨.held, body⟩, ⟨.free, []⟩], heldOrder := [0]
         decoderSlot := !resetFrame body } }) ∧
  (∀ (s : State) (j : Fin 2) (body : List Byte) (check : Half), s.link.rx = .hunt → s.link.bufs[j] = ⟨.free, []⟩ →
     (∀ k : Fin 2, k < j → s.link.bufs[k].state ≠ .free) → (∀ k : Fin 2, s.link.bufs[k].state ≠ .filling) →
     2 ≤ body.length → body.length ≤ 1022 → check ≠ crc16 (leBytes 2 body.length ++ body) →
     let bytes := ([0xA7] ++ leBytes 2 body.length ++ body ++ fieldBytes check).map fun b => (⟨b, false⟩ : LineByte)
     let n := min 65535 (s.link.discards + 1)
     let l := { s.link with rx := .skip, rxIdle := 0 }
     (s.noticePending .linkError = false → 0 < s.freeSlots → exec (.frameReceived bytes) s = .next { s with
       link := { l with discards := 0, queue := l.queue ++ [Frame.notice 0 0xFF (leBytes 2 n)] } }) ∧
     (s.noticePending .linkError = false → s.freeSlots = 0 → exec (.frameReceived bytes) s = .next { s with
       link := { l with discards := n, claims := l.claims ++ [.notice .linkError] } }) ∧
     (s.noticePending .linkError = true → exec (.frameReceived bytes) s = .next { s with
       link := { l with discards := n } }))

/-- What the receiver does outside a frame (R172): HUNT takes only a start byte without framing error, into the
lower-numbered free buffer (log 11), SKIP ignores every byte and ends with its idle time, and a gap changes nothing. A start
byte that finds both buffers claimed is discarded: the receiver goes on in SKIP, the discard is counted, and LINK_ERROR is
sent where a slot is free, claims one where none is, and waits on where it waits already (R173, R174, R177, R178). That
BYTE_RECEIVED_IN_SKIP and SKIP_IDLE_TIMEOUT change nothing outside SKIP is log 3, the model's choice. -/
def Obligations.OutsideFrame : Prop :=
  (∀ (s : State) (b : LineByte),
     (s.link.rx = .hunt → (b.value ≠ 0xA7 ∨ b.framingError = true) →
       exec (.frameReceived [b]) s = .next { s with link := { s.link with rxIdle := 0 } }) ∧
     (∀ j : Fin 2, s.link.rx = .hunt → b.value = 0xA7 → b.framingError = false → s.link.bufs[j].state = .free →
       (∀ k : Fin 2, k < j → s.link.bufs[k].state ≠ .free) →
       exec (.frameReceived [b]) s = .next { s with
         link := { s.link with rx := .header, rxIdle := 0, bufs := s.link.bufs.set j ⟨.filling, []⟩ } }) ∧
     (s.link.rx = .skip →
       exec (.frameReceived [b]) s = .next { s with link := { s.link with rxIdle := 0 } } ∧
       exec (.byteReceivedInSkip b) s = .next { s with link := { s.link with rxIdle := 0 } } ∧
       exec .skipIdleTimeout s = .next { s with link := { s.link with rx := .hunt } }) ∧
     (s.link.rx ≠ .skip → exec (.byteReceivedInSkip b) s = .next s ∧ exec .skipIdleTimeout s = .next s)) ∧
  (∀ s : State, s.link.rx = .hunt ∨ s.link.rx = .skip → exec .receiveGapTimeout s = .next s) ∧
  (∀ s : State, s.link.rx = .hunt →
     (∀ j : Fin 2, s.link.bufs[j].state = .held ∨ s.link.bufs[j].state = .resetHeld) →
     let n := min 65535 (s.link.discards + 1)
     let l := { s.link with rx := .skip, rxIdle := 0 }
     (s.noticePending .linkError = false → 0 < s.freeSlots → exec (.frameReceived [⟨0xA7, false⟩]) s = .next { s with
       link := { l with discards := 0, queue := l.queue ++ [Frame.notice 0 0xFF (leBytes 2 n)] } }) ∧
     (s.noticePending .linkError = false → s.freeSlots = 0 → exec (.frameReceived [⟨0xA7, false⟩]) s = .next { s with
       link := { l with discards := n, claims := l.claims ++ [.notice .linkError] } }) ∧
     (s.noticePending .linkError = true → exec (.frameReceived [⟨0xA7, false⟩]) s = .next { s with
       link := { l with discards := n } }))

/-- A discard inside a frame (R172, R174, R177, R178): by a gap the receiver goes on in HUNT, by a framing error, or by a
second length byte that makes the length less than 2 or more than 1,022, in SKIP.
The FILLING buffer is free again, and the discard is counted. LINK_ERROR is sent with the count at once where a slot is
free, claims a slot where none is, and only the count changes where the notice waits already. -/
def Obligations.DiscardIsCounted : Prop :=
  ∀ (s : State) (j : Fin 2) (b : Byte), s.link.rx = .header ∨ s.link.rx = .body ∨ s.link.rx = .check →
    s.link.bufs[j].state = .filling → (∀ k : Fin 2, k ≠ j → s.link.bufs[k].state ≠ .filling) →
    let n := min 65535 (s.link.discards + 1)
    let dropped := { s.link with bufs := s.link.bufs.set j ⟨.free, []⟩ }
    let discards := fun (cmd : Instr) (l : Link) =>
      (s.noticePending .linkError = false → 0 < s.freeSlots → exec cmd s = .next { s with
        link := { l with discards := 0, queue := l.queue ++ [Frame.notice 0 0xFF (leBytes 2 n)] } }) ∧
      (s.noticePending .linkError = false → s.freeSlots = 0 → exec cmd s = .next { s with
        link := { l with discards := n, claims := l.claims ++ [.notice .linkError] } }) ∧
      (s.noticePending .linkError = true → exec cmd s = .next { s with link := { l with discards := n } })
    discards .receiveGapTimeout { dropped with rx := .hunt } ∧
    discards (.frameReceived [⟨b, true⟩]) { dropped with rx := .skip, rxIdle := 0 } ∧
    ∀ first : Byte, s.link.rx = .header → s.link.bufs[j].bytes = [first] →
      first.toNat + 256 * b.toNat < 2 ∨ 1022 < first.toNat + 256 * b.toNat →
      discards (.frameReceived [⟨b, false⟩]) { dropped with rx := .skip, rxIdle := 0 }

/-- A request row is the reception of its frame and one DECODE_FRAME, from every state whose link is at rest with a slot
(log 1, log 2). -/
def Obligations.RequestRowIsReceptionAndDecode : Prop :=
  ∀ (c : Instr) (tag : Byte) (r : Request) (s : State), requestOf c = some (tag, r) → c.wellFormed = true →
    s.LinkFree →
    ∃ t, exec (.frameReceived ((frameBytes (requestBody tag r)).map fun b => ⟨b, false⟩)) s = .next t ∧
      exec c s = exec .decodeFrame t

/-- The frame checks of R179, in their order. A frame that fails one is answered under tag 0 with the kind byte, the result
and the tag byte; the buffer is free again, and nothing outside the link changes. DECODE_FRAME decodes nothing while no
frame is HELD, or while the oldest waits for its slot (R173, R179). A HELD IDENTIFY with its slot in hand is admitted and
answered, and its buffer is free again (log 2). -/
def Obligations.Decoder : Prop :=
  (∀ (s : State) (j : Fin 2) (rest : List (Fin 2)) (kind tag : Byte) (payload : List Byte) (r : Result),
     s.link.heldOrder = j :: rest → s.link.bufs[j] = ⟨.held, kind :: tag :: payload⟩ → s.link.decoderSlot = true →
     resetFrame (kind :: tag :: payload) = false →
     (Kind.ofCode kind = none ∧ r = .unknownKind ∨
       ∃ k, Kind.ofCode kind = some k ∧
         (k.lengthOk payload.length = false ∧ r = .badLength ∨
           k.lengthOk payload.length = true ∧
             (tag = 0 ∧ r = .badValue ∨
               tag ≠ 0 ∧
                 ((∃ e ∈ s.table, e.tag = tag) ∧ r = .tagInUse ∨
                   (∀ e ∈ s.table, e.tag ≠ tag) ∧ 16 ≤ s.table.length ∧ r = .tableFull)))) →
     ∃ t, exec .decodeFrame s = .next t ∧ t = { s with link := t.link } ∧
       t.link.queue = s.link.queue ++ [⟨.response, 0, [kind, r.code, tag], none⟩] ∧
       t.link.bufs = s.link.bufs.set j ⟨.free, []⟩ ∧ t.link.heldOrder = rest ∧
       t.link.rx = s.link.rx ∧ t.link.tx = s.link.tx ∧ t.link.discards = s.link.discards) ∧
  (∀ s : State,
     (s.link.heldOrder = [] → exec .decodeFrame s = .next s) ∧
     (∀ (j : Fin 2) (rest : List (Fin 2)), s.link.heldOrder = j :: rest → s.link.decoderSlot = false →
       resetFrame s.link.bufs[j].bytes = false → exec .decodeFrame s = .next s) ∧
     (∀ (j : Fin 2) (tag : Byte), s.link.heldOrder = [j] → s.link.decoderSlot = true →
       s.link.bufs[j] = ⟨.held, [0x01, tag]⟩ → tag ≠ 0 → (∀ e ∈ s.table, e.tag ≠ tag) → s.table.length < 16 →
       exec .decodeFrame s = .next { s with
         link := { s.link with
           decoderSlot := false, heldOrder := [], bufs := s.link.bufs.set j ⟨.free, []⟩
           queue := s.link.queue ++ [⟨.response, tag, [0x01, 0, 0x3D, 0x0B, 0x60, 0x02, 1, 1, 32, 16, 32, 4, 32, 2, 8,
             64, BitVec.ofNat 8 s.link.rate.val], none⟩] } }))

/-- The transmitter (R175, R171): idle, with a frame queued and HOLD not asserted, it begins the frame at the head of the
queue; else TRANSMIT_FRAME_START changes nothing. At its end a frame leaves the queue, and with it a marked change of rate
takes place (R176, R185). The slot it leaves goes to the claim made first (R177): the decoder has it in hand, the notice is
queued, or the scan's hits are (R78, R82): a PAUSED context runs again, a DRAINING one with no read ISSUED answers with its
report and is FREE. The context that runs again evaluates the records left in its filled buffer from its cursor on (R74):
with a 24th hit it is PAUSED again, also where that hit is the last record of its buffer (log 43) or of the range (log 35),
both the model's choices; past them it waits at the other buffer, with the buffer it left read into again while the read
point allows (R72); with no number left its range is done, and it answers, or is DRAINING with a claim for the hits it then
holds. -/
def Obligations.Transmitter : Prop :=
  (∀ s : State,
     (∀ (f : Frame) (rest : List Frame), s.link.tx = none → s.link.queue = f :: rest →
       exec (.transmitFrameStart false) s = .next { s with
         link := { s.link with tx := some (frameBytes ([f.kind.code, f.tag] ++ f.payload)) } }) ∧
     exec (.transmitFrameStart true) s = .next s ∧
     (s.link.tx ≠ none ∨ s.link.queue = [] → exec (.transmitFrameStart false) s = .next s)) ∧
  (∀ (s : State) (f : Frame) (rest : List Frame) (bytes : List Byte), s.link.tx = some bytes → s.link.queue = f :: rest →
     s.link.claims = [] → s.link.rx = .hunt ∨ s.link.rx = .skip →
     exec .frameSent s = .next { s with
       link := { s.link with queue := rest, tx := none, rate := f.rateMark.getD s.link.rate } }) ∧
  (∀ (s : State) (f : Frame) (rest : List Frame) (bytes : List Byte) (claims : List Claimant),
     s.link.tx = some bytes → s.link.queue = f :: rest → f.rateMark = none → s.link.decoderSlot = false →
     s.queued + s.reserved = 32 →
     (s.link.claims = .decoder :: claims → exec .frameSent s = .next { s with
       link := { s.link with queue := rest, tx := none, claims := claims, decoderSlot := true } }) ∧
     (s.link.claims = .notice .linkError :: claims → exec .frameSent s = .next { s with
       link := { s.link with
         queue := rest ++ [Frame.notice 0 0xFF (leBytes 2 s.link.discards)], tx := none, claims := claims
         discards := 0 } }) ∧
     (∀ (k : Fin 4) (c : Ctx), s.link.claims = .scan k :: claims → s.ctx k = some c → c.hits ≠ [] →
       let l := { s.link with queue := rest ++ [Frame.hits c.tag c.hits], tx := none, claims := claims }
       let e := s.entry c.series
       let ends := fun c' : Ctx => (∀ x ∈ s.arr.queue ++ s.arr.waiting, x.origin.ofCtx k = false) →
         (c'.hits = [] → e.state ≠ .dropping →
           (s.table.filter fun e => e.tag != c.tag).length + 1 = s.table.length →
           ∃ t, exec .frameSent s = .next t ∧ t.ctx k = none ∧ (∀ j ≠ k, t.ctx j = s.ctx j) ∧
             t.table = s.table.filter (fun e => e.tag != c.tag) ∧ t.dir = s.dir ∧ t.mem = s.mem ∧
             t.link = { l with queue := l.queue ++ [⟨.response, c.tag,
               [0x18, 0] ++ ({ c' with endReason := some .endOfRange } : Ctx).report, none⟩] }) ∧
         (c'.hits ≠ [] → Claimant.scan k ∉ claims →
           ∃ t, exec .frameSent s = .next t ∧ (∀ j ≠ k, t.ctx j = s.ctx j) ∧ t.dir = s.dir ∧ t.mem = s.mem ∧
             t.ctx k = some { c' with
               state := .draining, endReason := some .endOfRange, buf0 := none, buf1 := none } ∧
             t.table = s.table.map (fun e => if e.tag == c.tag then { e with state := .ending } else e) ∧
             t.link = { l with claims := claims ++ [.scan k] })
       (∀ second cur, c.state = .paused → c.buf second = some cur → cur.first ≤ cur.last →
         (∀ y, c.buf (!second) = some y → cur.last < y.first) → c.buf (!second) ≠ none ∨ c.high < c.readPoint →
         let c1 : Ctx := { c with state := .running, hits := [] }
         let unread := cur.records.drop (c.cursor - (cur.first + cur.skipped))
         let c2 : Ctx := { c1.tested c.cursor unread with hits := c1.listed c.cursor unread }
         (cur.filled = false → cur.first ≤ c.cursor →
           exec .frameSent s = .next (({ s with link := l } : State).setCtx k (some c1))) ∧
         (cur.filled = true → cur.first + cur.skipped ≤ c.cursor → c1.GoesOn unread →
           (unread.filter (isHit c.filter)).length < 24 →
           (c.buf (!second) = none → ends { c2 with cursor := cur.last + 1 }) ∧
           (∀ later, c.buf (!second) = some later → later.filled = true → c.high < c.readPoint →
             c2.GoesOn later.records → ((unread ++ later.records).filter (isHit c.filter)).length < 24 →
             let first := later.first + later.skipped
             ends { c2.tested first later.records with
               hits := c2.listed first later.records, cursor := later.last + 1 }) ∧
           (∀ later, c.buf (!second) = some later → later.filled = false → c.high < c.readPoint →
             exec .frameSent s = .next (({ s with link := l } : State).setCtx k
               (some ({ c2 with cursor := later.first }.setBuf second none)))) ∧
           (∀ later, c.buf (!second) = some later → later.filled = false → later.first < c.readPoint →
             c.readPoint ≤ c.high → e.oldest ≤ c.readPoint → s.arr.queue.length < 32 →
             let n := min (64 - c.readPoint % (512 * e.count) % 64) (c.high + 1 - c.readPoint)
             ∃ t, exec .frameSent s = .next t ∧ (∀ j ≠ k, t.ctx j = s.ctx j) ∧ t.dir = s.dir ∧ t.mem = s.mem ∧
               t.table = s.table ∧ t.link = l ∧
               t.arr.queue = s.arr.queue ++ [⟨.scanRow k second, .read, e.dieOf c.readPoint,
                 some (e.place c.readPoint n), [], false, 0, true⟩] ∧
               t.ctx k = some ({ c2 with cursor := later.first, readPoint := c.readPoint + n }.setBuf second
                 (some ⟨c.readPoint, c.readPoint + n - 1, false, 0, []⟩)))) ∧
         (∀ before r after m, cur.filled = true → cur.first + cur.skipped ≤ c.cursor →
           unread = before ++ r :: after → c1.GoesOn (before ++ [r]) → c.filter.test r = .hit m → c.mode = .list →
           (before.filter (isHit c.filter)).length = 23 → Claimant.scan k ∉ claims →
           exec .frameSent s = .next (({ s with link := { l with claims := claims ++ [.scan k] } } : State).setCtx k
             (some { c1.tested c.cursor (before ++ [r]) with
               state := .paused, hits := c1.listed c.cursor (before ++ [r]) })))) ∧
       (c.state = .draining → (∃ x ∈ s.arr.queue, x.issued = true ∧ x.origin.ofCtx k = true) →
         exec .frameSent s = .next (({ s with link := l } : State).setCtx k (some { c with hits := [] }))) ∧
       (c.state = .draining → (∀ x ∈ s.arr.queue, x.origin.ofCtx k = true → x.issued = false) →
         (s.entry c.series).state ≠ .dropping →
         (s.table.filter fun e => e.tag != c.tag).length + 1 = s.table.length →
         exec .frameSent s = .next (({ s with
           link := { l with queue := l.queue ++ [⟨.response, c.tag, [0x18, 0] ++ c.report, none⟩] }
           table := s.table.filter fun e => e.tag != c.tag } : State).setCtx k none))))

/-! ### Requests of the link and the table -/

/-- IDENTIFY answers at once with the codes, the sizes and the rate in force (R184, R189). SET_LINK (R185, R188): a rate code
from 0 to 4 is answered by a response that is marked with the new rate, and the rate in force stays; any other code is
refused. -/
def Obligations.IdentifyAndSetLink : Prop :=
  (∀ (s : State) (tag : Byte), s.Admits tag → exec (.identify tag) s = .next (s.answered tag .identify .ok
     [0x3D, 0x0B, 0x60, 0x02, 1, 1, 32, 16, 32, 4, 32, 2, 8, 64, BitVec.ofNat 8 s.link.rate.val])) ∧
  (∀ (s : State) (tag code : Byte), s.Admits tag →
     (∀ r : Fin 5, code.toNat = r.val → exec (.setLink tag code) s = .next { s with
       link := { s.link with
         rxIdle := 0, queue := s.link.queue ++ [⟨.response, tag, [0x03, 0, code], some r⟩] } }) ∧
     (5 ≤ code.toNat → exec (.setLink tag code) s = .next (s.answered tag .setLink .badValue [0xFF])))

/-- STATUS answers at once with the snapshot, field by field at the places of R189; it counts itself neither in Q nor in S
(R184), and its own frame is still HELD in buffer 0. Absent temperatures and baselines are written as R187 gives them; the
calibration request state is 0 for none, 1 and 2 for a pending SHORT and LONG, 3 for one in progress (R132). An unused table
place and an image operation of kind none are 0 throughout (logs 42 and 41, the model's choices). -/
def Obligations.Status : Prop :=
  ∀ (s : State) (tag : Byte), s.Admits tag → ∃ f : List Byte,
    exec (.status tag) s = .next (s.answered tag .status .ok f) ∧ f.length = 143 ∧
    (let bit := fun (n : Notice) (v : Nat) => if Claimant.notice n ∈ s.link.claims then v else 0
     f.take 10 = [BitVec.ofNat 8 s.link.rate.val, 0, 2, 0, BitVec.ofNat 8 s.link.queue.length,
       BitVec.ofNat 8 s.table.length, BitVec.ofNat 8 (32 - s.link.queue.length - s.table.length),
       BitVec.ofNat 8 (bit .linkError 1 + bit (.hot 0) 2 + bit (.hot 1) 4 + bit (.calOverdue 0) 8
         + bit (.calOverdue 1) 16 + bit (.refreshMissed 0) 32 + bit (.refreshMissed 1) 64)]
       ++ leBytes 2 s.link.discards) ∧
    (∀ n < 16, (f.drop (10 + 3 * n)).take 3 = match s.table[n]? with
      | some e => [e.tag, e.kind.code, e.state.code]
      | none => [0, 0, 0]) ∧
    (∀ d : Fin 2, (f.drop (58 + 9 * d.val)).take 9 = [(s.die d).state.code, (s.die d).restTarget.code,
      (s.die d).activity.code, flagByte (s.die d).holdRefresh, flagByte (s.die d).holdCal,
      flagByte (s.die d).driftHold, BitVec.ofNat 8 (s.die d).debt, flagByte (s.die d).hot,
      BitVec.ofNat 8 (s.die d).overruns]) ∧
    (f.drop 76).take 14 = timingBytes s.arr.timing ∧
    (f.drop 90).take 2 = [BitVec.ofNat 8 s.arr.queue.length, BitVec.ofNat 8 s.arr.waiting.length] ∧
    (f.drop 92).take 11 = monitorBytes s.mon.settings ∧ (f.drop 103).take 2 = leBytes 2 s.mon.supply ∧
    (∀ d : Fin 2, (f.drop (105 + 7 * d.val)).take 7 =
      [((s.dieMon d).temp.map temperatureByte).getD 0x80,
        ((s.dieMon d).base.map fun b => temperatureByte b.tcal).getD 0x80]
      ++ leBytes 2 (((s.dieMon d).base.map Baselines.vcal).getD 0) ++ leBytes 2 (s.dieMon d).drift
      ++ [match (s.dieMon d).req with
        | none => 0
        | some r => if r.stage = .pending then (if r.kind = .short then 1 else 2) else 3]) ∧
    (∀ (k : Fin 4) (c : Ctx), s.ctx k = some c → (f.drop (119 + 2 * k.val)).take 2 = [c.state.code, c.tag]) ∧
    (∀ k : Fin 4, s.ctx k = none → (f.drop (119 + 2 * k.val)).take 2 = [0, 0]) ∧
    (f.drop 127).take 10 = portBytes s.port.settings ∧
    (s.port.op = none → (f.drop 137).take 6 = [0, 0, 0, 0, 0, 0]) ∧
    ∀ op, s.port.op = some op →
      (f.drop 137).take 6 = [op.kind.code, op.tag, BitVec.ofNat 8 op.slot, op.phase.code] ++ leBytes 2 op.page

/-- CANCEL (R181): UNKNOWN_TAG where no entry holds the tag, NOT_CANCELLABLE for every kind but three, itself included.
CANCEL of a scan or an image operation answers OK first, and the target ends CANCELLED (R79, R82, R156, R161, R167); a scan
that is DRAINING and an image operation that is ENDING keep their result, and nothing else changes. A scan sends its
remaining hits where it has no claim yet and a slot is free. With no hit left and no read ISSUED it answers in the same
change with its report (R83) and is FREE; else it is DRAINING and its entry ENDING. An image operation with no access
running and no transaction ISSUED answers CANCELLED in the same change with its report; else it is ENDING. -/
def Obligations.Cancel : Prop :=
  (∀ (s : State) (tag target : Byte), s.Admits tag →
     (target ≠ tag → (∀ e ∈ s.table, e.tag ≠ target) →
       exec (.cancel tag target) s = .next (s.answered tag .cancel .unknownTag [])) ∧
     (target = tag → exec (.cancel tag target) s = .next (s.answered tag .cancel .notCancellable [])) ∧
     (∀ e, s.entryOf target = some e → e.kind ≠ .scan → e.kind ≠ .preserve → e.kind ≠ .recover →
       exec (.cancel tag target) s = .next (s.answered tag .cancel .notCancellable []))) ∧
  (∀ (s : State) (tag target : Byte) (e : TableEntry), s.Admits tag → s.entryOf target = some e →
     (∀ (k : Fin 4) (c : Ctx), e.kind = .scan → s.ctxOf target = some k → s.ctx k = some c → c.state = .draining →
       exec (.cancel tag target) s = .next (s.answered tag .cancel .ok [])) ∧
     (∀ (k : Fin 4) (c : Ctx), e.kind = .scan → s.ctxOf target = some k → s.ctx k = some c → c.state ≠ .draining →
       (s.entry c.series).state ≠ .dropping →
       let sends : Prop := c.hits ≠ [] ∧ Claimant.scan k ∉ s.link.claims ∧ 2 ≤ s.freeSlots
       let busy : Prop := ∃ x ∈ s.arr.queue, x.issued = true ∧ x.origin.ofCtx k = true
       let c' : Ctx := { c with
         state := .draining, endReason := some .cancelled, buf0 := none, buf1 := none
         low := if c.state = .resolving ∨ c.state = .searching then c.searchLow else c.low }
       ∃ t, exec (.cancel tag target) s = .next t ∧
         (∀ x ∈ t.arr.queue ++ t.arr.waiting, x.origin.ofCtx k = true → x.issued = true ∧ x.live = false) ∧
         (∀ j ≠ k, t.ctx j = s.ctx j) ∧ t.dir = s.dir ∧ t.mem = s.mem ∧
         ((c.hits = [] ∨ sends) ∧ ¬ busy → t.ctx k = none ∧ t.table = s.table.filter (fun x => x.tag != target) ∧
           t.link = { s.link with
             rxIdle := 0
             queue := s.link.queue ++ [⟨.response, tag, [0x04, 0], none⟩]
               ++ (if c.hits = [] then [] else [Frame.hits target c.hits])
               ++ [⟨.response, target, [0x18, 0] ++ c'.report, none⟩] }) ∧
         (c.hits = [] ∨ sends → busy → t.ctx k = some { c' with hits := [] } ∧
           t.table = s.table.map (fun x => if x.tag = target then { x with state := .ending } else x) ∧
           t.link = { s.link with
             rxIdle := 0
             queue := s.link.queue ++ [⟨.response, tag, [0x04, 0], none⟩]
               ++ (if c.hits = [] then [] else [Frame.hits target c.hits]) }) ∧
         (c.hits ≠ [] → ¬ sends → t.ctx k = some c' ∧
           t.table = s.table.map (fun x => if x.tag = target then { x with state := .ending } else x) ∧
           t.link = { s.link with
             rxIdle := 0, queue := s.link.queue ++ [⟨.response, tag, [0x04, 0], none⟩]
             claims := if Claimant.scan k ∈ s.link.claims then s.link.claims else s.link.claims ++ [.scan k] })) ∧
     (∀ op, e.kind = .preserve ∨ e.kind = .recover → s.port.op = some op → op.result ≠ none → op.phase = .ending →
       exec (.cancel tag target) s = .next (s.answered tag .cancel .ok [])) ∧
     (∀ op, (e.kind = .preserve ∧ op.kind = .preserve) ∨ (e.kind = .recover ∧ op.kind = .recover) →
       s.port.op = some op → op.tag = target → op.result = none → op.abandoned = false →
       (s.entry op.series).state ≠ .dropping →
       let busy : Prop := s.port.accessing = true ∨ ∃ x ∈ s.arr.queue, x.issued = true ∧ x.origin.ofImage = true
       let report : List Byte := if op.kind = .preserve then op.preserveReport else op.recoverReport
       let striped : Prop := op.kind = .recover ∧ op.phase = .pageRead
       ∃ t, exec (.cancel tag target) s = .next t ∧ t.mem = s.mem ∧ (∀ k : Fin 4, t.ctx k = s.ctx k) ∧
         (∀ x ∈ t.arr.queue ++ t.arr.waiting, x.origin.ofImage = true → x.issued = true ∧ x.live = false) ∧
         (striped → t.entry op.series = { s.entry op.series with
           state := .lost, batches := [], reserved := (s.entry op.series).committed
           lastReserved := (s.entry op.series).lastCommitted }) ∧
         (¬ striped → t.entry op.series = s.entry op.series) ∧ (∀ i ≠ op.series, t.entry i = s.entry i) ∧
         (¬ busy → t.port = { s.port with op := none, transfer := none } ∧
           t.table = s.table.filter (fun x => x.tag != target) ∧
           t.link = { s.link with
             rxIdle := 0
             queue := s.link.queue ++ [⟨.response, tag, [0x04, 0], none⟩,
               ⟨.response, target, [if op.kind = .preserve then 0x41 else 0x42, 22] ++ report, none⟩] }) ∧
         (busy → t.port.op = some { op with phase := .ending, result := some .cancelled, detail := [] } ∧
           t.port.transfer = (if s.port.accessing then s.port.transfer else none) ∧
           t.table = s.table.map (fun x => if x.tag = target then { x with state := .ending } else x) ∧
           t.link = { s.link with
             rxIdle := 0, queue := s.link.queue ++ [⟨.response, tag, [0x04, 0], none⟩] })))

/-- RESET (R182, R183, R46, R87, R114, R133, R146, R169): every other request is gone without a response, every unsent frame
is gone, every context is FREE, no fetch and no DROP remains, the settings and the die records stay, and only status reads
remain. With nothing ISSUED and no port access under way it answers at once with both counts. With either under way both
buffers are RESET_HELD, RDY is deasserted, nothing is answered, and a frame whose transmission has begun stays; the completion
that ends the last discarded work answers, frees the buffers and asserts RDY again (R173, R183). What it makes of the
directory (R24), entry by entry: the prefix of complete batches commits, the rest is discarded and the reserved head rolls
back; DROPPING becomes FREE, RECOVERING becomes LOST, FREE and LOST stay. -/
def Obligations.ResetRequest : Prop :=
  (∀ (s : State) (tag : Byte), s.LinkFree → tag ≠ 0 → s.link.tx = none → s.link.claims = [] → s.link.reset = none →
     s.requestWorkIssued = false → s.port.accessing = false →
     ∃ t, exec (.reset tag) s = .next t ∧ t.table = [] ∧
       t.link = { s.link with
         rxIdle := 0
         queue := [Frame.response tag .reset .ok
           [BitVec.ofNat 8 s.table.length, BitVec.ofNat 8 s.link.queue.length]] } ∧
       t.fetches = [] ∧ t.drops = [] ∧ (∀ k : Fin 4, t.ctx k = none) ∧ t.port.op = none ∧ t.port.transfer = none ∧
       t.port.settings = s.port.settings ∧ t.port.lastDir = s.port.lastDir ∧ t.arr.dies = s.arr.dies ∧
       t.arr.timing = s.arr.timing ∧ t.arr.power = none ∧ t.arr.startTag = none ∧
       t.arr.load = s.arr.load.map (fun l => { l with tag := none }) ∧
       (∀ x ∈ t.arr.queue ++ t.arr.waiting, x.origin = .statusRead) ∧ t.mon.settings = s.mon.settings ∧
       t.mon.supply = s.mon.supply ∧ t.mon.reference = s.mon.reference ∧
       (∀ d : Fin 2, t.dieMon d = { s.dieMon d with
         req := (s.dieMon d).req.map fun r => { r with joined := [] } }) ∧ t.mem = s.mem) ∧
  (∀ (s : State) (tag : Byte), s.LinkFree → tag ≠ 0 → s.link.claims = [] → s.link.reset = none →
     s.requestWorkIssued = true ∨ s.port.accessing = true →
     let kept := if s.link.tx = none then [] else s.link.queue.take 1
     ∃ t, exec (.reset tag) s = .next t ∧ t.table = [⟨tag, .reset, .linkAndTable, .working⟩] ∧ t.rdy = false ∧
       t.link = { s.link with
         rxIdle := 0, bufs := Vector.replicate 2 ⟨.resetHeld, []⟩, queue := kept
         reset := some ⟨tag, s.table.length, s.link.queue.length - kept.length⟩ } ∧
       (∀ x ∈ t.arr.queue ++ t.arr.waiting, x.origin = .statusRead ∨ (x.issued = true ∧ x.live = false)) ∧
       (s.port.accessing = false → t.port.op = none ∧ t.port.transfer = none) ∧
       (s.port.accessing = true → t.port.transfer = s.port.transfer ∧
         t.port.op = s.port.op.map fun op => { op with abandoned := true }) ∧ t.mem = s.mem) ∧
  (∀ (s : State) (r : ResetOp) (d : Fin 2) (b : Fin 8) (x : Txn) (fetchTag : Byte) (second : Bool),
     s.link.reset = some r → s.issuedAt d b = some x → x.origin = .fetch fetchTag second → x.live = false →
     (∀ y ∈ s.arr.waiting, y.issued = false) →
     ((s.arr.queue.filter fun y => y.issued && y.origin != .statusRead) = [x] → s.port.accessing = false →
       ∃ t, exec (.fetchReadComplete d b) s = .next t ∧ t.table = s.table.filter (fun e => e.tag != r.tag) ∧
         t.link = { s.link with
           reset := none, bufs := Vector.replicate 2 ⟨.free, []⟩
           queue := s.link.queue ++ [⟨.response, r.tag,
             [0x05, 0, BitVec.ofNat 8 r.entriesRemoved, BitVec.ofNat 8 r.framesRemoved], none⟩] } ∧ t.rdy = true) ∧
     (2 ≤ (s.arr.queue.filter fun y => y.issued && y.origin != .statusRead).length ∨ s.port.accessing = true →
       ∃ t, exec (.fetchReadComplete d b) s = .next t ∧ t.table = s.table ∧ t.link = s.link)) ∧
  (∀ (s t : State) (tag : Byte) (i : Fin 32), s.LinkFree → tag ≠ 0 → exec (.reset tag) s = .next t →
     ((s.entry i).state = .opened ∨ (s.entry i).state = .sealed →
       ∃ done left, (s.entry i).batches = done ++ left ∧ (∀ b ∈ done, b.writes ≤ b.done) ∧
         (∀ b, left.head? = some b → b.done < b.writes) ∧
         t.entry i = { s.entry i with
           batches := []
           committed := (s.entry i).committed + (done.map Batch.count).sum
           reserved := (s.entry i).committed + (done.map Batch.count).sum
           lastCommitted := (done.getLast?.map Batch.lastStamp).getD (s.entry i).lastCommitted
           lastReserved := (done.getLast?.map Batch.lastStamp).getD (s.entry i).lastCommitted
           dirty := (s.entry i).dirty || !(s.entry i).batches.isEmpty }) ∧
     ((s.entry i).state = .dropping → t.entry i = Entry.free) ∧
     ((s.entry i).state = .recovering → t.entry i = { s.entry i with
       state := .lost, batches := [], reserved := (s.entry i).committed
       lastReserved := (s.entry i).lastCommitted }) ∧
     ((s.entry i).state = .free ∨ (s.entry i).state = .lost → t.entry i = s.entry i))

/-! ### Requests of the store unit -/

/-- CREATE that passes its checks makes the entry OPEN and answers with the capacity (R20, R21); no stripe of its range is
held by an entry that is not FREE. Its refusals in the order of R20, every one of which changes nothing else. -/
def Obligations.Create : Prop :=
  (∀ (s : State) (tag series : Byte) (base count : Half) (lanes policy : Byte) (i : Fin 32) (p : Policy),
     s.Admits tag → series.toNat = i.val → (policy = 0 ∧ p = .wrap ∨ policy = 1 ∧ p = .halt) →
     1 ≤ count.toNat → count.toNat ≤ 4096 → 1 ≤ lanes.toNat → lanes.toNat ≤ 6 → (s.entry i).state = .free →
     (∀ op, s.port.op = some op → op.kind = .recover → op.series ≠ i) → base.toNat + count.toNat ≤ 32768 →
     (∀ stripe, base.toNat ≤ stripe → stripe < base.toNat + count.toNat → (s.die (stripeDie stripe)).usable = true) →
     (∀ j stripe, (s.entry j).state ≠ .free → base.toNat ≤ stripe → stripe < base.toNat + count.toNat →
       ¬ ((s.entry j).base ≤ stripe ∧ stripe < (s.entry j).base + (s.entry j).count)) →
     exec (.create tag series base count lanes policy) s = .next
       ((s.setEntry i ⟨.opened, base.toNat, count.toNat, lanes.toNat, p, 0, 0, 0, 0, 0, true, none, []⟩).answered tag
         .create .ok ([series] ++ leBytes 4 (512 * count.toNat)))) ∧
  (∀ (s : State) (tag series : Byte) (base count : Half) (lanes policy : Byte), s.Admits tag →
     ((∀ d : Fin 2, (s.die d).usable = false) → exec (.create tag series base count lanes policy) s =
       .next (s.answered tag .create .notReady [])) ∧
     ((∃ d : Fin 2, (s.die d).usable = true) →
       (32 ≤ series.toNat ∨ count.toNat = 0 ∨ 4096 < count.toNat ∨ lanes.toNat = 0 ∨ 6 < lanes.toNat ∨
         2 ≤ policy.toNat → exec (.create tag series base count lanes policy) s =
           .next (s.answered tag .create .badValue [0xFF])) ∧
       (∀ i : Fin 32, series.toNat = i.val → 1 ≤ count.toNat → count.toNat ≤ 4096 → 1 ≤ lanes.toNat →
         lanes.toNat ≤ 6 → policy.toNat < 2 →
         ((s.entry i).state ≠ .free ∨ s.port.recovering i = true →
           exec (.create tag series base count lanes policy) s = .next (s.answered tag .create .seriesExists [])) ∧
         ((s.entry i).state = .free → s.port.recovering i = false →
           (32768 < base.toNat + count.toNat → exec (.create tag series base count lanes policy) s =
             .next (s.answered tag .create .badValue [0xFF])) ∧
           (base.toNat + count.toNat ≤ 32768 →
             ((∃ stripe, base.toNat ≤ stripe ∧ stripe < base.toNat + count.toNat ∧
               (s.die (stripeDie stripe)).usable = false) → exec (.create tag series base count lanes policy) s =
                 .next (s.answered tag .create .noMemory [])) ∧
             (∀ j : Fin 32, (∀ stripe, base.toNat ≤ stripe → stripe < base.toNat + count.toNat →
               (s.die (stripeDie stripe)).usable = true) → (s.entry j).state ≠ .free →
               (∃ stripe, base.toNat ≤ stripe ∧ stripe < base.toNat + count.toNat ∧ (s.entry j).base ≤ stripe ∧
                 stripe < (s.entry j).base + (s.entry j).count) →
               (∀ k < j, (s.entry k).state ≠ .free → ∀ stripe, base.toNat ≤ stripe →
                 stripe < base.toNat + count.toNat →
                 ¬ ((s.entry k).base ≤ stripe ∧ stripe < (s.entry k).base + (s.entry k).count)) →
               exec (.create tag series base count lanes policy) s =
                 .next (s.answered tag .create .overlap [BitVec.ofNat 8 j.val])))))))

/-- DESCRIBE answers with the entry at the places of R189, and changes nothing (R22). SEAL (R37, R19): an OPEN entry becomes
SEALED with its dirty flag set, and the answer carries the final head and the pending batches; every other state refuses
it. -/
def Obligations.DescribeAndSeal : Prop :=
  (∀ (s : State) (tag series : Byte), s.Admits tag →
     (32 ≤ series.toNat → exec (.describe tag series) s = .next (s.answered tag .describe .badValue [0xFF])) ∧
     ∀ i : Fin 32, series.toNat = i.val →
       ((s.entry i).state = .free →
         exec (.describe tag series) s = .next (s.answered tag .describe .noSeries [])) ∧
       ((s.entry i).state ≠ .free →
         let e := s.entry i
         exec (.describe tag series) s = .next (s.answered tag .describe .ok
           ([series, e.state.code] ++ leBytes 2 e.base ++ leBytes 2 e.count ++ leBytes 4 (512 * e.count)
             ++ [BitVec.ofNat 8 e.lanes, e.policy.code] ++ leBytes 4 e.reserved ++ leBytes 4 e.committed
             ++ leBytes 4 e.oldest ++ leBytes 4 (e.committed - e.oldest) ++ leBytes 6 e.lastReserved.toNat
             ++ leBytes 6 e.lastCommitted.toNat ++ [if e.dirty then 1 else 0]
             ++ [(e.image.map fun c => BitVec.ofNat 8 c.slot).getD 0xFF]
             ++ leBytes 4 ((e.image.map SlotClaim.head).getD 0) ++ [BitVec.ofNat 8 e.batches.length])))) ∧
  (∀ (s : State) (tag series : Byte), s.Admits tag →
     (32 ≤ series.toNat → exec (.seal tag series) s = .next (s.answered tag .seal .badValue [0xFF])) ∧
     ∀ i : Fin 32, series.toNat = i.val →
       ((s.entry i).state = .opened → exec (.seal tag series) s = .next
         ((s.setEntry i { s.entry i with state := .sealed, dirty := true }).answered tag .seal .ok
           ([series] ++ leBytes 4 (s.entry i).reserved ++ [BitVec.ofNat 8 (s.entry i).batches.length]))) ∧
       ((s.entry i).state = .free ∨ (s.entry i).state = .dropping →
         exec (.seal tag series) s = .next (s.answered tag .seal .noSeries [])) ∧
       ((s.entry i).state = .sealed → exec (.seal tag series) s = .next (s.answered tag .seal .sealed [])) ∧
       ((s.entry i).state = .lost → exec (.seal tag series) s = .next (s.answered tag .seal .lost [])) ∧
       ((s.entry i).state = .recovering → exec (.seal tag series) s = .next (s.answered tag .seal .notReady [])))

/-- DROP (R39, R40, R18): an idle or LOST series becomes FREE and the DROP answers at once; with work in flight that nothing
can end at once the entry is DROPPING and the DROP waits. Batches already complete leave the list and answer SERIES_GONE, in
the order in which they became complete (R40, R41). Then a scan on the series that is not DRAINING ends with SERIES_GONE
(R80, R82): its hits are sent where it has no claim yet and a slot is free, and it answers with its report where no hit and
no ISSUED read is left to wait for, else it is DRAINING and its entry ENDING. A PRESERVE of the series ends with SERIES_GONE
(R161): it answers with its report where no access runs and nothing of it is ISSUED, else it is ENDING (R156). Where no work
is left after that the entry is FREE in the same change and the DROP answers OK (R43). The order of these frames is log 34,
the model's choice. -/
def Obligations.Drop : Prop :=
  ∀ (s : State) (tag series : Byte), s.Admits tag →
    (32 ≤ series.toNat → exec (.drop tag series) s = .next (s.answered tag .drop .badValue [0xFF])) ∧
    ∀ i : Fin 32, series.toNat = i.val →
      ((s.entry i).state = .free ∨ (s.entry i).state = .dropping →
        exec (.drop tag series) s = .next (s.answered tag .drop .noSeries [])) ∧
      ((s.entry i).state = .recovering → exec (.drop tag series) s = .next (s.answered tag .drop .notReady [])) ∧
      ((s.entry i).state = .lost ∨
          ((s.entry i).state = .opened ∨ (s.entry i).state = .sealed) ∧ s.inFlight i = false →
        exec (.drop tag series) s = .next
          ((s.setEntry i ⟨.free, 0, 0, 1, .wrap, 0, 0, 0, 0, 0, false, none, []⟩).answered tag .drop .ok [series])) ∧
      ((s.entry i).state = .opened ∨ (s.entry i).state = .sealed → s.inFlight i = true →
        (∀ b ∈ (s.entry i).batches, b.done < b.writes) →
        (∀ (k : Fin 4) (c : Ctx), s.ctx k = some c → c.series = i → c.state = .draining) →
        s.port.preserving i = false →
        exec (.drop tag series) s = .next
          (((s.setDrops (s.drops ++ [⟨tag, i⟩])).setEntry i { s.entry i with state := .dropping }).admitted tag .drop)) ∧
      (∀ complete : List Batch, (s.entry i).state = .opened ∨ (s.entry i).state = .sealed →
        complete.Perm ((s.entry i).batches.filter fun b => b.writes ≤ b.done) →
        complete.Pairwise (fun x y => x.finish < y.finish) →
        let dropping : Entry := { s.entry i with
          state := .dropping, batches := (s.entry i).batches.filter fun b => b.done < b.writes }
        let u : State := { s with
          dir := s.dir.set i dropping
          drops := s.drops ++ [⟨tag, i⟩]
          table := (s.table ++ [(⟨tag, .drop, .storeUnit, .working⟩ : TableEntry)]).filter
            (fun e => complete.all fun b => e.tag != b.tag)
          link := { s.link with
            rxIdle := 0
            queue := s.link.queue ++ complete.map fun b => (⟨.response, b.tag, [0x14, 23], none⟩ : Frame) } }
        let ending := fun target : Byte => u.table.map fun x => if x.tag = target then { x with state := .ending } else x
        let drains := fun P : Fin 4 → Prop =>
          ∀ (j : Fin 4) (c : Ctx), P j → s.ctx j = some c → c.series = i → c.state = .draining
        let withdrawn := fun (t : State) (mine : Origin → Bool) =>
          ∀ x ∈ t.arr.queue ++ t.arr.waiting, mine x.origin = true → x.issued = true ∧ x.live = false
        (u.otherWork i → drains (fun _ => True) → s.port.preserving i = false → exec (.drop tag series) s = .next u) ∧
        ((∀ x ∈ s.arr.waiting, x.issued = false) → (∀ w ∈ s.drops, w.series ≠ i) →
          (∀ (k : Fin 4) (c : Ctx), s.port.preserving i = false → s.ctx k = some c → c.series = i →
            c.state ≠ .draining → c.endReason ≠ some .lost → drains (fun j => j ≠ k) →
            let sends : Prop := c.hits ≠ [] ∧ Claimant.scan k ∉ s.link.claims ∧ u.link.queue.length + u.table.length < 32
            let busy : Prop := ∃ x ∈ s.arr.queue, x.issued = true ∧ x.origin.ofCtx k = true
            let works : Prop := dropping.batches ≠ [] ∨ (∃ f ∈ s.fetches, f.series = i) ∨
              ∃ (j : Fin 4) (x : Ctx), j ≠ k ∧ s.ctx j = some x ∧ x.series = i ∧ x.endReason ≠ some .lost
            let c' : Ctx := { c with
              state := .draining, endReason := some .seriesGone, buf0 := none, buf1 := none
              low := if c.state = .resolving ∨ c.state = .searching then c.searchLow else c.low }
            let frames : List Frame := if c.hits = [] then [] else [Frame.hits c.tag c.hits]
            let answer : Frame := ⟨.response, c.tag, [0x18, 0] ++ c'.report, none⟩
            ∃ t, exec (.drop tag series) s = .next t ∧ withdrawn t (fun o => o.ofCtx k) ∧
              (∀ j ≠ k, t.ctx j = s.ctx j) ∧ t.fetches = s.fetches ∧ t.port = s.port ∧ t.mem = s.mem ∧
              ((c.hits = [] ∨ sends) ∧ ¬ busy → t.ctx k = none ∧
                (works → t.dir = u.dir ∧ t.drops = u.drops ∧ t.table = u.table.filter (fun x => x.tag != c.tag) ∧
                  t.link = { u.link with queue := u.link.queue ++ frames ++ [answer] }) ∧
                (¬ works → t.dir = s.dir.set i ⟨.free, 0, 0, 1, .wrap, 0, 0, 0, 0, 0, false, none, []⟩ ∧
                  t.drops = s.drops ∧ t.table = u.table.filter (fun x => x.tag != c.tag && x.tag != tag) ∧
                  t.link = { u.link with queue := u.link.queue ++ frames
                    ++ [answer, ⟨.response, tag, [0x12, 0, series], none⟩] })) ∧
              (¬ ((c.hits = [] ∨ sends) ∧ ¬ busy) →
                t.dir = u.dir ∧ t.drops = u.drops ∧ t.table = ending c.tag) ∧
              (c.hits = [] ∨ sends → busy → t.ctx k = some { c' with hits := [] } ∧
                t.link = { u.link with queue := u.link.queue ++ frames }) ∧
              (c.hits ≠ [] → ¬ sends → t.ctx k = some c' ∧ t.link = { u.link with
                claims := if Claimant.scan k ∈ s.link.claims then s.link.claims else s.link.claims ++ [.scan k] })) ∧
          (∀ op, drains (fun _ => True) → s.port.op = some op → op.kind = .preserve → op.series = i →
            op.result = none → op.abandoned = false →
            let busy : Prop := s.port.accessing = true ∨ ∃ x ∈ s.arr.queue, x.issued = true ∧ x.origin.ofImage = true
            ∃ t, exec (.drop tag series) s = .next t ∧ withdrawn t Origin.ofImage ∧
              (¬ busy → u.OpAnswers t { op with detail := [] } .seriesGone) ∧
              (busy → t.dir = u.dir ∧ t.drops = u.drops ∧ t.table = ending op.tag ∧ t.link = u.link ∧
                t.fetches = s.fetches ∧ t.ctxs = s.ctxs ∧ t.mem = s.mem ∧ t.port = { s.port with
                  op := some { op with phase := .ending, result := some .seriesGone, detail := [] }
                  transfer := if s.port.accessing then s.port.transfer else none }))))

/-- APPEND that passes its checks (R25 to R27): the reserved head rises by the batch, under WRAP oldest rises by the excess,
the batch joins the list, and one or two writes join the queue, their lanes from the lane count up made ABSENT. The APPEND
stays in the table. Only a RESTING die of the batch changes: it begins to wake (R140). Its refusals in the order of R25,
every one of which changes nothing else. -/
def Obligations.Append : Prop :=
  (∀ (s : State) (tag series count : Byte) (records : List Record) (i : Fin 32), s.Admits tag → series.toNat = i.val →
     (s.entry i).state = .opened → s.rangeUsable (s.entry i).base (s.entry i).count = true → 1 ≤ records.length →
     records.length ≤ 30 → count.toNat = records.length →
     ((s.entry i).lastReserved :: records.map Record.stamp).Pairwise (fun x y => x.toNat ≤ y.toNat) →
     (s.entry i).reserved + records.length ≤ 4294967295 →
     ((s.entry i).policy = .halt →
       (s.entry i).reserved + records.length - (s.entry i).oldest ≤ 512 * (s.entry i).count) →
     s.arr.queue.length + 2 ≤ 32 →
     ∃ t, exec (.append tag series count records) s = .next t ∧
       let e := s.entry i
       let n := records.length
       let last := (records.getLast?.map Record.stamp).getD 0
       let parts := e.cut e.reserved n
       t.entry i = { e with
         reserved := e.reserved + n, lastReserved := last
         oldest := if e.policy = .wrap ∧ 512 * e.count < e.reserved + n - e.oldest then e.reserved + n - 512 * e.count
           else e.oldest
         batches := e.batches ++ [⟨tag, e.reserved, n, parts.length, 0, last, 0⟩] } ∧
       (∀ j ≠ i, t.entry j = s.entry j) ∧
       t.arr.queue = s.arr.queue ++ parts.map (fun part => (⟨.batch i tag, .write, e.dieOf part.1,
         some (e.place part.1 part.2),
         ((records.drop (part.1 - e.reserved)).take part.2).map (maskLanes e.lanes), false, 0, true⟩ : Txn)) ∧
       t.arr.waiting = s.arr.waiting ∧
       t.table = s.table ++ [⟨tag, .append, .storeUnit, .working⟩] ∧ t.link = { s.link with rxIdle := 0 } ∧ t.mem = s.mem ∧
       t.mon = s.mon ∧ t.port = s.port ∧ t.ctxs = s.ctxs ∧ t.fetches = s.fetches ∧
       ∀ d : Fin 2, if (s.die d).state = .resting ∧ (∃ part ∈ parts, e.dieOf part.1 = d)
         then (t.die d).state = .waking else t.die d = s.die d) ∧
  (∀ (s : State) (tag series count : Byte) (records : List Record), s.Admits tag → records.length ≤ 30 →
     let answers := fun (r : Result) (detail : List Byte) =>
       exec (.append tag series count records) s = .next (s.answered tag .append r detail)
     (32 ≤ series.toNat → answers .badValue [0xFF]) ∧
     ∀ i : Fin 32, series.toNat = i.val →
       ((s.entry i).state = .free ∨ (s.entry i).state = .dropping → answers .noSeries []) ∧
       ((s.entry i).state = .sealed → answers .sealed []) ∧ ((s.entry i).state = .lost → answers .lost []) ∧
       ((s.entry i).state = .recovering → answers .notReady []) ∧
       ((s.entry i).state = .opened →
         (s.rangeUsable (s.entry i).base (s.entry i).count = false → answers .notReady []) ∧
         (s.rangeUsable (s.entry i).base (s.entry i).count = true →
           (count.toNat = 0 ∨ 30 < count.toNat → answers .badValue [0xFF]) ∧
           (1 ≤ count.toNat → count.toNat ≤ 30 →
             (records.length ≠ count.toNat → answers .badLength []) ∧
             (records.length = count.toNat →
               (∀ before r after, records = before ++ r :: after →
                 ((s.entry i).lastReserved :: before.map Record.stamp).Pairwise (fun x y => x.toNat ≤ y.toNat) →
                 r.stamp.toNat < ((before.getLast?.map Record.stamp).getD (s.entry i).lastReserved).toNat →
                 answers .order ([BitVec.ofNat 8 before.length] ++ leBytes 6 (s.entry i).lastReserved.toNat)) ∧
               (((s.entry i).lastReserved :: records.map Record.stamp).Pairwise (fun x y => x.toNat ≤ y.toNat) →
                 (4294967295 < (s.entry i).reserved + count.toNat →
                   answers .seqExhausted (leBytes 4 (s.entry i).reserved)) ∧
                 ((s.entry i).reserved + count.toNat ≤ 4294967295 → (s.entry i).policy = .halt →
                   512 * (s.entry i).count < (s.entry i).reserved + count.toNat - (s.entry i).oldest →
                   answers .full [BitVec.ofNat 8
                     (512 * (s.entry i).count - ((s.entry i).reserved - (s.entry i).oldest))])))))))

/-- An admitted APPEND keeps the counters of its entry (R4), as long as its fill was within the capacity. And every step keeps
the counters of every entry, RECOVERING, LOST and DROPPING ones included, the last with the bounds alone (R17, R24, R29, R40).
Its premises: while a write of a RECOVER is on its way its target is RECOVERING (R164 to R167), and the lead of each reserved
head leaves room for two APPENDs in the smallest capacity, as it does wherever the request table has a place (R4). -/
def Obligations.AppendKeepsCounters : Prop :=
  (∀ (s t : State) (tag series count : Byte) (records : List Record) (i : Fin 32), s.Admits tag → records.length ≤ 30 →
     exec (.append tag series count records) s = .next t → 1 ≤ (s.entry i).count →
     (∀ b ∈ (s.entry i).batches, b.count ≤ 30) → (s.entry i).batches.length ≤ 15 → (s.entry i).CountersOk →
     (t.entry i).CountersOk) ∧
  (∀ s t : State, step s = .next t → s.CountersKept → s.RecoverTargets → s.LeadsOk → t.CountersKept)

/-- FETCH that passes its checks (R33, R34): a fetch with its one or two reads, which join the queue; the request stays in
the table. The refusals of R33, in their order, change nothing else. The completion of a fetch's read (R34, R35, R42): the
first of two brings its records into the fetch; the last answers OK, or OVERTAKEN with the records from oldest on where some
of its numbers have left the series, or SERIES_GONE for a DROPPING entry that something else still holds. -/
def Obligations.FetchRequest : Prop :=
  (∀ (s : State) (tag series count : Byte) (first : BitVec 32), s.Admits tag →
     let answers := fun (r : Result) (detail : List Byte) =>
       exec (.fetch tag series first count) s = .next (s.answered tag .fetch r detail)
     (32 ≤ series.toNat → answers .badValue [0xFF]) ∧
     ∀ i : Fin 32, series.toNat = i.val →
       ((s.entry i).state = .free ∨ (s.entry i).state = .dropping → answers .noSeries []) ∧
       ((s.entry i).state = .lost → answers .lost []) ∧ ((s.entry i).state = .recovering → answers .notReady []) ∧
       ((s.entry i).state = .opened ∨ (s.entry i).state = .sealed →
         s.rangeUsable (s.entry i).base (s.entry i).count = false → answers .notReady [])) ∧
  (∀ (s : State) (tag series count : Byte) (first : BitVec 32) (i : Fin 32), s.Admits tag → series.toNat = i.val →
     (s.entry i).state = .opened ∨ (s.entry i).state = .sealed →
     s.rangeUsable (s.entry i).base (s.entry i).count = true →
     (count.toNat = 0 ∨ 30 < count.toNat →
       exec (.fetch tag series first count) s = .next (s.answered tag .fetch .badValue [0xFF])) ∧
     (1 ≤ count.toNat → count.toNat ≤ 30 →
       (first.toNat < (s.entry i).oldest ∨ (s.entry i).committed < first.toNat + count.toNat →
         exec (.fetch tag series first count) s = .next (s.answered tag .fetch .range
           (leBytes 4 (s.entry i).oldest ++ leBytes 4 (s.entry i).committed))) ∧
       ((s.entry i).oldest ≤ first.toNat → first.toNat + count.toNat ≤ (s.entry i).committed →
         s.arr.queue.length + 2 ≤ 32 →
         ∃ t, exec (.fetch tag series first count) s = .next t ∧
           let e := s.entry i
           let parts := e.cut first.toNat count.toNat
           t.fetches = s.fetches ++ [⟨tag, i, first.toNat, count.toNat, parts.length, 0, [], []⟩] ∧
           t.arr.queue = s.arr.queue ++ parts.map (fun part => (⟨.fetch tag (part.1 != first.toNat), .read,
             e.dieOf part.1, some (e.place part.1 part.2), [], false, 0, true⟩ : Txn)) ∧
           t.arr.waiting = s.arr.waiting ∧ t.table = s.table ++ [⟨tag, .fetch, .storeUnit, .working⟩] ∧
           t.link = { s.link with rxIdle := 0 } ∧ t.dir = s.dir ∧ t.mem = s.mem ∧ t.mon = s.mon ∧ t.port = s.port ∧
           t.ctxs = s.ctxs ∧
           ∀ d : Fin 2, if (s.die d).state = .resting ∧ (∃ part ∈ parts, e.dieOf part.1 = d)
             then (t.die d).state = .waking else t.die d = s.die d))) ∧
  (∀ (s : State) (d : Fin 2) (b : Fin 8) (x : Txn) (f : Fetch) (others : List Fetch) (second : Bool),
     s.link.reset = none → s.issuedAt d b = some x → x.origin = .fetch f.tag second → x.live = true →
     s.fetches = f :: others → (∀ g ∈ others, g.tag ≠ f.tag) →
     let f' : Fetch := if second then { f with done := f.done + 1, part1 := x.data }
       else { f with done := f.done + 1, part0 := x.data }
     (f.done + 1 < f.reads → ∃ t, exec (.fetchReadComplete d b) s = .next t ∧ t.fetches = f' :: others ∧
       t.link = s.link ∧ t.table = s.table ∧ t.dir = s.dir ∧ t.mem = s.mem) ∧
     (f.done + 1 = f.reads → (s.entry f.series).state ≠ .dropping →
       let k := min ((s.entry f.series).oldest - f.first) f.count
       ∃ t, exec (.fetchReadComplete d b) s = .next t ∧ t.fetches = others ∧
         t.link = { s.link with queue := s.link.queue ++ [⟨.response, f.tag,
           [0x15, if k = 0 then 0 else 20, BitVec.ofNat 8 f.series.val] ++ leBytes 4 (f.first + k)
             ++ [BitVec.ofNat 8 (f.count - k)] ++ recordsBytes ((f'.part0 ++ f'.part1).drop k), none⟩] } ∧
         t.table = s.table.filter (fun e => e.tag != f.tag) ∧ t.dir = s.dir ∧ t.mem = s.mem) ∧
     (f.done + 1 = f.reads → (s.entry f.series).state = .dropping → (s.entry f.series).batches ≠ [] →
       ∃ t, exec (.fetchReadComplete d b) s = .next t ∧ t.fetches = others ∧
         t.link = { s.link with queue := s.link.queue ++ [⟨.response, f.tag, [0x15, 23], none⟩] } ∧
         t.table = s.table.filter (fun e => e.tag != f.tag) ∧ t.dir = s.dir ∧ t.mem = s.mem))

/-! ### SCAN -/

/-- SCAN of a SEQUENCE range that holds numbers (R65 to R67, R72): the lowest-numbered FREE context is RUNNING on the
resolved range with every count 0, last evaluated, end reason and stop details absent, and a first read of at most one row
under way, into buffer 0 (log 39, the model's choice); the SCAN stays in the table. SCAN of a STAMP range over two or more
retained numbers (R68): the context, its counts 0 as well, is RESOLVING with an edge probe at oldest. -/
def Obligations.ScanTaken : Prop :=
  (∀ (s : State) (tag : Byte) (f : ScanFields) (i : Fin 32) (filter : Filter) (k : Fin 4) (mode : ScanMode),
     s.Admits tag → f.series.toNat = i.val → (s.entry i).state = .opened ∨ (s.entry i).state = .sealed →
     s.rangeUsable (s.entry i).base (s.entry i).count = true →
     (f.mode = 0 ∧ mode = .list ∨ f.mode = 1 ∧ mode = .count) → f.rangeKind = 0 → f.lower.toNat ≤ 4294967295 →
     (f.upperPresence ≠ 0 → f.lower.toNat ≤ f.upper.toNat ∧ f.upper.toNat ≤ 4294967295) →
     checkFilter f (s.entry i).lanes = .ok filter → s.ctx k = none → (∀ j < k, s.ctx j ≠ none) →
     f.lower.toNat < (s.entry i).committed → (s.entry i).oldest < (s.entry i).committed →
     (f.upperPresence ≠ 0 → (s.entry i).oldest ≤ f.upper.toNat) → s.arr.queue.length + 2 ≤ 32 →
     ∃ t c, exec (.scan tag f) s = .next t ∧ t.ctx k = some c ∧ (∀ j ≠ k, t.ctx j = s.ctx j) ∧
       c.state = .running ∧ c.tag = tag ∧ c.series = i ∧ c.filter = filter ∧ c.mode = mode ∧
       c.hitLimit = (if f.hitLimit = 0 then none else some f.hitLimit.toNat) ∧
       c.low = max f.lower.toNat (s.entry i).oldest ∧
       c.high = (if f.upperPresence = 0 then (s.entry i).committed - 1
         else min f.upper.toNat ((s.entry i).committed - 1)) ∧
       c.cursor = c.low ∧ c.examined = 0 ∧ c.hitCount = 0 ∧ c.overtaken = 0 ∧ c.hits = [] ∧ c.endReason = none ∧
       c.absents = 0 ∧ c.faults = 0 ∧ c.tinies = 0 ∧ c.lastEval = none ∧ c.stop = none ∧
       (∃ rest, t.arr.queue = s.arr.queue ++ [⟨.scanRow k false, .read, (s.entry i).dieOf c.low,
         some ((s.entry i).place c.low (min (64 - c.low % (512 * (s.entry i).count) % 64) (c.high + 1 - c.low))), [],
         false, 0, true⟩] ++ rest ∧ rest.length ≤ 1) ∧
       t.table = s.table ++ [⟨tag, .scan, .scanEngine, .working⟩] ∧ t.link = { s.link with rxIdle := 0 } ∧ t.dir = s.dir ∧
       t.mem = s.mem) ∧
  (∀ (s : State) (tag : Byte) (f : ScanFields) (i : Fin 32) (filter : Filter) (k : Fin 4) (mode : ScanMode),
     s.Admits tag → f.series.toNat = i.val → (s.entry i).state = .opened ∨ (s.entry i).state = .sealed →
     s.rangeUsable (s.entry i).base (s.entry i).count = true →
     (f.mode = 0 ∧ mode = .list ∨ f.mode = 1 ∧ mode = .count) → f.rangeKind = 1 →
     (f.upperPresence ≠ 0 → f.lower.toNat ≤ f.upper.toNat) → checkFilter f (s.entry i).lanes = .ok filter →
     s.ctx k = none → (∀ j < k, s.ctx j ≠ none) → (s.entry i).oldest + 1 < (s.entry i).committed →
     f.lower.toNat ≤ (s.entry i).lastCommitted.toNat → s.arr.queue.length + 2 ≤ 32 →
     ∃ t c, exec (.scan tag f) s = .next t ∧ t.ctx k = some c ∧ c.state = .resolving ∧ c.tag = tag ∧ c.series = i ∧
       c.searchLow = (s.entry i).oldest ∧ c.searchHigh = (s.entry i).committed - 1 ∧
       c.high = (s.entry i).committed - 1 ∧ c.filter = filter ∧ c.mode = mode ∧
       c.hitLimit = (if f.hitLimit = 0 then none else some f.hitLimit.toNat) ∧
       c.range = .stamp f.lower (if f.upperPresence = 0 then none else some f.upper) ∧
       c.examined = 0 ∧ c.hitCount = 0 ∧ c.overtaken = 0 ∧ c.absents = 0 ∧ c.faults = 0 ∧ c.tinies = 0 ∧
       c.hits = [] ∧ c.buf0 = none ∧ c.buf1 = none ∧ c.lastEval = none ∧ c.endReason = none ∧ c.stop = none ∧
       t.arr.queue = s.arr.queue ++ [⟨.edgeProbe k (s.entry i).oldest, .read, (s.entry i).dieOf (s.entry i).oldest,
         some ((s.entry i).place (s.entry i).oldest 1), [], false, 0, true⟩] ∧
       t.table = s.table ++ [⟨tag, .scan, .scanEngine, .working⟩] ∧ t.dir = s.dir ∧ t.mem = s.mem)

/-- The refusals of SCAN in the order of R65 (R19, R188), every one of which changes nothing else. SCAN of an empty range,
SEQUENCE or STAMP, answers at once with END_OF_RANGE, a range count of 0 and counts of 0 (R67, R68, R83). What the filter
check says (R59, R60, R51, R49): the first fault in its order, or the filter; and the detail bytes of each fault (R189). -/
def Obligations.ScanAnswersAtOnce : Prop :=
  (∀ (s : State) (tag : Byte) (f : ScanFields), s.Admits tag →
     let answers := fun (r : Result) (detail : List Byte) =>
       exec (.scan tag f) s = .next (s.answered tag .scan r detail)
     let badRange : Prop :=
       f.rangeKind = 0 ∧ (4294967295 < f.lower.toNat ∨
         f.upperPresence ≠ 0 ∧ (4294967295 < f.upper.toNat ∨ f.upper.toNat < f.lower.toNat)) ∨
       f.rangeKind = 1 ∧ f.upperPresence ≠ 0 ∧ f.upper.toNat < f.lower.toNat
     (32 ≤ f.series.toNat → answers .badValue [0xFF]) ∧
     ∀ i : Fin 32, f.series.toNat = i.val →
       ((s.entry i).state = .free ∨ (s.entry i).state = .dropping → answers .noSeries []) ∧
       ((s.entry i).state = .lost → answers .lost []) ∧ ((s.entry i).state = .recovering → answers .notReady []) ∧
       ((s.entry i).state = .opened ∨ (s.entry i).state = .sealed →
         (s.rangeUsable (s.entry i).base (s.entry i).count = false → answers .notReady []) ∧
         (s.rangeUsable (s.entry i).base (s.entry i).count = true →
           (2 ≤ f.mode.toNat ∨ 2 ≤ f.rangeKind.toNat ∨ badRange → answers .badValue [0xFF]) ∧
           (f.mode.toNat < 2 → f.rangeKind.toNat < 2 → ¬ badRange →
             (∀ x, checkFilter f (s.entry i).lanes = .error x → answers .badFilter x.bytes) ∧
             (∀ filter, checkFilter f (s.entry i).lanes = .ok filter →
               ((∀ k : Fin 4, s.ctx k ≠ none) → answers .busy []) ∧
               (∀ (k : Fin 4) (low : Nat), s.ctx k = none → (∀ j < k, s.ctx j ≠ none) →
                 (∀ x ∈ s.arr.queue ++ s.arr.waiting, x.origin.ofCtx k = false) →
                 (f.rangeKind = 0 ∧ low = max f.lower.toNat (s.entry i).oldest ∧
                     ((s.entry i).committed = (s.entry i).oldest ∨ (s.entry i).committed ≤ f.lower.toNat ∨
                       f.upperPresence ≠ 0 ∧ f.upper.toNat < (s.entry i).oldest) ∨
                   f.rangeKind = 1 ∧ low = (s.entry i).committed ∧
                     ((s.entry i).committed = (s.entry i).oldest ∨
                       (s.entry i).lastCommitted.toNat < f.lower.toNat)) →
                 ∃ t, exec (.scan tag f) s = .next t ∧ (∀ j, t.ctx j = s.ctx j) ∧ t.table = s.table ∧
                   t.dir = s.dir ∧ t.mem = s.mem ∧ t.link.queue = s.link.queue ++ [⟨.response, tag,
                     [0x18, 0, 0] ++ leBytes 4 low ++ List.replicate 38 0, none⟩])))))) ∧
  (∀ (f : ScanFields) (lanes : Nat),
     (4 < f.termCount.toNat → checkFilter f lanes = .error .termCount) ∧
     (f.termCount.toNat ≤ 4 →
       (2 ≤ f.combine.toNat → checkFilter f lanes = .error .combine) ∧
       (f.combine.toNat < 2 →
         let sound := fun t : TermPlace => t.predicate.toNat < 8 ∧ t.lane.toNat < 6 ∧ t.lane.toNat < lanes ∧
           (t.predicate.toNat < 6 → laneClass t.threshold = .number)
         (∀ n : Fin 4, n.val < f.termCount.toNat → (∀ m : Fin 4, m < n → sound f.terms[m]) →
           (8 ≤ f.terms[n].predicate.toNat → checkFilter f lanes = .error (.predicate n.val)) ∧
           (f.terms[n].predicate.toNat < 8 → 6 ≤ f.terms[n].lane.toNat ∨ lanes ≤ f.terms[n].lane.toNat →
             checkFilter f lanes = .error (.lane n.val)) ∧
           (f.terms[n].predicate.toNat < 6 → f.terms[n].lane.toNat < 6 → f.terms[n].lane.toNat < lanes →
             laneClass f.terms[n].threshold ≠ .number → checkFilter f lanes = .error (.threshold n.val))) ∧
         ((∀ n : Fin 4, n.val < f.termCount.toNat → sound f.terms[n]) →
           ∃ filter, checkFilter f lanes = .ok filter ∧
             filter.source = (if f.sourcePresence = 0 then none else some f.source) ∧
             filter.combine = (if f.combine = 0 then .all else .any) ∧
             (filter.maskAbsent = true ↔ f.maskAbsent ≠ 0) ∧ (filter.maskFault = true ↔ f.maskFault ≠ 0) ∧
             (filter.maskTiny = true ↔ f.maskTiny ≠ 0) ∧ filter.terms.length = f.termCount.toNat ∧
             ∀ (n : Fin 4) (t : Term), filter.terms[n.val]? = some t →
               t.lane.val = f.terms[n].lane.toNat ∧ t.threshold = f.terms[n].threshold ∧
               [Predicate.below, .notAbove, .above, .notBelow, .equal, .unequal, .missing,
                 .present][f.terms[n].predicate.toNat]? = some t.predicate)))) ∧
  (FilterFault.bytes .termCount = [0, 0xFF] ∧ FilterFault.bytes .combine = [1, 0xFF] ∧
   ∀ n : Fin 4, FilterFault.bytes (.predicate n.val) = [2, BitVec.ofNat 8 n.val] ∧
     FilterFault.bytes (.lane n.val) = [3, BitVec.ofNat 8 n.val] ∧
     FilterFault.bytes (.threshold n.val) = [4, BitVec.ofNat 8 n.val])

/-! ### START_ARRAY and SET_ARRAY_TIMING -/

/-- START_ARRAY (R106): with each die UNPOWERED or OFF and no load running, both dies become INITIALIZING and run their reset
sequence; the request stays in the table. Otherwise it is refused STATE with the die states, or BUSY. -/
def Obligations.StartArray : Prop :=
  ∀ (s : State) (tag : Byte), s.Admits tag →
    ((∃ d : Fin 2, (s.die d).state ≠ .unpowered ∧ (s.die d).state ≠ .off) → exec (.startArray tag) s =
      .next (s.answered tag .startArray .state [(s.die 0).state.code, (s.die 1).state.code])) ∧
    ((∀ d : Fin 2, (s.die d).state = .unpowered ∨ (s.die d).state = .off) →
      (s.arr.load ≠ none → exec (.startArray tag) s = .next (s.answered tag .startArray .busy [])) ∧
      (s.arr.load = none → exec (.startArray tag) s = .next (({ s with
        arr := { s.arr with
          startTag := some tag
          dies := s.arr.dies.map fun x => { x with
            state := .initializing, activity := .none, holdRefresh := false, holdCal := false, driftHold := false
            debt := 0, timer := none, hot := false, path := .resetSequence
            banks := Vector.replicate 8 ⟨.idle, false⟩ } } } : State).admitted tag .startArray)))

/-- The checks of SET_ARRAY_TIMING in the order of R111, with the ranges of R110: the first setting out of range is refused by
its index, then the two relations; settings that pass begin to load (R112). At the end of the load the new settings stand,
and the request answers OK unless RESET removed it; that TIMING_LOAD_END with no load in progress changes nothing is log 3,
the model's choice. -/
def Obligations.ArrayTiming : Prop :=
  (∀ (s : State) (tag : Byte) (f : TimingFields), s.Admits tag →
     let inRange : List Bool := [4 ≤ f.openDelay.toNat && f.openDelay.toNat ≤ 31,
       4 ≤ f.closeDelay.toNat && f.closeDelay.toNat ≤ 31, 4 ≤ f.readLatency.toNat && f.readLatency.toNat ≤ 31,
       2 ≤ f.writeRecovery.toNat && f.writeRecovery.toNat ≤ 31,
       1000 ≤ f.refreshInterval.toNat && f.refreshInterval.toNat ≤ 16000,
       40 ≤ f.refreshDuration.toNat && f.refreshDuration.toNat ≤ 400,
       100 ≤ f.shortCal.toNat && f.shortCal.toNat ≤ 1000, 400 ≤ f.longCal.toNat && f.longCal.toNat ≤ 4000,
       10 ≤ f.wakeDelay.toNat && f.wakeDelay.toNat ≤ 200, f.referenceFitted.toNat ≤ 1]
     ((∃ d : Fin 2, (s.die d).state ≠ .unpowered ∧ (s.die d).state ≠ .off) → exec (.setArrayTiming tag f) s =
       .next (s.answered tag .setArrayTiming .state [(s.die 0).state.code, (s.die 1).state.code])) ∧
     ((∀ d : Fin 2, (s.die d).state = .unpowered ∨ (s.die d).state = .off) →
       (s.arr.load ≠ none → exec (.setArrayTiming tag f) s = .next (s.answered tag .setArrayTiming .busy [])) ∧
       (s.arr.load = none →
         (∀ n, (inRange.take n).all id = true → inRange[n]? = some false → exec (.setArrayTiming tag f) s =
           .next (s.answered tag .setArrayTiming .badValue [BitVec.ofNat 8 n])) ∧
         (inRange.all id = true →
           (2 * f.refreshInterval.toNat < f.longCal.toNat → exec (.setArrayTiming tag f) s =
             .next (s.answered tag .setArrayTiming .badValue [7])) ∧
           (f.longCal.toNat ≤ 2 * f.refreshInterval.toNat → f.longCal.toNat < f.shortCal.toNat →
             exec (.setArrayTiming tag f) s = .next (s.answered tag .setArrayTiming .badValue [6])) ∧
           (f.longCal.toNat ≤ 2 * f.refreshInterval.toNat → f.shortCal.toNat ≤ f.longCal.toNat →
             exec (.setArrayTiming tag f) s = .next (({ s with
               arr := { s.arr with load := some ⟨f, some tag⟩ } } : State).admitted tag .setArrayTiming)))))) ∧
  (∀ s : State,
     (∀ (f : TimingFields) (tag : Byte), s.arr.load = some ⟨f, some tag⟩ → exec .timingLoadEnd s = .next { s with
       arr := { s.arr with timing := f, load := none }
       table := s.table.filter fun e => e.tag != tag
       link := { s.link with queue := s.link.queue ++ [⟨.response, tag, [0x21, 0], none⟩] } }) ∧
     (∀ f : TimingFields, s.arr.load = some ⟨f, none⟩ → exec .timingLoadEnd s = .next { s with
       arr := { s.arr with timing := f, load := none } }) ∧
     (s.arr.load = none → exec .timingLoadEnd s = .next s))

/-- The reset sequence is followed by the identity read (R107). A die that gives no answer, or another code, becomes MISSING
while the other die still starts; when the other die is done START_ARRAY answers with both outcomes (R109). A die that
answers with the array identity code (R108, R121): its temperature is recorded; with a reference fitted and free its long
calibration begins in the same change (R126, R127, log 16); with none fitted it becomes READY at once with baselines, its
refresh timer from zero (R128). That RESET_SEQUENCE_END and IDENTITY_READ_END change nothing on a die whose command path does
not hold that sequence or that read is log 3, the model's choice. -/
def Obligations.StartUp : Prop :=
  (∀ (s : State) (d : Fin 2),
     ((s.die d).state = .initializing → (s.die d).path = .resetSequence →
       exec (.resetSequenceEnd d) s = .next (s.setDie d { s.die d with path := .identityRead })) ∧
     ((s.die d).path ≠ .resetSequence → exec (.resetSequenceEnd d) s = .next s) ∧
     ((s.die d).path ≠ .identityRead → ∀ answer, exec (.identityReadEnd d answer) s = .next s) ∧
     (∀ answer, answer = .noAnswer ∨ answer = .otherCode → (s.die d).state = .initializing →
       (s.die d).path = .identityRead →
       let gone : Die := { s.die d with
         state := .missing, path := .free, timer := none, banks := Vector.replicate 8 ⟨.idle, false⟩ }
       ((s.die (otherDie d)).state = .initializing →
         exec (.identityReadEnd d answer) s = .next (s.setDie d gone)) ∧
       (∀ tag, s.arr.startTag = some tag → (s.die (otherDie d)).state = .ready →
         s.arr.timing.referenceFitted = 1 →
         let outcome : Fin 2 → List Byte := fun x => if x = d then [6, 0xFF] else [2, 0]
         exec (.identityReadEnd d answer) s = .next { (s.setDie d gone) with
           arr := { (s.setDie d gone).arr with startTag := none }
           table := s.table.filter fun e => e.tag != tag
           link := { s.link with
             queue := s.link.queue ++ [⟨.response, tag, [0x20, 0] ++ outcome 0 ++ outcome 1, none⟩] } }))) ∧
  (∀ (s : State) (d : Fin 2) (T : Int), (s.die d).state = .initializing → (s.die d).path = .identityRead →
     (s.die d).timer = none → (s.dieMon d).req = none → T < (s.mon.settings.hotThreshold.toNat : Int) →
     (s.arr.timing.referenceFitted = 1 → s.mon.reference = none → (s.dieMon (otherDie d)).req = none →
       ∃ t, exec (.identityReadEnd d (.arrayCode T)) s = .next t ∧ (t.dieMon d).temp = some T ∧
         t.mon.reference = some d ∧ (t.die d).state = .initializing ∧ (t.die d).activity = .calibrating .long ∧
         (t.die d).path = .calibration ∧
         (t.dieMon d).req = some ⟨.long, .running, s.mon.made, []⟩ ∧ t.die (otherDie d) = s.die (otherDie d) ∧
         t.link = s.link ∧ t.table = s.table ∧ t.dir = s.dir ∧ t.mem = s.mem) ∧
     (s.arr.timing.referenceFitted = 0 → (s.die (otherDie d)).state = .initializing →
       ∃ t, exec (.identityReadEnd d (.arrayCode T)) s = .next t ∧ (t.dieMon d).temp = some T ∧
         (t.dieMon d).base = some ⟨T, s.mon.supply⟩ ∧ (t.dieMon d).drift = 0 ∧ (t.die d).state = .ready ∧
         (t.die d).activity = .none ∧ (t.die d).timer = some 0 ∧ (t.die d).debt = 0 ∧ (t.die d).path = .free ∧
         (∀ b : Fin 8, (t.bank d b).state = .idle) ∧ t.die (otherDie d) = s.die (otherDie d) ∧ t.mem = s.mem))

/-! ### Refresh, calibration and temperature -/

/-- An expiry below a debt of 8 (R115, R117): the timer starts again from zero, the debt rises by 1, and an expiry that
brings it to 6 sets the hold for refresh; a stopped timer does not expire. A drained die starts a refresh under its hold,
when due (R104, R116), or to settle its debt before it rests (R137); a die that is not drained, that has a hold for
calibration and none for refresh, or that owes none, starts none. The end of a refresh lowers the debt by 1, and clears the
hold at 0 (R116, R117). At the end of the last settlement refresh the die arrives in RESTING in the same change (R137, R138;
log 15, the model's reading), unless a calibration holds it. That REFRESH_START, REFRESH_END and
REFRESH_TIMER_EXPIRY change nothing where no refresh can start, none runs, or the timer is stopped is log 3, the model's
choice. -/
def Obligations.Refresh : Prop :=
  (∀ (s : State) (d : Fin 2),
     ((s.die d).timer ≠ none → (s.die d).debt < 8 → exec (.refreshTimerExpiry d) s = .next (s.setDie d { s.die d with
       timer := some 0, debt := (s.die d).debt + 1
       holdRefresh := (s.die d).holdRefresh || (s.die d).debt == 5 })) ∧
     ((s.die d).timer = none → exec (.refreshTimerExpiry d) s = .next s)) ∧
  (∀ (s : State) (d : Fin 2),
     ((s.die d).drained = true → ((s.die d).holdRefresh = true ∨
         ((s.die d).holdRefresh = false ∧ (s.die d).holdCal = false ∧ (s.die d).restTarget = .none ∧
           1 ≤ (s.die d).debt ∧ (s.die d).debt ≤ 5 ∧ ∀ x ∈ s.arr.queue ++ s.arr.waiting, x.die ≠ d) ∨
         ((s.die d).holdCal = false ∧ (s.die d).restTarget = .rest ∧ 1 ≤ (s.die d).debt)) →
       exec (.refreshStart d) s = .next (s.setDie d { s.die d with activity := .refreshing, path := .refresh })) ∧
     ((s.die d).drained = false ∨ ((s.die d).holdRefresh = false ∧ (s.die d).holdCal = true) ∨
         ((s.die d).holdRefresh = false ∧ (s.die d).debt = 0) →
       exec (.refreshStart d) s = .next s) ∧
     ((s.die d).activity = .refreshing → (s.die d).restTarget ≠ .rest ∨ 1 < (s.die d).debt ∨ (s.die d).holdCal = true →
       exec (.refreshEnd d) s = .next (s.setDie d { s.die d with
         debt := (s.die d).debt - 1, holdRefresh := (s.die d).holdRefresh && decide (1 < (s.die d).debt)
         activity := .none, path := .free })) ∧
     ((s.die d).activity = .refreshing → (s.die d).restTarget = .rest → (s.die d).state = .ready →
       (s.die d).allIdle = true → (s.die d).holdCal = false → (s.die d).debt ≤ 1 →
       ∃ t, exec (.refreshEnd d) s = .next t ∧ s.RestArrives t d) ∧
     ((s.die d).activity ≠ .refreshing → exec (.refreshEnd d) s = .next s))

/-- A refresh overrun (R118): the debt stays at 8, the overrun count rises by 1, at most to 255, and returns to 0 where its
notice is queued with it; where the notice waits for a slot, or waited already, the count is kept (R178). The entries hit
are those with a stripe on the die that are not FREE and not LOST. OPEN, SEALED or RECOVERING ones become LOST (R17), their
writes withdrawn; every other entry stays. Where one entry is hit, its readers end: a fetch answers LOST and is gone (R36);
a scan ends with LOST, and answers with its report where no hit and no ISSUED read is left to wait for, else it is DRAINING
(R81, R82); a PRESERVE of it, or a RECOVER into it past its stripe step, answers LOST with its report where no access runs
and nothing of it is ISSUED, else it is ENDING (R161, R167). A DROPPING entry stays so while a scan or a PRESERVE works on
it: its batches and its fetch answer LOST at once, in list order and then the fetch (log 21, the model's choice), and with
no work left it is FREE and the DROP answers OK (R43, R44). -/
def Obligations.RefreshOverrun : Prop :=
  ∀ (s : State) (d : Fin 2), (s.die d).timer ≠ none → (s.die d).debt = 8 →
    let n := min 255 ((s.die d).overruns + 1)
    let notice := Notice.refreshMissed d
    let hit := fun i : Fin 32 => (s.entry i).onDie d = true ∧ (s.entry i).state ≠ .free ∧ (s.entry i).state ≠ .lost
    let lost := fun e : Entry => { e with
      state := .lost, batches := [], reserved := e.committed, lastReserved := e.lastCommitted }
    let overrun := fun t : State => exec (.refreshTimerExpiry d) s = .next t ∧ t.mem = s.mem ∧ (t.die d).debt = 8 ∧
      (t.die d).timer = some 0 ∧ (s.noticePending notice = true → (t.die d).overruns = n) ∧
      (t.noticePending notice = true ∧ (t.die d).overruns = n ∨
        (t.die d).overruns = 0 ∧ Frame.notice 3 (BitVec.ofNat 8 d.val) (leBytes 2 n) ∈ t.link.queue)
    let withdrawn := fun (t : State) (mine : Origin → Bool) =>
      ∀ x ∈ t.arr.queue ++ t.arr.waiting, mine x.origin = true → x.issued = true ∧ x.live = false
    let noScan := fun i : Fin 32 => ∀ (k : Fin 4) (c : Ctx), s.ctx k = some c → c.series = i → c.state = .draining
    let noImage := fun i : Fin 32 => ∀ op, s.port.op = some op → op.series = i →
      op.kind = .recover ∧ op.phase ≠ .pageRead
    ((∀ i, hit i → (s.entry i).state ≠ .dropping ∧ (∀ f ∈ s.fetches, f.series ≠ i) ∧ noScan i ∧ noImage i) →
      ∃ t, overrun t ∧ (∀ i, hit i → t.entry i = lost (s.entry i) ∧ withdrawn t fun o => o.ofBatches i) ∧
        (∀ i, ¬ hit i → t.entry i = s.entry i)) ∧
    (∀ i, hit i → (∀ j, hit j → j = i) →
      let e := s.entry i
      let loses := fun t : State => overrun t ∧ t.entry i = lost e ∧ ∀ j ≠ i, t.entry j = s.entry j
      (∀ f, e.state ≠ .dropping → e.batches = [] → noScan i → noImage i →
        (s.fetches.filter fun g => g.series == i) = [f] →
        ∃ t rest, loses t ∧ t.link.queue = s.link.queue ++ [⟨.response, f.tag, [0x15, 15], none⟩] ++ rest ∧
          t.fetches = s.fetches.filter (fun g => g.tag != f.tag) ∧
          t.table = s.table.filter (fun x => x.tag != f.tag) ∧ withdrawn t (fun o => o.ofFetch f.tag)) ∧
      (∀ (k : Fin 4) (c : Ctx), e.state ≠ .dropping → e.batches = [] → noImage i → (∀ f ∈ s.fetches, f.series ≠ i) →
        (∀ x ∈ s.arr.waiting, x.issued = false) → s.ctx k = some c → c.series = i → c.state ≠ .draining →
        (∀ j c', j ≠ k → s.ctx j = some c' → c'.series = i → c'.state = .draining) →
        let sends : Prop := c.hits ≠ [] ∧ Claimant.scan k ∉ s.link.claims ∧ 1 ≤ s.freeSlots
        let busy : Prop := ∃ x ∈ s.arr.queue, x.issued = true ∧ x.origin.ofCtx k = true
        let c' : Ctx := { c with
          state := .draining, endReason := some .lost, buf0 := none, buf1 := none
          low := if c.state = .resolving ∨ c.state = .searching then c.searchLow else c.low }
        let frames : List Frame := if c.hits = [] then [] else [Frame.hits c.tag c.hits]
        ∃ t rest, loses t ∧ withdrawn t (fun o => o.ofCtx k) ∧ (∀ j ≠ k, t.ctx j = s.ctx j) ∧
          ((c.hits = [] ∨ sends) ∧ ¬ busy → t.ctx k = none ∧ t.table = s.table.filter (fun x => x.tag != c.tag) ∧
            t.link.queue = s.link.queue ++ frames ++ [⟨.response, c.tag, [0x18, 0] ++ c'.report, none⟩] ++ rest) ∧
          (¬ ((c.hits = [] ∨ sends) ∧ ¬ busy) →
            t.table = s.table.map (fun x => if x.tag = c.tag then { x with state := .ending } else x)) ∧
          (c.hits = [] ∨ sends → busy →
            t.ctx k = some { c' with hits := [] } ∧ t.link.queue = s.link.queue ++ frames ++ rest) ∧
          (c.hits ≠ [] → ¬ sends →
            t.ctx k = some c' ∧ t.link.queue = s.link.queue ++ rest ∧ Claimant.scan k ∈ t.link.claims)) ∧
      (∀ op, e.state ≠ .dropping → e.batches = [] → noScan i → (∀ f ∈ s.fetches, f.series ≠ i) →
        (∀ x ∈ s.arr.waiting, x.issued = false) → s.port.op = some op → op.series = i →
        op.kind = .preserve ∨ op.phase = .pageRead → op.result = none → op.abandoned = false →
        let busy : Prop := s.port.accessing = true ∨ ∃ x ∈ s.arr.queue, x.issued = true ∧ x.origin.ofImage = true
        let report : List Byte := if op.kind = .preserve then op.preserveReport else op.recoverReport
        ∃ t rest, loses t ∧ withdrawn t Origin.ofImage ∧
          (¬ busy → t.port = { s.port with op := none, transfer := none } ∧
            t.table = s.table.filter (fun x => x.tag != op.tag) ∧
            t.link.queue = s.link.queue
              ++ [⟨.response, op.tag, [if op.kind = .preserve then 0x41 else 0x42, 15] ++ report, none⟩] ++ rest) ∧
          (busy → t.port.op = some { op with phase := .ending, result := some .lost, detail := [] } ∧
            t.port.transfer = (if s.port.accessing then s.port.transfer else none) ∧
            t.table = s.table.map (fun x => if x.tag = op.tag then { x with state := .ending } else x) ∧
            t.link.queue = s.link.queue ++ rest)) ∧
      (∀ mine, e.state = .dropping → noScan i → (s.fetches.filter fun f => f.series == i) = mine → mine.length ≤ 1 →
        (∀ op, s.port.op = some op → op.series = i → op.kind = .recover ∧ op.phase ≠ .pageRead ∨ op.result ≠ none) →
        let drains : Prop := ∃ k c, s.ctx k = some c ∧ c.series = i ∧ c.endReason ≠ some .lost
        let preserves : Prop := ∃ op, s.port.op = some op ∧ op.series = i ∧ op.kind = .preserve ∧ op.abandoned = false
        let tags := e.batches.map Batch.tag ++ mine.map Fetch.tag
        let answers : List Frame := e.batches.map (fun b => ⟨.response, b.tag, [0x14, 15], none⟩)
          ++ mine.map fun f => ⟨.response, f.tag, [0x15, 15], none⟩
        ∃ t rest, overrun t ∧ (∀ j ≠ i, t.entry j = s.entry j) ∧
          t.fetches = s.fetches.filter (fun g => !(mine.map Fetch.tag).contains g.tag) ∧
          withdrawn t (fun o => o.ofBatches i) ∧ (∀ f ∈ mine, withdrawn t fun o => o.ofFetch f.tag) ∧
          (drains ∨ preserves → t.entry i = { e with batches := [] } ∧ t.drops = s.drops ∧
            t.table = s.table.filter (fun x => !tags.contains x.tag) ∧
            t.link.queue = s.link.queue ++ answers ++ rest) ∧
          (¬ drains → ¬ preserves → ∀ w, s.drops.find? (fun w => w.series == i) = some w →
            t.entry i = ⟨.free, 0, 0, 1, .wrap, 0, 0, 0, 0, 0, false, none, []⟩ ∧
            t.drops = s.drops.filter (fun w => w.series != i) ∧
            t.table = s.table.filter (fun x => !(tags ++ [w.tag]).contains x.tag) ∧
            t.link.queue = s.link.queue ++ answers
              ++ [⟨.response, w.tag, [0x12, 0, BitVec.ofNat 8 i.val], none⟩] ++ rest)))

/-- CALIBRATE (R130, R125, R126, R128): refused BAD_VALUE or STATE; a request that finds the reference free holds it at once,
with the die's hold set; a request joins the one the die has, LONG over SHORT; with no reference fitted it answers DEFAULT at
once with the new baselines. -/
def Obligations.Calibrate : Prop :=
  ∀ (s : State) (tag die kind : Byte), s.Admits tag →
    (2 ≤ die.toNat ∨ 2 ≤ kind.toNat →
      exec (.calibrate tag die kind) s = .next (s.answered tag .calibrate .badValue [0xFF])) ∧
    ∀ (d : Fin 2) (k : CalKind), die.toNat = d.val → (kind = 0 ∧ k = .short ∨ kind = 1 ∧ k = .long) →
      ((s.die d).state ≠ .ready ∨ (s.die d).restTarget ≠ .none → exec (.calibrate tag die kind) s =
        .next (s.answered tag .calibrate .state [(s.die 0).state.code, (s.die 1).state.code])) ∧
      ((s.die d).state = .ready → (s.die d).restTarget = .none →
        (s.arr.timing.referenceFitted = 1 → (s.dieMon d).req = none → s.mon.reference = none →
          (∀ r, (s.dieMon (otherDie d)).req = some r → r.stage ≠ .pending) →
          exec (.calibrate tag die kind) s = .next
            ((({ s with mon := { s.mon with
              reference := some d, made := s.mon.made + 1
              dies := s.mon.dies.set d
                { s.dieMon d with req := some ⟨k, .granted, s.mon.made, [tag]⟩ } } } : State).setDie d
              { s.die d with holdCal := true }).admitted tag .calibrate)) ∧
        (∀ r, s.arr.timing.referenceFitted = 1 → (s.dieMon d).req = some r → exec (.calibrate tag die kind) s = .next
          ((s.setDieMon d { s.dieMon d with req := some { r with
            kind := if r.stage ≠ .running ∧ k = .long then .long else r.kind
            joined := r.joined ++ [tag] } }).admitted tag .calibrate)) ∧
        (∀ T, s.arr.timing.referenceFitted = 0 → (s.dieMon d).temp = some T → s.arr.startTag = none →
          exec (.calibrate tag die kind) s = .next
            (((s.setDieMon d { s.dieMon d with base := some ⟨T, s.mon.supply⟩, drift := 0, req := none }).setDie d
              { s.die d with driftHold := false }).answered tag .calibrate .ok
              (([die, kind, 1, temperatureByte T] : List Byte) ++ leBytes 2 s.mon.supply))))

/-- The calibration of a drained READY die that holds the reference begins after any refresh (R104, R127). At its end the
baselines are the latest temperature and supply, drift is 0, the holds are clear, and each CALIBRATE that joined answers
DONE, none where drift asked (R124, R125, R127, R130; in the order in which they joined, log 36, the model's choice). An
INITIALIZING die becomes READY, its refresh timer from zero (R108), its baselines as they were where no temperature is
recorded (log 28, the model's choice), and the last die to get there lets START_ARRAY answer (R109). The reference is free,
or goes at once to the other die, where that has a pending request (R126): a READY die is held for its calibration, an
INITIALIZING one begins it in the change of the grant (log 16, the model's reading beside step 1 of R127). That
CALIBRATION_START and CALIBRATION_END change nothing where no calibration can start or none runs is log 3, the model's
choice. -/
def Obligations.Calibration : Prop :=
  ∀ (s : State) (d : Fin 2) (r : CalReq), (s.dieMon d).req = some r →
    let o := otherDie d
    let waits := fun q : CalReq => (s.dieMon o).req = some q ∧ q.stage = .pending
    ((s.die d).drained = true → (s.die d).holdCal = true → (s.die d).holdRefresh = false →
      exec (.calibrationStart d) s = .next ((s.setDieMon d { s.dieMon d with
        req := some { r with stage := .running } }).setDie d
          { s.die d with activity := .calibrating r.kind, path := .calibration })) ∧
    ((s.die d).drained = false ∨ (s.die d).holdCal = false ∨ (s.die d).holdRefresh = true →
      exec (.calibrationStart d) s = .next s) ∧
    (r.stage ≠ .running → exec (.calibrationEnd d) s = .next s) ∧
    (∀ T : Int, r.stage = .running → (s.die d).state = .ready → (s.dieMon d).temp = some T →
      s.arr.startTag = none ∨ (s.die o).state = .initializing →
      let dies := s.mon.dies.set d { s.dieMon d with base := some ⟨T, s.mon.supply⟩, drift := 0, req := none }
      let ended := fun m : Monitor => ({ s with
        mon := m
        table := s.table.filter fun e => !r.joined.contains e.tag
        link := { s.link with queue := s.link.queue ++ r.joined.map fun tag => ⟨.response, tag,
          [0x31, 0, BitVec.ofNat 8 d.val, r.kind.code, 0, temperatureByte T] ++ leBytes 2 s.mon.supply, none⟩ } } :
            State).setDie d { s.die d with
              holdCal := false, driftHold := false, activity := .none, path := .free }
      ((∀ q, ¬ waits q) →
        exec (.calibrationEnd d) s = .next (ended { s.mon with reference := none, dies := dies })) ∧
      (∀ q, waits q →
        let granted := fun stage : CalStage => ended { s.mon with
          reference := some o, dies := dies.set o { s.dieMon o with req := some { q with stage := stage } } }
        ((s.die o).state ≠ .initializing → exec (.calibrationEnd d) s =
          .next ((granted .granted).setDie o { s.die o with holdCal := true })) ∧
        ((s.die o).state = .initializing → exec (.calibrationEnd d) s = .next ((granted .running).setDie o
          { s.die o with activity := .calibrating q.kind, path := .calibration })))) ∧
    (r.stage = .running → r.joined = [] → (s.die d).state = .initializing →
      let base := ((s.dieMon d).temp.map fun T => (⟨T, s.mon.supply⟩ : Baselines)).or (s.dieMon d).base
      let dies := s.mon.dies.set d { s.dieMon d with base := base, drift := 0, req := none }
      let ended := fun m : Monitor => ({ s with mon := m } : State).setDie d { s.die d with
        state := .ready, activity := .none, holdRefresh := false, holdCal := false, driftHold := false, debt := 0
        timer := some 0, path := .free, banks := Vector.replicate 8 ⟨.idle, false⟩ }
      ((s.die o).state = .initializing → (∀ q, ¬ waits q) →
        exec (.calibrationEnd d) s = .next (ended { s.mon with reference := none, dies := dies })) ∧
      ((s.die o).state = .initializing → ∀ q, waits q →
        exec (.calibrationEnd d) s = .next ((ended { s.mon with
          reference := some o, dies := dies.set o { s.dieMon o with req := some { q with stage := .running } }
          }).setDie o { s.die o with activity := .calibrating q.kind, path := .calibration })) ∧
      (∀ tag, s.arr.startTag = some tag → (s.die o).state = .ready ∨ (s.die o).state = .missing →
        s.arr.timing.referenceFitted = 1 → (∀ q, ¬ waits q) →
        let outcome : Fin 2 → List Byte := fun x => if x = o ∧ (s.die o).state = .missing then [6, 0xFF] else [2, 0]
        let t := ended { s.mon with reference := none, dies := dies }
        exec (.calibrationEnd d) s = .next { t with
          arr := { t.arr with startTag := none }
          table := s.table.filter fun e => e.tag != tag
          link := { s.link with
            queue := s.link.queue ++ [⟨.response, tag, [0x20, 0] ++ outcome 0 ++ outcome 1, none⟩] } }))

/-- A sample (R120, R95): the supply is recorded, the sample timer starts again, and each READY die with no status read
outstanding has one issued, in the order the command gives (log 31). The end of a status read (R97, R121 to R123):
the temperature is recorded, the hot flag follows its thresholds, the drift is computed from the baselines, the activity
and the command path are free, and the transaction has left the queue. A temperature that sets the hot flag makes the HOT
notice pending, and the halved period may expire the timer at once (R115, R122). A drift at or above the due threshold
requests a short calibration, which joins a request the die has or is granted where the reference is free; one at or above
the hard limit sets a clear drift hold and makes CAL_OVERDUE pending (R124 to R126). A notice is queued where a slot is free,
claims one where none is, and waits on where it waits already (R177, R178). -/
def Obligations.Sampling : Prop :=
  (∀ (s : State) (v : Nat) (d : Fin 2), s.arr.queue.length + 2 ≤ 32 →
     exec (.sample v d) s = .next { s with
       mon := { s.mon with supply := v, sinceMs := 0, subMs := 0 }
       arr := { s.arr with
         queue := s.arr.queue ++ ([d, otherDie d].filter fun x => (s.die x).state = .ready ∧
           ∀ y ∈ s.arr.queue ++ s.arr.waiting, y.isStatus x = false).map
             (fun x => (⟨.statusRead, .read, x, none, [], false, 0, true⟩ : Txn)) } }) ∧
  (∀ (s : State) (d : Fin 2) (T : Int), (∃ x ∈ s.arr.queue, x.issued = true ∧ x.isStatus d = true) →
     (s.die d).state = .ready → (s.die d).debt < 8 →
     ∃ t, exec (.statusReadComplete d T) s = .next t ∧ (t.dieMon d).temp = some T ∧ (t.die d).activity = .none ∧
       (t.die d).path = .free ∧
       ((s.mon.settings.hotThreshold.toNat : Int) ≤ T → (t.die d).hot = true) ∧
       (T ≤ (s.mon.settings.hotThreshold.toNat : Int) - 5 → (t.die d).hot = false) ∧
       (T < (s.mon.settings.hotThreshold.toNat : Int) → (s.mon.settings.hotThreshold.toNat : Int) - 5 < T →
         (t.die d).hot = (s.die d).hot) ∧
       (∀ b, s.arr.timing.referenceFitted = 1 → (s.dieMon d).base = some b →
         (t.dieMon d).drift = min 65535 (s.mon.settings.kT.toNat * (T - b.tcal).natAbs
           + s.mon.settings.kV.toNat * ((s.mon.supply : Int) - (b.vcal : Int)).natAbs)) ∧
       (s.arr.timing.referenceFitted = 0 ∨ (s.dieMon d).base = none → (t.dieMon d).drift = (s.dieMon d).drift) ∧
       (∀ x ∈ t.arr.queue, x ∈ s.arr.queue ∨ x ∈ s.arr.waiting) ∧
       t.arr.queue.length + t.arr.waiting.length + 1 = s.arr.queue.length + s.arr.waiting.length ∧
       t.dir = s.dir ∧ t.table = s.table ∧ t.mem = s.mem) ∧
  (∀ (s : State) (d : Fin 2) (T : Int), (∃ x ∈ s.arr.queue, x.issued = true ∧ x.isStatus d = true) →
     (s.die d).debt < 8 → (s.mon.settings.hotThreshold.toNat : Int) ≤ T →
     s.arr.timing.referenceFitted = 0 ∨ (s.dieMon d).base = none →
     let notice := Frame.notice 1 (BitVec.ofNat 8 d.val) (fieldBytes (BitVec.ofInt 16 T))
     let period := s.arr.timing.refreshInterval.toNat / 2
     let early : Prop := ∃ n, (s.die d).timer = some n ∧ period ≤ n
     ∃ t, exec (.statusReadComplete d T) s = .next t ∧
       ((s.die d).hot = true ∨ s.noticePending (.hot d) = true → t.link = s.link) ∧
       ((s.die d).hot = false → s.noticePending (.hot d) = false → 0 < s.freeSlots →
         t.link = { s.link with queue := s.link.queue ++ [notice] }) ∧
       ((s.die d).hot = false → s.noticePending (.hot d) = false → s.freeSlots = 0 →
         t.link = { s.link with claims := s.link.claims ++ [.notice (.hot d)] }) ∧
       ((s.die d).hot = false → early → (t.die d).timer = some 0 ∧ (t.die d).debt = (s.die d).debt + 1) ∧
       ((s.die d).hot = true ∨ ¬ early → (t.die d).timer = (s.die d).timer ∧ (t.die d).debt = (s.die d).debt)) ∧
  (∀ (s : State) (d : Fin 2) (T : Int) (b : Baselines),
     (∃ x ∈ s.arr.queue, x.issued = true ∧ x.isStatus d = true) → (s.die d).state = .ready →
     T < (s.mon.settings.hotThreshold.toNat : Int) → s.arr.timing.referenceFitted = 1 → (s.dieMon d).base = some b →
     s.mon.settings.dueThreshold.toNat < s.mon.settings.hardLimit.toNat →
     let drift := min 65535 (s.mon.settings.kT.toNat * (T - b.tcal).natAbs
       + s.mon.settings.kV.toNat * ((s.mon.supply : Int) - (b.vcal : Int)).natAbs)
     let due := s.mon.settings.dueThreshold.toNat
     let hard := s.mon.settings.hardLimit.toNat
     ∃ t, exec (.statusReadComplete d T) s = .next t ∧ (t.dieMon d).drift = drift ∧
       (drift < due → (t.dieMon d).req = (s.dieMon d).req ∧ t.mon.reference = s.mon.reference ∧
         (t.die d).holdCal = (s.die d).holdCal) ∧
       (∀ r, due ≤ drift → (s.dieMon d).req = some r → (t.dieMon d).req = some r) ∧
       (∀ e, due ≤ drift → (s.dieMon d).req = none → s.mon.reference = some e →
         (t.dieMon d).req = some ⟨.short, .pending, s.mon.made, []⟩ ∧ t.mon.reference = some e ∧
           (t.die d).holdCal = (s.die d).holdCal) ∧
       (due ≤ drift → (s.dieMon d).req = none → s.mon.reference = none →
         (∀ r, (s.dieMon (otherDie d)).req = some r → r.stage ≠ .pending) →
         (t.dieMon d).req = some ⟨.short, .granted, s.mon.made, []⟩ ∧ t.mon.reference = some d ∧
           (t.die d).holdCal = true) ∧
       (t.die d).driftHold = ((s.die d).driftHold || decide (hard ≤ drift)) ∧
       (drift < hard ∨ (s.die d).driftHold = true ∨ s.noticePending (.calOverdue d) = true → t.link = s.link) ∧
       (hard ≤ drift → (s.die d).driftHold = false → s.noticePending (.calOverdue d) = false →
         (0 < s.freeSlots → t.link = { s.link with
           queue := s.link.queue ++ [Frame.notice 2 (BitVec.ofNat 8 d.val) (leBytes 2 drift)] }) ∧
         (s.freeSlots = 0 → t.link = { s.link with claims := s.link.claims ++ [.notice (.calOverdue d)] })))

/-- SET_MONITOR (R131, R132): the first setting out of range is refused by its index; settings that pass stand at once, and
no sample is taken while the new interval has not elapsed. Where it has, the sample is taken in the same change. -/
def Obligations.SetMonitor : Prop :=
  ∀ (s : State) (tag : Byte) (f : MonitorFields), s.Admits tag →
    let inRange : List Bool := [10 ≤ f.sampleInterval.toNat && f.sampleInterval.toNat ≤ 1000,
      60 ≤ f.hotThreshold.toNat && f.hotThreshold.toNat ≤ 105, f.kT.toNat ≤ 500, f.kV.toNat ≤ 500,
      50 ≤ f.dueThreshold.toNat && f.dueThreshold.toNat ≤ 5000,
      f.dueThreshold.toNat + 1 ≤ f.hardLimit.toNat && f.hardLimit.toNat ≤ 10000]
    (∀ n, (inRange.take n).all id = true → inRange[n]? = some false → exec (.setMonitor tag f) s =
      .next (s.answered tag .setMonitor .badValue [BitVec.ofNat 8 n])) ∧
    (inRange.all id = true → s.mon.sinceMs < f.sampleInterval.toNat → exec (.setMonitor tag f) s =
      .next (({ s with mon := { s.mon with settings := f } } : State).answered tag .setMonitor .ok [])) ∧
    (inRange.all id = true → f.sampleInterval.toNat ≤ s.mon.sinceMs → s.arr.queue.length + 2 ≤ 32 →
      ∃ t v, exec (.setMonitor tag f) s = .next t ∧ v ≤ 2047 ∧
        t.mon = { s.mon with settings := f, supply := v, sinceMs := 0, subMs := 0 } ∧
        t.link = (s.answered tag .setMonitor .ok []).link ∧ t.table = s.table ∧ t.dir = s.dir ∧
        t.arr.dies = s.arr.dies ∧ t.mem = s.mem)

/-! ### Rest -/

/-- POWER RUN (R134, R142, R140): with no die RESTING or WAKING it answers at once with the die states; a RESTING die begins
to wake and the request stays in the table. POWER of any level is refused BUSY while another POWER is in the table. POWER
REST (R136, R137): each READY die that is not yet drained, or owes refreshes, takes the rest target and the request waits;
READY dies with nothing to drain become RESTING in the same change (log 15, the model's reading), and the request answers.
Work in the table, and a die on its way, refuse it BUSY. -/
def Obligations.PowerRunAndRest : Prop :=
  (∀ (s : State) (tag : Byte), s.Admits tag →
     (s.arr.power ≠ none → exec (.powerRun tag) s = .next (s.answered tag .power .busy []) ∧
       exec (.powerRest tag) s = .next (s.answered tag .power .busy []) ∧
       exec (.powerDeep tag) s = .next (s.answered tag .power .busy [])) ∧
     (s.arr.power = none → (∀ d : Fin 2, (s.die d).state ≠ .initializing) →
       ((∀ d : Fin 2, (s.die d).state ≠ .ready ∧ (s.die d).state ≠ .resting ∧ (s.die d).state ≠ .waking) →
         exec (.powerRun tag) s =
           .next (s.answered tag .power .state [(s.die 0).state.code, (s.die 1).state.code])) ∧
       ((∃ d : Fin 2, (s.die d).state = .ready) →
         (∀ d : Fin 2, (s.die d).state ≠ .resting ∧ (s.die d).state ≠ .waking) → exec (.powerRun tag) s =
           .next (s.answered tag .power .ok [(s.die 0).state.code, (s.die 1).state.code])) ∧
       ((∃ d : Fin 2, (s.die d).state = .resting) → exec (.powerRun tag) s = .next (({ s with
         arr := { s.arr with
           power := some ⟨tag, .run⟩
           dies := s.arr.dies.map fun x => if x.state = .resting
             then { x with
               state := .waking, activity := .none, banks := Vector.replicate 8 ⟨.idle, false⟩, timer := none
               debt := 0 }
             else x } } : State).admitted tag .power)))) ∧
  (∀ (s : State) (tag : Byte), s.Admits tag → s.arr.power = none →
     ((∃ e ∈ s.table, e.kind = .append ∨ e.kind = .fetch ∨ e.kind = .scan ∨ e.kind = .drop ∨ e.kind = .preserve ∨
         e.kind = .recover ∨ e.kind = .calibrate ∨ e.kind = .startArray) ∨
       (∃ d : Fin 2, (s.die d).state = .initializing ∨ (s.die d).state = .waking ∨ (s.die d).restTarget ≠ .none) →
       exec (.powerRest tag) s = .next (s.answered tag .power .busy []) ∧
       exec (.powerDeep tag) s = .next (s.answered tag .power .busy [])) ∧
     ((∀ e ∈ s.table, kindHoldsRest e.kind = false) →
       (∀ d : Fin 2, (s.die d).state = .ready ∧ (s.die d).restTarget = .none) →
       ((∀ d : Fin 2, (s.die d).drained = false ∨ 0 < (s.die d).debt) → exec (.powerRest tag) s = .next (({ s with
         arr := { s.arr with
           power := some ⟨tag, .rest⟩
           dies := s.arr.dies.map fun x => { x with restTarget := .rest } } } : State).admitted tag .power)) ∧
       ((∀ d : Fin 2, (s.die d).drained = true ∧ (s.die d).debt = 0 ∧ (s.die d).holdRefresh = false ∧
           (s.die d).holdCal = false ∧ (∀ x ∈ s.arr.queue ++ s.arr.waiting, x.die ≠ d)) →
         ∃ t, exec (.powerRest tag) s = .next t ∧ (∀ d : Fin 2, (t.die d).state = .resting ∧ (t.die d).timer = none ∧
             (t.die d).debt = 0 ∧ (t.die d).restTarget = .none ∧ (t.die d).hot = (s.die d).hot) ∧
           t.link = (s.answered tag .power .ok [4, 4]).link ∧ t.table = s.table ∧ t.arr.power = none ∧
           t.dir = s.dir ∧ t.mem = s.mem)))

/-- POWER DEEP (R134, R143, R144): every OPEN or SEALED series is LOST and every other entry stays; a RESTING die is OFF at
once and its records are gone, a READY die that is not drained takes the target DEEP. -/
def Obligations.PowerDeep : Prop :=
  ∀ (s : State) (tag : Byte), s.Admits tag → s.arr.power = none → (∀ e ∈ s.table, kindHoldsRest e.kind = false) →
    (∀ d : Fin 2, (s.die d).state ≠ .initializing ∧ (s.die d).state ≠ .waking ∧ (s.die d).restTarget = .none) →
    (∃ d : Fin 2, (s.die d).state = .ready ∨ (s.die d).state = .resting) →
    ∃ t, exec (.powerDeep tag) s = .next t ∧
      (∀ i : Fin 32, (s.entry i).state = .opened ∨ (s.entry i).state = .sealed → t.entry i = { s.entry i with
        state := .lost, batches := [], reserved := (s.entry i).committed
        lastReserved := (s.entry i).lastCommitted }) ∧
      (∀ i : Fin 32, (s.entry i).state ≠ .opened → (s.entry i).state ≠ .sealed → t.entry i = s.entry i) ∧
      (∀ d : Fin 2, (s.die d).state = .resting → (t.die d).state = .off ∧ (t.die d).timer = none ∧
        (t.die d).debt = 0 ∧ (t.die d).hot = (s.die d).hot ∧ (t.die d).overruns = (s.die d).overruns ∧
        ∀ a, a / 268435456 = d.val → Memory.read t.mem a = 0) ∧
      (∀ d : Fin 2, (s.die d).state = .ready → (s.die d).drained = false →
        t.die d = { s.die d with restTarget := .deep } ∧
        ∀ a, a / 268435456 = d.val → Memory.read t.mem a = Memory.read s.mem a)

/-- The arrival in rest (R137): a drained die with rest target REST, no hold and debt 0 becomes RESTING, its timer stopped,
its pending calibration request and its waiting status reads gone; it begins to wake at once where work or a POWER RUN waits
(R140), and the POWER REST answers once no die has that target (R136). The arrival in OFF (R144): the die's fields, its
records gone (they read as unwritten bytes, log 9), the other die's kept. The end of a wake (R141): the die is READY, and a
waiting POWER RUN answers once no die is RESTING or WAKING (R142). That the three commands change nothing otherwise,
WAKE_DELAY_ELAPSED of a die not WAKING among them, is log 3, the model's choice. -/
def Obligations.RestArrivals : Prop :=
  (∀ (s : State) (d : Fin 2),
     ((s.die d).drained = true → (s.die d).restTarget = .rest → (s.die d).holdRefresh = false →
       (s.die d).holdCal = false → (s.die d).debt = 0 → ∃ t, exec (.enterResting d) s = .next t ∧ s.RestArrives t d) ∧
     ((s.die d).drained = false ∨ (s.die d).restTarget ≠ .rest ∨ (s.die d).holdRefresh = true ∨
       (s.die d).holdCal = true ∨ 0 < (s.die d).debt → exec (.enterResting d) s = .next s)) ∧
  (∀ (s : State) (d : Fin 2),
     ((s.die d).drained = true → (s.die d).restTarget = .deep → (s.die d).holdRefresh = false →
       (s.die d).holdCal = false →
       ∃ t, exec (.enterOff d) s = .next t ∧ (t.die d).state = .off ∧ (t.die d).timer = none ∧ (t.die d).debt = 0 ∧
         (t.die d).driftHold = false ∧ (t.die d).restTarget = .none ∧ (t.die d).hot = (s.die d).hot ∧
         (t.die d).overruns = (s.die d).overruns ∧ t.die (otherDie d) = s.die (otherDie d) ∧ t.dir = s.dir ∧
         (∀ a, a / 268435456 = d.val → Memory.read t.mem a = 0) ∧
         ∀ a, a / 268435456 ≠ d.val → Memory.read t.mem a = Memory.read s.mem a) ∧
     ((s.die d).drained = false ∨ (s.die d).restTarget ≠ .deep ∨ (s.die d).holdRefresh = true ∨
       (s.die d).holdCal = true → exec (.enterOff d) s = .next s) ∧
     ((s.die d).state = .waking →
       let other := s.die (otherDie d)
       let t := s.setDie d { s.die d with
         state := .ready, activity := .none, holdRefresh := false, holdCal := false, driftHold := false, debt := 0
         timer := some 0, path := .free, banks := Vector.replicate 8 ⟨.idle, false⟩ }
       (s.arr.power = none ∨ (∃ tag, s.arr.power = some ⟨tag, .rest⟩ ∧ other.restTarget = .rest) ∨
           (∃ tag, s.arr.power = some ⟨tag, .run⟩ ∧ (other.state = .resting ∨ other.state = .waking)) →
         exec (.wakeDelayElapsed d) s = .next t) ∧
       (∀ tag, s.arr.power = some ⟨tag, .run⟩ → other.state ≠ .resting → other.state ≠ .waking →
         exec (.wakeDelayElapsed d) s = .next { t with
           arr := { t.arr with power := none }
           table := s.table.filter fun e => e.tag != tag
           link := { s.link with queue := s.link.queue
             ++ [⟨.response, tag, [0x22, 0, (t.die 0).state.code, (t.die 1).state.code], none⟩] } })) ∧
     ((s.die d).state ≠ .waking → exec (.wakeDelayElapsed d) s = .next s))

/-! ### Banks and the arbiter -/

/-- The delays of a bank (R92, R93): each ends what it timed, and nothing else changes; where it timed nothing, nothing
changes. The steps of a die's arbiter (R92, R96, R97, R101), each where the arbiter chooses it: an open step, a close step,
a transfer step of a read, which carries the records its row holds, and of a write, which holds the command path, and a
status read step. That a read step leaves the command path free is log 13, that a read carries what its row held at its
step log 14, the model's readings. A step for a bank passes over the heads of the other banks that had an eligible step,
unless the die has an idle demand; a count at 8 stays, and a status read step passes over none (R100). That a step the
arbiter does not choose changes nothing is log 3, the model's choice. -/
def Obligations.BankCommands : Prop :=
  (∀ (s : State) (d : Fin 2) (b : Fin 8),
     (∀ row, (s.bank d b).state = .opening row → exec (.openDelayElapsed d b) s =
       .next (s.setBank d b { s.bank d b with state := .opened row })) ∧
     ((∀ row, (s.bank d b).state ≠ .opening row) → exec (.openDelayElapsed d b) s = .next s) ∧
     ((s.bank d b).state = .closing → exec (.closeDelayElapsed d b) s =
       .next (s.setBank d b { s.bank d b with state := .idle })) ∧
     ((s.bank d b).state ≠ .closing → exec (.closeDelayElapsed d b) s = .next s) ∧
     ((s.bank d b).recovering = true → exec (.writeRecoveryElapsed d b) s =
       .next (s.setBank d b { s.bank d b with recovering := false })) ∧
     ((s.bank d b).recovering = false → exec (.writeRecoveryElapsed d b) s = .next s)) ∧
  (∀ (s : State) (d : Fin 2),
     let passes := fun (b : Fin 8) (t : State) =>
       (∀ c h, c ≠ b → s.headOf d c = some h → t.headOf d c = some
         (if s.idleDemand d = false ∧ (s.bankStep d c).isSome = true then { h with passOver := min 8 (h.passOver + 1) }
           else h)) ∧
       ∀ c, t.headOf (otherDie d) c = s.headOf (otherDie d) c
     (∀ b row, s.choice d = some (.bank b (.openRow row)) → ∃ t, exec (.openStep d b) s = .next t ∧
       passes b t ∧ t.headOf d b = s.headOf d b ∧ (t.bank d b).state = .opening row ∧ (∀ c ≠ b, t.bank d c = s.bank d c) ∧
       t.die (otherDie d) = s.die (otherDie d) ∧ t.mem = s.mem ∧ t.dir = s.dir ∧
       t.arr.queue.map Txn.origin = s.arr.queue.map Txn.origin) ∧
     (∀ b, s.choice d = some (.bank b .close) → ∃ t, exec (.closeStep d b) s = .next t ∧
       passes b t ∧ t.headOf d b = s.headOf d b ∧ (t.bank d b).state = .closing ∧ (∀ c ≠ b, t.bank d c = s.bank d c) ∧
       t.die (otherDie d) = s.die (otherDie d) ∧ t.mem = s.mem ∧ t.dir = s.dir ∧
       t.arr.queue.map Txn.origin = s.arr.queue.map Txn.origin) ∧
     (∀ b x p, s.choice d = some (.bank b .transfer) → s.headOf d b = some x → x.place = some p →
       ∃ t y, exec (.transferStep d b) s = .next t ∧ passes b t ∧ t.issuedAt d b = some y ∧ y.origin = x.origin ∧
         y.place = some p ∧ y.passOver = 0 ∧ y.live = x.live ∧
         (x.dir = .read → y.data = recordsOf p.count (Memory.readBytes s.mem (p.address d) (p.count * 32)) ∧
           t.die d = s.die d) ∧
         (x.dir = .write → y.data = x.data ∧ t.die d = { s.die d with path := .write b }) ∧
         t.die (otherDie d) = s.die (otherDie d) ∧ t.mem = s.mem ∧ t.dir = s.dir) ∧
     (s.choice d = some .status → ∃ t y, exec (.statusReadStep d) s = .next t ∧
       (∀ e c, t.headOf e c = s.headOf e c) ∧ t.issuedStatus d = some y ∧
       y.origin = .statusRead ∧ t.die d = { s.die d with activity := .statusRead, path := .statusRead } ∧
       t.arr.queue.map Txn.origin = s.arr.queue.map Txn.origin ∧ t.die (otherDie d) = s.die (otherDie d) ∧
       t.mem = s.mem ∧ t.dir = s.dir) ∧
     (∀ b, (∀ row, s.choice d ≠ some (.bank b (.openRow row))) → exec (.openStep d b) s = .next s) ∧
     (∀ b, s.choice d ≠ some (.bank b .close) → exec (.closeStep d b) s = .next s) ∧
     (∀ b, s.choice d ≠ some (.bank b .transfer) → exec (.transferStep d b) s = .next s) ∧
     (s.choice d ≠ some .status → exec (.statusReadStep d) s = .next s))

/-- What is eligible and what is chosen (R99 to R101, R103, R116): when a die has an idle demand and when its status read is
eligible; a bank's step by its state, its head and the idle demand; a die that is not READY, has an activity or a busy path
chooses nothing. A head passed over 8 times comes first, then the status read, then transfers, then the opens and closes
that a head needs, each by the age of its head; then the close of the lowest-numbered bank under an idle demand; and where
nothing is eligible nothing is chosen. -/
def Obligations.ArbiterChoice : Prop :=
  (∀ (s : State) (d : Fin 2),
     (s.idleDemand d = true ↔ (s.die d).holdRefresh = true ∨ (s.die d).holdCal = true ∨ (s.die d).driftHold = true ∨
       (s.die d).restTarget ≠ .none ∨
       ((s.die d).state = .ready ∧ 1 ≤ (s.die d).debt ∧ (s.die d).debt ≤ 5 ∧ (s.die d).holdRefresh = false ∧
         (s.die d).holdCal = false ∧ (s.die d).restTarget = .none ∧ (∀ x ∈ s.arr.queue, x.die = d → x.issued = true) ∧
         ∀ x ∈ s.arr.waiting, x.die ≠ d)) ∧
     (s.statusEligible d = true ↔ (∃ x ∈ s.arr.queue, x.issued = false ∧ x.isStatus d = true) ∧
       (s.die d).holdRefresh = false ∧ (s.die d).holdCal = false ∧ (s.die d).restTarget = .none)) ∧
  (∀ (s : State) (d : Fin 2) (b : Fin 8),
     (∀ x, (s.bank d b).state = .idle → s.headOf d b = some x → s.bankStep d b =
       if s.idleDemand d then none else some (.openRow ((x.place.map Place.row).getD 0))) ∧
     (∀ row x, (s.bank d b).state = .opened row → s.headOf d b = some x → x.row = row → s.idleDemand d = false →
       s.bankStep d b = if (s.issuedAt d b).isNone then some .transfer else none) ∧
     (∀ row x, (s.bank d b).state = .opened row → s.headOf d b = some x → x.row ≠ row ∨ s.idleDemand d = true →
       s.bankStep d b = if (s.issuedAt d b).isNone && !(s.bank d b).recovering then some .close else none) ∧
     (∀ row, (s.bank d b).state = .opened row → s.headOf d b = none → s.bankStep d b =
       if s.idleDemand d && (s.issuedAt d b).isNone && !(s.bank d b).recovering then some .close else none) ∧
     ((s.bank d b).state = .idle → s.headOf d b = none → s.bankStep d b = none) ∧
     ((s.bank d b).state = .closing ∨ (∃ row, (s.bank d b).state = .opening row) → s.bankStep d b = none) ∧
     ((s.die d).state ≠ .ready ∨ (s.die d).activity ≠ .none ∨ (s.die d).path ≠ .free → s.choice d = none) ∧
     (∀ c x, s.choice d = some (.bank c x) → s.bankStep d c = some x) ∧
     ((s.die d).quiet = true → (∃ c x, s.headOf d c = some x ∧ x.passOver = 8 ∧ (s.bankStep d c).isSome = true) →
       ∃ c x step, s.choice d = some (.bank c step) ∧ s.headOf d c = some x ∧ x.passOver = 8) ∧
     ((s.die d).quiet = true → (∀ c x, s.headOf d c = some x → x.passOver ≠ 8) →
       (s.statusEligible d = true → s.choice d = some .status) ∧
       (s.statusEligible d = false → (∃ c, s.bankStep d c = some .transfer) →
         ∃ c, s.choice d = some (.bank c .transfer)))) ∧
  (∀ (s : State) (d : Fin 2), (s.die d).quiet = true →
     let aged := fun c : Fin 8 => ∃ h, s.headOf d c = some h ∧ h.passOver = 8 ∧ (s.bankStep d c).isSome = true
     let needs := fun c : Fin 8 => ∃ h, s.headOf d c = some h ∧ ((∃ row, s.bankStep d c = some (.openRow row)) ∨
       s.bankStep d c = some .close ∧ (s.bank d c).state ≠ .opened h.row)
     let earliest := fun (cls : Fin 8 → Prop) (c : Fin 8) => cls c ∧ ∃ before x after,
       s.arr.queue = before ++ x :: after ∧ x.issued = false ∧ x.isFor d c = true ∧
       ∀ y ∈ before, ∀ c', y.issued = false → y.isFor d c' = true → ¬ cls c'
     (∀ c, earliest aged c → s.choice d = (s.bankStep d c).map (Choice.bank c)) ∧
     ((∀ c, ¬ aged c) → s.statusEligible d = false →
       (∀ c, earliest (fun c => s.bankStep d c = some .transfer) c → s.choice d = some (.bank c .transfer)) ∧
       ((∀ c, s.bankStep d c ≠ some .transfer) →
         (∀ c, earliest needs c → s.choice d = (s.bankStep d c).map (Choice.bank c)) ∧
         ((∀ c, ¬ needs c) →
           (∀ c, s.bankStep d c = some .close → (∀ c' < c, s.bankStep d c' = none) →
             s.choice d = some (.bank c .close)) ∧
           ((∀ c, s.bankStep d c = none) → s.choice d = none)))))

/-! ### Completions -/

/-- The completion of a batch's write (R97, R28 to R30): the bytes of its slots are its records and no other byte changes,
the command path is free, write recovery runs, and the batch counts 1. The first of two writes commits nothing. A batch at
the head whose last write this is commits and answers OK, and after it each complete batch that follows; a batch behind an
incomplete head takes its place among the complete ones and waits; a completion of work that has ended changes no entry. A
DROPPING entry commits nothing (R41): a batch that becomes complete leaves the list and answers SERIES_GONE, and where no
work in flight remains the entry is FREE and its DROP answers OK (R43). -/
def Obligations.BatchWriteComplete : Prop :=
  ∀ (s : State) (d : Fin 2) (b : Fin 8) (x : Txn) (p : Place) (i : Fin 32) (tag : Byte), Memory.wf s.mem →
    s.link.reset = none → s.issuedAt d b = some x → x.origin = .batch i tag → x.place = some p →
    ∃ t, exec (.batchWriteComplete d b) s = .next t ∧
      Memory.readBytes t.mem (p.address d) (32 * x.data.length) = recordsBytes x.data ∧
      (∀ a, a < p.address d ∨ p.address d + 32 * x.data.length ≤ a → Memory.read t.mem a = Memory.read s.mem a) ∧
      (t.die d).path = .free ∧ (t.bank d b).recovering = true ∧ (t.bank d b).state = (s.bank d b).state ∧
      t.die (otherDie d) = s.die (otherDie d) ∧
      t.arr.queue.length + t.arr.waiting.length + 1 = s.arr.queue.length + s.arr.waiting.length ∧
      (∀ j ≠ i, t.entry j = s.entry j) ∧
      (x.live = false → t.entry i = s.entry i ∧ t.link = s.link ∧ t.table = s.table) ∧
      (∀ h ready left, x.live = true → (s.entry i).state ≠ .dropping → (s.entry i).batches = h :: (ready ++ left) →
        h.tag = tag → (∀ y ∈ ready ++ left, y.tag ≠ tag) → (∀ y ∈ ready, y.writes ≤ y.done) →
        (∀ y, left.head? = some y → y.done < y.writes) →
        (h.done + 1 < h.writes →
          t.entry i = { s.entry i with batches := { h with done := h.done + 1 } :: (ready ++ left) } ∧
          t.link = s.link ∧ t.table = s.table) ∧
        (h.done + 1 = h.writes →
          t.entry i = { s.entry i with
            committed := (s.entry i).committed + h.count + (ready.map Batch.count).sum
            lastCommitted := (ready.getLast?.map Batch.lastStamp).getD h.lastStamp, dirty := true, batches := left } ∧
          t.table = s.table.filter (fun e => (h :: ready).all fun y => e.tag != y.tag) ∧
          t.link = { s.link with queue := s.link.queue ++ (h :: ready).map fun y => (⟨.response, y.tag,
            [0x14, 0, BitVec.ofNat 8 i.val] ++ leBytes 4 y.first ++ [BitVec.ofNat 8 y.count], none⟩ : Frame) })) ∧
      (∀ h rest, x.live = true → (s.entry i).state ≠ .dropping → (s.entry i).batches = h :: rest → h.tag ≠ tag →
        h.done < h.writes →
        let place := ((h :: rest).map Batch.finish).foldr max 0 + 1
        t.entry i = { s.entry i with
          batches := h :: rest.map fun y => if y.tag = tag then
            { y with done := y.done + 1, finish := if y.writes ≤ y.done + 1 then place else y.finish } else y } ∧
        t.link = s.link ∧ t.table = s.table) ∧
      (∀ before y after, x.live = true → (s.entry i).state = .dropping →
        (s.entry i).batches = before ++ y :: after → y.tag = tag →
        (∀ z ∈ before ++ after, z.tag ≠ tag ∧ z.done < z.writes) →
        (y.done + 1 < y.writes →
          t.entry i = { s.entry i with batches := before ++ { y with done := y.done + 1 } :: after } ∧
          t.link = s.link ∧ t.table = s.table ∧ t.drops = s.drops) ∧
        (y.done + 1 = y.writes → before ++ after ≠ [] ∨ (∃ f ∈ s.fetches, f.series = i) ∨
            (∃ (k : Fin 4) (c : Ctx), s.ctx k = some c ∧ c.series = i ∧ c.endReason ≠ some .lost) ∨
            s.port.preserving i = true →
          t.entry i = { s.entry i with batches := before ++ after } ∧
          t.link = { s.link with queue := s.link.queue ++ [⟨.response, tag, [0x14, 23], none⟩] } ∧
          t.table = s.table.filter (fun e => e.tag != tag) ∧ t.drops = s.drops) ∧
        (∀ drop, y.done + 1 = y.writes → before ++ after = [] → (∀ f ∈ s.fetches, f.series ≠ i) →
          (∀ (k : Fin 4) (c : Ctx), s.ctx k = some c → c.series = i → c.endReason = some .lost) →
          s.port.preserving i = false → s.drops.find? (fun w => w.series == i) = some drop →
          t.entry i = ⟨.free, 0, 0, 1, .wrap, 0, 0, 0, 0, 0, false, none, []⟩ ∧
          t.link = { s.link with queue := s.link.queue ++ [⟨.response, tag, [0x14, 23], none⟩,
            ⟨.response, drop.tag, [0x12, 0, BitVec.ofNat 8 i.val], none⟩] } ∧
          t.table = s.table.filter (fun e => e.tag != tag && e.tag != drop.tag) ∧
          t.drops = s.drops.filter (fun w => w.series != i)))

/-- The row read of a scan (R72 to R78, R58, R82, R83). The numbers of its span that have left the series are skipped and
overtaken; the other records are tested in turn until one ends the scan. The scan ends with END_OF_RANGE after the last record
of its range or at a record past its upper stamp, with STOPPED at an unmasked condition, with HIT_LIMIT at the hit that
reaches the limit, and answers in the same change with its report. In LIST mode its hits go before, in frames of 24 and a
last one of 1 to 24, where slots are free; with no slot free the 24th hit leaves it PAUSED with its claim (R78), which comes
before the end of a range that this hit closes (log 35) and before its row buffer is left where it is the last record there
(log 43), both the model's choices. Where the other buffer holds a later span that
is filled, the scan goes on into it; where that one still waits for its read, the scan waits at it, and the buffer just left
is read into again while the read point allows, from oldest on. A read that completes for the later of two buffers, or in
PAUSED, fills its buffer only; one that completes in DRAINING is discarded, and the last of them lets the context answer. And
what the report holds (R83, R189). -/
def Obligations.RowReadEndsScan : Prop :=
  ([EndReason.endOfRange, .hitLimit, .stopped, .cancelled, .seriesGone, .lost].map EndReason.code = [0, 1, 2, 3, 4, 5] ∧
   ∀ c : Ctx, c.report = [(c.endReason.map EndReason.code).getD 0] ++ leBytes 4 c.low
     ++ leBytes 4 (if c.resolved then c.high + 1 - c.low else 0)
     ++ (match c.lastEval with
       | some q => [1] ++ leBytes 4 q
       | none => [0, 0, 0, 0, 0])
     ++ leBytes 4 c.examined ++ leBytes 4 c.hitCount ++ leBytes 4 c.overtaken ++ leBytes 4 c.absents
     ++ leBytes 4 c.faults ++ leBytes 4 c.tinies
     ++ (match c.stop with
       | some x => leBytes 4 x.number ++ [BitVec.ofNat 8 (x.conditions.absent.toNat + 2 * x.conditions.fault.toNat
         + 4 * x.conditions.tiny.toNat)]
       | none => [0, 0, 0, 0, 0])) ∧
  (∀ (s : State) (d : Fin 2) (b : Fin 8) (x : Txn) (k : Fin 4) (c : Ctx) (second : Bool) (first last : Nat),
     s.link.reset = none → s.issuedAt d b = some x → x.origin = .scanRow k second → x.live = true →
     s.ctx k = some c → c.state = .running → c.buf second = some ⟨first, last, false, 0, []⟩ → c.cursor ≤ first →
     (∀ y, c.buf (!second) = some y → last < y.first) → first ≤ last → x.data.length = last + 1 - first →
     x.data.length ≤ 64 → (s.entry c.series).state ≠ .dropping →
     (s.arr.queue.filter fun y => y.origin.ofCtx k) = [x] → (∀ y ∈ s.arr.waiting, y.origin.ofCtx k = false) →
     c.hits.length < 24 → (c.mode = .count → c.hits = []) → Claimant.scan k ∉ s.link.claims →
     let skip := min ((s.entry c.series).oldest - first) (last + 1 - first)
     let read := x.data.drop skip
     let start := first + skip
     let c0 : Ctx := { c with overtaken := c.overtaken + skip }
     let answers := fun (slots : Nat) (hits : List Hit) (c' : Ctx) => c.mode = .count ∨ slots ≤ s.freeSlots →
       ∃ (t : State) (frames : List (List Hit)), exec (.rowReadComplete d b) s = .next t ∧ t.ctx k = none ∧
         (∀ j ≠ k, t.ctx j = s.ctx j) ∧ t.table = s.table.filter (fun e => e.tag != c.tag) ∧ t.dir = s.dir ∧
         t.mem = s.mem ∧ frames.flatten = hits ∧ (∀ f ∈ frames, 1 ≤ f.length ∧ f.length ≤ 24) ∧
         (∀ f ∈ frames.dropLast, f.length = 24) ∧
         t.link = { s.link with queue := s.link.queue ++ frames.map (Frame.hits c.tag)
           ++ [⟨.response, c.tag, [0x18, 0] ++ c'.report, none⟩] }
     let ends := fun (rs : List Record) (c' : Ctx) => answers 4 (c0.listed start rs) c'
     (c.buf (!second) = none → c.high < c.readPoint → c.GoesOn read →
       ends read { c0.tested start read with endReason := some .endOfRange }) ∧
     (∀ later, c.buf (!second) = some later → later.filled = true → later.records.length ≤ 64 → c.high < c.readPoint →
       c.GoesOn read →
       let c1 : Ctx := { c0.tested start read with hits := c0.listed start read }
       let from2 := later.first + later.skipped
       c1.GoesOn later.records → answers 7 (c1.listed from2 later.records)
         { c1.tested from2 later.records with endReason := some .endOfRange }) ∧
     (∀ before r after, read = before ++ r :: after → c.GoesOn before →
       (¬ c.inStamps r → ends before { c0.tested start before with endReason := some .endOfRange }) ∧
       (∀ u, c.inStamps r → c.filter.test r = .stop u → ends before { c0.tested start before with
         endReason := some .stopped, stop := some ⟨start + before.length, u⟩ }) ∧
       (∀ m, c.inStamps r → c.filter.test r = .hit m →
         c.hitLimit = some (c.hitCount + (before.filter (isHit c.filter)).length + 1) →
         ends (before ++ [r]) { c0.tested start (before ++ [r]) with endReason := some .hitLimit }) ∧
       (∀ m, c.GoesOn (before ++ [r]) → c.filter.test r = .hit m → c.mode = .list → s.freeSlots = 0 →
         c.hits.length + (before.filter (isHit c.filter)).length = 23 →
         ∃ t, exec (.rowReadComplete d b) s = .next t ∧ (∀ j ≠ k, t.ctx j = s.ctx j) ∧ t.table = s.table ∧
           t.dir = s.dir ∧ t.mem = s.mem ∧
           t.link = { s.link with claims := s.link.claims ++ [.scan k] } ∧
           t.ctx k = some ({ c0.tested start (before ++ [r]) with
             state := .paused, hits := c0.listed start (before ++ [r]) }.setBuf second
               (some ⟨first, last, true, skip, read⟩))))) ∧
  (∀ (s : State) (d : Fin 2) (b : Fin 8) (x : Txn) (k : Fin 4) (c : Ctx) (second : Bool) (before after : List Txn),
     s.link.reset = none → s.arr.queue = before ++ x :: after → (∀ y ∈ before, (y.issued && y.isFor d b) = false) →
     x.issued = true → x.isFor d b = true → s.arr.waiting = [] → s.arr.queue.length ≤ 32 →
     x.origin = .scanRow k second → s.ctx k = some c →
     let left : State := s.setQueues (before ++ after) []
     (∀ first last, x.live = true → c.buf second = some ⟨first, last, false, 0, []⟩ → first ≤ last →
       x.data.length = last + 1 - first →
       let oldest := (s.entry c.series).oldest
       let skip := min (oldest - first) (last + 1 - first)
       let read := x.data.drop skip
       let c0 : Ctx := { c with overtaken := c.overtaken + skip }
       (c.state = .paused ∨ (c.state = .running ∧
           ∃ y, c.buf (!second) = some y ∧ y.first < first ∧ y.filled = false ∧ c.cursor = y.first) →
         exec (.rowReadComplete d b) s =
           .next (left.setCtx k (some (c0.setBuf second (some ⟨first, last, true, skip, read⟩))))) ∧
       (∀ later, c.state = .running → c.cursor ≤ first → c.buf (!second) = some later → last < later.first →
         later.filled = false → later.first < c.readPoint → x.data.length ≤ 64 → c.hits.length < 24 →
         (c.mode = .count → c.hits = []) → c.GoesOn read → c.mode = .count ∨ 3 ≤ s.freeSlots →
         ∃ (t : State) (frames : List (List Hit)) (hits : List Hit), exec (.rowReadComplete d b) s = .next t ∧
           frames.flatten ++ hits = c0.listed (first + skip) read ∧ (∀ f ∈ frames, f.length = 24) ∧ hits.length < 24 ∧
           t.link = { s.link with queue := s.link.queue ++ frames.map (Frame.hits c.tag) } ∧
           t.table = s.table ∧ t.dir = s.dir ∧ t.mem = s.mem ∧ (∀ j ≠ k, t.ctx j = s.ctx j) ∧ t.arr.waiting = [] ∧
           let c1 : Ctx := { c0.tested (first + skip) read with hits := hits, cursor := later.first }
           let next := max c.readPoint oldest
           let n := min (64 - next % (512 * (s.entry c.series).count) % 64) (c.high + 1 - next)
           let passed := min oldest (c.high + 1) - c.readPoint
           (c.high < c.readPoint → t.ctx k = some (c1.setBuf second none) ∧ t.arr.queue = before ++ after) ∧
           (c.readPoint ≤ c.high → c.high < next → t.arr.queue = before ++ after ∧
             t.ctx k = some ({ c1 with overtaken := c1.overtaken + passed, readPoint := next }.setBuf second none)) ∧
           (next ≤ c.high → t.arr.queue = before ++ after ++ [⟨.scanRow k second, .read,
               (s.entry c.series).dieOf next, some ((s.entry c.series).place next n), [], false, 0, true⟩] ∧
             t.ctx k = some ({ c1 with overtaken := c1.overtaken + passed, readPoint := next + n }.setBuf second
               (some ⟨next, next + n - 1, false, 0, []⟩))))) ∧
     (x.live = false → c.state = .draining →
       (c.hits ≠ [] ∨ (∃ y ∈ before ++ after, y.issued = true ∧ y.origin.ofCtx k = true) →
         exec (.rowReadComplete d b) s = .next left) ∧
       (c.hits = [] → (∀ y ∈ before ++ after, y.origin.ofCtx k = true → y.issued = false) →
         (s.entry c.series).state ≠ .dropping → exec (.rowReadComplete d b) s = .next (({ left with
           table := s.table.filter fun e => e.tag != c.tag
           link := { s.link with queue := s.link.queue ++ [⟨.response, c.tag, [0x18, 0] ++ c.report, none⟩] } } :
             State).setCtx k none))))

/-- The probes of a stamp search (R69 to R71). A probe below oldest raises the search low to it, and the search goes on as it
was, with an edge probe there or a binary probe of the middle; with every candidate gone the scan ends END_OF_RANGE. An edge
probe at or above the lower stamp ends the search at its number; a binary probe at or above it lowers the search high; one
below it raises the search low past its number, and a binary probe of the middle follows. Where the bounds meet the search
ends there, and the scan is RUNNING from that number. -/
def Obligations.Probes : Prop :=
  ∀ (s : State) (d : Fin 2) (b : Fin 8) (x : Txn) (k : Fin 4) (c : Ctx) (q : Nat) (r : Record) (lower : Stamp)
    (upper : Option Stamp), s.link.reset = none → s.issuedAt d b = some x → x.live = true → x.data = [r] →
    s.ctx k = some c → c.range = .stamp lower upper → s.arr.queue.length ≤ 31 → s.arr.waiting = [] →
    let e := s.entry c.series
    let middle := fun low high : Nat => low + (high - low) / 2
    let runsFrom := fun (cmd : Instr) (n : Nat) => n ≤ c.high → c.buf0 = none → c.buf1 = none →
      ∃ t c', exec cmd s = .next t ∧ t.ctx k = some c' ∧ c'.state = .running ∧ c'.low = n ∧
        c'.cursor = n ∧ c'.resolved = true ∧ c'.high = c.high ∧ t.dir = s.dir ∧ t.link = s.link ∧ t.mem = s.mem
    let probes := fun (cmd : Instr) (o : Origin) (n : Nat) (c' : Ctx) =>
      ∃ t, exec cmd s = .next t ∧ t.ctx k = some c' ∧
        t.arr.queue.getLast? = some ⟨o, .read, e.dieOf n, some (e.place n 1), [], false, 0, true⟩ ∧
        t.dir = s.dir ∧ t.link = s.link ∧ t.mem = s.mem
    let gone := fun cmd : Instr => c.state = .resolving ∨ c.state = .searching → c.hits = [] → c.resolved = false →
      e.state ≠ .dropping → (s.arr.queue.filter fun y => y.origin.ofCtx k) = [x] →
      ∃ t, exec cmd s = .next t ∧ t.ctx k = none ∧ t.table = s.table.filter (fun y => y.tag != c.tag) ∧
        t.link = { s.link with queue := s.link.queue ++ [⟨.response, c.tag,
          [0x18, 0] ++ ({ c with endReason := some .endOfRange, low := e.oldest } : Ctx).report, none⟩] } ∧
        t.dir = s.dir ∧ t.mem = s.mem
    (x.origin = .edgeProbe k q →
      (q < e.oldest →
        (e.oldest < c.searchHigh → probes (.edgeProbeComplete d b) (.edgeProbe k e.oldest) e.oldest
          { c with state := .resolving, searchLow := e.oldest }) ∧
        (e.oldest = c.searchHigh → runsFrom (.edgeProbeComplete d b) e.oldest) ∧
        (c.searchHigh < e.oldest → gone (.edgeProbeComplete d b))) ∧
      (e.oldest ≤ q → lower.toNat ≤ r.stamp.toNat → runsFrom (.edgeProbeComplete d b) q) ∧
      (e.oldest ≤ q → r.stamp.toNat < lower.toNat →
        (q + 1 < c.searchHigh → probes (.edgeProbeComplete d b) (.binaryProbe k (middle (q + 1) c.searchHigh))
          (middle (q + 1) c.searchHigh) { c with state := .searching, searchLow := q + 1 }) ∧
        (q + 1 = c.searchHigh → runsFrom (.edgeProbeComplete d b) (q + 1)))) ∧
    (x.origin = .binaryProbe k q →
      (q < e.oldest →
        (e.oldest < c.searchHigh → probes (.binaryProbeComplete d b) (.binaryProbe k (middle e.oldest c.searchHigh))
          (middle e.oldest c.searchHigh) { c with state := .searching, searchLow := e.oldest }) ∧
        (e.oldest = c.searchHigh → runsFrom (.binaryProbeComplete d b) e.oldest) ∧
        (c.searchHigh < e.oldest → gone (.binaryProbeComplete d b))) ∧
      (e.oldest ≤ q → lower.toNat ≤ r.stamp.toNat →
        (c.searchLow < q → probes (.binaryProbeComplete d b) (.binaryProbe k (middle c.searchLow q))
          (middle c.searchLow q) { c with state := .searching, searchHigh := q }) ∧
        (c.searchLow = q → runsFrom (.binaryProbeComplete d b) q)) ∧
      (e.oldest ≤ q → r.stamp.toNat < lower.toNat →
        (q + 1 < c.searchHigh → probes (.binaryProbeComplete d b) (.binaryProbe k (middle (q + 1) c.searchHigh))
          (middle (q + 1) c.searchHigh) { c with state := .searching, searchLow := q + 1 }) ∧
        (q + 1 = c.searchHigh → runsFrom (.binaryProbeComplete d b) (q + 1))))

/-- The check of a page and the completion of a preserve read. The check (R152, R153): check bit t is the exclusive or of the
protected bits whose code position has bit t set, check bit 13 that of every protected bit and check bits 0 to 12, and the
rest of the 9 check bytes is 0. A page read is classed by its syndrome and parity: CLEAN, UNCORRECTABLE, or CORRECTED with the
protected bit at the syndrome inverted. A page as it is formed is CLEAN; with one bit inverted among the protected bits and
check bits 0 to 13 it is CORRECTED and delivered as formed; with two it is UNCORRECTABLE, and so is a TIMED_OUT page. The
completion (R159): its records are placed in their part of the page; while a read of the page is outstanding that is all; with
the page's records all read, the page is written, its 512 data bytes, its index, its generation and its record count under the
check, and page 1 gives the image's first stamp (R160). A number below oldest ends the operation OVERTAKEN, which answers with
its report (R161, R189), or is ENDING while another of its reads is ISSUED. A completion that reaches an ENDING operation is
discarded, and the last of them, with no access running, lets it answer the result it has (R156). -/
def Obligations.PreserveReadComplete : Prop :=
  (∀ checked : List Byte, checked.length = 519 →
    let check := checkBytes checked
    check.length = 9 ∧
    (∀ t < 13, bitAt check t =
      xorOf ((codePositions.zipIdx.filter fun p => p.1.testBit t).map fun p => bitAt checked p.2)) ∧
    bitAt check 13 = (xorOf ((List.range 4152).map (bitAt checked)) ^^ xorOf ((List.range 13).map (bitAt check))) ∧
    ∀ n, 14 ≤ n → bitAt check n = false) ∧
  (∀ bytes : List Byte, bytes.length = 528 →
    let checked := bytes.take 519
    let check := bytes.drop 519
    let syndrome := (leNat (check.take 2) ^^^ leNat ((checkBytes checked).take 2)) % 8192
    let parity := bitAt check 13 ^^
      (xorOf ((List.range 4152).map (bitAt checked)) ^^ xorOf ((List.range 13).map (bitAt check)))
    classPage bytes true = (.uncorrectable, bytes) ∧
    classPage bytes false =
      if parity = false then (if syndrome = 0 then .clean else .uncorrectable, bytes)
      else if 4165 < syndrome then (.uncorrectable, bytes)
      else (.corrected, match codePositions.idxOf? syndrome with
        | some n => invertBit n bytes
        | none => bytes)) ∧
  (∀ (data : List Byte) (index generation records : Nat), data.length = 512 →
    let checked := data ++ leBytes 2 index ++ leBytes 4 generation ++ [BitVec.ofNat 8 records]
    let page := pageBytes data index generation records
    page = checked ++ checkBytes checked ∧ classPage page false = (.clean, page) ∧
    (∀ n < 4166, (classPage (invertBit n page) false).1 = .corrected ∧
      (classPage (invertBit n page) false).2.take 519 = checked) ∧
    ∀ m < 4166, ∀ n < 4166, m ≠ n → (classPage (invertBit n (invertBit m page)) false).1 = .uncorrectable) ∧
  ∀ (s : State) (d : Fin 2) (b : Fin 8) (x : Txn) (op : ImageOp) (first : Nat) (second : Bool), s.link.reset = none →
    s.issuedAt d b = some x → x.origin = .preserveRead first second → s.port.op = some op →
    let outstanding := s.arr.queue.filter fun y => y.live && y.origin.ofImage
    let issued := s.arr.queue.filter fun y => y.issued && y.origin.ofImage
    let completes := fun (t : State) (port : Port) => exec (.preserveReadComplete d b) s = .next t ∧
      t.arr.queue ++ t.arr.waiting = s.arr.queue.eraseP (fun y => y.issued && y.isFor d b) ++ s.arr.waiting ∧
      t = { s with arr := { s.arr with queue := t.arr.queue, waiting := t.arr.waiting }, port := port }
    (x.live = true → op.kind = .preserve → op.phase = .pageRead → op.result = none → op.abandoned = false →
      ((s.entry op.series).oldest ≤ first →
        let half0 := if second then op.half0 else x.data
        let half1 := if second then x.data else op.half1
        let rs := half0 ++ half1
        (2 ≤ outstanding.length ∨ (∃ y ∈ s.arr.waiting, y.live = true ∧ y.origin.ofImage = true) →
          ∃ t, completes t { s.port with op := some { op with half0 := half0, half1 := half1 } }) ∧
        (∀ r, rs.head? = some r → outstanding = [x] → (∀ y ∈ s.arr.waiting, y.origin.ofImage = false) →
          ∃ t, completes t { s.port with
            op := some { op with
              half0 := half0, half1 := half1, phase := .pageWrite
              firstStamp := if op.page = 1 then r.stamp else op.firstStamp }
            transfer := some ⟨.write, op.slot * s.port.settings.slotPages.toNat + op.page, 0,
              wordsOfBytes (pageBytes (recordsBytes rs ++ List.replicate (512 - 32 * rs.length) 0xFF) op.page op.generation
                (min 16 (op.snapHead - op.snapOldest - 16 * (op.page - 1)))), 0, false, s.port.lastDir == .write⟩ })) ∧
      (first < (s.entry op.series).oldest → (s.entry op.series).state ≠ .dropping → s.port.transfer = none →
        (∀ y ∈ s.arr.waiting, y.issued = false) →
        ∃ t, exec (.preserveReadComplete d b) s = .next t ∧ t.dir = s.dir ∧ t.mem = s.mem ∧
          (∀ y ∈ t.arr.queue ++ t.arr.waiting, y.origin.ofImage = true → y.issued = true ∧ y.live = false) ∧
          (2 ≤ issued.length → t.link = s.link ∧
            t.port.op = some { op with phase := .ending, result := some .overtaken, detail := [] } ∧
            t.table = s.table.map fun e => if e.tag = op.tag then { e with state := .ending } else e) ∧
          (issued = [x] → t.port.op = none ∧ t.table = s.table.filter (fun e => e.tag != op.tag) ∧
            t.link = { s.link with queue := s.link.queue ++ [⟨.response, op.tag,
              [0x41, 20, BitVec.ofNat 8 op.series.val, BitVec.ofNat 8 op.slot] ++ leBytes 4 op.generation
                ++ leBytes 4 op.snapOldest ++ leBytes 4 op.snapHead ++ leBytes 2 op.page ++ leBytes 2 op.pagesWritten,
              none⟩] }))) ∧
    (∀ r, x.live = false → op.result = some r → op.abandoned = false → (∀ y ∈ s.arr.waiting, y.issued = false) →
      (s.port.accessing = true ∨ 2 ≤ issued.length → ∃ t, completes t s.port) ∧
      (s.port.transfer = none → issued = [x] → ∃ t, exec (.preserveReadComplete d b) s = .next t ∧ s.OpAnswers t op r))


/-- The completion of a write of a RECOVER (R166): its records are in the array and no other byte changes. With a write
still outstanding that is all; with none, the records formed meanwhile from the next page are written, and the page after it
is read (R165); with none formed it waits for the page being read. With the last write of the image the series is OPEN or
SEALED as its image says, not dirty, and claims its slot, and the request answers OK with its report, whose base stripe is
that of the range taken (R189; log 23, the model's choice). A write that completes for an ENDING operation is in the array
all the same, and the last of them, with no access running, lets the operation answer the result it has (R156). -/
def Obligations.RecoverWriteComplete : Prop :=
  ∀ (s : State) (d : Fin 2) (b : Fin 8) (x : Txn) (p : Place) (op : ImageOp), Memory.wf s.mem →
    s.link.reset = none → s.issuedAt d b = some x → x.origin = .recoverWrite → x.place = some p → s.port.op = some op →
    let outstanding := s.arr.queue.filter fun y => y.live && y.origin.ofImage
    let issued := s.arr.queue.filter fun y => y.issued && y.origin.ofImage
    let pages := (op.snapHead - op.snapOldest + 15) / 16
    let stores := fun t : State => exec (.recoverWriteComplete d b) s = .next t ∧
      Memory.readBytes t.mem (p.address d) (32 * x.data.length) = recordsBytes x.data ∧
      ∀ a, a < p.address d ∨ p.address d + 32 * x.data.length ≤ a → Memory.read t.mem a = Memory.read s.mem a
    let frees := fun t : State => stores t ∧ (t.die d).path = .free ∧ (t.bank d b).recovering = true
    let only := fun t : State => frees t ∧ t.port = s.port ∧ t.dir = s.dir ∧ t.table = s.table ∧ t.link = s.link
    (x.live = true → op.kind = .recover → op.phase = .pageRead → op.result = none → op.abandoned = false →
      (2 ≤ outstanding.length ∨ (∃ y ∈ s.arr.waiting, y.live = true ∧ y.origin.ofImage = true) → ∃ t, only t) ∧
      (outstanding = [x] → (∀ y ∈ s.arr.waiting, y.origin.ofImage = false) →
        (op.formed = [] → op.page < pages ∨ s.port.transfer ≠ none → ∃ t, only t) ∧
        (op.formed ≠ [] → s.arr.waiting = [] → s.arr.queue.length ≤ 31 →
          let e := s.entry op.series
          let first := op.snapOldest + 16 * (op.page - 1)
          ∃ t, stores t ∧ t.dir = s.dir ∧ t.table = s.table ∧ t.link = s.link ∧
            t.arr.queue = s.arr.queue.eraseP (fun y => y.issued && y.isFor d b) ++
              (e.cut first op.formed.length).map (fun part => (⟨.recoverWrite, .write, e.dieOf part.1,
                some (e.place part.1 part.2), (op.formed.drop (part.1 - first)).take part.2, false, 0, true⟩ : Txn)) ∧
            t.port = if op.page < pages then { s.port with
                op := some { op with formed := [], page := op.page + 1 }
                transfer := some ⟨.read, op.slot * s.port.settings.slotPages.toNat + (op.page + 1), 0, [], 0, false,
                  s.port.lastDir == .read⟩ }
              else { s.port with op := some { op with formed := [] } }) ∧
        (∀ h, op.header = some h → op.formed = [] → pages ≤ op.page → s.port.transfer = none →
          (s.arr.queue.filter fun y => y.origin.ofImage) = [x] → h.seriesState = 1 ∨ h.seriesState = 2 →
          ∃ t, frees t ∧ t.entry op.series = { s.entry op.series with
              state := if h.seriesState = 2 then .sealed else .opened, dirty := false
              image := some ⟨op.slot, op.snapHead⟩, lastReserved := op.lastStamp, lastCommitted := op.lastStamp } ∧
            (∀ j ≠ op.series, t.entry j = s.entry j) ∧ t.port.op = none ∧
            t.table = s.table.filter (fun e => e.tag != op.tag) ∧
            t.link = { s.link with queue := s.link.queue ++ [⟨.response, op.tag,
              [0x42, 0, BitVec.ofNat 8 op.series.val, BitVec.ofNat 8 op.slot] ++ leBytes 4 op.generation
                ++ [h.series, h.seriesState] ++ leBytes 2 h.base ++ leBytes 2 h.count ++ leBytes 4 h.oldest
                ++ leBytes 4 h.head ++ leBytes 2 op.damaged ++ leBytes 2 op.timedOut ++ leBytes 2 op.corrected,
              none⟩] }))) ∧
    (∀ r, x.live = false → op.result = some r → op.abandoned = false → (∀ y ∈ s.arr.waiting, y.issued = false) →
      (s.port.accessing = true ∨ 2 ≤ issued.length → ∃ t, only t) ∧
      (s.port.transfer = none → issued = [x] →
        ∃ t, frees t ∧ ({ s with mem := t.mem } : State).OpAnswers t op r))


/-- SET_PRESERVE_PORT (R150, R151): BUSY while an operation runs; the first setting out of range, or a product above 63,550,
refuses it by index; settings that pass stand at once, and entries lose their slot claims where the geometry changes. -/
def Obligations.SetPreservePort : Prop :=
  ∀ (s : State) (tag : Byte) (f : PortFields), s.Admits tag →
    let inRange : List Bool := [1 ≤ f.setup.toNat && f.setup.toNat ≤ 16, 1 ≤ f.strobe.toNat && f.strobe.toNat ≤ 64,
      1 ≤ f.hold.toNat && f.hold.toNat ≤ 16, 1 ≤ f.turnaround.toNat && f.turnaround.toNat ≤ 8,
      f.waitEnable.toNat ≤ 1, f.waitPolarity.toNat ≤ 1, true, 1 ≤ f.slotCount.toNat && f.slotCount.toNat ≤ 64,
      2 ≤ f.slotPages.toNat && f.slotPages.toNat ≤ 63550]
    (s.port.op ≠ none → exec (.setPreservePort tag f) s = .next (s.answered tag .setPreservePort .busy [])) ∧
    (s.port.op = none →
      (∀ n, (inRange.take n).all id = true → inRange[n]? = some false → exec (.setPreservePort tag f) s =
        .next (s.answered tag .setPreservePort .badValue [BitVec.ofNat 8 n])) ∧
      (inRange.all id = true → 63550 < f.slotCount.toNat * f.slotPages.toNat → exec (.setPreservePort tag f) s =
        .next (s.answered tag .setPreservePort .badValue [8])) ∧
      (inRange.all id = true → f.slotCount.toNat * f.slotPages.toNat ≤ 63550 →
        ∃ t, exec (.setPreservePort tag f) s = .next t ∧ t.port = { s.port with settings := f } ∧
          t.link = (s.answered tag .setPreservePort .ok []).link ∧ t.table = s.table ∧ t.arr = s.arr ∧
          t.mem = s.mem ∧ ∀ i : Fin 32, t.entry i =
            if (s.entry i).state ≠ .free ∧ ((s.entry i).image ≠ none ∧ f.slotPages ≠ s.port.settings.slotPages ∨
              f.slotCount ≠ s.port.settings.slotCount ∧ ∃ c, (s.entry i).image = some c ∧ f.slotCount.toNat ≤ c.slot)
            then { s.entry i with image := none, dirty := true } else s.entry i))

/-- PRESERVE (R157, R158): refused by its checks in order; else the operation takes its snapshot and begins to read the header
page, and every entry that named the slot loses its claim and is dirty. -/
def Obligations.Preserve : Prop :=
  ∀ (s : State) (tag series slot : Byte), s.Admits tag →
    (32 ≤ series.toNat ∨ s.port.settings.slotCount.toNat ≤ slot.toNat →
      exec (.preserve tag series slot) s = .next (s.answered tag .preserve .badValue [0xFF])) ∧
    ∀ i : Fin 32, series.toNat = i.val → slot.toNat < s.port.settings.slotCount.toNat →
      ((s.entry i).state = .free ∨ (s.entry i).state = .dropping →
        exec (.preserve tag series slot) s = .next (s.answered tag .preserve .noSeries [])) ∧
      ((s.entry i).state = .lost → exec (.preserve tag series slot) s = .next (s.answered tag .preserve .lost [])) ∧
      ((s.entry i).state = .recovering →
        exec (.preserve tag series slot) s = .next (s.answered tag .preserve .notReady [])) ∧
      ((s.entry i).state = .opened ∨ (s.entry i).state = .sealed →
        (s.rangeUsable (s.entry i).base (s.entry i).count = false →
          exec (.preserve tag series slot) s = .next (s.answered tag .preserve .notReady [])) ∧
        (s.rangeUsable (s.entry i).base (s.entry i).count = true →
          let n := (s.entry i).committed - (s.entry i).oldest
          (s.port.op ≠ none → exec (.preserve tag series slot) s = .next (s.answered tag .preserve .busy [])) ∧
          (s.port.op = none → s.port.settings.slotPages.toNat < 1 + (n + 15) / 16 →
            exec (.preserve tag series slot) s = .next (s.answered tag .preserve .imageTooLarge
              (leBytes 4 n ++ leBytes 2 s.port.settings.slotPages.toNat))) ∧
          (s.port.op = none → 1 + (n + 15) / 16 ≤ s.port.settings.slotPages.toNat →
            ∃ t op, exec (.preserve tag series slot) s = .next t ∧ t.port.op = some op ∧ op.kind = .preserve ∧
              op.tag = tag ∧ op.series = i ∧ op.slot = slot.toNat ∧ op.phase = .headerRead ∧
              op.snapOldest = (s.entry i).oldest ∧ op.snapHead = (s.entry i).committed ∧
              op.snapStamp = (s.entry i).lastCommitted ∧
              t.port.transfer = some ⟨.read, slot.toNat * s.port.settings.slotPages.toNat, 0, [], 0, false,
                s.port.lastDir == .read⟩ ∧
              (∀ j : Fin 32, t.entry j =
                if (s.entry j).state ≠ .free ∧ ∃ c, (s.entry j).image = some c ∧ c.slot = slot.toNat
                then { s.entry j with image := none, dirty := true } else s.entry j) ∧
              t.table = s.table ++ [⟨tag, .preserve, .preservePort, .working⟩] ∧ t.link = { s.link with rxIdle := 0 } ∧
              t.arr = s.arr ∧ t.mem = s.mem)))

/-- RECOVER (R162): refused by its checks in order; else the operation begins to read the header page of its slot, and no
entry changes yet. -/
def Obligations.Recover : Prop :=
  ∀ (s : State) (tag slot target presence : Byte) (base : Half), s.Admits tag →
    (32 ≤ target.toNat ∨ s.port.settings.slotCount.toNat ≤ slot.toNat ∨ (presence ≠ 0 ∧ 32768 ≤ base.toNat) →
      exec (.recover tag slot target presence base) s = .next (s.answered tag .recover .badValue [0xFF])) ∧
    ∀ i : Fin 32, target.toNat = i.val → slot.toNat < s.port.settings.slotCount.toNat →
      (presence ≠ 0 → base.toNat < 32768) →
      ((s.entry i).state ≠ .free → (s.entry i).state ≠ .lost →
        exec (.recover tag slot target presence base) s = .next (s.answered tag .recover .seriesExists [])) ∧
      ((s.entry i).state = .free ∨ (s.entry i).state = .lost →
        ((∀ d : Fin 2, (s.die d).usable = false) →
          exec (.recover tag slot target presence base) s = .next (s.answered tag .recover .notReady [])) ∧
        ((∃ d : Fin 2, (s.die d).usable = true) →
          (s.port.op ≠ none →
            exec (.recover tag slot target presence base) s = .next (s.answered tag .recover .busy [])) ∧
          (s.port.op = none → ∃ t op, exec (.recover tag slot target presence base) s = .next t ∧
            t = ({ s with port := t.port } : State).admitted tag .recover ∧ t.port.op = some op ∧
            op.kind = .recover ∧ op.tag = tag ∧ op.series = i ∧ op.slot = slot.toNat ∧ op.phase = .headerRead ∧
            op.baseOverride = (if presence = 0 then none else some base.toNat) ∧
            t.port.settings = s.port.settings ∧
            t.port.transfer = some ⟨.read, slot.toNat * s.port.settings.slotPages.toNat, 0, [], 0, false,
              s.port.lastDir == .read⟩)))

/-- An access of a page (R147 to R149, R152): a turnaround ends and its access begins; PWAIT active at the test extends the
strobe by a cycle up to the limit, and ACCESS_TIMEOUT stands for the tests up to the limit, at whatever extension the strobe
has come to (log 5, the model's choice); else the access ends, a READ takes the word, and the next access of the page begins.
That the three commands change nothing with no access running is log 3, the model's choice. What the end of a page that
RECOVER has read does: the tests of the header page in their order (R163), the stripe step and its tests (R164), with the
report of each ending (R189, the base of the range: log 23), and the judging of a data page (R165), whose records are formed
and written where no write of the page before is outstanding, while the next page is read. Of an operation that is ENDING no
further access begins, and with none of its transactions ISSUED it answers the result it has (R156). Of one that RESET
abandoned it is over with the access, and the RESET answers with its counts where nothing it discarded is ISSUED (R169,
R183). -/
def Obligations.PortAccess : Prop :=
  (∀ (s : State) (level : Bool) (word : Half),
    (s.port.transfer = none → exec .turnaroundElapsed s = .next s ∧ exec (.portAccessEnd level word) s = .next s ∧
      exec (.accessTimeout level) s = .next s) ∧
    ∀ x, s.port.transfer = some x →
      let active : Prop := s.port.settings.waitEnable = 1 ∧
        (if s.port.settings.waitPolarity = 0 then level = false else level = true)
      let limit := (s.port.settings.maxWaitCode.toNat + 1) * 16
      (x.begun = false → exec .turnaroundElapsed s = .next { s with
        port := { s.port with transfer := some { x with begun := true }, lastDir := x.dir } }) ∧
      (x.begun = true → exec .turnaroundElapsed s = .next s) ∧
      (x.begun = true → x.timedOut = false → active →
        (x.extension < limit → exec (.portAccessEnd level word) s = .next { s with
          port := { s.port with transfer := some { x with extension := x.extension + 1 } } }) ∧
        exec (.accessTimeout level) s = .next { s with
          port := { s.port with transfer := some { x with extension := limit, timedOut := true } } }) ∧
      (x.begun = true → x.timedOut = false → ¬ active →
        exec (.accessTimeout level) s = .next s ∧
        ∀ op, s.port.op = some op → op.result = none → op.abandoned = false → x.index < 263 →
          exec (.portAccessEnd level word) s = .next { s with
            port := { s.port with transfer := some { x with
              index := x.index + 1, extension := 0
              words := if x.dir = .read then x.words ++ [word] else x.words } } })) ∧
  (∀ (s : State) (level : Bool) (word : Half) (x : Transfer) (op : ImageOp), s.port.transfer = some x →
    s.port.op = some op → x.begun = true → x.timedOut = true ∨ s.port.waits level = false →
    (∀ r, op.result = some r → op.abandoned = false → s.link.reset = none →
      ((∃ y ∈ s.arr.queue, y.issued = true ∧ y.origin.ofImage = true) →
        exec (.portAccessEnd level word) s = .next { s with port := { s.port with transfer := none } }) ∧
      ((∀ y ∈ s.arr.queue, y.origin.ofImage = true → y.issued = false) →
        ∃ t, exec (.portAccessEnd level word) s = .next t ∧ t.arr = s.arr ∧ s.OpAnswers t op r)) ∧
    (∀ r, op.abandoned = true → s.link.reset = some r →
      let left : State := { s with port := { s.port with op := none, transfer := none } }
      ((∃ y ∈ s.arr.queue, y.issued = true ∧ y.origin ≠ .statusRead) →
        exec (.portAccessEnd level word) s = .next left) ∧
      ((∀ y ∈ s.arr.queue, y.issued = true → y.origin = .statusRead) →
        exec (.portAccessEnd level word) s = .next { left with
          table := s.table.filter fun e => e.tag != r.tag
          link := { s.link with
            reset := none, bufs := Vector.replicate 2 ⟨.free, []⟩
            queue := s.link.queue ++ [⟨.response, r.tag,
              [0x05, 0, BitVec.ofNat 8 r.entriesRemoved, BitVec.ofNat 8 r.framesRemoved], none⟩] } }))) ∧
  (∀ (s : State) (level : Bool) (word : Half) (x : Transfer) (op : ImageOp), s.port.transfer = some x →
    s.port.op = some op → op.kind = .recover → op.result = none → op.abandoned = false → x.begun = true →
    x.dir = .read → s.link.reset = none → x.timedOut = true ∨ (x.index = 263 ∧ s.port.waits level = false) →
    let page := classPage (bytesOfWords (x.words ++ [word])) x.timedOut
    let field := fun n at' : Nat => leNat ((page.2.drop at').take n)
    let starts := fun (k : Nat) (op' : ImageOp) => ({ s.port with
      op := some op'
      transfer := some ⟨.read, op.slot * s.port.settings.slotPages.toNat + k, 0, [], 0, false,
        s.port.lastDir == .read⟩ } : Port)
    (op.phase = .headerRead → op.header = none → op.detail = [] →
      (s.entry op.series).state = .free ∨ (s.entry op.series).state = .lost →
      (∀ y ∈ s.arr.queue ++ s.arr.waiting, y.origin.ofImage = false) →
      let h : ImageHeader := ⟨byteAt page.2 5, field 4 6, byteAt page.2 10, byteAt page.2 11, byteAt page.2 12,
        op.baseOverride.getD (field 2 13), field 2 15, field 4 17, field 4 21, fieldAt 48 page.2 25,
        fieldAt 48 page.2 31, field 4 37, byteAt page.2 41⟩
      let sound2 : Prop := field 4 0 = 0xC608A1D5 ∧ byteAt page.2 4 = 1
      let sound3 : Prop := field 2 512 = 0 ∧ byteAt page.2 518 = 0 ∧ field 4 514 ≠ 0 ∧ field 4 514 = h.generation
      let sound4 : Prop := h.state.toNat ≤ 1 ∧ 1 ≤ h.lanes.toNat ∧ h.lanes.toNat ≤ 6 ∧ h.policy.toNat ≤ 1 ∧
        1 ≤ h.count ∧ h.count ≤ 4096 ∧ (h.seriesState = 1 ∨ h.seriesState = 2) ∧ h.oldest ≤ h.head ∧
        h.records = h.head - h.oldest ∧ h.records ≤ 512 * h.count ∧
        1 + (h.records + 15) / 16 ≤ s.port.settings.slotPages.toNat
      let ends := fun (code : Byte) (generation : Nat) (fields detail : List Byte) (dir : Vector Entry 32) =>
        ∃ t, exec (.portAccessEnd level word) s = .next t ∧
          t.arr.queue ++ t.arr.waiting = s.arr.queue ++ s.arr.waiting ∧ t = { s with
            dir := dir
            arr := { s.arr with queue := t.arr.queue, waiting := t.arr.waiting }
            port := { s.port with op := none, transfer := none }
            table := s.table.filter fun e => e.tag != op.tag
            link := { s.link with queue := s.link.queue ++ [⟨.response, op.tag,
              [0x42, code, BitVec.ofNat 8 op.series.val, BitVec.ofNat 8 op.slot] ++ leBytes 4 generation ++ fields
                ++ leBytes 2 op.damaged ++ leBytes 2 op.timedOut ++ leBytes 2 op.corrected ++ detail, none⟩] } }
      let known : List Byte := [h.series, h.seriesState] ++ leBytes 2 h.base ++ leBytes 2 h.count ++ leBytes 4 h.oldest
        ++ leBytes 4 h.head
      (page.1 = .uncorrectable ∨ ¬ sound2 ∨ ¬ sound3 ∨ ¬ sound4 → ends 29 op.generation (List.replicate 14 0) [] s.dir) ∧
      (page.1 ≠ .uncorrectable → sound2 → sound3 → sound4 →
        (h.state = 0 → ends 28 h.generation (List.replicate 14 0) [] s.dir) ∧
        (h.state = 1 →
          (32768 < h.base + h.count → ends 3 h.generation known [0xFF] s.dir) ∧
          (h.base + h.count ≤ 32768 →
            (s.rangeUsable h.base h.count = false → ends 13 h.generation known [] s.dir) ∧
            (∀ j : Fin 32, s.rangeUsable h.base h.count = true → s.overlapping h.base h.count (some op.series) = some j →
              ends 12 h.generation known [BitVec.ofNat 8 j.val] s.dir) ∧
            (s.rangeUsable h.base h.count = true → s.overlapping h.base h.count (some op.series) = none →
              let taken : Entry := { s.entry op.series with
                state := .recovering, base := h.base, count := h.count, lanes := h.lanes.toNat
                policy := if h.policy = 1 then .halt else .wrap, reserved := h.head, committed := h.head
                oldest := h.oldest, lastReserved := h.lastStamp, lastCommitted := h.lastStamp, batches := [] }
              (0 < h.records → exec (.portAccessEnd level word) s = .next ({ s with
                port := starts 1 { op with
                  generation := h.generation, header := some h, snapOldest := h.oldest, snapHead := h.head
                  snapStamp := h.lastStamp, lastStamp := h.firstStamp, phase := .pageRead, page := 1 } }.setEntry
                    op.series taken)) ∧
              (h.records = 0 → ends 0 h.generation known [] (s.dir.set op.series { taken with
                state := if h.seriesState = 2 then .sealed else .opened, dirty := false
                image := some ⟨op.slot, h.head⟩, lastReserved := h.firstStamp
                lastCommitted := h.firstStamp }))))))) ∧
    (∀ h, op.phase = .pageRead → op.header = some h →
      let n := min 16 (op.snapHead - op.snapOldest - 16 * (op.page - 1))
      let read := recordsOf n page.2
      let damaged : Prop := page.1 = .uncorrectable ∨ field 2 512 ≠ op.page ∨ field 4 514 ≠ h.generation ∨
        (byteAt page.2 518).toNat ≠ n ∨
        ¬ (op.lastStamp :: read.map Record.stamp).Pairwise (fun a b => a.toNat ≤ b.toNat) ∨
        ∃ r ∈ read, h.lastStamp.toNat < r.stamp.toNat
      let lost : Record := ⟨op.lastStamp, 0xFFFF,
        Vector.ofFn fun j : Fin 6 => if j.val < h.lanes.toNat then 0x7FA00000 else 0x7FC00000⟩
      ∃ formed : List Record,
        (damaged → formed = List.replicate n lost) ∧ (¬ damaged → formed = read.map (maskLanes h.lanes.toNat)) ∧
        ∃ op' : ImageOp, op' = { op with
            lastStamp := (formed.getLast?.map Record.stamp).getD op.lastStamp
            damaged := op'.damaged, timedOut := op.timedOut + x.timedOut.toNat, corrected := op'.corrected } ∧
          (damaged → op'.damaged = op.damaged + 1 ∧ op'.corrected = op.corrected) ∧
          (¬ damaged → op'.damaged = op.damaged ∧
            op'.corrected = op.corrected + if page.1 = .corrected then 1 else 0) ∧
          ((∃ y ∈ s.arr.queue ++ s.arr.waiting, y.live = true ∧ y.origin.ofImage = true) →
            exec (.portAccessEnd level word) s = .next { s with
              port := { s.port with transfer := none, op := some { op' with formed := formed } } }) ∧
          ((∀ y ∈ s.arr.queue ++ s.arr.waiting, y.origin.ofImage = false) → s.arr.queue.length + 2 ≤ 32 →
            let e := s.entry op.series
            let first := op.snapOldest + 16 * (op.page - 1)
            ∃ t, exec (.portAccessEnd level word) s = .next t ∧
              t.arr.queue = s.arr.queue ++ (e.cut first n).map (fun part => (⟨.recoverWrite, .write, e.dieOf part.1,
                some (e.place part.1 part.2), (formed.drop (part.1 - first)).take part.2, false, 0, true⟩ : Txn)) ∧
              t.arr.waiting = s.arr.waiting ∧ t.dir = s.dir ∧ t.link = s.link ∧ t.table = s.table ∧ t.mem = s.mem ∧
              t.port = if op.page < (op.snapHead - op.snapOldest + 15) / 16
                then starts (op.page + 1) { op' with formed := [], page := op.page + 1 }
                else { s.port with transfer := none, op := some { op' with formed := [] } })))

/-- The last access of each page of a PRESERVE, and the header page it writes (R152, R154, R191). The old header's end chooses
the generation (R158) and begins the WRITING header. That header's end and each data page's end go on to the next data page,
whose array reads are issued, or to the COMPLETE header (R159, R160). The COMPLETE header's end completes the operation: its
series names the slot and the image head, is dirty only where its committed head has moved, and the request answers OK. A
write that timed out ends the operation PORT_TIMEOUT. Both answers carry the report (R161, R189). The access that ends in
ENDING (R156) is in Obligations.PortAccess, beside that of a RECOVER. -/
def Obligations.PreserveEnds : Prop :=
  (∀ h : ImageHeader, headerBytes h = leBytes 4 0xC608A1D5 ++ [1, h.state] ++ leBytes 4 h.generation
    ++ [h.series, h.lanes, h.policy] ++ leBytes 2 h.base ++ leBytes 2 h.count ++ leBytes 4 h.oldest ++ leBytes 4 h.head
    ++ leBytes 6 h.firstStamp.toNat ++ leBytes 6 h.lastStamp.toNat ++ leBytes 4 h.records ++ [h.seriesState]
    ++ List.replicate 470 0xFF) ∧
  ∀ (s : State) (x : Transfer) (op : ImageOp) (level : Bool) (word : Half), s.port.transfer = some x →
    s.port.op = some op → op.kind = .preserve → op.result = none → op.abandoned = false →
    x.begun = true → s.link.reset = none → (s.entry op.series).state ≠ .dropping →
    (∀ y ∈ s.arr.queue ++ s.arr.waiting, y.origin.ofImage = false) →
    let e := s.entry op.series
    let n := op.snapHead - op.snapOldest
    let full : Prop := x.timedOut = false ∧ x.index = 263 ∧ s.port.waits level = false
    let report := fun pages : Nat => [BitVec.ofNat 8 op.series.val, BitVec.ofNat 8 op.slot] ++ leBytes 4 op.generation
      ++ leBytes 4 op.snapOldest ++ leBytes 4 op.snapHead ++ leBytes 2 op.page ++ leBytes 2 pages
    let header := fun (state : Byte) (generation : Nat) (firstStamp lastStamp : Stamp) (seriesState : Byte) =>
      (⟨state, generation, BitVec.ofNat 8 op.series.val, BitVec.ofNat 8 e.lanes, e.policy.code, e.base, e.count,
        op.snapOldest, op.snapHead, firstStamp, lastStamp, n, seriesState⟩ : ImageHeader)
    let writes := fun (op' : ImageOp) (h : ImageHeader) => ({ s with
      port := { s.port with
        op := some { op' with page := 0 }
        transfer := some ⟨.write, op.slot * s.port.settings.slotPages.toNat, 0,
          wordsOfBytes (pageBytes (headerBytes h) 0 h.generation 0), 0, false, s.port.lastDir == .write⟩ } } : State)
    let goesOn := fun (k : Nat) (op' : ImageOp) =>
      ((n + 15) / 16 ≤ k → exec (.portAccessEnd level word) s = .next (writes { op' with phase := .finalWrite }
        (header 1 op.generation (if n = 0 then op.snapStamp else op.firstStamp) op.snapStamp e.state.code))) ∧
      (k < (n + 15) / 16 → s.arr.queue.length + 2 ≤ 32 →
        let first := op.snapOldest + 16 * k
        ∃ t, exec (.portAccessEnd level word) s = .next t ∧
          t.port = { s.port with
            transfer := none, op := some { op' with phase := .pageRead, page := k + 1, half0 := [], half1 := [] } } ∧
          t.arr.queue = s.arr.queue ++ (e.cut first (min 16 (n - 16 * k))).map (fun part =>
            (⟨.preserveRead part.1 (part.1 != first), .read, e.dieOf part.1, some (e.place part.1 part.2), [], false, 0,
              true⟩ : Txn)) ∧
          t.arr.waiting = s.arr.waiting ∧ t.dir = s.dir ∧ t.link = s.link ∧ t.table = s.table ∧ t.mem = s.mem)
    (op.phase = .headerRead → x.dir = .read → full ∨ x.timedOut = true →
      let page := classPage (bytesOfWords (x.words ++ [word])) x.timedOut
      let old := leNat ((page.2.drop 6).take 4)
      let generation := if page.1 = .uncorrectable ∨ leNat (page.2.take 4) ≠ 0xC608A1D5 ∨ old = 4294967295 then 1
        else old + 1
      exec (.portAccessEnd level word) s = .next (writes { op with generation := generation, phase := .headerWrite }
        (header 0 generation 0 0 1))) ∧
    (op.phase = .headerWrite → x.dir = .write → full → goesOn 0 op) ∧
    (op.phase = .pageWrite → x.dir = .write → full → goesOn op.page { op with pagesWritten := op.pagesWritten + 1 }) ∧
    (op.phase = .finalWrite → x.dir = .write → full →
      ∃ t, exec (.portAccessEnd level word) s = .next t ∧ t.port.op = none ∧ t.port.transfer = none ∧
        t.entry op.series = { e with
          image := some ⟨op.slot, op.snapHead⟩, dirty := if e.committed = op.snapHead then false else e.dirty } ∧
        (∀ j ≠ op.series, t.entry j = s.entry j) ∧ t.table = s.table.filter (fun e => e.tag != op.tag) ∧
        t.link = { s.link with
          queue := s.link.queue ++ [⟨.response, op.tag, [0x41, 0] ++ report op.pagesWritten, none⟩] } ∧
        t.mem = s.mem) ∧
    (op.phase = .headerWrite ∨ op.phase = .pageWrite ∨ op.phase = .finalWrite → x.dir = .write → x.timedOut = true →
      ∃ t, exec (.portAccessEnd level word) s = .next t ∧ t.port.op = none ∧ t.port.transfer = none ∧
        t.dir = s.dir ∧ t.table = s.table.filter (fun e => e.tag != op.tag) ∧
        t.link = { s.link with
          queue := s.link.queue ++ [⟨.response, op.tag, [0x41, 26] ++ report op.pagesWritten, none⟩] } ∧
        t.mem = s.mem)

end
end

