-- ==== Sys2Proof/Laws/Fields.lean ====
section
/-! SUPPORT. Bytes of a field and the field they spell (R187): the small lemmas that a layout's reader and writer need. -/

namespace Sys2Proof.Laws

theorem leBytes_length (n v : Nat) : (leBytes n v).length = n := by
  induction n generalizing v with
  | zero => rfl
  | succ n ih => simp [leBytes, ih]

theorem leNat_lt (bs : List Byte) : leNat bs < 256 ^ bs.length := by
  induction bs with
  | nil => simp [leNat]
  | cons b bs ih =>
    simp only [leNat, List.length_cons, Nat.pow_succ]
    have := b.isLt
    omega

theorem leNat_leBytes (n v : Nat) : leNat (leBytes n v) = v % 256 ^ n := by
  induction n generalizing v with
  | zero => simp [leBytes, leNat, Nat.mod_one]
  | succ n ih =>
    simp only [leBytes, leNat, ih, BitVec.toNat_ofNat]
    rw [show (256 : Nat) ^ (n + 1) = 256 * 256 ^ n from (Nat.pow_succ ..).trans (Nat.mul_comm _ _), Nat.mod_mul]

theorem fieldBytes_length {w : Nat} (v : BitVec w) : (fieldBytes v).length = w / 8 := leBytes_length _ _

theorem pow_bytes (n : Nat) : (256 : Nat) ^ n = 2 ^ (8 * n) := by
  rw [Nat.pow_mul]

/-- A field of whole bytes reads back, wherever it lies. -/
theorem fieldAt_append {n : Nat} (pre post : List Byte) (v : BitVec (8 * n)) {k : Nat} (h : k = pre.length) :
    fieldAt (8 * n) (pre ++ (fieldBytes v ++ post)) k = v := by
  subst h
  have hl : (fieldBytes v).length = n := by
    rw [fieldBytes_length]
    omega
  have hw : 8 * n / 8 = n := by omega
  unfold fieldAt
  rw [List.drop_left, hw, List.take_append_of_le_length (by omega), List.take_of_length_le (by omega)]
  unfold fieldBytes
  rw [hw, leNat_leBytes, pow_bytes, Nat.mod_eq_of_lt v.isLt, BitVec.ofNat_toNat, BitVec.setWidth_eq]

theorem fieldAt16 (pre post : List Byte) (v : BitVec 16) {k : Nat} (h : k = pre.length) :
    fieldAt 16 (pre ++ (fieldBytes v ++ post)) k = v := fieldAt_append (n := 2) pre post v h

theorem fieldAt32 (pre post : List Byte) (v : BitVec 32) {k : Nat} (h : k = pre.length) :
    fieldAt 32 (pre ++ (fieldBytes v ++ post)) k = v := fieldAt_append (n := 4) pre post v h

theorem fieldAt48 (pre post : List Byte) (v : BitVec 48) {k : Nat} (h : k = pre.length) :
    fieldAt 48 (pre ++ (fieldBytes v ++ post)) k = v := fieldAt_append (n := 6) pre post v h

/-- The bytes of a field of 16, 32 or 48 bits, one by one. -/
theorem fieldBytes16 (v : BitVec 16) : fieldBytes v = [BitVec.ofNat 8 v.toNat, BitVec.ofNat 8 (v.toNat / 256)] := rfl

theorem byteAt_append_left (a b : List Byte) {k : Nat} (h : k < a.length) : byteAt (a ++ b) k = byteAt a k := by
  simp [byteAt, List.getD_eq_getElem?_getD, List.getElem?_append_left h]

theorem byteAt_append_right (a b : List Byte) {k : Nat} (h : a.length ≤ k) :
    byteAt (a ++ b) k = byteAt b (k - a.length) := by
  simp [byteAt, List.getD_eq_getElem?_getD, List.getElem?_append_right h]

theorem recordBytes_length (r : Record) : (recordBytes r).length = 32 := by
  simp [recordBytes, fieldBytes_length]

theorem recordsBytes_length (rs : List Record) : (recordsBytes rs).length = 32 * rs.length := by
  induction rs with
  | nil => rfl
  | cons r rs ih =>
    simp only [recordsBytes, List.length_append, recordBytes_length, ih, List.length_cons]
    omega

end Sys2Proof.Laws
end

