-- ==== Sys2Proof/Laws/Image.lean ====
section
/-! SUPPORT. Pages of an image: bytes and words carry the same, and a page as the part forms it is read CLEAN (R153,
R191). -/

namespace Sys2Proof.Laws

open Sys2Proof.Machine

/-- Words carry their bytes (R191). -/
theorem bytesOfWords_wordsOfBytes : ∀ bs : List Byte, bs.length % 2 = 0 → bytesOfWords (wordsOfBytes bs) = bs
  | [], _ => rfl
  | [_], h => by simp at h
  | a :: b :: bs, h => by
    have ha := a.isLt
    have hb := b.isLt
    have hw : (BitVec.ofNat 16 (a.toNat + 256 * b.toNat)).toNat = a.toNat + 256 * b.toNat := by
      rw [BitVec.toNat_ofNat]
      omega
    have e1 : BitVec.ofNat 8 (a.toNat + 256 * b.toNat) = a := by
      apply BitVec.eq_of_toNat_eq
      rw [BitVec.toNat_ofNat]
      omega
    have e2 : BitVec.ofNat 8 ((a.toNat + 256 * b.toNat) / 256) = b := by
      apply BitVec.eq_of_toNat_eq
      rw [BitVec.toNat_ofNat]
      omega
    have := bytesOfWords_wordsOfBytes bs (by simp only [List.length_cons] at h; omega)
    simp only [bytesOfWords, wordsOfBytes, List.flatMap_cons] at this ⊢
    rw [fieldBytes16, hw, e1, e2, this]
    rfl

/-! ### The check -/

/-- Where the check stands after `n` protected bits: at a code position between two powers of 2, its bits below 2^13. -/
def EccAt (n : Nat) (e : Ecc) : Prop :=
  (∃ k, 2 ^ k < e.position ∧ e.position < 2 ^ (k + 1) ∧ e.position = n + k + 2) ∧ (n ≤ 4152 → e.checks < 8192)

/-- The position after one more bit passes over a power of 2 (R153). -/
theorem nextPosition_between {n k p : Nat} (h1 : 2 ^ k < p) (h2 : p < 2 ^ (k + 1)) (h3 : p = n + k + 2) :
    ∃ k', 2 ^ k' < nextPosition p ∧ nextPosition p < 2 ^ (k' + 1) ∧ nextPosition p = n + 1 + k' + 2 := by
  have h4 : 2 ^ (k + 1 + 1) = 2 * 2 ^ (k + 1) := by rw [Nat.pow_succ, Nat.mul_comm]
  have h5 : 2 ^ (k + 1) = 2 * 2 ^ k := by rw [Nat.pow_succ, Nat.mul_comm]
  have h6 : 1 ≤ 2 ^ k := Nat.one_le_two_pow
  rcases Nat.lt_or_ge (p + 1) (2 ^ (k + 1)) with h | h
  · have hb : (p + 1) &&& p ≠ 0 := by
      intro h0
      have ht : ((p + 1) &&& p).testBit k = true := by
        rw [Nat.testBit_and, Nat.testBit_eq_decide_div_mod_eq, Nat.testBit_eq_decide_div_mod_eq]
        have a1 : p / 2 ^ k = 1 := Nat.div_eq_of_lt_le (by omega) (by omega)
        have a2 : (p + 1) / 2 ^ k = 1 := Nat.div_eq_of_lt_le (by omega) (by omega)
        rw [a1, a2]
        rfl
      rw [h0] at ht
      simp at ht
    refine ⟨k, ?_⟩
    simp only [nextPosition, if_neg hb]
    omega
  · have he : p + 1 = 2 ^ (k + 1) := by omega
    have hb : (p + 1) &&& p = 0 := by
      have hp : p = 2 ^ (k + 1) - 1 := by omega
      rw [he, hp, Nat.and_two_pow_sub_one_eq_mod, Nat.mod_self]
    refine ⟨k + 1, ?_⟩
    simp only [nextPosition, if_pos hb]
    omega

/-- The positions of the 4,152 protected bits lie below 2^13. -/
theorem position_lt {n k p : Nat} (h1 : 2 ^ k < p) (h2 : p < 2 ^ (k + 1)) (h3 : p = n + k + 2) (hn : n ≤ 4152) :
    p < 2 ^ 13 := by
  rcases Nat.lt_or_ge k 13 with h | h
  · exact Nat.lt_of_lt_of_le h2 (Nat.pow_le_pow_right (by omega) (by omega))
  · exfalso
    obtain ⟨j, rfl⟩ := Nat.exists_eq_add_of_le h
    have : j < 2 ^ j := Nat.lt_two_pow_self
    rw [Nat.pow_add] at h1
    omega

theorem eccAt_bit {n : Nat} {e : Ecc} (h : EccAt n e) (v : Bool) : EccAt (n + 1) (e.bit v) := by
  obtain ⟨⟨k, h1, h2, h3⟩, hc⟩ := h
  refine ⟨nextPosition_between h1 h2 h3, fun hn => ?_⟩
  have hp := position_lt h1 h2 h3 (by omega)
  have hx := hc (by omega)
  simp only [Ecc.bit]
  split
  · exact Nat.xor_lt_two_pow (n := 13) hx hp
  · exact hx

theorem eccAt_byte {n : Nat} {e : Ecc} (h : EccAt n e) (b : Byte) : EccAt (n + 8) (e.byte b) :=
  eccAt_bit (eccAt_bit (eccAt_bit (eccAt_bit (eccAt_bit (eccAt_bit (eccAt_bit (eccAt_bit h _) _) _) _) _) _) _) _

theorem eccAt_bytes {n : Nat} {e : Ecc} (h : EccAt n e) : ∀ bs : List Byte, EccAt (n + 8 * bs.length) (bs.foldl Ecc.byte e)
  | [] => h
  | b :: bs => by
    have := eccAt_bytes (eccAt_byte h b) bs
    rwa [show n + 8 + 8 * bs.length = n + 8 * (b :: bs).length by simp only [List.length_cons]; omega] at this

/-- Check bits 0 to 12 over the protected bytes of a page (R153). -/
theorem checks_lt {bs : List Byte} (h : bs.length ≤ 519) : (Ecc.of bs).checks < 8192 := by
  have start : EccAt 0 Ecc.start := ⟨⟨1, by decide, by decide, rfl⟩, fun _ => by decide⟩
  have := eccAt_bytes start bs
  exact this.2 (by omega)

/-- The protected bytes and their check are read CLEAN (R153). -/
theorem classPage_checked {bs : List Byte} (h : bs.length = 519) :
    classPage (bs ++ checkBytes bs) false = (.clean, bs ++ checkBytes bs) := by
  have hc := checks_lt (bs := bs) (by omega)
  have h1 : (bs ++ checkBytes bs).take 519 = bs := by rw [← h, List.take_left]
  have h2 : (bs ++ checkBytes bs).drop 519 = checkBytes bs := by rw [← h, List.drop_left]
  generalize hp : ((Ecc.of bs).parity ^^ checksParity (Ecc.of bs).checks) = par
  have h3 : leNat ((checkBytes bs).take 2) = (Ecc.of bs).checks + (if par then 8192 else 0) := by
    simp only [checkBytes, hp]
    rw [List.take_append_of_le_length (Nat.le_of_eq (leBytes_length ..).symm),
      List.take_of_length_le (Nat.le_of_eq (leBytes_length ..)), leNat_leBytes]
    cases par <;> simp <;> omega
  have h4 : ((Ecc.of bs).checks + (if par then 8192 else 0)) % 8192 = (Ecc.of bs).checks := by
    cases par <;> simp <;> omega
  have h5 : ((Ecc.of bs).checks + (if par then 8192 else 0)).testBit 13 = par := by
    rw [Nat.testBit_eq_decide_div_mod_eq]
    cases par <;> simp <;> omega
  simp only [classPage, h1, h2, h3, h4, h5, hp, Nat.xor_self, Bool.xor_self, if_true, Bool.false_eq_true, if_false]

/-- A page as the part forms it is read CLEAN (R152, R153). -/
theorem classPage_formed {data : List Byte} (h : data.length = 512) (index generation records : Nat) :
    classPage (pageBytes data index generation records) false = (.clean, pageBytes data index generation records) :=
  classPage_checked (by simp [leBytes_length, h])

theorem checkBytes_length (bs : List Byte) : (checkBytes bs).length = 9 := by simp [checkBytes, leBytes_length]

/-- A page is 528 bytes (R152). -/
theorem pageBytes_length {data : List Byte} (h : data.length = 512) (index generation records : Nat) :
    (pageBytes data index generation records).length = 528 := by
  simp only [pageBytes, List.length_append, checkBytes_length, leBytes_length, h, List.length_cons, List.length_nil]

/-- A page as its words are read: the last word, check bytes 7 and 8, is 0 (R153, R191). -/
theorem bytesOfWords_page {data : List Byte} (h : data.length = 512) (index generation records : Nat) :
    bytesOfWords (wordsOfBytes ((pageBytes data index generation records).take 526) ++ [0]) =
      pageBytes data index generation records := by
  obtain ⟨pre, hp, hl⟩ : ∃ pre : List Byte, pageBytes data index generation records = pre ++ [0, 0] ∧ pre.length = 526 := by
    have hc : ∀ bs, ∃ pre : List Byte, checkBytes bs = pre ++ [0, 0] ∧ pre.length = 7 := fun bs =>
      ⟨leBytes 2 ((Ecc.of bs).checks + (if (Ecc.of bs).parity ^^ checksParity (Ecc.of bs).checks then 8192 else 0))
        ++ List.replicate 5 0, by rw [List.append_assoc]; rfl, by simp [leBytes_length]⟩
    obtain ⟨pre, hp, hl⟩ := hc (data ++ leBytes 2 index ++ leBytes 4 generation ++ [BitVec.ofNat 8 records])
    refine ⟨data ++ leBytes 2 index ++ leBytes 4 generation ++ [BitVec.ofNat 8 records] ++ pre, ?_, ?_⟩
    · rw [pageBytes, hp]
      simp only [List.append_assoc]
    · simp only [List.length_append, leBytes_length, h, hl, List.length_cons, List.length_nil]
  rw [hp, ← hl, List.take_left, bytesOfWords, List.flatMap_append]
  exact congrArg (· ++ [0, 0]) (bytesOfWords_wordsOfBytes pre (by omega))

end Sys2Proof.Laws
end

