-- ==== Sys2Proof/Laws/Check.lean ====
section
/-! SUPPORT. The check of a page (R153): its check bits, the class of a page by syndrome and parity, and what one inverted
bit and two of them make of a page. -/

namespace Sys2Proof.Laws

open Sys2Proof.Machine

/-! ### Code positions -/

/-- The code position of protected bit `n`. -/
def bitPosition : Nat → Nat
  | 0 => 3
  | n + 1 => nextPosition (bitPosition n)

theorem bitPosition_between : ∀ n, ∃ k, 2 ^ k < bitPosition n ∧ bitPosition n < 2 ^ (k + 1) ∧ bitPosition n = n + k + 2
  | 0 => ⟨1, by decide, by decide, rfl⟩
  | n + 1 => by
    obtain ⟨k, h1, h2, h3⟩ := bitPosition_between n
    exact nextPosition_between h1 h2 h3

theorem bitPosition_lt_succ (n : Nat) : bitPosition n < bitPosition (n + 1) := by
  show _ < nextPosition _
  unfold nextPosition
  split <;> omega

theorem bitPosition_lt {m n : Nat} (h : m < n) : bitPosition m < bitPosition n := by
  induction n with
  | zero => omega
  | succ n ih =>
    have := bitPosition_lt_succ n
    by_cases hm : m = n
    · subst hm; exact this
    · have := ih (by omega); omega

theorem bitPosition_inj {m n : Nat} : bitPosition m = bitPosition n ↔ m = n := by
  constructor
  · intro h
    rcases Nat.lt_trichotomy m n with h1 | h1 | h1
    · have := bitPosition_lt h1; omega
    · exact h1
    · have := bitPosition_lt h1; omega
  · rintro rfl; rfl

theorem bitPosition_le {n : Nat} (h : n < 4152) : bitPosition n ≤ 4165 := by
  obtain ⟨k, h1, h2, h3⟩ := bitPosition_between n
  have := position_lt h1 h2 h3 (by omega)
  have : k < 13 := by
    refine Classical.byContradiction fun hk => ?_
    have : 2 ^ 13 ≤ 2 ^ k := Nat.pow_le_pow_right (by omega) (by omega)
    omega
  omega

theorem bitPosition_ne_pow (n t : Nat) : bitPosition n ≠ 2 ^ t := by
  obtain ⟨k, h1, h2, -⟩ := bitPosition_between n
  intro h
  rw [h] at h1 h2
  have := (Nat.pow_lt_pow_iff_right (by omega : 1 < 2)).mp h1
  have := (Nat.pow_lt_pow_iff_right (by omega : 1 < 2)).mp h2
  omega

theorem bitPosition_and_pred (n : Nat) : bitPosition n &&& (bitPosition n - 1) ≠ 0 := by
  obtain ⟨k, h1, h2, -⟩ := bitPosition_between n
  intro h0
  have h5 : 2 ^ (k + 1) = 2 * 2 ^ k := by rw [Nat.pow_succ, Nat.mul_comm]
  have ht : (bitPosition n &&& (bitPosition n - 1)).testBit k = true := by
    rw [Nat.testBit_and, Nat.testBit_eq_decide_div_mod_eq, Nat.testBit_eq_decide_div_mod_eq]
    have a1 : bitPosition n / 2 ^ k = 1 := Nat.div_eq_of_lt_le (by omega) (by omega)
    have a2 : (bitPosition n - 1) / 2 ^ k = 1 := Nat.div_eq_of_lt_le (by omega) (by omega)
    rw [a1, a2]
    rfl
  rw [h0] at ht
  simp at ht

/-! ### The running check under an inverted bit -/

/-- The running check with a code position more in its check bits. -/
def shifted (e : Ecc) (c : Nat) : Ecc := ⟨e.position, e.checks ^^^ c, !e.parity⟩

theorem shift_bit (e : Ecc) (c : Nat) (v : Bool) : (shifted e c).bit v = shifted (e.bit v) c := by
  cases v
  · simp [shifted, Ecc.bit]
  · simp only [shifted, Ecc.bit, if_true]
    congr 1
    · rw [Nat.xor_assoc, Nat.xor_comm c, ← Nat.xor_assoc]
    · simp

theorem shift_byte (e : Ecc) (c : Nat) (b : Byte) : (shifted e c).byte b = shifted (e.byte b) c := by
  simp only [Ecc.byte, shift_bit]

theorem shift_bytes (bs : List Byte) (c : Nat) :
    ∀ e : Ecc, bs.foldl Ecc.byte (shifted e c) = shifted (bs.foldl Ecc.byte e) c := by
  induction bs with
  | nil => intro e; rfl
  | cons b bs ih => intro e; rw [List.foldl_cons, shift_byte, ih]; rfl

theorem bit_not (e : Ecc) (v : Bool) : e.bit (!v) = shifted (e.bit v) e.position := by
  cases v
  · simp [shifted, Ecc.bit]
  · simp only [shifted, Ecc.bit, Bool.not_true, Bool.false_eq_true, if_false, if_true]
    congr 1
    · rw [Nat.xor_assoc, Nat.xor_self, Nat.xor_zero]
    · simp

theorem getLsbD_invert (b : Byte) (i j : Nat) (hj : j < 8) :
    (b ^^^ BitVec.ofNat 8 (2 ^ j)).getLsbD i = (b.getLsbD i ^^ decide (i = j)) := by
  rw [BitVec.getLsbD_xor, BitVec.getLsbD_ofNat, Nat.testBit_two_pow]
  by_cases h : i = j
  · subst h; simp [hj]
  · simp [h, Ne.symm h]

theorem byte_invert {m : Nat} {e : Ecc} (he : e.position = bitPosition m) (b : Byte) {j : Nat} (hj : j < 8) :
    e.byte (b ^^^ BitVec.ofNat 8 (2 ^ j)) = shifted (e.byte b) (bitPosition (m + j)) := by
  have h : j = 0 ∨ j = 1 ∨ j = 2 ∨ j = 3 ∨ j = 4 ∨ j = 5 ∨ j = 6 ∨ j = 7 := by omega
  simp only [Ecc.byte, getLsbD_invert b _ j hj]
  have hp : ∀ (x : Ecc) v, (x.bit v).position = nextPosition x.position := fun _ _ => rfl
  rcases h with rfl | rfl | rfl | rfl | rfl | rfl | rfl | rfl <;>
    simp [bit_not, shift_bit, hp, he, bitPosition]

theorem byte_position {m : Nat} {e : Ecc} (he : e.position = bitPosition m) (b : Byte) :
    (e.byte b).position = bitPosition (m + 8) := by
  have hp : ∀ (x : Ecc) v, (x.bit v).position = nextPosition x.position := fun _ _ => rfl
  simp only [Ecc.byte, hp, he, bitPosition]

theorem invertBit_cons_lt {n : Nat} (h : n < 8) (b : Byte) (bs : List Byte) :
    invertBit n (b :: bs) = (b ^^^ BitVec.ofNat 8 (2 ^ n)) :: bs := by
  have h1 : n / 8 = 0 := by omega
  have h2 : n % 8 = n := by omega
  unfold invertBit
  rw [h1, h2]
  rfl

theorem invertBit_cons_ge {n : Nat} (h : 8 ≤ n) (b : Byte) (bs : List Byte) :
    invertBit n (b :: bs) = b :: invertBit (n - 8) bs := by
  have h1 : n / 8 = (n - 8) / 8 + 1 := by omega
  have h2 : n % 8 = (n - 8) % 8 := by omega
  unfold invertBit
  rw [h1, h2]
  rfl

theorem ecc_invert : ∀ (bs : List Byte) (n m : Nat) (e : Ecc), e.position = bitPosition m → n < 8 * bs.length →
    (invertBit n bs).foldl Ecc.byte e = shifted (bs.foldl Ecc.byte e) (bitPosition (m + n))
  | [], n, m, e, _, h => by simp at h
  | b :: bs, n, m, e, he, h => by
    by_cases hn : n < 8
    · rw [invertBit_cons_lt hn, List.foldl_cons, byte_invert he b hn, shift_bytes]; rfl
    · rw [invertBit_cons_ge (by omega), List.foldl_cons, ecc_invert bs (n - 8) (m + 8) _ (byte_position he b)
        (by simp at h; omega)]
      rw [show m + 8 + (n - 8) = m + n by omega]; rfl

theorem flipInByte_hit {m j : Nat} (hj : j < 8) (b : Byte) : flipInByte (bitPosition (m + j)) (bitPosition m) b =
    (bitPosition (m + 8), b ^^^ BitVec.ofNat 8 (2 ^ j)) := by
  have h : j = 0 ∨ j = 1 ∨ j = 2 ∨ j = 3 ∨ j = 4 ∨ j = 5 ∨ j = 6 ∨ j = 7 := by omega
  have hn : ∀ k, nextPosition (bitPosition k) = bitPosition (k + 1) := fun _ => rfl
  unfold flipInByte
  simp only [show List.range 8 = [0, 1, 2, 3, 4, 5, 6, 7] from rfl, List.foldl_cons, List.foldl_nil, hn,
    bitPosition_inj, Nat.add_assoc]
  rcases h with rfl | rfl | rfl | rfl | rfl | rfl | rfl | rfl <;> simp

theorem flipInByte_miss {m n : Nat} (h : ∀ k, k < 8 → ¬ m + k = n) (b : Byte) :
    flipInByte (bitPosition n) (bitPosition m) b = (bitPosition (m + 8), b) := by
  have hx : ∀ k, nextPosition (bitPosition k) = bitPosition (k + 1) := fun _ => rfl
  unfold flipInByte
  simp only [show List.range 8 = [0, 1, 2, 3, 4, 5, 6, 7] from rfl, List.foldl_cons, List.foldl_nil, hx,
    bitPosition_inj, Nat.add_assoc, Nat.reduceAdd, if_neg (show ¬ m = n from h 0 (by omega)), if_neg (h 1 (by omega)),
    if_neg (h 2 (by omega)), if_neg (h 3 (by omega)), if_neg (h 4 (by omega)), if_neg (h 5 (by omega)),
    if_neg (h 6 (by omega)), if_neg (h 7 (by omega))]

theorem flipAt_past {n : Nat} : ∀ (bs : List Byte) (m : Nat), n < m → flipAt (bitPosition n) (bitPosition m) bs = bs
  | [], _, _ => rfl
  | b :: bs, m, h => by
    simp only [flipAt, flipInByte_miss (m := m) (n := n) (fun k _ => by omega)]
    rw [flipAt_past bs (m + 8) (by omega)]

theorem flipAt_hit : ∀ (bs : List Byte) (n m : Nat), n < 8 * bs.length →
    flipAt (bitPosition (m + n)) (bitPosition m) bs = invertBit n bs
  | [], n, m, h => by simp at h
  | b :: bs, n, m, h => by
    by_cases hn : n < 8
    · rw [invertBit_cons_lt hn]
      simp only [flipAt, flipInByte_hit hn]
      rw [flipAt_past bs (m + 8) (by omega)]
    · rw [invertBit_cons_ge (by omega)]
      simp only [flipAt, flipInByte_miss (m := m) (n := m + n) (fun k _ => by omega)]
      have := flipAt_hit bs (n - 8) (m + 8) (by simp at h; omega)
      rw [show m + 8 + (n - 8) = m + n by omega] at this
      rw [this]

theorem invertBit_length (n : Nat) (bs : List Byte) : (invertBit n bs).length = bs.length := by simp [invertBit]

theorem invertBit_twice : ∀ (bs : List Byte) (n : Nat), n < 8 * bs.length → invertBit n (invertBit n bs) = bs
  | [], n, h => by simp at h
  | b :: bs, n, h => by
    by_cases hn : n < 8
    · rw [invertBit_cons_lt hn, invertBit_cons_lt hn, BitVec.xor_assoc, BitVec.xor_self, BitVec.xor_zero]
    · rw [invertBit_cons_ge (by omega), invertBit_cons_ge (by omega), invertBit_twice bs (n - 8) (by simp at h; omega)]

theorem invertBit_append_left {a b : List Byte} {n : Nat} (h : n < 8 * a.length) :
    invertBit n (a ++ b) = invertBit n a ++ b := by
  unfold invertBit
  rw [byteAt_append_left a b (by omega), List.set_append_left _ _ (by omega)]

theorem invertBit_append_right {a b : List Byte} {n : Nat} (h : 8 * a.length ≤ n) :
    invertBit n (a ++ b) = a ++ invertBit (n - 8 * a.length) b := by
  unfold invertBit
  rw [byteAt_append_right a b (by omega), List.set_append_right _ _ (by omega)]
  rw [show (n - 8 * a.length) / 8 = n / 8 - a.length by omega, show (n - 8 * a.length) % 8 = n % 8 by omega]

/-! ### The class of a page by its syndrome and parity -/

/-- The syndrome of a page read. -/
def syndromeOf (bytes : List Byte) : Nat := leNat ((bytes.drop 519).take 2) % 8192 ^^^ (Ecc.of (bytes.take 519)).checks
/-- The parity of a page read. -/
def parityOf (bytes : List Byte) : Bool :=
  (leNat ((bytes.drop 519).take 2)).testBit 13 ^^ ((Ecc.of (bytes.take 519)).parity ^^
    checksParity (leNat ((bytes.drop 519).take 2) % 8192))

theorem classPage_eq (bytes : List Byte) : classPage bytes false =
    if parityOf bytes = false then if syndromeOf bytes = 0 then (.clean, bytes) else (.uncorrectable, bytes)
    else if 4165 < syndromeOf bytes then (.uncorrectable, bytes)
    else if syndromeOf bytes &&& (syndromeOf bytes - 1) = 0 then (.corrected, bytes)
    else (.corrected, flipAt (syndromeOf bytes) 3 (bytes.take 519) ++ bytes.drop 519) := rfl

/-- What one inverted bit adds to the syndrome: the code position of a protected bit, 2^t for check bit t, 0 for check bit
13. -/
def bitCode (n : Nat) : Nat := if n < 4152 then bitPosition n else if n < 4165 then 2 ^ (n - 4152) else 0

theorem bitCode_inj {m n : Nat} (hm : m < 4166) (hn : n < 4166) (h : bitCode m = bitCode n) : m = n := by
  unfold bitCode at h
  have hp : ∀ t, 0 < 2 ^ t := fun t => Nat.two_pow_pos t
  have h3 : ∀ k, 3 ≤ bitPosition k := fun k => by
    obtain ⟨j, h1, h2, h3⟩ := bitPosition_between k
    have : 0 < 2 ^ j := hp j
    rcases Nat.eq_zero_or_pos j with h0 | h0
    · subst h0; simp at h1 h2; omega
    · omega
  by_cases h1 : m < 4152
  · by_cases h2 : n < 4152
    · rw [if_pos h1, if_pos h2] at h
      exact bitPosition_inj.mp h
    · rw [if_pos h1, if_neg h2] at h
      split at h
      · exact absurd h (bitPosition_ne_pow _ _)
      · have := h3 m
        omega
  · by_cases h2 : n < 4152
    · rw [if_neg h1, if_pos h2] at h
      split at h
      · exact absurd h.symm (bitPosition_ne_pow _ _)
      · have := h3 n
        omega
    · rw [if_neg h1, if_neg h2] at h
      split at h <;> split at h
      · have : m - 4152 = n - 4152 := (Nat.pow_right_inj (by omega : 1 < 2)).mp h
        omega
      · have := hp (m - 4152)
        omega
      · have := hp (n - 4152)
        omega
      · omega

theorem checksParity_invert (c : Nat) {t : Nat} (h : t < 13) : checksParity (c ^^^ 2 ^ t) = !checksParity c := by
  have ht : t = 0 ∨ t = 1 ∨ t = 2 ∨ t = 3 ∨ t = 4 ∨ t = 5 ∨ t = 6 ∨ t = 7 ∨ t = 8 ∨ t = 9 ∨ t = 10 ∨ t = 11 ∨
      t = 12 := by omega
  unfold checksParity
  simp only [show List.range 13 = [0, 1, 2, 3, 4, 5, 6, 7, 8, 9, 10, 11, 12] from rfl, List.foldl_cons,
    List.foldl_nil, Nat.testBit_xor, Nat.testBit_two_pow]
  rcases ht with rfl | rfl | rfl | rfl | rfl | rfl | rfl | rfl | rfl | rfl | rfl | rfl | rfl <;> simp

/-- The number that two bytes spell (R187). -/
theorem leNat_pair (a b : Byte) : leNat [a, b] = (b ++ a).toNat := by
  rw [BitVec.toNat_append, Nat.shiftLeft_eq, Nat.mul_comm, ← Nat.two_pow_add_eq_or_of_lt a.isLt]
  simp only [leNat]
  omega

theorem leNat_invert {bs : List Byte} (hl : 2 ≤ bs.length) {t : Nat} (ht : t < 14) :
    leNat ((invertBit t bs).take 2) = leNat (bs.take 2) ^^^ 2 ^ t := by
  match bs, hl with
  | a :: b :: l, _ =>
    have hp : ∀ x y : Byte, leNat [x, y] ^^^ 2 ^ t = ((y ++ x) ^^^ BitVec.ofNat 16 (2 ^ t)).toNat := by
      intro x y
      have : 2 ^ t < 2 ^ 16 := Nat.pow_lt_pow_right (by omega) (by omega)
      rw [leNat_pair, BitVec.toNat_xor, BitVec.toNat_ofNat, Nat.mod_eq_of_lt this]
    by_cases h : t < 8
    · rw [invertBit_cons_lt h]
      show leNat [a ^^^ _, b] = leNat [a, b] ^^^ _
      rw [hp, leNat_pair]
      congr 1
      apply BitVec.eq_of_getLsbD_eq
      intro i hi
      simp only [BitVec.getLsbD_append, BitVec.getLsbD_xor, BitVec.getLsbD_ofNat, Nat.testBit_two_pow]
      by_cases h1 : i < 8
      · simp [h1, hi]
      · have : ¬ t = i := by omega
        simp [h1, this]
    · rw [invertBit_cons_ge (by omega), invertBit_cons_lt (by omega)]
      show leNat [a, b ^^^ _] = leNat [a, b] ^^^ _
      rw [hp, leNat_pair]
      congr 1
      apply BitVec.eq_of_getLsbD_eq
      intro i hi
      simp only [BitVec.getLsbD_append, BitVec.getLsbD_xor, BitVec.getLsbD_ofNat, Nat.testBit_two_pow]
      by_cases h1 : i < 8
      · have : ¬ t = i := by omega
        simp [h1, this]
      · have h2 : i - 8 < 8 := by omega
        by_cases h3 : t = i
        · have : t - 8 = i - 8 := by omega
          simp [h1, h2, h3, hi]
        · have : ¬ t - 8 = i - 8 := by omega
          simp [h1, h2, h3, this]

theorem flip_syndrome {bytes : List Byte} (hl : 521 ≤ bytes.length) {n : Nat} (hn : n < 4166) :
    syndromeOf (invertBit n bytes) = syndromeOf bytes ^^^ bitCode n ∧
      parityOf (invertBit n bytes) = !parityOf bytes := by
  have hsplit : bytes = bytes.take 519 ++ bytes.drop 519 := (List.take_append_drop ..).symm
  have htl : (bytes.take 519).length = 519 := by rw [List.length_take]; omega
  have hdl : 2 ≤ (bytes.drop 519).length := by rw [List.length_drop]; omega
  generalize hA : bytes.take 519 = A at *
  generalize hB : bytes.drop 519 = B at *
  unfold syndromeOf parityOf bitCode
  rw [hA, hB]
  by_cases h : n < 4152
  · rw [hsplit, invertBit_append_left (by omega)]
    have hl' := invertBit_length n A
    rw [List.take_left' (by omega), List.drop_left' (by omega)]
    rw [show Ecc.of (invertBit n A) = shifted (Ecc.of A) (bitPosition (0 + n)) from ecc_invert A n 0 Ecc.start rfl
      (by omega)]
    rw [if_pos h, Nat.zero_add]
    refine ⟨(Nat.xor_assoc ..).symm, ?_⟩
    simp [shifted]
  · rw [hsplit, invertBit_append_right (by omega), htl]
    rw [List.take_left' htl, List.drop_left' htl]
    rw [leNat_invert hdl (by omega), if_neg h]
    generalize leNat (B.take 2) = r
    have hmod : ∀ x : Nat, x % 8192 = x &&& (2 ^ 13 - 1) := fun x => (Nat.and_two_pow_sub_one_eq_mod x 13).symm
    by_cases h2 : n < 4165
    · rw [if_pos h2]
      have h3 : (r ^^^ 2 ^ (n - 4152)) % 8192 = (r % 8192) ^^^ 2 ^ (n - 4152) := by
        have : 2 ^ (n - 4152) < 2 ^ 13 := Nat.pow_lt_pow_right (by omega) (by omega)
        rw [Nat.xor_mod_two_pow (n := 13), Nat.mod_eq_of_lt this]
      rw [show n - 8 * 519 = n - 4152 by omega, h3]
      refine ⟨?_, ?_⟩
      · rw [Nat.xor_assoc, Nat.xor_assoc, Nat.xor_comm (2 ^ _)]
      · rw [checksParity_invert _ (by omega), Nat.testBit_xor, Nat.testBit_two_pow]
        rw [decide_eq_false (by omega)]
        simp
    · have hn' : n = 4165 := by omega
      subst hn'
      rw [if_neg h2]
      have h3 : (r ^^^ 2 ^ (4165 - 8 * 519)) % 8192 = r % 8192 := by
        rw [Nat.xor_mod_two_pow (n := 13)]
        simp
      rw [h3]
      refine ⟨by simp, ?_⟩
      have h13 : Nat.testBit (2 ^ (4165 - 8 * 519)) 13 = true := by decide
      rw [Nat.testBit_xor, h13]
      simp

/-- A page with a check is CLEAN. -/
theorem checked_clean {bs : List Byte} (h : bs.length = 519) :
    syndromeOf (bs ++ checkBytes bs) = 0 ∧ parityOf (bs ++ checkBytes bs) = false := by
  have hc := classPage_checked h
  rw [classPage_eq] at hc
  split at hc
  · split at hc
    · exact ⟨by assumption, by assumption⟩
    · cases hc
  · split at hc
    · cases hc
    · split at hc <;> cases hc

theorem classPage_one {bs : List Byte} (h : bs.length = 519) {n : Nat} (hn : n < 4166) :
    (classPage (invertBit n (bs ++ checkBytes bs)) false).1 = .corrected ∧
    (classPage (invertBit n (bs ++ checkBytes bs)) false).2.take 519 = bs := by
  have hl : 521 ≤ (bs ++ checkBytes bs).length := by rw [List.length_append, checkBytes_length]; omega
  obtain ⟨h1, h2⟩ := flip_syndrome hl hn
  obtain ⟨h3, h4⟩ := checked_clean h
  rw [h3, Nat.zero_xor] at h1
  rw [h4] at h2
  rw [classPage_eq, h1, h2, if_neg (by simp)]
  have hle : bitCode n ≤ 4165 := by
    unfold bitCode
    split
    · exact bitPosition_le (by assumption)
    · split
      · have : 2 ^ (n - 4152) ≤ 2 ^ 12 := Nat.pow_le_pow_right (by omega) (by omega)
        omega
      · omega
  rw [if_neg (by omega)]
  by_cases hp : n < 4152
  · have hb : bitCode n = bitPosition n := by unfold bitCode; rw [if_pos hp]
    rw [hb, if_neg (bitPosition_and_pred n), invertBit_append_left (by omega)]
    have hl' := invertBit_length n bs
    rw [List.take_left' (by omega)]
    refine ⟨rfl, ?_⟩
    have := flipAt_hit (invertBit n bs) n 0 (by omega)
    rw [Nat.zero_add] at this
    change (flipAt (bitPosition n) (bitPosition 0) (invertBit n bs) ++ _).take 519 = bs
    rw [this, invertBit_twice bs n (by omega), List.take_left' h]
  · have h0 : bitCode n &&& (bitCode n - 1) = 0 := by
      unfold bitCode
      rw [if_neg hp]
      split
      · rw [Nat.and_two_pow_sub_one_eq_mod, Nat.mod_self]
      · rfl
    rw [if_pos h0, invertBit_append_right (by omega)]
    exact ⟨rfl, List.take_left' h⟩

theorem classPage_two {bs : List Byte} (h : bs.length = 519) {m n : Nat} (hm : m < 4166) (hn : n < 4166) (hne : m ≠ n) :
    (classPage (invertBit n (invertBit m (bs ++ checkBytes bs))) false).1 = .uncorrectable := by
  have hl : 521 ≤ (bs ++ checkBytes bs).length := by rw [List.length_append, checkBytes_length]; omega
  obtain ⟨h1, h2⟩ := flip_syndrome hl hm
  obtain ⟨h5, h6⟩ := flip_syndrome (bytes := invertBit m (bs ++ checkBytes bs)) (by rw [invertBit_length]; exact hl) hn
  obtain ⟨h3, h4⟩ := checked_clean h
  rw [h3, Nat.zero_xor] at h1
  rw [h4] at h2
  rw [h1] at h5
  rw [h2] at h6
  rw [classPage_eq, h5, h6, if_pos (by rfl), if_neg]
  intro h0
  have h8 := congrArg (· ^^^ bitCode n) h0
  simp only [Nat.xor_assoc, Nat.xor_self, Nat.xor_zero, Nat.zero_xor] at h8
  exact hne (bitCode_inj hm hn h8)


theorem xorOf_from (l : List Bool) (a : Bool) : l.foldl (· ^^ ·) a = (a ^^ xorOf l) := by
  induction l generalizing a with
  | nil => simp [xorOf]
  | cons b l ih =>
    rw [List.foldl_cons, ih, show xorOf (b :: l) = ((false ^^ b) ^^ xorOf l) from ih _]
    simp

theorem xorOf_append (a b : List Bool) : xorOf (a ++ b) = (xorOf a ^^ xorOf b) := by
  unfold xorOf
  rw [List.foldl_append, xorOf_from]
  rfl

theorem xorOf_cons (a : Bool) (l : List Bool) : xorOf (a :: l) = (a ^^ xorOf l) := by
  rw [xorOf, List.foldl_cons, xorOf_from]
  simp

theorem bitAt_cons_lt {n : Nat} (h : n < 8) (b : Byte) (bs : List Byte) : bitAt (b :: bs) n = b.getLsbD n := by
  have h1 : n / 8 = 0 := by omega
  have h2 : n % 8 = n := by omega
  unfold bitAt
  rw [h1, h2]
  rfl

theorem bitAt_cons_add (n : Nat) (b : Byte) (bs : List Byte) : bitAt (b :: bs) (8 + n) = bitAt bs n := by
  have h1 : (8 + n) / 8 = n / 8 + 1 := by omega
  have h2 : (8 + n) % 8 = n % 8 := by omega
  unfold bitAt
  rw [h1, h2]
  rfl

/-- The check bits and the parity over bytes. -/
theorem ecc_bits (t : Nat) : ∀ (bs : List Byte) (m : Nat) (e : Ecc), e.position = bitPosition m →
    (bs.foldl Ecc.byte e).checks.testBit t =
      (e.checks.testBit t ^^ xorOf ((List.range (8 * bs.length)).map fun n =>
        (bitPosition (m + n)).testBit t && bitAt bs n)) ∧
    (bs.foldl Ecc.byte e).parity = (e.parity ^^ xorOf ((List.range (8 * bs.length)).map (bitAt bs)))
  | [], m, e, _ => by simp [xorOf]
  | b :: bs, m, e, he => by
    obtain ⟨h1, h2⟩ := ecc_bits t bs (m + 8) (e.byte b) (byte_position he b)
    have hr : List.range (8 * (b :: bs).length) =
        [0, 1, 2, 3, 4, 5, 6, 7] ++ (List.range (8 * bs.length)).map (8 + ·) := by
      rw [List.length_cons, show 8 * (bs.length + 1) = 8 + 8 * bs.length by omega, List.range_add]
      rfl
    have hb : ∀ (e : Ecc) (v : Bool), (e.bit v).checks.testBit t = (e.checks.testBit t ^^ (e.position.testBit t && v)) ∧
        (e.bit v).parity = (e.parity ^^ v) ∧ (e.bit v).position = nextPosition e.position := by
      intro e v
      refine ⟨?_, rfl, rfl⟩
      cases v <;> simp [Ecc.bit, Nat.testBit_xor]
    have hn : ∀ k, nextPosition (bitPosition k) = bitPosition (k + 1) := fun _ => rfl
    rw [List.foldl_cons, h1, h2, hr]
    simp only [List.map_append, xorOf_append, List.map_cons, List.map_nil, xorOf_cons, List.map_map]
    have hf1 : ((fun n => (bitPosition (m + n)).testBit t && bitAt (b :: bs) n) ∘ fun x => 8 + x) =
        fun n => (bitPosition (m + 8 + n)).testBit t && bitAt bs n := by
      funext n
      simp only [Function.comp_apply, bitAt_cons_add, Nat.add_assoc]
    have hf2 : (bitAt (b :: bs) ∘ fun x => 8 + x) = bitAt bs := by
      funext n
      simp only [Function.comp_apply, bitAt_cons_add]
    rw [hf1, hf2]
    have c0 := bitAt_cons_lt (show 0 < 8 by omega) b bs
    have c1 := bitAt_cons_lt (show 1 < 8 by omega) b bs
    have c2 := bitAt_cons_lt (show 2 < 8 by omega) b bs
    have c3 := bitAt_cons_lt (show 3 < 8 by omega) b bs
    have c4 := bitAt_cons_lt (show 4 < 8 by omega) b bs
    have c5 := bitAt_cons_lt (show 5 < 8 by omega) b bs
    have c6 := bitAt_cons_lt (show 6 < 8 by omega) b bs
    have c7 := bitAt_cons_lt (show 7 < 8 by omega) b bs
    rw [c0, c1, c2, c3, c4, c5, c6, c7]
    simp only [Ecc.byte, hb, he, hn, xorOf, List.foldl_nil, Nat.add_zero, Bool.xor_false, Bool.xor_assoc]
    exact ⟨trivial, trivial⟩

/-- The code positions are those of the protected bits. -/
theorem positions_upTo (n : Nat) :
    (List.range' 3 (bitPosition n - 3)).filter (fun p => decide (p &&& (p - 1) ≠ 0)) =
      (List.range n).map bitPosition := by
  induction n with
  | zero => rfl
  | succ n ih =>
    have h3 : 3 ≤ bitPosition n := by
      rcases Nat.eq_zero_or_pos n with h | h
      · subst h; decide
      · have := bitPosition_lt h
        have h0 : bitPosition 0 = 3 := rfl
        omega
    have hp := bitPosition_and_pred n
    rw [List.range_succ, List.map_append, ← ih, List.map_cons, List.map_nil]
    have hstep : bitPosition (n + 1) =
        if (bitPosition n + 1) &&& bitPosition n = 0 then bitPosition n + 2 else bitPosition n + 1 := rfl
    split at hstep
    · rename_i h0
      rw [hstep, show bitPosition n + 2 - 3 = (bitPosition n - 3) + 2 by omega, ← List.range'_append_1,
        List.filter_append]
      congr 1
      rw [show 3 + (bitPosition n - 3) = bitPosition n by omega]
      have h1 : decide ((bitPosition n + 1) &&& (bitPosition n + 1 - 1) ≠ 0) = false := by
        rw [Nat.add_sub_cancel]; simp [h0]
      show List.filter _ [bitPosition n, bitPosition n + 1] = _
      rw [List.filter_cons_of_pos (by simpa using hp), List.filter_cons_of_neg (by rw [h1]; simp)]
      rfl
    · rw [hstep, show bitPosition n + 1 - 3 = (bitPosition n - 3) + 1 by omega, ← List.range'_append_1,
        List.filter_append]
      congr 1
      rw [show 3 + (bitPosition n - 3) = bitPosition n by omega]
      show List.filter _ [bitPosition n] = _
      rw [List.filter_cons_of_pos (by simpa using hp)]
      rfl

theorem codePositions_eq : codePositions = (List.range 4152).map bitPosition := by
  have h : bitPosition 4152 = 4166 := by
    obtain ⟨k, h1, h2, h3⟩ := bitPosition_between 4152
    have h4 := position_lt h1 h2 h3 (by omega)
    have : k = 12 := by
      rcases Nat.lt_trichotomy k 12 with h | h | h
      · have : 2 ^ (k + 1) ≤ 2 ^ 12 := Nat.pow_le_pow_right (by omega) (by omega)
        omega
      · exact h
      · have : 2 ^ 13 ≤ 2 ^ k := Nat.pow_le_pow_right (by omega) (by omega)
        omega
    omega
  have := positions_upTo 4152
  rw [h] at this
  exact this

theorem xorOf_filter {α : Type} (p : α → Bool) (f : α → Bool) (l : List α) :
    xorOf ((l.filter p).map f) = xorOf (l.map fun a => p a && f a) := by
  induction l with
  | nil => rfl
  | cons a l ih =>
    rw [List.filter_cons]
    split
    · rename_i h
      rw [List.map_cons, List.map_cons, xorOf_cons, xorOf_cons, ih, h, Bool.true_and]
    · rename_i h
      have : p a = false := by simpa using h
      rw [List.map_cons, xorOf_cons, ih, this]
      simp

theorem zipIdx_range_map (n : Nat) (f : Nat → Nat) :
    ((List.range n).map f).zipIdx = (List.range n).map fun i => (f i, i) := by
  apply List.ext_getElem
  · simp
  · intro i h1 h2
    simp

/-- Bits of the first two bytes. -/
theorem bitAt_leNat {bs : List Byte} (hl : 2 ≤ bs.length) {n : Nat} (hn : n < 16) :
    bitAt bs n = (leNat (bs.take 2)).testBit n := by
  match bs, hl with
  | a :: b :: l, _ =>
    show _ = (leNat [a, b]).testBit n
    rw [leNat_pair, BitVec.testBit_toNat, BitVec.getLsbD_append]
    by_cases h : n < 8
    · rw [bitAt_cons_lt h]; simp [h]
    · rw [show n = 8 + (n - 8) by omega, bitAt_cons_add, bitAt_cons_lt (by omega)]
      simp

theorem checksParity_xorOf {r : Nat} {f : Nat → Bool} (h : ∀ t, t < 13 → r.testBit t = f t) :
    checksParity r = xorOf ((List.range 13).map f) := by
  unfold checksParity xorOf
  rw [List.foldl_map]
  have : ∀ (l : List Nat) (a : Bool), (∀ t ∈ l, t < 13) →
      l.foldl (fun p t => p ^^ r.testBit t) a = l.foldl (fun x y => x ^^ f y) a := by
    intro l
    induction l with
    | nil => intro a _; rfl
    | cons t l ih =>
      intro a hl
      rw [List.foldl_cons, List.foldl_cons, h t (hl t (by simp)), ih _ (fun x hx => hl x (by simp [hx]))]
  exact this _ _ (fun t ht => List.mem_range.mp ht)

/-- The check bits of R153. -/
theorem checkBytes_bits {prot : List Byte} (h : prot.length = 519) :
    (checkBytes prot).length = 9 ∧
    (∀ t < 13, bitAt (checkBytes prot) t =
      xorOf ((codePositions.zipIdx.filter fun p => p.1.testBit t).map fun p => bitAt prot p.2)) ∧
    bitAt (checkBytes prot) 13 = (xorOf ((List.range 4152).map (bitAt prot)) ^^
      xorOf ((List.range 13).map (bitAt (checkBytes prot)))) ∧
    (∀ n, 14 ≤ n → bitAt (checkBytes prot) n = false) := by
  have hc := checks_lt (bs := prot) (by omega)
  have hlen := checkBytes_length prot
  generalize hp : ((Ecc.of prot).parity ^^ checksParity (Ecc.of prot).checks) = par
  have h3 : leNat ((checkBytes prot).take 2) = (Ecc.of prot).checks + (if par then 8192 else 0) := by
    simp only [checkBytes, hp]
    rw [List.take_append_of_le_length (Nat.le_of_eq (leBytes_length ..).symm),
      List.take_of_length_le (Nat.le_of_eq (leBytes_length ..)), leNat_leBytes]
    cases par <;> simp <;> omega
  have hlow : ∀ t, t < 13 → bitAt (checkBytes prot) t = (Ecc.of prot).checks.testBit t := by
    intro t ht
    rw [bitAt_leNat (by omega) (by omega), h3]
    cases par
    · rfl
    · show (_ + 2 ^ 13).testBit t = _
      rw [Nat.add_comm, Nat.testBit_two_pow_add_gt (by omega)]
  have heb := fun t => ecc_bits t prot 0 Ecc.start rfl
  have hcb : ∀ t, (Ecc.of prot).checks.testBit t = xorOf ((List.range (8 * prot.length)).map fun n =>
      (bitPosition n).testBit t && bitAt prot n) := by
    intro t
    have := (heb t).1
    simp only [Nat.zero_add] at this
    rw [show Ecc.of prot = prot.foldl Ecc.byte Ecc.start from rfl, this]
    simp [Ecc.start]
  have hpar : (Ecc.of prot).parity = xorOf ((List.range 4152).map (bitAt prot)) := by
    have := (heb 0).2
    rw [h] at this
    rw [show Ecc.of prot = prot.foldl Ecc.byte Ecc.start from rfl, this]
    simp [Ecc.start]
  refine ⟨hlen, ?_, ?_, ?_⟩
  · intro t ht
    rw [hlow t ht, hcb t, codePositions_eq, zipIdx_range_map, xorOf_filter, List.map_map, h]
    rfl
  · rw [← checksParity_xorOf (fun t ht => (hlow t ht).symm), ← hpar, hp, bitAt_leNat (by omega) (by omega), h3]
    rw [Nat.testBit_eq_decide_div_mod_eq]
    cases par <;> simp <;> omega
  · intro n hn
    by_cases h16 : n < 16
    · rw [bitAt_leNat (by omega) h16, h3]
      apply Nat.testBit_lt_two_pow
      have : 2 ^ 14 ≤ 2 ^ n := Nat.pow_le_pow_right (by omega) hn
      cases par <;> simp <;> omega
    · unfold bitAt
      have : byteAt (checkBytes prot) (n / 8) = 0 := by
        simp only [checkBytes]
        rw [byteAt_append_right _ _ (by rw [leBytes_length]; omega), leBytes_length]
        unfold byteAt
        rw [List.getD_eq_getElem?_getD, List.getElem?_replicate]
        split <;> rfl
      rw [this]
      simp

/-- The class of R153. -/
theorem classPage_class {bytes : List Byte} (hl : bytes.length = 528) :
    let prot := bytes.take 519
    let checks := bytes.drop 519
    let syndrome := (leNat (checks.take 2) ^^^ leNat ((checkBytes prot).take 2)) % 8192
    let parity := bitAt checks 13 ^^
      (xorOf ((List.range 4152).map (bitAt prot)) ^^ xorOf ((List.range 13).map (bitAt checks)))
    classPage bytes false =
      if parity = false then (if syndrome = 0 then .clean else .uncorrectable, bytes)
      else if 4165 < syndrome then (.uncorrectable, bytes)
      else (.corrected, match codePositions.idxOf? syndrome with
        | some n => invertBit n bytes
        | none => bytes) := by
  intro prot checks syndrome parity
  have hpl : prot.length = 519 := by show (bytes.take 519).length = 519; rw [List.length_take]; omega
  have hcl : 2 ≤ checks.length := by show 2 ≤ (bytes.drop 519).length; rw [List.length_drop]; omega
  have hc := checks_lt (bs := prot) (by omega)
  have hs : syndromeOf bytes = syndrome := by
    show leNat (checks.take 2) % 8192 ^^^ (Ecc.of prot).checks = _ % 8192
    rw [Nat.xor_mod_two_pow (n := 13)]
    congr 1
    simp only [checkBytes]
    rw [List.take_append_of_le_length (Nat.le_of_eq (leBytes_length ..).symm),
      List.take_of_length_le (Nat.le_of_eq (leBytes_length ..)), leNat_leBytes]
    split <;> omega
  have hp : parityOf bytes = parity := by
    show ((leNat (checks.take 2)).testBit 13 ^^
      ((Ecc.of prot).parity ^^ checksParity (leNat (checks.take 2) % 8192))) = _
    have hpar : (Ecc.of prot).parity = xorOf ((List.range 4152).map (bitAt prot)) := by
      have := (ecc_bits 0 prot 0 Ecc.start rfl).2
      rw [hpl] at this
      rw [show Ecc.of prot = prot.foldl Ecc.byte Ecc.start from rfl, this]
      simp [Ecc.start]
    rw [hpar, ← bitAt_leNat hcl (by omega), checksParity_xorOf (f := bitAt checks)]
    intro t ht
    rw [bitAt_leNat hcl (by omega), show (8192 : Nat) = 2 ^ 13 from rfl, Nat.testBit_mod_two_pow]
    simp [ht]
  rw [classPage_eq, hs, hp]
  by_cases h1 : parity = false
  · rw [if_pos h1, if_pos h1]
    split <;> rfl
  · rw [if_neg h1, if_neg h1]
    by_cases h2 : 4165 < syndrome
    · rw [if_pos h2, if_pos h2]
    · rw [if_neg h2, if_neg h2]
      by_cases h3 : syndrome &&& (syndrome - 1) = 0
      · rw [if_pos h3]
        have : codePositions.idxOf? syndrome = none := by
          rw [List.idxOf?_eq_none_iff]
          intro hm
          have := (List.mem_filter.mp hm).2
          simp [h3] at this
        rw [this]
      · rw [if_neg h3]
        have hmem : syndrome ∈ codePositions := by
          refine List.mem_filter.mpr ⟨?_, by simpa using h3⟩
          rw [List.mem_range'_1]
          have : syndrome ≠ 0 ∧ syndrome ≠ 1 ∧ syndrome ≠ 2 := by
            refine ⟨?_, ?_, ?_⟩ <;> (intro h; rw [h] at h3; simp at h3)
          omega
        cases hi : codePositions.idxOf? syndrome with
        | none => exact absurd hmem (List.idxOf?_eq_none_iff.mp hi)
        | some n =>
          dsimp only
          have hg := List.findIdx?_eq_some_iff_getElem.mp hi
          obtain ⟨hn, he, -⟩ := hg
          have hn' : n < 4152 := by rw [codePositions_eq] at hn; simpa using hn
          have he' : bitPosition n = syndrome := by
            have h5 : codePositions[n]'hn = bitPosition n := by
              rw [List.getElem_of_eq codePositions_eq hn, List.getElem_map, List.getElem_range]
            rw [h5] at he
            simpa using he
          rw [← he']
          congr 1
          have := flipAt_hit prot n 0 (by omega)
          rw [Nat.zero_add] at this
          rw [show flipAt (bitPosition n) 3 prot = _ from this]
          rw [← invertBit_append_left (by omega)]
          rw [show prot ++ bytes.drop 519 = bytes from List.take_append_drop ..]

end Sys2Proof.Laws
end

