-- ==== Sys2Proof/Laws/Memory.lean ====
section
/-! SUPPORT. The array's memory: every write keeps the canonical form, and what a read finds after a write. -/

namespace Sys2Proof.Laws

open Sys2Proof.Machine

theorem memory_wf_nil : Memory.wf [] := ⟨List.Pairwise.nil, by simp⟩

/-- The addresses of a memory after a write are the old ones and the written one. -/
theorem memory_write_mem {m : List Host.Cell} {a : Nat} {v : Byte} {c : Host.Cell} (h : c ∈ Memory.write m a v) :
    c ∈ m ∨ c = (a, v) := by
  induction m with
  | nil =>
    unfold Memory.write Memory.cons at h
    split at h <;> simp_all
  | cons x m ih =>
    unfold Memory.write Memory.cons at h
    split at h
    · split at h
      · exact .inl h
      · rcases List.mem_cons.mp h with h | h
        · exact .inr h
        · exact .inl h
    · split at h
      · split at h
        · exact .inl (List.mem_cons_of_mem _ h)
        · rcases List.mem_cons.mp h with h | h
          · exact .inr h
          · exact .inl (List.mem_cons_of_mem _ h)
      · rcases List.mem_cons.mp h with rfl | h
        · simp
        · rcases ih h with h | h <;> simp [h]

theorem memory_wf_write {m : List Host.Cell} (h : Memory.wf m) (a : Nat) (v : Byte) : Memory.wf (Memory.write m a v) := by
  induction m with
  | nil =>
    unfold Memory.write Memory.cons
    split
    · exact memory_wf_nil
    · exact ⟨by simp, by simpa using by assumption⟩
  | cons x m ih =>
    obtain ⟨hp, hb⟩ := h
    rw [List.pairwise_cons] at hp
    have hm : Memory.wf m := ⟨hp.2, fun c hc => hb c (List.mem_cons_of_mem _ hc)⟩
    unfold Memory.write Memory.cons
    split
    · rename_i hlt
      split
      · exact ⟨List.pairwise_cons.mpr hp, hb⟩
      · rename_i hv
        refine ⟨List.pairwise_cons.mpr ⟨?_, List.pairwise_cons.mpr hp⟩, ?_⟩
        · intro c hc
          rcases List.mem_cons.mp hc with rfl | hc
          · exact hlt
          · exact Nat.lt_trans hlt (hp.1 c hc)
        · intro c hc
          rcases List.mem_cons.mp hc with rfl | hc
          · exact hv
          · exact hb c hc
    · split
      · rename_i heq
        split
        · exact hm
        · rename_i hv
          refine ⟨List.pairwise_cons.mpr ⟨fun c hc => ?_, hp.2⟩, ?_⟩
          · have := hp.1 c hc
            simpa [heq] using this
          · intro c hc
            rcases List.mem_cons.mp hc with rfl | hc
            · exact hv
            · exact hm.2 c hc
      · rename_i h1 h2
        have hw := ih hm
        refine ⟨List.pairwise_cons.mpr ⟨fun c hc => ?_, hw.1⟩, ?_⟩
        · rcases memory_write_mem hc with hc | rfl
          · exact hp.1 c hc
          · show x.1 < a
            omega
        · intro c hc
          rcases List.mem_cons.mp hc with rfl | hc
          · exact hb _ List.mem_cons_self
          · exact hw.2 c hc

theorem memory_wf_writeBytes {m : List Host.Cell} (h : Memory.wf m) (a : Nat) (bs : List Byte) :
    Memory.wf (Memory.writeBytes m a bs) := by
  induction bs generalizing m a with
  | nil => exact h
  | cons b bs ih => exact ih (memory_wf_write h a b) (a + 1)

theorem memory_wf_putRecords {m : List Host.Cell} (h : Memory.wf m) (d : Fin 2) (p : Place) (rs : List Record) :
    Memory.wf (Memory.putRecords m d p rs) := memory_wf_writeBytes h _ _

theorem memory_wf_forgetDie {m : List Host.Cell} (h : Memory.wf m) (d : Fin 2) : Memory.wf (Memory.forgetDie m d) :=
  ⟨h.1.filter _, fun c hc => h.2 c (List.mem_filter.mp hc).1⟩

/-- An address below every listed one reads as an unlisted address does. -/
theorem memory_read_below {m : List Host.Cell} {a : Nat} (h : ∀ c ∈ m, a < c.1) : Memory.read m a = Memory.blank := by
  induction m with
  | nil => rfl
  | cons x m ih =>
    have := h x List.mem_cons_self
    have hne : ¬ x.1 = a := by omega
    simp only [Memory.read, hne, if_false]
    exact ih fun c hc => h c (List.mem_cons_of_mem _ hc)

theorem memory_read_cons (a b : Nat) (v : Byte) (m : List Host.Cell) (h : a = b → Memory.read m a = Memory.blank) :
    Memory.read (Memory.cons a v m) b = if b = a then v else Memory.read m b := by
  unfold Memory.cons
  split
  · split
    · subst_vars; exact h rfl
    · rfl
  · simp only [Memory.read]
    by_cases e : a = b
    · simp [e]
    · simp [e, Ne.symm e]

/-- What a byte reads as after a write. -/
theorem memory_read_write {m : List Host.Cell} (h : Memory.wf m) (a b : Nat) (v : Byte) :
    Memory.read (Memory.write m a v) b = if b = a then v else Memory.read m b := by
  induction m with
  | nil => exact memory_read_cons a b v [] fun _ => rfl
  | cons x m ih =>
    obtain ⟨hp, hb⟩ := h
    rw [List.pairwise_cons] at hp
    have hm : Memory.wf m := ⟨hp.2, fun c hc => hb c (List.mem_cons_of_mem _ hc)⟩
    unfold Memory.write
    split
    · rename_i hlt
      apply memory_read_cons
      intro _
      apply memory_read_below
      intro c hc
      rcases List.mem_cons.mp hc with rfl | hc
      · exact hlt
      · exact Nat.lt_trans hlt (hp.1 c hc)
    · split
      · rename_i heq
        have hbelow : Memory.read m a = Memory.blank := memory_read_below fun c hc => by
          have := hp.1 c hc
          omega
        rw [memory_read_cons a b v m fun _ => hbelow]
        split
        · rfl
        · rename_i hne
          have : ¬ x.1 = b := by omega
          simp [Memory.read, this]
      · rename_i h1 h2
        simp only [Memory.read]
        split
        · rename_i hx
          have : ¬ b = a := by omega
          simp [this]
        · exact ih hm

/-- A run of bytes written leaves every address outside it as it was. -/
theorem memory_read_writeBytes_outside {m : List Host.Cell} (h : Memory.wf m) (a : Nat) (bs : List Byte) (b : Nat)
    (ho : b < a ∨ a + bs.length ≤ b) : Memory.read (Memory.writeBytes m a bs) b = Memory.read m b := by
  induction bs generalizing m a with
  | nil => rfl
  | cons x bs ih =>
    simp only [Memory.writeBytes]
    simp only [List.length_cons] at ho
    rw [ih (memory_wf_write h a x) (a + 1) (by omega), memory_read_write h]
    have : ¬ b = a := by omega
    simp [this]

/-- Bytes written read back as written. -/
theorem memory_readBytes_writeBytes {m : List Host.Cell} (h : Memory.wf m) (a : Nat) (bs : List Byte) :
    Memory.readBytes (Memory.writeBytes m a bs) a bs.length = bs := by
  induction bs generalizing m a with
  | nil => rfl
  | cons b bs ih =>
    have hw := memory_wf_write h a b
    show Memory.read (Memory.writeBytes (Memory.write m a b) (a + 1) bs) a ::
      Memory.readBytes (Memory.writeBytes (Memory.write m a b) (a + 1) bs) (a + 1) bs.length = _
    rw [ih hw, memory_read_writeBytes_outside hw _ _ _ (.inl (Nat.lt_succ_self a)), memory_read_write h]
    simp

end Sys2Proof.Laws
end

