-- ==== Sys2Proof/Laws/State.lean ====
section
/-! SUPPORT. What each update of State leaves: one lemma per field per update, true by definition. -/

namespace Sys2Proof.Laws

open Sys2Proof.Machine

/-! `State.modLink` -/

@[simp] theorem modLink_pending (f : Link → Link) (s : State) : (s.modLink f).pending = s.pending := rfl
@[simp] theorem modLink_link (f : Link → Link) (s : State) : (s.modLink f).link = f s.link := rfl
@[simp] theorem modLink_table (f : Link → Link) (s : State) : (s.modLink f).table = s.table := rfl
@[simp] theorem modLink_dir (f : Link → Link) (s : State) : (s.modLink f).dir = s.dir := rfl
@[simp] theorem modLink_fetches (f : Link → Link) (s : State) : (s.modLink f).fetches = s.fetches := rfl
@[simp] theorem modLink_drops (f : Link → Link) (s : State) : (s.modLink f).drops = s.drops := rfl
@[simp] theorem modLink_ctxs (f : Link → Link) (s : State) : (s.modLink f).ctxs = s.ctxs := rfl
@[simp] theorem modLink_arr (f : Link → Link) (s : State) : (s.modLink f).arr = s.arr := rfl
@[simp] theorem modLink_mon (f : Link → Link) (s : State) : (s.modLink f).mon = s.mon := rfl
@[simp] theorem modLink_port (f : Link → Link) (s : State) : (s.modLink f).port = s.port := rfl
@[simp] theorem modLink_mem (f : Link → Link) (s : State) : (s.modLink f).mem = s.mem := rfl
@[simp] theorem modLink_freeDraws (f : Link → Link) (s : State) : (s.modLink f).freeDraws = s.freeDraws := rfl

/-! `State.setTable` -/

@[simp] theorem setTable_pending (t : List TableEntry) (s : State) : (s.setTable t).pending = s.pending := rfl
@[simp] theorem setTable_link (t : List TableEntry) (s : State) : (s.setTable t).link = s.link := rfl
@[simp] theorem setTable_table (t : List TableEntry) (s : State) : (s.setTable t).table = t := rfl
@[simp] theorem setTable_dir (t : List TableEntry) (s : State) : (s.setTable t).dir = s.dir := rfl
@[simp] theorem setTable_fetches (t : List TableEntry) (s : State) : (s.setTable t).fetches = s.fetches := rfl
@[simp] theorem setTable_drops (t : List TableEntry) (s : State) : (s.setTable t).drops = s.drops := rfl
@[simp] theorem setTable_ctxs (t : List TableEntry) (s : State) : (s.setTable t).ctxs = s.ctxs := rfl
@[simp] theorem setTable_arr (t : List TableEntry) (s : State) : (s.setTable t).arr = s.arr := rfl
@[simp] theorem setTable_mon (t : List TableEntry) (s : State) : (s.setTable t).mon = s.mon := rfl
@[simp] theorem setTable_port (t : List TableEntry) (s : State) : (s.setTable t).port = s.port := rfl
@[simp] theorem setTable_mem (t : List TableEntry) (s : State) : (s.setTable t).mem = s.mem := rfl
@[simp] theorem setTable_freeDraws (t : List TableEntry) (s : State) : (s.setTable t).freeDraws = s.freeDraws := rfl

/-! `State.setEntry` -/

@[simp] theorem setEntry_pending (i : Fin 32) (e : Entry) (s : State) : (s.setEntry i e).pending = s.pending := rfl
@[simp] theorem setEntry_link (i : Fin 32) (e : Entry) (s : State) : (s.setEntry i e).link = s.link := rfl
@[simp] theorem setEntry_table (i : Fin 32) (e : Entry) (s : State) : (s.setEntry i e).table = s.table := rfl
@[simp] theorem setEntry_dir (i : Fin 32) (e : Entry) (s : State) : (s.setEntry i e).dir = s.dir.set i e := rfl
@[simp] theorem setEntry_fetches (i : Fin 32) (e : Entry) (s : State) : (s.setEntry i e).fetches = s.fetches := rfl
@[simp] theorem setEntry_drops (i : Fin 32) (e : Entry) (s : State) : (s.setEntry i e).drops = s.drops := rfl
@[simp] theorem setEntry_ctxs (i : Fin 32) (e : Entry) (s : State) : (s.setEntry i e).ctxs = s.ctxs := rfl
@[simp] theorem setEntry_arr (i : Fin 32) (e : Entry) (s : State) : (s.setEntry i e).arr = s.arr := rfl
@[simp] theorem setEntry_mon (i : Fin 32) (e : Entry) (s : State) : (s.setEntry i e).mon = s.mon := rfl
@[simp] theorem setEntry_port (i : Fin 32) (e : Entry) (s : State) : (s.setEntry i e).port = s.port := rfl
@[simp] theorem setEntry_mem (i : Fin 32) (e : Entry) (s : State) : (s.setEntry i e).mem = s.mem := rfl
@[simp] theorem setEntry_freeDraws (i : Fin 32) (e : Entry) (s : State) :
    (s.setEntry i e).freeDraws = s.freeDraws := rfl

/-! `State.setFetches` -/

@[simp] theorem setFetches_pending (l : List Fetch) (s : State) : (s.setFetches l).pending = s.pending := rfl
@[simp] theorem setFetches_link (l : List Fetch) (s : State) : (s.setFetches l).link = s.link := rfl
@[simp] theorem setFetches_table (l : List Fetch) (s : State) : (s.setFetches l).table = s.table := rfl
@[simp] theorem setFetches_dir (l : List Fetch) (s : State) : (s.setFetches l).dir = s.dir := rfl
@[simp] theorem setFetches_fetches (l : List Fetch) (s : State) : (s.setFetches l).fetches = l := rfl
@[simp] theorem setFetches_drops (l : List Fetch) (s : State) : (s.setFetches l).drops = s.drops := rfl
@[simp] theorem setFetches_ctxs (l : List Fetch) (s : State) : (s.setFetches l).ctxs = s.ctxs := rfl
@[simp] theorem setFetches_arr (l : List Fetch) (s : State) : (s.setFetches l).arr = s.arr := rfl
@[simp] theorem setFetches_mon (l : List Fetch) (s : State) : (s.setFetches l).mon = s.mon := rfl
@[simp] theorem setFetches_port (l : List Fetch) (s : State) : (s.setFetches l).port = s.port := rfl
@[simp] theorem setFetches_mem (l : List Fetch) (s : State) : (s.setFetches l).mem = s.mem := rfl
@[simp] theorem setFetches_freeDraws (l : List Fetch) (s : State) : (s.setFetches l).freeDraws = s.freeDraws := rfl

/-! `State.setDrops` -/

@[simp] theorem setDrops_pending (l : List DropOp) (s : State) : (s.setDrops l).pending = s.pending := rfl
@[simp] theorem setDrops_link (l : List DropOp) (s : State) : (s.setDrops l).link = s.link := rfl
@[simp] theorem setDrops_table (l : List DropOp) (s : State) : (s.setDrops l).table = s.table := rfl
@[simp] theorem setDrops_dir (l : List DropOp) (s : State) : (s.setDrops l).dir = s.dir := rfl
@[simp] theorem setDrops_fetches (l : List DropOp) (s : State) : (s.setDrops l).fetches = s.fetches := rfl
@[simp] theorem setDrops_drops (l : List DropOp) (s : State) : (s.setDrops l).drops = l := rfl
@[simp] theorem setDrops_ctxs (l : List DropOp) (s : State) : (s.setDrops l).ctxs = s.ctxs := rfl
@[simp] theorem setDrops_arr (l : List DropOp) (s : State) : (s.setDrops l).arr = s.arr := rfl
@[simp] theorem setDrops_mon (l : List DropOp) (s : State) : (s.setDrops l).mon = s.mon := rfl
@[simp] theorem setDrops_port (l : List DropOp) (s : State) : (s.setDrops l).port = s.port := rfl
@[simp] theorem setDrops_mem (l : List DropOp) (s : State) : (s.setDrops l).mem = s.mem := rfl
@[simp] theorem setDrops_freeDraws (l : List DropOp) (s : State) : (s.setDrops l).freeDraws = s.freeDraws := rfl

/-! `State.setCtx` -/

@[simp] theorem setCtx_pending (k : Fin 4) (c : Option Ctx) (s : State) : (s.setCtx k c).pending = s.pending := rfl
@[simp] theorem setCtx_link (k : Fin 4) (c : Option Ctx) (s : State) : (s.setCtx k c).link = s.link := rfl
@[simp] theorem setCtx_table (k : Fin 4) (c : Option Ctx) (s : State) : (s.setCtx k c).table = s.table := rfl
@[simp] theorem setCtx_dir (k : Fin 4) (c : Option Ctx) (s : State) : (s.setCtx k c).dir = s.dir := rfl
@[simp] theorem setCtx_fetches (k : Fin 4) (c : Option Ctx) (s : State) : (s.setCtx k c).fetches = s.fetches := rfl
@[simp] theorem setCtx_drops (k : Fin 4) (c : Option Ctx) (s : State) : (s.setCtx k c).drops = s.drops := rfl
@[simp] theorem setCtx_ctxs (k : Fin 4) (c : Option Ctx) (s : State) : (s.setCtx k c).ctxs = s.ctxs.set k c := rfl
@[simp] theorem setCtx_arr (k : Fin 4) (c : Option Ctx) (s : State) : (s.setCtx k c).arr = s.arr := rfl
@[simp] theorem setCtx_mon (k : Fin 4) (c : Option Ctx) (s : State) : (s.setCtx k c).mon = s.mon := rfl
@[simp] theorem setCtx_port (k : Fin 4) (c : Option Ctx) (s : State) : (s.setCtx k c).port = s.port := rfl
@[simp] theorem setCtx_mem (k : Fin 4) (c : Option Ctx) (s : State) : (s.setCtx k c).mem = s.mem := rfl
@[simp] theorem setCtx_freeDraws (k : Fin 4) (c : Option Ctx) (s : State) :
    (s.setCtx k c).freeDraws = s.freeDraws := rfl

/-! `State.modArr` -/

@[simp] theorem modArr_pending (f : ArrayCtl → ArrayCtl) (s : State) : (s.modArr f).pending = s.pending := rfl
@[simp] theorem modArr_link (f : ArrayCtl → ArrayCtl) (s : State) : (s.modArr f).link = s.link := rfl
@[simp] theorem modArr_table (f : ArrayCtl → ArrayCtl) (s : State) : (s.modArr f).table = s.table := rfl
@[simp] theorem modArr_dir (f : ArrayCtl → ArrayCtl) (s : State) : (s.modArr f).dir = s.dir := rfl
@[simp] theorem modArr_fetches (f : ArrayCtl → ArrayCtl) (s : State) : (s.modArr f).fetches = s.fetches := rfl
@[simp] theorem modArr_drops (f : ArrayCtl → ArrayCtl) (s : State) : (s.modArr f).drops = s.drops := rfl
@[simp] theorem modArr_ctxs (f : ArrayCtl → ArrayCtl) (s : State) : (s.modArr f).ctxs = s.ctxs := rfl
@[simp] theorem modArr_arr (f : ArrayCtl → ArrayCtl) (s : State) : (s.modArr f).arr = f s.arr := rfl
@[simp] theorem modArr_mon (f : ArrayCtl → ArrayCtl) (s : State) : (s.modArr f).mon = s.mon := rfl
@[simp] theorem modArr_port (f : ArrayCtl → ArrayCtl) (s : State) : (s.modArr f).port = s.port := rfl
@[simp] theorem modArr_mem (f : ArrayCtl → ArrayCtl) (s : State) : (s.modArr f).mem = s.mem := rfl
@[simp] theorem modArr_freeDraws (f : ArrayCtl → ArrayCtl) (s : State) : (s.modArr f).freeDraws = s.freeDraws := rfl

/-! `State.modMon` -/

@[simp] theorem modMon_pending (f : Monitor → Monitor) (s : State) : (s.modMon f).pending = s.pending := rfl
@[simp] theorem modMon_link (f : Monitor → Monitor) (s : State) : (s.modMon f).link = s.link := rfl
@[simp] theorem modMon_table (f : Monitor → Monitor) (s : State) : (s.modMon f).table = s.table := rfl
@[simp] theorem modMon_dir (f : Monitor → Monitor) (s : State) : (s.modMon f).dir = s.dir := rfl
@[simp] theorem modMon_fetches (f : Monitor → Monitor) (s : State) : (s.modMon f).fetches = s.fetches := rfl
@[simp] theorem modMon_drops (f : Monitor → Monitor) (s : State) : (s.modMon f).drops = s.drops := rfl
@[simp] theorem modMon_ctxs (f : Monitor → Monitor) (s : State) : (s.modMon f).ctxs = s.ctxs := rfl
@[simp] theorem modMon_arr (f : Monitor → Monitor) (s : State) : (s.modMon f).arr = s.arr := rfl
@[simp] theorem modMon_mon (f : Monitor → Monitor) (s : State) : (s.modMon f).mon = f s.mon := rfl
@[simp] theorem modMon_port (f : Monitor → Monitor) (s : State) : (s.modMon f).port = s.port := rfl
@[simp] theorem modMon_mem (f : Monitor → Monitor) (s : State) : (s.modMon f).mem = s.mem := rfl
@[simp] theorem modMon_freeDraws (f : Monitor → Monitor) (s : State) : (s.modMon f).freeDraws = s.freeDraws := rfl

/-! `State.modPort` -/

@[simp] theorem modPort_pending (f : Port → Port) (s : State) : (s.modPort f).pending = s.pending := rfl
@[simp] theorem modPort_link (f : Port → Port) (s : State) : (s.modPort f).link = s.link := rfl
@[simp] theorem modPort_table (f : Port → Port) (s : State) : (s.modPort f).table = s.table := rfl
@[simp] theorem modPort_dir (f : Port → Port) (s : State) : (s.modPort f).dir = s.dir := rfl
@[simp] theorem modPort_fetches (f : Port → Port) (s : State) : (s.modPort f).fetches = s.fetches := rfl
@[simp] theorem modPort_drops (f : Port → Port) (s : State) : (s.modPort f).drops = s.drops := rfl
@[simp] theorem modPort_ctxs (f : Port → Port) (s : State) : (s.modPort f).ctxs = s.ctxs := rfl
@[simp] theorem modPort_arr (f : Port → Port) (s : State) : (s.modPort f).arr = s.arr := rfl
@[simp] theorem modPort_mon (f : Port → Port) (s : State) : (s.modPort f).mon = s.mon := rfl
@[simp] theorem modPort_port (f : Port → Port) (s : State) : (s.modPort f).port = f s.port := rfl
@[simp] theorem modPort_mem (f : Port → Port) (s : State) : (s.modPort f).mem = s.mem := rfl
@[simp] theorem modPort_freeDraws (f : Port → Port) (s : State) : (s.modPort f).freeDraws = s.freeDraws := rfl

/-! `State.setMem` -/

@[simp] theorem setMem_pending (m : List Host.Cell) (s : State) : (s.setMem m).pending = s.pending := rfl
@[simp] theorem setMem_link (m : List Host.Cell) (s : State) : (s.setMem m).link = s.link := rfl
@[simp] theorem setMem_table (m : List Host.Cell) (s : State) : (s.setMem m).table = s.table := rfl
@[simp] theorem setMem_dir (m : List Host.Cell) (s : State) : (s.setMem m).dir = s.dir := rfl
@[simp] theorem setMem_fetches (m : List Host.Cell) (s : State) : (s.setMem m).fetches = s.fetches := rfl
@[simp] theorem setMem_drops (m : List Host.Cell) (s : State) : (s.setMem m).drops = s.drops := rfl
@[simp] theorem setMem_ctxs (m : List Host.Cell) (s : State) : (s.setMem m).ctxs = s.ctxs := rfl
@[simp] theorem setMem_arr (m : List Host.Cell) (s : State) : (s.setMem m).arr = s.arr := rfl
@[simp] theorem setMem_mon (m : List Host.Cell) (s : State) : (s.setMem m).mon = s.mon := rfl
@[simp] theorem setMem_port (m : List Host.Cell) (s : State) : (s.setMem m).port = s.port := rfl
@[simp] theorem setMem_mem (m : List Host.Cell) (s : State) : (s.setMem m).mem = m := rfl
@[simp] theorem setMem_freeDraws (m : List Host.Cell) (s : State) : (s.setMem m).freeDraws = s.freeDraws := rfl

/-! `State.setDie` -/

@[simp] theorem setDie_pending (d : Fin 2) (x : Die) (s : State) : (s.setDie d x).pending = s.pending := rfl
@[simp] theorem setDie_link (d : Fin 2) (x : Die) (s : State) : (s.setDie d x).link = s.link := rfl
@[simp] theorem setDie_table (d : Fin 2) (x : Die) (s : State) : (s.setDie d x).table = s.table := rfl
@[simp] theorem setDie_dir (d : Fin 2) (x : Die) (s : State) : (s.setDie d x).dir = s.dir := rfl
@[simp] theorem setDie_fetches (d : Fin 2) (x : Die) (s : State) : (s.setDie d x).fetches = s.fetches := rfl
@[simp] theorem setDie_drops (d : Fin 2) (x : Die) (s : State) : (s.setDie d x).drops = s.drops := rfl
@[simp] theorem setDie_ctxs (d : Fin 2) (x : Die) (s : State) : (s.setDie d x).ctxs = s.ctxs := rfl
@[simp] theorem setDie_arr (d : Fin 2) (x : Die) (s : State) :
    (s.setDie d x).arr = { s.arr with dies := s.arr.dies.set d x } := rfl
@[simp] theorem setDie_mon (d : Fin 2) (x : Die) (s : State) : (s.setDie d x).mon = s.mon := rfl
@[simp] theorem setDie_port (d : Fin 2) (x : Die) (s : State) : (s.setDie d x).port = s.port := rfl
@[simp] theorem setDie_mem (d : Fin 2) (x : Die) (s : State) : (s.setDie d x).mem = s.mem := rfl
@[simp] theorem setDie_freeDraws (d : Fin 2) (x : Die) (s : State) : (s.setDie d x).freeDraws = s.freeDraws := rfl

/-! `State.setBank` -/

@[simp] theorem setBank_pending (d : Fin 2) (b : Fin 8) (x : Bank) (s : State) :
    (s.setBank d b x).pending = s.pending := rfl
@[simp] theorem setBank_link (d : Fin 2) (b : Fin 8) (x : Bank) (s : State) : (s.setBank d b x).link = s.link := rfl
@[simp] theorem setBank_table (d : Fin 2) (b : Fin 8) (x : Bank) (s : State) : (s.setBank d b x).table = s.table := rfl
@[simp] theorem setBank_dir (d : Fin 2) (b : Fin 8) (x : Bank) (s : State) : (s.setBank d b x).dir = s.dir := rfl
@[simp] theorem setBank_fetches (d : Fin 2) (b : Fin 8) (x : Bank) (s : State) :
    (s.setBank d b x).fetches = s.fetches := rfl
@[simp] theorem setBank_drops (d : Fin 2) (b : Fin 8) (x : Bank) (s : State) : (s.setBank d b x).drops = s.drops := rfl
@[simp] theorem setBank_ctxs (d : Fin 2) (b : Fin 8) (x : Bank) (s : State) : (s.setBank d b x).ctxs = s.ctxs := rfl
@[simp] theorem setBank_mon (d : Fin 2) (b : Fin 8) (x : Bank) (s : State) : (s.setBank d b x).mon = s.mon := rfl
@[simp] theorem setBank_port (d : Fin 2) (b : Fin 8) (x : Bank) (s : State) : (s.setBank d b x).port = s.port := rfl
@[simp] theorem setBank_mem (d : Fin 2) (b : Fin 8) (x : Bank) (s : State) : (s.setBank d b x).mem = s.mem := rfl
@[simp] theorem setBank_freeDraws (d : Fin 2) (b : Fin 8) (x : Bank) (s : State) :
    (s.setBank d b x).freeDraws = s.freeDraws := rfl

/-! `State.setDieMon` -/

@[simp] theorem setDieMon_pending (d : Fin 2) (x : DieMonitor) (s : State) :
    (s.setDieMon d x).pending = s.pending := rfl
@[simp] theorem setDieMon_link (d : Fin 2) (x : DieMonitor) (s : State) : (s.setDieMon d x).link = s.link := rfl
@[simp] theorem setDieMon_table (d : Fin 2) (x : DieMonitor) (s : State) : (s.setDieMon d x).table = s.table := rfl
@[simp] theorem setDieMon_dir (d : Fin 2) (x : DieMonitor) (s : State) : (s.setDieMon d x).dir = s.dir := rfl
@[simp] theorem setDieMon_fetches (d : Fin 2) (x : DieMonitor) (s : State) :
    (s.setDieMon d x).fetches = s.fetches := rfl
@[simp] theorem setDieMon_drops (d : Fin 2) (x : DieMonitor) (s : State) : (s.setDieMon d x).drops = s.drops := rfl
@[simp] theorem setDieMon_ctxs (d : Fin 2) (x : DieMonitor) (s : State) : (s.setDieMon d x).ctxs = s.ctxs := rfl
@[simp] theorem setDieMon_arr (d : Fin 2) (x : DieMonitor) (s : State) : (s.setDieMon d x).arr = s.arr := rfl
@[simp] theorem setDieMon_mon (d : Fin 2) (x : DieMonitor) (s : State) :
    (s.setDieMon d x).mon = { s.mon with dies := s.mon.dies.set d x } := rfl
@[simp] theorem setDieMon_port (d : Fin 2) (x : DieMonitor) (s : State) : (s.setDieMon d x).port = s.port := rfl
@[simp] theorem setDieMon_mem (d : Fin 2) (x : DieMonitor) (s : State) : (s.setDieMon d x).mem = s.mem := rfl
@[simp] theorem setDieMon_freeDraws (d : Fin 2) (x : DieMonitor) (s : State) :
    (s.setDieMon d x).freeDraws = s.freeDraws := rfl

/-! `State.setQueues` -/

@[simp] theorem setQueues_pending (q w : List Txn) (s : State) : (s.setQueues q w).pending = s.pending := rfl
@[simp] theorem setQueues_link (q w : List Txn) (s : State) : (s.setQueues q w).link = s.link := rfl
@[simp] theorem setQueues_table (q w : List Txn) (s : State) : (s.setQueues q w).table = s.table := rfl
@[simp] theorem setQueues_dir (q w : List Txn) (s : State) : (s.setQueues q w).dir = s.dir := rfl
@[simp] theorem setQueues_fetches (q w : List Txn) (s : State) : (s.setQueues q w).fetches = s.fetches := rfl
@[simp] theorem setQueues_drops (q w : List Txn) (s : State) : (s.setQueues q w).drops = s.drops := rfl
@[simp] theorem setQueues_ctxs (q w : List Txn) (s : State) : (s.setQueues q w).ctxs = s.ctxs := rfl
@[simp] theorem setQueues_arr (q w : List Txn) (s : State) :
    (s.setQueues q w).arr = { s.arr with queue := q, waiting := w } := rfl
@[simp] theorem setQueues_mon (q w : List Txn) (s : State) : (s.setQueues q w).mon = s.mon := rfl
@[simp] theorem setQueues_port (q w : List Txn) (s : State) : (s.setQueues q w).port = s.port := rfl
@[simp] theorem setQueues_mem (q w : List Txn) (s : State) : (s.setQueues q w).mem = s.mem := rfl
@[simp] theorem setQueues_freeDraws (q w : List Txn) (s : State) : (s.setQueues q w).freeDraws = s.freeDraws := rfl

/-! `State.setPending` -/

@[simp] theorem setPending_pending (l : List Instr) (s : State) : (s.setPending l).pending = l := rfl
@[simp] theorem setPending_link (l : List Instr) (s : State) : (s.setPending l).link = s.link := rfl
@[simp] theorem setPending_table (l : List Instr) (s : State) : (s.setPending l).table = s.table := rfl
@[simp] theorem setPending_dir (l : List Instr) (s : State) : (s.setPending l).dir = s.dir := rfl
@[simp] theorem setPending_fetches (l : List Instr) (s : State) : (s.setPending l).fetches = s.fetches := rfl
@[simp] theorem setPending_drops (l : List Instr) (s : State) : (s.setPending l).drops = s.drops := rfl
@[simp] theorem setPending_ctxs (l : List Instr) (s : State) : (s.setPending l).ctxs = s.ctxs := rfl
@[simp] theorem setPending_arr (l : List Instr) (s : State) : (s.setPending l).arr = s.arr := rfl
@[simp] theorem setPending_mon (l : List Instr) (s : State) : (s.setPending l).mon = s.mon := rfl
@[simp] theorem setPending_port (l : List Instr) (s : State) : (s.setPending l).port = s.port := rfl
@[simp] theorem setPending_mem (l : List Instr) (s : State) : (s.setPending l).mem = s.mem := rfl
@[simp] theorem setPending_freeDraws (l : List Instr) (s : State) : (s.setPending l).freeDraws = s.freeDraws := rfl

/-! `State.enqueue` -/

@[simp] theorem enqueue_pending (f : Frame) (s : State) : (s.enqueue f).pending = s.pending := rfl
@[simp] theorem enqueue_link (f : Frame) (s : State) :
    (s.enqueue f).link = { s.link with queue := s.link.queue ++ [f] } := rfl
@[simp] theorem enqueue_table (f : Frame) (s : State) : (s.enqueue f).table = s.table := rfl
@[simp] theorem enqueue_dir (f : Frame) (s : State) : (s.enqueue f).dir = s.dir := rfl
@[simp] theorem enqueue_fetches (f : Frame) (s : State) : (s.enqueue f).fetches = s.fetches := rfl
@[simp] theorem enqueue_drops (f : Frame) (s : State) : (s.enqueue f).drops = s.drops := rfl
@[simp] theorem enqueue_ctxs (f : Frame) (s : State) : (s.enqueue f).ctxs = s.ctxs := rfl
@[simp] theorem enqueue_arr (f : Frame) (s : State) : (s.enqueue f).arr = s.arr := rfl
@[simp] theorem enqueue_mon (f : Frame) (s : State) : (s.enqueue f).mon = s.mon := rfl
@[simp] theorem enqueue_port (f : Frame) (s : State) : (s.enqueue f).port = s.port := rfl
@[simp] theorem enqueue_mem (f : Frame) (s : State) : (s.enqueue f).mem = s.mem := rfl
@[simp] theorem enqueue_freeDraws (f : Frame) (s : State) : (s.enqueue f).freeDraws = s.freeDraws := rfl

/-! `State.release` -/

@[simp] theorem release_pending (tag : Byte) (s : State) : (s.release tag).pending = s.pending := rfl
@[simp] theorem release_link (tag : Byte) (s : State) : (s.release tag).link = s.link := rfl
@[simp] theorem release_table (tag : Byte) (s : State) :
    (s.release tag).table = s.table.filter fun e => e.tag != tag := rfl
@[simp] theorem release_dir (tag : Byte) (s : State) : (s.release tag).dir = s.dir := rfl
@[simp] theorem release_fetches (tag : Byte) (s : State) : (s.release tag).fetches = s.fetches := rfl
@[simp] theorem release_drops (tag : Byte) (s : State) : (s.release tag).drops = s.drops := rfl
@[simp] theorem release_ctxs (tag : Byte) (s : State) : (s.release tag).ctxs = s.ctxs := rfl
@[simp] theorem release_arr (tag : Byte) (s : State) : (s.release tag).arr = s.arr := rfl
@[simp] theorem release_mon (tag : Byte) (s : State) : (s.release tag).mon = s.mon := rfl
@[simp] theorem release_port (tag : Byte) (s : State) : (s.release tag).port = s.port := rfl
@[simp] theorem release_mem (tag : Byte) (s : State) : (s.release tag).mem = s.mem := rfl
@[simp] theorem release_freeDraws (tag : Byte) (s : State) : (s.release tag).freeDraws = s.freeDraws := rfl

/-! `State.markEnding` -/

@[simp] theorem markEnding_pending (tag : Byte) (s : State) : (s.markEnding tag).pending = s.pending := rfl
@[simp] theorem markEnding_link (tag : Byte) (s : State) : (s.markEnding tag).link = s.link := rfl
@[simp] theorem markEnding_dir (tag : Byte) (s : State) : (s.markEnding tag).dir = s.dir := rfl
@[simp] theorem markEnding_fetches (tag : Byte) (s : State) : (s.markEnding tag).fetches = s.fetches := rfl
@[simp] theorem markEnding_drops (tag : Byte) (s : State) : (s.markEnding tag).drops = s.drops := rfl
@[simp] theorem markEnding_ctxs (tag : Byte) (s : State) : (s.markEnding tag).ctxs = s.ctxs := rfl
@[simp] theorem markEnding_arr (tag : Byte) (s : State) : (s.markEnding tag).arr = s.arr := rfl
@[simp] theorem markEnding_mon (tag : Byte) (s : State) : (s.markEnding tag).mon = s.mon := rfl
@[simp] theorem markEnding_port (tag : Byte) (s : State) : (s.markEnding tag).port = s.port := rfl
@[simp] theorem markEnding_mem (tag : Byte) (s : State) : (s.markEnding tag).mem = s.mem := rfl
@[simp] theorem markEnding_freeDraws (tag : Byte) (s : State) : (s.markEnding tag).freeDraws = s.freeDraws := rfl

/-! `State.countDiscard` -/

@[simp] theorem countDiscard_pending (s : State) : (s.countDiscard).pending = s.pending := rfl
@[simp] theorem countDiscard_table (s : State) : (s.countDiscard).table = s.table := rfl
@[simp] theorem countDiscard_dir (s : State) : (s.countDiscard).dir = s.dir := rfl
@[simp] theorem countDiscard_fetches (s : State) : (s.countDiscard).fetches = s.fetches := rfl
@[simp] theorem countDiscard_drops (s : State) : (s.countDiscard).drops = s.drops := rfl
@[simp] theorem countDiscard_ctxs (s : State) : (s.countDiscard).ctxs = s.ctxs := rfl
@[simp] theorem countDiscard_arr (s : State) : (s.countDiscard).arr = s.arr := rfl
@[simp] theorem countDiscard_mon (s : State) : (s.countDiscard).mon = s.mon := rfl
@[simp] theorem countDiscard_port (s : State) : (s.countDiscard).port = s.port := rfl
@[simp] theorem countDiscard_mem (s : State) : (s.countDiscard).mem = s.mem := rfl
@[simp] theorem countDiscard_freeDraws (s : State) : (s.countDiscard).freeDraws = s.freeDraws := rfl

/-! The records that the other updates leave -/

@[simp] theorem modLink_entry (f : Link → Link) (j : Fin 32) (s : State) : (s.modLink f).entry j = s.entry j := rfl
@[simp] theorem setTable_entry (t : List TableEntry) (j : Fin 32) (s : State) :
    (s.setTable t).entry j = s.entry j := rfl
@[simp] theorem setFetches_entry (l : List Fetch) (j : Fin 32) (s : State) : (s.setFetches l).entry j = s.entry j := rfl
@[simp] theorem setDrops_entry (l : List DropOp) (j : Fin 32) (s : State) : (s.setDrops l).entry j = s.entry j := rfl
@[simp] theorem setCtx_entry (k : Fin 4) (c : Option Ctx) (j : Fin 32) (s : State) :
    (s.setCtx k c).entry j = s.entry j := rfl
@[simp] theorem modArr_entry (f : ArrayCtl → ArrayCtl) (j : Fin 32) (s : State) :
    (s.modArr f).entry j = s.entry j := rfl
@[simp] theorem modMon_entry (f : Monitor → Monitor) (j : Fin 32) (s : State) : (s.modMon f).entry j = s.entry j := rfl
@[simp] theorem modPort_entry (f : Port → Port) (j : Fin 32) (s : State) : (s.modPort f).entry j = s.entry j := rfl
@[simp] theorem setMem_entry (m : List Host.Cell) (j : Fin 32) (s : State) : (s.setMem m).entry j = s.entry j := rfl
@[simp] theorem setDie_entry (d : Fin 2) (x : Die) (j : Fin 32) (s : State) : (s.setDie d x).entry j = s.entry j := rfl
@[simp] theorem setBank_entry (d : Fin 2) (b : Fin 8) (x : Bank) (j : Fin 32) (s : State) :
    (s.setBank d b x).entry j = s.entry j := rfl
@[simp] theorem setDieMon_entry (d : Fin 2) (x : DieMonitor) (j : Fin 32) (s : State) :
    (s.setDieMon d x).entry j = s.entry j := rfl
@[simp] theorem setQueues_entry (q w : List Txn) (j : Fin 32) (s : State) : (s.setQueues q w).entry j = s.entry j := rfl
@[simp] theorem setPending_entry (l : List Instr) (j : Fin 32) (s : State) : (s.setPending l).entry j = s.entry j := rfl
@[simp] theorem enqueue_entry (f : Frame) (j : Fin 32) (s : State) : (s.enqueue f).entry j = s.entry j := rfl
@[simp] theorem release_entry (tag : Byte) (j : Fin 32) (s : State) : (s.release tag).entry j = s.entry j := rfl
@[simp] theorem markEnding_entry (tag : Byte) (j : Fin 32) (s : State) : (s.markEnding tag).entry j = s.entry j := rfl
@[simp] theorem countDiscard_entry (j : Fin 32) (s : State) : (s.countDiscard).entry j = s.entry j := rfl

@[simp] theorem modLink_die (f : Link → Link) (d' : Fin 2) (s : State) : (s.modLink f).die d' = s.die d' := rfl
@[simp] theorem setTable_die (t : List TableEntry) (d' : Fin 2) (s : State) : (s.setTable t).die d' = s.die d' := rfl
@[simp] theorem setEntry_die (i : Fin 32) (e : Entry) (d' : Fin 2) (s : State) :
    (s.setEntry i e).die d' = s.die d' := rfl
@[simp] theorem setFetches_die (l : List Fetch) (d' : Fin 2) (s : State) : (s.setFetches l).die d' = s.die d' := rfl
@[simp] theorem setDrops_die (l : List DropOp) (d' : Fin 2) (s : State) : (s.setDrops l).die d' = s.die d' := rfl
@[simp] theorem setCtx_die (k : Fin 4) (c : Option Ctx) (d' : Fin 2) (s : State) :
    (s.setCtx k c).die d' = s.die d' := rfl
@[simp] theorem modMon_die (f : Monitor → Monitor) (d' : Fin 2) (s : State) : (s.modMon f).die d' = s.die d' := rfl
@[simp] theorem modPort_die (f : Port → Port) (d' : Fin 2) (s : State) : (s.modPort f).die d' = s.die d' := rfl
@[simp] theorem setMem_die (m : List Host.Cell) (d' : Fin 2) (s : State) : (s.setMem m).die d' = s.die d' := rfl
@[simp] theorem setDieMon_die (d : Fin 2) (x : DieMonitor) (d' : Fin 2) (s : State) :
    (s.setDieMon d x).die d' = s.die d' := rfl
@[simp] theorem setQueues_die (q w : List Txn) (d' : Fin 2) (s : State) : (s.setQueues q w).die d' = s.die d' := rfl
@[simp] theorem setPending_die (l : List Instr) (d' : Fin 2) (s : State) : (s.setPending l).die d' = s.die d' := rfl
@[simp] theorem enqueue_die (f : Frame) (d' : Fin 2) (s : State) : (s.enqueue f).die d' = s.die d' := rfl
@[simp] theorem release_die (tag : Byte) (d' : Fin 2) (s : State) : (s.release tag).die d' = s.die d' := rfl
@[simp] theorem markEnding_die (tag : Byte) (d' : Fin 2) (s : State) : (s.markEnding tag).die d' = s.die d' := rfl
@[simp] theorem countDiscard_die (d' : Fin 2) (s : State) : (s.countDiscard).die d' = s.die d' := rfl

@[simp] theorem modLink_bank (f : Link → Link) (d' : Fin 2) (b' : Fin 8) (s : State) :
    (s.modLink f).bank d' b' = s.bank d' b' := rfl
@[simp] theorem setTable_bank (t : List TableEntry) (d' : Fin 2) (b' : Fin 8) (s : State) :
    (s.setTable t).bank d' b' = s.bank d' b' := rfl
@[simp] theorem setEntry_bank (i : Fin 32) (e : Entry) (d' : Fin 2) (b' : Fin 8) (s : State) :
    (s.setEntry i e).bank d' b' = s.bank d' b' := rfl
@[simp] theorem setFetches_bank (l : List Fetch) (d' : Fin 2) (b' : Fin 8) (s : State) :
    (s.setFetches l).bank d' b' = s.bank d' b' := rfl
@[simp] theorem setDrops_bank (l : List DropOp) (d' : Fin 2) (b' : Fin 8) (s : State) :
    (s.setDrops l).bank d' b' = s.bank d' b' := rfl
@[simp] theorem setCtx_bank (k : Fin 4) (c : Option Ctx) (d' : Fin 2) (b' : Fin 8) (s : State) :
    (s.setCtx k c).bank d' b' = s.bank d' b' := rfl
@[simp] theorem modMon_bank (f : Monitor → Monitor) (d' : Fin 2) (b' : Fin 8) (s : State) :
    (s.modMon f).bank d' b' = s.bank d' b' := rfl
@[simp] theorem modPort_bank (f : Port → Port) (d' : Fin 2) (b' : Fin 8) (s : State) :
    (s.modPort f).bank d' b' = s.bank d' b' := rfl
@[simp] theorem setMem_bank (m : List Host.Cell) (d' : Fin 2) (b' : Fin 8) (s : State) :
    (s.setMem m).bank d' b' = s.bank d' b' := rfl
@[simp] theorem setDieMon_bank (d : Fin 2) (x : DieMonitor) (d' : Fin 2) (b' : Fin 8) (s : State) :
    (s.setDieMon d x).bank d' b' = s.bank d' b' := rfl
@[simp] theorem setQueues_bank (q w : List Txn) (d' : Fin 2) (b' : Fin 8) (s : State) :
    (s.setQueues q w).bank d' b' = s.bank d' b' := rfl
@[simp] theorem setPending_bank (l : List Instr) (d' : Fin 2) (b' : Fin 8) (s : State) :
    (s.setPending l).bank d' b' = s.bank d' b' := rfl
@[simp] theorem enqueue_bank (f : Frame) (d' : Fin 2) (b' : Fin 8) (s : State) :
    (s.enqueue f).bank d' b' = s.bank d' b' := rfl
@[simp] theorem release_bank (tag : Byte) (d' : Fin 2) (b' : Fin 8) (s : State) :
    (s.release tag).bank d' b' = s.bank d' b' := rfl
@[simp] theorem markEnding_bank (tag : Byte) (d' : Fin 2) (b' : Fin 8) (s : State) :
    (s.markEnding tag).bank d' b' = s.bank d' b' := rfl
@[simp] theorem countDiscard_bank (d' : Fin 2) (b' : Fin 8) (s : State) :
    (s.countDiscard).bank d' b' = s.bank d' b' := rfl

@[simp] theorem modLink_ctx (f : Link → Link) (k' : Fin 4) (s : State) : (s.modLink f).ctx k' = s.ctx k' := rfl
@[simp] theorem setTable_ctx (t : List TableEntry) (k' : Fin 4) (s : State) : (s.setTable t).ctx k' = s.ctx k' := rfl
@[simp] theorem setEntry_ctx (i : Fin 32) (e : Entry) (k' : Fin 4) (s : State) :
    (s.setEntry i e).ctx k' = s.ctx k' := rfl
@[simp] theorem setFetches_ctx (l : List Fetch) (k' : Fin 4) (s : State) : (s.setFetches l).ctx k' = s.ctx k' := rfl
@[simp] theorem setDrops_ctx (l : List DropOp) (k' : Fin 4) (s : State) : (s.setDrops l).ctx k' = s.ctx k' := rfl
@[simp] theorem modArr_ctx (f : ArrayCtl → ArrayCtl) (k' : Fin 4) (s : State) : (s.modArr f).ctx k' = s.ctx k' := rfl
@[simp] theorem modMon_ctx (f : Monitor → Monitor) (k' : Fin 4) (s : State) : (s.modMon f).ctx k' = s.ctx k' := rfl
@[simp] theorem modPort_ctx (f : Port → Port) (k' : Fin 4) (s : State) : (s.modPort f).ctx k' = s.ctx k' := rfl
@[simp] theorem setMem_ctx (m : List Host.Cell) (k' : Fin 4) (s : State) : (s.setMem m).ctx k' = s.ctx k' := rfl
@[simp] theorem setDie_ctx (d : Fin 2) (x : Die) (k' : Fin 4) (s : State) : (s.setDie d x).ctx k' = s.ctx k' := rfl
@[simp] theorem setBank_ctx (d : Fin 2) (b : Fin 8) (x : Bank) (k' : Fin 4) (s : State) :
    (s.setBank d b x).ctx k' = s.ctx k' := rfl
@[simp] theorem setDieMon_ctx (d : Fin 2) (x : DieMonitor) (k' : Fin 4) (s : State) :
    (s.setDieMon d x).ctx k' = s.ctx k' := rfl
@[simp] theorem setQueues_ctx (q w : List Txn) (k' : Fin 4) (s : State) : (s.setQueues q w).ctx k' = s.ctx k' := rfl
@[simp] theorem setPending_ctx (l : List Instr) (k' : Fin 4) (s : State) : (s.setPending l).ctx k' = s.ctx k' := rfl
@[simp] theorem enqueue_ctx (f : Frame) (k' : Fin 4) (s : State) : (s.enqueue f).ctx k' = s.ctx k' := rfl
@[simp] theorem release_ctx (tag : Byte) (k' : Fin 4) (s : State) : (s.release tag).ctx k' = s.ctx k' := rfl
@[simp] theorem markEnding_ctx (tag : Byte) (k' : Fin 4) (s : State) : (s.markEnding tag).ctx k' = s.ctx k' := rfl
@[simp] theorem countDiscard_ctx (k' : Fin 4) (s : State) : (s.countDiscard).ctx k' = s.ctx k' := rfl

@[simp] theorem modLink_dieMon (f : Link → Link) (d' : Fin 2) (s : State) : (s.modLink f).dieMon d' = s.dieMon d' := rfl
@[simp] theorem setTable_dieMon (t : List TableEntry) (d' : Fin 2) (s : State) :
    (s.setTable t).dieMon d' = s.dieMon d' := rfl
@[simp] theorem setEntry_dieMon (i : Fin 32) (e : Entry) (d' : Fin 2) (s : State) :
    (s.setEntry i e).dieMon d' = s.dieMon d' := rfl
@[simp] theorem setFetches_dieMon (l : List Fetch) (d' : Fin 2) (s : State) :
    (s.setFetches l).dieMon d' = s.dieMon d' := rfl
@[simp] theorem setDrops_dieMon (l : List DropOp) (d' : Fin 2) (s : State) :
    (s.setDrops l).dieMon d' = s.dieMon d' := rfl
@[simp] theorem setCtx_dieMon (k : Fin 4) (c : Option Ctx) (d' : Fin 2) (s : State) :
    (s.setCtx k c).dieMon d' = s.dieMon d' := rfl
@[simp] theorem modArr_dieMon (f : ArrayCtl → ArrayCtl) (d' : Fin 2) (s : State) :
    (s.modArr f).dieMon d' = s.dieMon d' := rfl
@[simp] theorem modPort_dieMon (f : Port → Port) (d' : Fin 2) (s : State) : (s.modPort f).dieMon d' = s.dieMon d' := rfl
@[simp] theorem setMem_dieMon (m : List Host.Cell) (d' : Fin 2) (s : State) :
    (s.setMem m).dieMon d' = s.dieMon d' := rfl
@[simp] theorem setDie_dieMon (d : Fin 2) (x : Die) (d' : Fin 2) (s : State) :
    (s.setDie d x).dieMon d' = s.dieMon d' := rfl
@[simp] theorem setBank_dieMon (d : Fin 2) (b : Fin 8) (x : Bank) (d' : Fin 2) (s : State) :
    (s.setBank d b x).dieMon d' = s.dieMon d' := rfl
@[simp] theorem setQueues_dieMon (q w : List Txn) (d' : Fin 2) (s : State) :
    (s.setQueues q w).dieMon d' = s.dieMon d' := rfl
@[simp] theorem setPending_dieMon (l : List Instr) (d' : Fin 2) (s : State) :
    (s.setPending l).dieMon d' = s.dieMon d' := rfl
@[simp] theorem enqueue_dieMon (f : Frame) (d' : Fin 2) (s : State) : (s.enqueue f).dieMon d' = s.dieMon d' := rfl
@[simp] theorem release_dieMon (tag : Byte) (d' : Fin 2) (s : State) : (s.release tag).dieMon d' = s.dieMon d' := rfl
@[simp] theorem markEnding_dieMon (tag : Byte) (d' : Fin 2) (s : State) :
    (s.markEnding tag).dieMon d' = s.dieMon d' := rfl
@[simp] theorem countDiscard_dieMon (d' : Fin 2) (s : State) : (s.countDiscard).dieMon d' = s.dieMon d' := rfl

/-! Reading back what an update wrote -/

@[simp] theorem setEntry_entry_same (i : Fin 32) (e : Entry) (s : State) : (s.setEntry i e).entry i = e := by
  simp [State.setEntry, State.entry]

theorem setEntry_entry_other {i j : Fin 32} (h : j ≠ i) (e : Entry) (s : State) :
    (s.setEntry i e).entry j = s.entry j := by
  have : i.val ≠ j.val := fun c => h (Fin.ext c.symm)
  simp [State.setEntry, State.entry, this]

theorem setEntry_entry (i j : Fin 32) (e : Entry) (s : State) :
    (s.setEntry i e).entry j = if j = i then e else s.entry j := by
  split
  · subst_vars; simp
  · exact setEntry_entry_other (by assumption) e s

@[simp] theorem setDie_die_same (d : Fin 2) (x : Die) (s : State) : (s.setDie d x).die d = x := by
  simp [State.setDie, State.modArr, State.die]

theorem setDie_die_other {d d' : Fin 2} (h : d' ≠ d) (x : Die) (s : State) : (s.setDie d x).die d' = s.die d' := by
  have : d.val ≠ d'.val := fun c => h (Fin.ext c.symm)
  simp [State.setDie, State.modArr, State.die, this]

theorem setDie_die (d d' : Fin 2) (x : Die) (s : State) :
    (s.setDie d x).die d' = if d' = d then x else s.die d' := by
  split
  · subst_vars; simp
  · exact setDie_die_other (by assumption) x s

@[simp] theorem setDieMon_dieMon_same (d : Fin 2) (x : DieMonitor) (s : State) : (s.setDieMon d x).dieMon d = x := by
  simp [State.setDieMon, State.modMon, State.dieMon]

theorem setDieMon_dieMon_other {d d' : Fin 2} (h : d' ≠ d) (x : DieMonitor) (s : State) :
    (s.setDieMon d x).dieMon d' = s.dieMon d' := by
  have : d.val ≠ d'.val := fun c => h (Fin.ext c.symm)
  simp [State.setDieMon, State.modMon, State.dieMon, this]

@[simp] theorem setCtx_ctx_same (k : Fin 4) (c : Option Ctx) (s : State) : (s.setCtx k c).ctx k = c := by
  simp [State.setCtx, State.ctx]

theorem setCtx_ctx_other {k k' : Fin 4} (h : k' ≠ k) (c : Option Ctx) (s : State) :
    (s.setCtx k c).ctx k' = s.ctx k' := by
  have : k.val ≠ k'.val := fun e => h (Fin.ext e.symm)
  simp [State.setCtx, State.ctx, this]

@[simp] theorem setBank_bank_same (d : Fin 2) (b : Fin 8) (x : Bank) (s : State) : (s.setBank d b x).bank d b = x := by
  simp [State.setBank, State.bank]

theorem setBank_bank_other {d : Fin 2} {b b' : Fin 8} (h : b' ≠ b) (x : Bank) (s : State) :
    (s.setBank d b x).bank d b' = s.bank d b' := by
  have : b.val ≠ b'.val := fun e => h (Fin.ext e.symm)
  simp [State.setBank, State.bank, this]

end Sys2Proof.Laws
end

