-- ==== Sys2Proof/Laws/Moves.lean ====
section
/-! SUPPORT. What a step can do, said once: `Moves p q ap s t` holds when `t` comes from `s` by updates each of which keeps
its own part of the state in order; updates of the array's contents need `p`, updates of the receiver, the decoder and the
transmitter need `q`, and the admission of an APPEND needs `ap`. One lemma per operation says that it moves so; an invariant
then needs one case per kind of update. -/

namespace Sys2Proof.Laws

open Sys2Proof.Machine

/-- The counters of an entry stay in order, and its reserved head leads the committed head by no more (R4). -/
def CountersMove (old new : Entry) : Prop :=
  old.CountersKept → new.CountersKept ∧ new.reserved - new.committed ≤ old.reserved - old.committed

/-- How an entry of the directory may change: it keeps its stripes, it becomes FREE, or it takes stripes that no other
entry holds. Its counters stay in order unless an APPEND is admitted. -/
inductive EntryMove (ap : Prop) (s : State) (i : Fin 32) : Entry → Prop
  | keeps (e : Entry) : e.base = (s.entry i).base → e.count = (s.entry i).count →
      (e.state = .free → (s.entry i).state = .free) → (ap ∨ CountersMove (s.entry i) e) → EntryMove ap s i e
  | frees : EntryMove ap s i Entry.free
  | takes (e : Entry) : e.state ≠ .free →
      (∀ j, j ≠ i → (s.entry j).state ≠ .free →
        rangesMeet e.base e.count (s.entry j).base (s.entry j).count = false) →
      e.CountersKept → e.reserved = e.committed → EntryMove ap s i e

/-- The receiver, the decoder and the transmitter stand as they stood. -/
def SameIn (l m : Link) : Prop :=
  l.rate = m.rate ∧ l.rx = m.rx ∧ l.rxIdle = m.rxIdle ∧ l.bufs = m.bufs ∧ l.heldOrder = m.heldOrder ∧
    l.decoderSlot = m.decoderSlot ∧ l.tx = m.tx ∧ l.reset = m.reset

/-- The updates a step is made of. -/
inductive Moves (p q ap : Prop) (s : State) : State → Prop
  | refl : Moves p q ap s s
  | link {t : State} (l : Link) : Moves p q ap s t → (t.link.discards ≤ 65535 → l.discards ≤ 65535) →
      (q ∨ SameIn l t.link) → Moves p q ap s { t with link := l }
  | table {t : State} (x : List TableEntry) : Moves p q ap s t → (t.table.length ≤ 16 → x.length ≤ 16) →
      Moves p q ap s { t with table := x }
  | entry {t : State} (i : Fin 32) (e : Entry) : Moves p q ap s t → EntryMove ap t i e → Moves p q ap s (t.setEntry i e)
  | fetches {t : State} (x : List Fetch) : Moves p q ap s t → Moves p q ap s { t with fetches := x }
  | drops {t : State} (x : List DropOp) : Moves p q ap s t → Moves p q ap s { t with drops := x }
  | ctxs {t : State} (x : Vector (Option Ctx) 4) : Moves p q ap s t → Moves p q ap s { t with ctxs := x }
  | die {t : State} (d : Fin 2) (x : Die) : Moves p q ap s t → ((t.die d).Ok → x.Ok) → Moves p q ap s (t.setDie d x)
  | queues {t : State} (x w : List Txn) : Moves p q ap s t → (t.QueueOk → QueuesOk x w) → Moves p q ap s (t.setQueues x w)
  | arr {t : State} (a : ArrayCtl) : Moves p q ap s t → a.dies = t.arr.dies → a.queue = t.arr.queue →
      a.waiting = t.arr.waiting → Moves p q ap s { t with arr := a }
  | mon {t : State} (m : Monitor) : Moves p q ap s t →
      ((∀ d : Fin 2, (t.dieMon d).drift ≤ 65535) → ∀ d : Fin 2, m.dies[d].drift ≤ 65535) →
      Moves p q ap s { t with mon := m }
  | port {t : State} (x : Port) : Moves p q ap s t → Moves p q ap s { t with port := x }
  | mem {t : State} (m : List Host.Cell) : p → Moves p q ap s t → (Memory.wf t.mem → Memory.wf m) →
      Moves p q ap s { t with mem := m }
  | draws {t : State} (n : Nat) : Moves p q ap s t → Moves p q ap s { t with freeDraws := n }
  | restart {t : State} (supply : Nat) : p → q → Moves p q ap s t → Moves p q ap s (powerOnReset supply t)


theorem Moves.trans {p q ap : Prop} {s t u : State} (h : Moves p q ap s t) (k : Moves p q ap t u) : Moves p q ap s u := by
  induction k with
  | refl => exact h
  | link l _ hd hs ih => exact .link l ih hd hs
  | table x _ hx ih => exact .table x ih hx
  | entry i e _ he ih => exact .entry i e ih he
  | fetches x _ ih => exact .fetches x ih
  | drops x _ ih => exact .drops x ih
  | ctxs x _ ih => exact .ctxs x ih
  | die d x _ hx ih => exact .die d x ih hx
  | queues x w _ hx ih => exact .queues x w ih hx
  | arr a _ h1 h2 h3 ih => exact .arr a ih h1 h2 h3
  | mon m _ hm ih => exact .mon m ih hm
  | port x _ ih => exact .port x ih
  | mem m hp _ hm ih => exact .mem m hp ih hm
  | draws n _ ih => exact .draws n ih
  | restart n hp hq _ ih => exact .restart n hp hq ih

/-- Where no update may touch them, the receiver, the decoder and the transmitter stand as they stood. -/
theorem Moves.sameIn {p ap : Prop} {s t : State} (h : Moves p False ap s t) : SameIn t.link s.link := by
  induction h with
  | refl => exact ⟨rfl, rfl, rfl, rfl, rfl, rfl, rfl, rfl⟩
  | link l _ _ hs ih =>
    obtain ⟨a1, a2, a3, a4, a5, a6, a7, a8⟩ := hs.resolve_left id
    obtain ⟨b1, b2, b3, b4, b5, b6, b7, b8⟩ := ih
    exact ⟨a1.trans b1, a2.trans b2, a3.trans b3, a4.trans b4, a5.trans b5, a6.trans b6, a7.trans b7, a8.trans b8⟩
  | restart _ _ hq => exact hq.elim
  | table _ _ _ ih | entry _ _ _ _ ih | fetches _ _ ih | drops _ _ ih | ctxs _ _ ih | die _ _ _ _ ih
  | queues _ _ _ _ ih | arr _ _ _ _ _ ih | mon _ _ _ ih | port _ _ ih | mem _ _ _ _ ih | draws _ _ ih => exact ih

/-- Where no update may touch it, the memory stands as it stood. -/
theorem Moves.sameMem {q ap : Prop} {s t : State} (h : Moves False q ap s t) : t.mem = s.mem := by
  induction h with
  | refl => rfl
  | mem _ hp => exact hp.elim
  | restart _ hp => exact hp.elim
  | link _ _ _ _ ih | table _ _ _ ih | entry _ _ _ _ ih | fetches _ _ ih | drops _ _ ih | ctxs _ _ ih
  | die _ _ _ _ ih | queues _ _ _ _ ih | arr _ _ _ _ _ ih | mon _ _ _ ih | port _ _ ih | draws _ _ ih => exact ih

section

variable {p q ap : Prop} {s t : State}

/-! ### The updates of one field -/

/-- An update of the link that leaves the receiver, the decoder and the transmitter. -/
theorem quietLink_moves {f : Link → Link} (h : Moves p q ap s t) (hd : ∀ l, (f l).discards = l.discards)
    (hs : ∀ l, SameIn (f l) l) : Moves p q ap s (t.modLink f) := .link _ h (fun x => by rw [hd]; exact x) (.inr (hs _))

theorem modLink_moves {f : Link → Link} (h : Moves p True ap s t) (hd : ∀ l, (f l).discards = l.discards) :
    Moves p True ap s (t.modLink f) := .link _ h (fun x => by rw [hd]; exact x) (.inl trivial)

theorem sameIn_refl (l : Link) : SameIn l l := ⟨rfl, rfl, rfl, rfl, rfl, rfl, rfl, rfl⟩

theorem setTable_moves {x : List TableEntry} (h : Moves p q ap s t) (hx : t.table.length ≤ 16 → x.length ≤ 16) :
    Moves p q ap s (t.setTable x) := .table x h hx

theorem keepEntry_moves {i : Fin 32} {e : Entry} (h : Moves p q ap s t) (hb : e.base = (t.entry i).base)
    (hc : e.count = (t.entry i).count) (hf : e.state = .free → (t.entry i).state = .free)
    (hk : ap ∨ CountersMove (t.entry i) e) : Moves p q ap s (t.setEntry i e) := .entry i e h (.keeps e hb hc hf hk)

/-- A change that leaves the counters, the pending batches and the stripes, and makes no entry OPEN, SEALED or RECOVERING
that cannot have been, keeps the counters in order. -/
theorem countersMove_same {old new : Entry} (h1 : new.oldest = old.oldest) (h2 : new.committed = old.committed)
    (h3 : new.reserved = old.reserved) (h4 : new.batches = old.batches) (h5 : new.count = old.count)
    (h6 : new.state = old.state ∨ new.state = .dropping ∨ old.state = .opened ∨ old.state = .recovering) :
    CountersMove old new := by
  rintro ⟨k1, k2, k3⟩
  refine ⟨⟨fun h => ?_, ?_, fun h => ?_⟩, by omega⟩
  · simp only [Entry.CountersOk, Entry.capacity, h1, h2, h3, h4, h5] at k1 ⊢
    refine k1 fun hd => ?_
    rcases h6 with h6 | h6 | h6 | h6 <;> simp_all
  · simp only [Entry.capacity, h1, h2, h3, h4, h5] at k2 ⊢
    exact k2
  · rw [h5]
    refine k3 ?_
    rcases h6 with h6 | h6 | h6 | h6 <;> simp_all

@[simp] theorem setFetches_moves {x : List Fetch} (h : Moves p q ap s t) : Moves p q ap s (t.setFetches x) := .fetches x h
@[simp] theorem setDrops_moves {x : List DropOp} (h : Moves p q ap s t) : Moves p q ap s (t.setDrops x) := .drops x h
@[simp] theorem setCtx_moves {k : Fin 4} {c : Option Ctx} (h : Moves p q ap s t) :
    Moves p q ap s (t.setCtx k c) := .ctxs _ h
@[simp] theorem modPort_moves {f : Port → Port} (h : Moves p q ap s t) : Moves p q ap s (t.modPort f) := .port _ h

theorem modArr_moves {f : ArrayCtl → ArrayCtl} (h : Moves p q ap s t)
    (hf : ∀ a, (f a).dies = a.dies ∧ (f a).queue = a.queue ∧ (f a).waiting = a.waiting) : Moves p q ap s (t.modArr f) :=
  .arr _ h (hf _).1 (hf _).2.1 (hf _).2.2

theorem modMon_moves {f : Monitor → Monitor} (h : Moves p q ap s t) (hf : ∀ m, (f m).dies = m.dies) :
    Moves p q ap s (t.modMon f) := .mon _ h fun x d => by
      have := x d
      simpa [hf, State.dieMon] using this

theorem setDieMon_moves {d : Fin 2} {x : DieMonitor} (h : Moves p q ap s t)
    (hx : (t.dieMon d).drift ≤ 65535 → x.drift ≤ 65535) : Moves p q ap s (t.setDieMon d x) := .mon _ h fun k d' => by
  rw [show ({ t.mon with dies := t.mon.dies.set d x } : Monitor).dies[d'] = if d' = d then x else t.dieMon d' by
    simp only [State.dieMon, Fin.getElem_fin, Vector.getElem_set, Fin.ext_iff, eq_comm]]
  split
  · exact hx (k d)
  · exact k d'

theorem setDie_moves {d : Fin 2} {x : Die} (h : Moves p q ap s t) (hx : (t.die d).Ok → x.Ok) :
    Moves p q ap s (t.setDie d x) := .die d x h hx

theorem setMem_moves {m : List Host.Cell} (hp : p) (h : Moves p q ap s t) (hm : Memory.wf t.mem → Memory.wf m) :
    Moves p q ap s (t.setMem m) := .mem m hp h hm

theorem forEach_moves {α : Type} {l : List α} {f : α → State → State} (h : Moves p q ap s t)
    (hf : ∀ a u, Moves p q ap s u → Moves p q ap s (f a u)) : Moves p q ap s (forEach l f t) := by
  unfold forEach
  induction l generalizing t with
  | nil => exact h
  | cons a l ih => exact ih (hf a t h)

theorem freely_moves {α : Type} {l o : List α} {u : State} (h : Moves p q ap s t) (e : t.freely l = (o, u)) :
    Moves p q ap s u := by
  unfold State.freely at e
  split at e <;> cases e
  · exact h
  · exact .draws _ h

/-! ### Frames, slots and responses (Ops) -/

@[simp] theorem enqueue_moves {f : Frame} (h : Moves p q ap s t) : Moves p q ap s (t.enqueue f) :=
  quietLink_moves h (fun _ => rfl) sameIn_refl

@[simp] theorem release_moves {tag : Byte} (h : Moves p q ap s t) : Moves p q ap s (t.release tag) :=
  setTable_moves h fun x => Nat.le_trans (List.length_filter_le _ _) x

@[simp] theorem markEnding_moves {tag : Byte} (h : Moves p q ap s t) : Moves p q ap s (t.markEnding tag) :=
  setTable_moves h fun x => by simpa using x

@[simp] theorem respond_moves {tag : Byte} {k : Kind} {r : Result} {f : List Byte} (h : Moves p q ap s t) :
    Moves p q ap s (t.respond tag k r f) := release_moves (enqueue_moves h)

@[simp] theorem badValue_moves {tag : Byte} {k : Kind} {i : Byte} (h : Moves p q ap s t) :
    Moves p q ap s (t.badValue tag k i) :=
  respond_moves h

@[simp] theorem noticeSent_moves {n : Notice} (h : Moves p q ap s t) : Moves p q ap s (t.noticeSent n) := by
  unfold State.noticeSent
  split
  · exact .link _ h (fun _ => by simp) (.inr (sameIn_refl t.link))
  · exact setDie_moves h fun x => ⟨x.1, Nat.zero_le _, x.2.2.1, x.2.2.2⟩
  · exact h
  · exact h

@[simp] theorem queueNotice_moves {n : Notice} (h : Moves p q ap s t) : Moves p q ap s (t.queueNotice n) :=
  noticeSent_moves (enqueue_moves h)

@[simp] theorem waitForSlot_moves {c : Claimant} (h : Moves p q ap s t) : Moves p q ap s (t.waitForSlot c) := by
  unfold State.waitForSlot
  split
  · exact h
  · exact quietLink_moves h (fun _ => rfl) sameIn_refl

@[simp] theorem raise_moves {n : Notice} (h : Moves p q ap s t) : Moves p q ap s (t.raise n) := by
  unfold State.raise
  split
  · exact h
  · split
    · exact queueNotice_moves h
    · exact waitForSlot_moves h

@[simp] theorem countDiscard_moves (h : Moves p q ap s t) : Moves p q ap s t.countDiscard := by
  refine .link _ h (fun _ => ?_) (.inr (sameIn_refl t.link))
  dsimp only
  split <;> omega

/-! ### Queues and withdrawals (R94 to R98) -/

theorem issuedCount_append (v w : List Txn) (d : Fin 2) (b : Fin 8) :
    issuedCount (v ++ w) d b = issuedCount v d b + issuedCount w d b := by simp [issuedCount]

theorem issuedCount_waiting {w : List Txn} (h : ∀ t ∈ w, t.issued = false) (d : Fin 2) (b : Fin 8) :
    issuedCount w d b = 0 := by
  simp only [issuedCount, List.length_eq_zero_iff, List.filter_eq_nil_iff]
  intro t ht
  simp [h t ht]

/-- Moving transactions from the head of the waiting list into free places keeps the queue in order. -/
theorem queuesOk_refill {v w : List Txn} (h : QueuesOk v w) :
    QueuesOk (v ++ w.take (32 - v.length)) (w.drop (32 - v.length)) := by
  obtain ⟨h1, h2, h3, h4⟩ := h
  refine ⟨?_, fun t ht => h2 t (List.mem_of_mem_drop ht), ?_, ?_⟩
  · simp only [List.length_append, List.length_take]; omega
  · intro t ht
    apply h3 t
    simpa [List.append_assoc] using ht
  · intro d b
    rw [issuedCount_append, issuedCount_waiting fun t ht => h2 t (List.mem_of_mem_take ht)]
    simpa using h4 d b

/-- Dropping and marking transactions keeps the queue in order, as long as none becomes ISSUED. -/
theorem queuesOk_filterMap {v w : List Txn} (f : Txn → Txn) (keep keepW : Txn → Bool)
    (hf : ∀ t, (f t).issued = t.issued ∧ (f t).passOver = t.passOver ∧ ∀ d b, (f t).isFor d b = t.isFor d b)
    (h : QueuesOk v w) : QueuesOk ((v.filter keep).map f) (w.filter keepW) := by
  obtain ⟨h1, h2, h3, h4⟩ := h
  refine ⟨?_, fun t ht => h2 t ((List.mem_filter.mp ht).1), ?_, ?_⟩
  · rw [List.length_map]; exact Nat.le_trans (List.length_filter_le _ _) h1
  · intro t ht
    rw [List.mem_append, List.mem_map] at ht
    rcases ht with ⟨u, hu, rfl⟩ | ht
    · rw [(hf u).2.1]; exact h3 u (List.mem_append_left _ ((List.mem_filter.mp hu).1))
    · exact h3 t (List.mem_append_right _ ((List.mem_filter.mp ht).1))
  · intro d b
    refine Nat.le_trans ?_ (h4 d b)
    simp only [issuedCount, List.filter_map, List.length_map]
    have : ((fun t : Txn => t.issued && t.isFor d b) ∘ f) = fun t => t.issued && t.isFor d b := by
      funext t; simp [(hf t).1, (hf t).2.2 d b]
    rw [this]
    exact List.Sublist.length_le (List.Sublist.filter _ List.filter_sublist)

@[simp] theorem refill_moves (h : Moves p q ap s t) : Moves p q ap s t.refill := .queues _ _ h queuesOk_refill

@[simp] theorem withdraw_moves {mine : Txn → Bool} (h : Moves p q ap s t) : Moves p q ap s (t.withdraw mine) := by
  unfold State.withdraw
  refine refill_moves (.queues _ _ h fun k => queuesOk_filterMap _ _ _ (fun t => ?_) k)
  split <;> exact ⟨rfl, rfl, fun _ _ => rfl⟩

/-- A transaction that enters as WAITING with no pass-over count keeps the queue in order (R94, R95). -/
theorem queuesOk_issue {v w : List Txn} {x : Txn} (hi : x.issued = false) (hp : x.passOver = 0) (h : QueuesOk v w) :
    (v.length < 32 → QueuesOk (v ++ [x]) w) ∧ QueuesOk v (w ++ [x]) := by
  obtain ⟨h1, h2, h3, h4⟩ := h
  refine ⟨fun hl => ⟨by simp; omega, h2, ?_, ?_⟩, ⟨h1, ?_, ?_, h4⟩⟩
  · intro t ht
    simp only [List.mem_append, List.mem_singleton] at ht
    rcases ht with (ht | rfl) | ht
    · exact h3 t (by simp [ht])
    · omega
    · exact h3 t (by simp [ht])
  · intro d b
    rw [issuedCount_append]
    have := h4 d b
    simpa [issuedCount, hi] using this
  · intro t ht
    simp only [List.mem_append, List.mem_singleton] at ht
    rcases ht with ht | rfl
    · exact h2 t ht
    · exact hi
  · intro t ht
    simp only [List.mem_append, List.mem_singleton] at ht
    rcases ht with ht | ht | rfl
    · exact h3 t (by simp [ht])
    · exact h3 t (by simp [ht])
    · omega

theorem allIdle_iff (x : Die) : x.allIdle = true ↔ ∀ b : Fin 8, x.banks[b].state = .idle := by
  simp only [Die.allIdle, allBanks, List.all_cons, List.all_nil, Bool.and_true, Bool.and_eq_true, beq_iff_eq]
  constructor
  · rintro ⟨h0, h1, h2, h3, h4, h5, h6, h7⟩ b
    match b with
    | 0 => exact h0
    | 1 => exact h1
    | 2 => exact h2
    | 3 => exact h3
    | 4 => exact h4
    | 5 => exact h5
    | 6 => exact h6
    | 7 => exact h7
  · intro h
    exact ⟨h 0, h 1, h 2, h 3, h 4, h 5, h 6, h 7⟩

theorem allIdle_fresh (x : Die) (h : x.banks = Vector.replicate 8 Bank.idle) : x.allIdle = true := by
  rw [allIdle_iff, h]
  intro b
  simp [Bank.idle]

@[simp] theorem beginWake_moves {d : Fin 2} (h : Moves p q ap s t) : Moves p q ap s (t.beginWake d) := by
  unfold State.beginWake
  split
  · exact setDie_moves h fun x => ⟨Nat.zero_le _, x.2.1, fun _ => allIdle_fresh _ rfl, fun _ => allIdle_fresh _ rfl⟩
  · exact h

@[simp] theorem issue_moves {x : Txn} (h : Moves p q ap s t) (hi : x.issued = false) (hp : x.passOver = 0) :
    Moves p q ap s (t.issue x) := by
  have key : Moves p q ap s (if t.arr.queue.length < 32 then t.setQueues (t.arr.queue ++ [x]) t.arr.waiting
      else t.setQueues t.arr.queue (t.arr.waiting ++ [x])) := by
    split
    · exact .queues _ _ h fun k => (queuesOk_issue hi hp k).1 (by assumption)
    · exact .queues _ _ h fun k => (queuesOk_issue hi hp k).2
  unfold State.issue
  dsimp only
  split
  · exact key
  · exact beginWake_moves key

@[simp] theorem leaveQueue_moves {f : Txn → Bool} (h : Moves p q ap s t) : Moves p q ap s (t.leaveQueue f) := by
  unfold State.leaveQueue
  refine refill_moves (.queues _ _ h fun k => ?_)
  obtain ⟨h1, h2, h3, h4⟩ := k
  have hs : (t.arr.queue.eraseP f).Sublist t.arr.queue := List.eraseP_sublist
  refine ⟨Nat.le_trans hs.length_le h1, h2, ?_, fun d b => Nat.le_trans (hs.filter _).length_le (h4 d b)⟩
  intro u hu
  rw [List.mem_append] at hu
  rcases hu with hu | hu
  · exact h3 u (List.mem_append_left _ (hs.subset hu))
  · exact h3 u (List.mem_append_right _ hu)

@[simp] theorem completeRead_moves {d : Fin 2} {b : Fin 8} (h : Moves p q ap s t) : Moves p q ap s (t.completeRead d b) :=
  leaveQueue_moves h

theorem setBank_moves {d : Fin 2} {b : Fin 8} {x : Bank} (h : Moves p q ap s t)
    (hx : (t.bank d b).state = .idle → x.state = .idle) : Moves p q ap s (t.setBank d b x) := by
  refine setDie_moves h fun k => ⟨k.1, k.2.1, fun c => ?_, fun c => ?_⟩
  all_goals
    have idle := (allIdle_iff (t.die d)).mp (by first | exact k.2.2.1 c | exact k.2.2.2 c)
    rw [allIdle_iff]
    intro b'
    simp only [Fin.getElem_fin, Vector.getElem_set]
    split
    · exact hx (idle b)
    · exact idle b'

theorem completeWrite_moves {d : Fin 2} {b : Fin 8} {x : Txn} (hp : p) (h : Moves p q ap s t) :
    Moves p q ap s (t.completeWrite d b x) := by
  unfold State.completeWrite
  dsimp only
  refine leaveQueue_moves (setBank_moves (setDie_moves ?_ fun k => k) fun k => ?_)
  · split
    · exact setMem_moves hp h fun k => memory_wf_putRecords k _ _ _
    · exact h
  · simpa [State.bank] using k

/-! ### Moments that requests wait for (Ops, Directory) -/

@[simp] theorem checkReset_moves (h : Moves p True ap s t) : Moves p True ap s t.checkReset := by
  unfold State.checkReset
  split
  · exact h
  · split
    · exact h
    · exact modLink_moves (respond_moves h) fun _ => rfl

@[simp] theorem checkPower_moves (h : Moves p q ap s t) : Moves p q ap s t.checkPower := by
  unfold State.checkPower
  split
  · exact h
  · split
    · exact modArr_moves (respond_moves h) fun _ => ⟨rfl, rfl, rfl⟩
    · exact h

@[simp] theorem checkStart_moves (h : Moves p q ap s t) : Moves p q ap s t.checkStart := by
  unfold State.checkStart
  split
  · exact h
  · split
    · exact modArr_moves (respond_moves h) fun _ => ⟨rfl, rfl, rfl⟩
    · exact h

@[simp] theorem freeEntry_moves {i : Fin 32} (h : Moves p q ap s t) :
    Moves p q ap s (t.freeEntry i) := .entry i _ h .frees

@[simp] theorem checkDrop_moves {i : Fin 32} (h : Moves p q ap s t) : Moves p q ap s (t.checkDrop i) := by
  unfold State.checkDrop
  dsimp only
  split
  · split
    · exact freeEntry_moves h
    · exact respond_moves (setDrops_moves (freeEntry_moves h))
  · exact h

/-- A commit of the head of the list keeps the counters in order (R4, R29). -/
theorem commit_countersMove {e : Entry} {b : Batch} {rest : List Batch} (h : e.batches = b :: rest) :
    CountersMove e (e.commit b rest) := by
  rintro ⟨k1, k2, k3⟩
  simp only [Entry.CountersOk, Entry.capacity, h, pendingRecords, List.map_cons, List.sum_cons] at k1 k2
  refine ⟨⟨fun hd => ?_, ?_, k3⟩, by simp only [Entry.commit]; omega⟩
  · have := k1 hd
    simp only [Entry.CountersOk, Entry.capacity, Entry.commit, pendingRecords]
    omega
  · simp only [Entry.capacity, Entry.commit, pendingRecords]
    omega

theorem commits_moves {i : Fin 32} {bs : List Batch} (h : Moves p q ap s t) (hb : (t.entry i).batches = bs) :
    Moves p q ap s (State.commits i bs t) := by
  induction bs generalizing t with
  | nil => exact h
  | cons b bs ih =>
    unfold State.commits
    split
    · exact ih (respond_moves (keepEntry_moves h rfl rfl (fun k => k) (.inr (commit_countersMove hb)))) (by
        show ((t.setEntry i _).entry i).batches = bs
        rw [setEntry_entry, if_pos rfl]
        rfl)
    · exact h

@[simp] theorem unclaimSlots_moves {f : SlotClaim → Bool} (h : Moves p q ap s t) : Moves p q ap s (t.unclaimSlots f) := by
  refine forEach_moves h fun i u k => ?_
  split
  · split
    · exact keepEntry_moves k rfl rfl (fun e => e) (.inr (countersMove_same rfl rfl rfl rfl rfl (.inl rfl)))
    · exact k
  · exact k

/-! ### The scan engine -/

@[simp] theorem modCtx_moves {k : Fin 4} {f : Ctx → Ctx} (h : Moves p q ap s t) : Moves p q ap s (t.modCtx k f) := by
  unfold State.modCtx
  split <;> simp [h]

@[simp] theorem finishScan_moves {k : Fin 4} (h : Moves p q ap s t) : Moves p q ap s (t.finishScan k) := by
  unfold State.finishScan
  split
  · exact h
  · split
    · exact checkDrop_moves (setCtx_moves (respond_moves h))
    · exact h

@[simp] theorem sendHits_moves {k : Fin 4} (h : Moves p q ap s t) : Moves p q ap s (t.sendHits k) := by
  unfold State.sendHits
  split
  · exact h
  · exact setCtx_moves (enqueue_moves h)

@[simp] theorem fullHits_moves {k : Fin 4} (h : Moves p q ap s t) : Moves p q ap s (t.fullHits k) := by
  unfold State.fullHits
  split
  · exact sendHits_moves h
  · exact waitForSlot_moves (modCtx_moves h)

@[simp] theorem drainHits_moves {k : Fin 4} (h : Moves p q ap s t) : Moves p q ap s (t.drainHits k) := by
  unfold State.drainHits
  (repeat' split) <;> simp [h]

@[simp] theorem endScan_moves {k : Fin 4} {r : EndReason} (h : Moves p q ap s t) : Moves p q ap s (t.endScan k r) := by
  unfold State.endScan
  split
  · exact h
  · split
    · exact h
    · exact finishScan_moves (drainHits_moves (markEnding_moves (withdraw_moves (setCtx_moves h))))

@[simp] theorem issueTxn_moves {e : Entry} {o : Origin} {dir : Dir} {m n : Nat} {data : List Record}
    (h : Moves p q ap s t) : Moves p q ap s (t.issue (e.txn o dir m n data)) := issue_moves h rfl rfl

@[simp] theorem readInto_moves {k : Fin 4} {b : Bool} (h : Moves p q ap s t) : Moves p q ap s (t.readInto k b) := by
  unfold State.readInto
  dsimp only
  (repeat' split) <;> simp [h]

@[simp] theorem issueReads_moves {k : Fin 4} (h : Moves p q ap s t) : Moves p q ap s (t.issueReads k) :=
  readInto_moves (readInto_moves h)

@[simp] theorem evalRecord_moves {k : Fin 4} {m : Nat} {r : Record} (h : Moves p q ap s t) :
    Moves p q ap s (t.evalRecord k m r) := by
  unfold State.evalRecord
  dsimp only
  (repeat' split) <;> simp [h]

@[simp] theorem evalRecords_moves {k : Fin 4} {m : Nat} {rs : List Record} (h : Moves p q ap s t) :
    Moves p q ap s (t.evalRecords k m rs) := by
  induction rs generalizing t m with
  | nil => exact h
  | cons r rs ih =>
    unfold State.evalRecords
    split
    · exact ih (evalRecord_moves h)
    · exact h

@[simp] theorem evalBuffers_moves {k : Fin 4} {n : Nat} (h : Moves p q ap s t) : Moves p q ap s (t.evalBuffers k n) := by
  induction n generalizing t with
  | zero => exact h
  | succ n ih =>
    unfold State.evalBuffers
    split
    · exact h
    · split
      · exact h
      · split
        · exact endScan_moves h
        · dsimp only
          split
          · exact setCtx_moves h
          · split
            · exact ih (issueReads_moves (modCtx_moves (evalRecords_moves (setCtx_moves h))))
            · exact evalRecords_moves (setCtx_moves h)

@[simp] theorem evaluate_moves {k : Fin 4} (h : Moves p q ap s t) : Moves p q ap s (t.evaluate k) := evalBuffers_moves h

@[simp] theorem startRange_moves {k : Fin 4} {m : Nat} (h : Moves p q ap s t) : Moves p q ap s (t.startRange k m) :=
  evaluate_moves (issueReads_moves (modCtx_moves h))

@[simp] theorem probeEdge_moves {k : Fin 4} (h : Moves p q ap s t) : Moves p q ap s (t.probeEdge k) := by
  unfold State.probeEdge
  split <;> simp [h]

@[simp] theorem probeMiddle_moves {k : Fin 4} (h : Moves p q ap s t) : Moves p q ap s (t.probeMiddle k) := by
  unfold State.probeMiddle
  split
  · exact h
  · exact issueTxn_moves (setCtx_moves h)

theorem searchOn_moves {k : Fin 4} {f : State → State} (h : Moves p q ap s t)
    (hf : ∀ u, Moves p q ap s u → Moves p q ap s (f u)) : Moves p q ap s (t.searchOn k f) := by
  unfold State.searchOn
  (repeat' split) <;> simp [h, hf]

@[simp] theorem edgeProbed_moves {k : Fin 4} {m : Nat} {r : Record} (h : Moves p q ap s t) :
    Moves p q ap s (t.edgeProbed k m r) := by
  unfold State.edgeProbed
  dsimp only
  split
  · exact h
  · split
    · exact searchOn_moves (setCtx_moves h) fun _ k => probeEdge_moves k
    · split
      · exact startRange_moves h
      · exact searchOn_moves (setCtx_moves h) fun _ k => probeMiddle_moves k

@[simp] theorem binaryProbed_moves {k : Fin 4} {m : Nat} {r : Record} (h : Moves p q ap s t) :
    Moves p q ap s (t.binaryProbed k m r) := by
  unfold State.binaryProbed
  dsimp only
  split
  · exact h
  · exact searchOn_moves (setCtx_moves h) fun _ k => probeMiddle_moves k

@[simp] theorem resolve_moves {k : Fin 4} {e : Entry} (h : Moves p q ap s t) : Moves p q ap s (t.resolve k e) := by
  unfold State.resolve
  dsimp only
  split
  · exact h
  · split
    · (repeat' split) <;> simp [h]
    · split
      · exact endScan_moves (setCtx_moves h)
      · exact searchOn_moves (setCtx_moves h) fun _ k => probeEdge_moves k

@[simp] theorem takeScan_moves {tag : Byte} {f : ScanFields} (h : Moves p q ap s t) :
    Moves p q ap s (takeScan tag f t) := by
  unfold takeScan
  dsimp only
  (repeat' split) <;> simp [h]

@[simp] theorem rowFilled_moves {k : Fin 4} {b : Bool} {rs : List Record} (h : Moves p q ap s t) :
    Moves p q ap s (t.rowFilled k b rs) := by
  unfold State.rowFilled
  (repeat' split) <;> simp [h]

@[simp] theorem rowReadComplete_moves {d : Fin 2} {b : Fin 8} (h : Moves p True ap s t) :
    Moves p True ap s (rowReadComplete d b t) := by
  unfold rowReadComplete
  dsimp only
  (repeat' split) <;> simp (maxDischargeDepth := 9) [h]

@[simp] theorem edgeProbeComplete_moves {d : Fin 2} {b : Fin 8} (h : Moves p True ap s t) :
    Moves p True ap s (edgeProbeComplete d b t) := by
  unfold edgeProbeComplete
  dsimp only
  (repeat' split) <;> simp (maxDischargeDepth := 9) [h]

@[simp] theorem binaryProbeComplete_moves {d : Fin 2} {b : Fin 8} (h : Moves p True ap s t) :
    Moves p True ap s (binaryProbeComplete d b t) := by
  unfold binaryProbeComplete
  dsimp only
  (repeat' split) <;> simp (maxDischargeDepth := 9) [h]

@[simp] theorem grantScan_moves {k : Fin 4} (h : Moves p q ap s t) : Moves p q ap s (t.grantScan k) := by
  unfold State.grantScan
  (repeat' split) <;> simp (maxDischargeDepth := 9) [h]

end

end Sys2Proof.Laws
end

