-- ==== Sys2Proof/Laws/MovesWork.lean ====
section
/-! SUPPORT. The operations of the preserve port and the store unit move as `Moves` says. -/

namespace Sys2Proof.Laws

open Sys2Proof.Machine

section

variable {p q ap : Prop} {s t : State}

/-! ### The preserve port -/

@[simp] theorem setTransfer_moves {x : Option Transfer} (h : Moves p q ap s t) :
    Moves p q ap s (t.setTransfer x) := modPort_moves h

@[simp] theorem startPage_moves {dir : Dir} {slot k : Nat} {ws : List Half} (h : Moves p q ap s t) :
    Moves p q ap s (t.startPage dir slot k ws) := modPort_moves h

@[simp] theorem modOp_moves {f : ImageOp → ImageOp} (h : Moves p q ap s t) : Moves p q ap s (t.modOp f) := modPort_moves h

@[simp] theorem finishOp_moves (h : Moves p q ap s t) : Moves p q ap s t.finishOp := by
  unfold State.finishOp
  (repeat' split) <;> simp (maxDischargeDepth := 9) [h]

@[simp] theorem endOp_moves {r : Result} {detail : List Byte} (h : Moves p q ap s t) :
    Moves p q ap s (t.endOp r detail) := by
  unfold State.endOp
  split
  · exact h
  · split
    · exact h
    · exact finishOp_moves (markEnding_moves (setTransfer_moves (withdraw_moves (modOp_moves h))))

@[simp] theorem writeHeader_moves {ph : Phase} {c : Bool} (h : Moves p q ap s t) :
    Moves p q ap s (t.writeHeader ph c) := by
  unfold State.writeHeader
  (repeat' split) <;> simp (maxDischargeDepth := 9) [h]

@[simp] theorem preservePage_moves {k : Nat} (h : Moves p q ap s t) : Moves p q ap s (t.preservePage k) := by
  unfold State.preservePage
  dsimp only
  split
  · exact h
  · exact forEach_moves (modPort_moves h) fun _ _ k => issueTxn_moves k

@[simp] theorem writePage_moves (h : Moves p q ap s t) : Moves p q ap s t.writePage := by
  unfold State.writePage
  dsimp only
  (repeat' split) <;> simp (maxDischargeDepth := 9) [h]

@[simp] theorem nextPreservePage_moves {k : Nat} (h : Moves p q ap s t) : Moves p q ap s (t.nextPreservePage k) := by
  unfold State.nextPreservePage
  (repeat' split) <;> simp [h]

@[simp] theorem completePreserve_moves {op : ImageOp} (h : Moves p q ap s t) : Moves p q ap s (t.completePreserve op) :=
  endOp_moves (keepEntry_moves h rfl rfl (fun k => k) (.inr (countersMove_same rfl rfl rfl rfl rfl (.inl rfl))))

@[simp] theorem preservePageEnd_moves {op : ImageOp} {x : Transfer} (h : Moves p q ap s t) :
    Moves p q ap s (t.preservePageEnd op x) := by
  unfold State.preservePageEnd
  (repeat' split) <;> simp (maxDischargeDepth := 9) [h]

@[simp] theorem takePreserve_moves {tag series slot : Byte} (h : Moves p q ap s t) :
    Moves p q ap s (takePreserve tag series slot t) := by
  unfold takePreserve
  dsimp only
  (repeat' split) <;> simp (maxDischargeDepth := 9) [h]

theorem completeRecover_moves (h : Moves p q ap s t)
    (hr : ap ∨ ∀ op, t.port.op = some op → (t.entry op.series).state = .recovering) :
    Moves p q ap s t.completeRecover := by
  unfold State.completeRecover
  dsimp only
  split
  · exact h
  · rename_i op ho
    split
    · exact h
    · refine endOp_moves (keepEntry_moves h rfl rfl (fun k => ?_) (hr.imp id fun hr =>
        countersMove_same rfl rfl rfl rfl rfl (.inr (.inr (.inr (hr op ho))))))
      exfalso
      dsimp only at k
      split at k <;> cases k

@[simp] theorem recoverPage_moves {k : Nat} (h : Moves p q ap s t) : Moves p q ap s (t.recoverPage k) := by
  unfold State.recoverPage
  (repeat' split) <;> simp (maxDischargeDepth := 9) [h]

theorem overlapping_none {base count : Nat} {x : Option (Fin 32)} (h : t.overlapping base count x = none)
    (j : Fin 32) (hj : some j ≠ x) (hf : (t.entry j).state ≠ .free) :
    rangesMeet base count (t.entry j).base (t.entry j).count = false := by
  have := List.find?_eq_none.mp h j (List.mem_finRange j)
  simp only [bne_iff_ne, ne_eq, Bool.and_eq_true, not_and, Bool.not_eq_true] at this
  exact this ⟨by simpa using hf, by simpa using hj⟩

/-- A header whose counters are in order (R4, R163). -/
def ImageHeader.InOrder (x : ImageHeader) : Prop :=
  x.oldest ≤ x.head ∧ x.head - x.oldest ≤ 512 * x.count ∧ x.head ≤ 4294967295 ∧ 1 ≤ x.count

theorem taken_countersKept {e : Entry} {x : ImageHeader} (hx : ImageHeader.InOrder x) : (e.taken x).CountersKept := by
  obtain ⟨h1, h2, h3, h4⟩ := hx
  simp only [Entry.CountersKept, Entry.CountersOk, Entry.capacity, Entry.taken, pendingRecords, List.map_nil, List.sum_nil]
  omega

theorem stripeStep_moves {op : ImageOp} {x : ImageHeader} (h : Moves p q ap s t) (hx : ImageHeader.InOrder x)
    (ho : t.port.op = some op) : Moves p q ap s (t.stripeStep op x) := by
  unfold State.stripeStep
  dsimp only
  split
  · simp [h]
  · split
    · simp [h]
    · split
      · simp [h]
      · rename_i hv
        have key : Moves p q ap s ((t.modOp fun op => { op with generation := x.generation, header := some x }).setEntry
            op.series (((t.modOp fun op => { op with generation := x.generation, header := some x }).entry
              op.series).taken x)) :=
          .entry _ _ (modOp_moves h) (.takes _ (by simp [Entry.taken])
            (fun j hj hf => overlapping_none hv j (by simpa using hj) hf) (taken_countersKept hx) rfl)
        split
        · refine completeRecover_moves (modOp_moves key) (.inr fun op' ho' => ?_)
          have hs : op'.series = op.series := by
            simp only [State.modOp, State.modPort, State.setEntry, ho, Option.map_some, Option.some.injEq] at ho'
            rw [← ho']
          rw [hs]
          show ((State.setEntry op.series _ _).entry op.series).state = _
          rw [setEntry_entry, if_pos rfl]
          rfl
        · exact recoverPage_moves (modOp_moves key)

theorem headerOf_inOrder {bytes : List Byte} {slotPages base : Nat} (h : (headerOf bytes).consistent slotPages = true) :
    ImageHeader.InOrder { headerOf bytes with base := base } := by
  have hl : (headerOf bytes).head < 256 ^ 4 := Nat.lt_of_lt_of_le (leNat_lt _)
    (Nat.pow_le_pow_right (by decide) (List.length_take_le ..))
  simp only [ImageHeader.consistent, within, Bool.and_eq_true, decide_eq_true_eq, beq_iff_eq] at h
  obtain ⟨⟨⟨⟨⟨⟨⟨⟨-, -⟩, -⟩, h1, -⟩, -⟩, h2⟩, h3⟩, h4⟩, -⟩ := h
  exact ⟨h2, h3 ▸ h4, Nat.le_of_lt_succ hl, h1⟩

theorem recoverHeader_moves {op : ImageOp} {x : Transfer} (h : Moves p q ap s t) (ho : t.port.op = some op) :
    Moves p q ap s (t.recoverHeader op x) := by
  unfold State.recoverHeader
  dsimp only
  (repeat' split) <;> first
    | exact endOp_moves h
    | exact stripeStep_moves h
        (headerOf_inOrder (slotPages := t.port.slotPages) (Bool.of_not_eq_false (by assumption))) ho
    | exact endOp_moves (modOp_moves h)

@[simp] theorem issueFormed_moves (h : Moves p q ap s t) : Moves p q ap s t.issueFormed := by
  unfold State.issueFormed
  dsimp only
  split
  · exact h
  · rename_i op _
    have key : Moves p q ap s (forEach ((t.entry op.series).cut op.pageFirst op.formed.length) (fun part =>
        State.issue ((t.entry op.series).txn .recoverWrite .write part.1 part.2
          ((op.formed.drop (part.1 - op.pageFirst)).take part.2))) (t.modOp fun op => { op with formed := [] })) :=
      forEach_moves (modOp_moves h) fun _ _ k => issueTxn_moves k
    split
    · exact recoverPage_moves key
    · exact key

@[simp] theorem recoverData_moves {op : ImageOp} {x : ImageHeader} {y : Transfer} (h : Moves p q ap s t) :
    Moves p q ap s (t.recoverData op x y) := by
  unfold State.recoverData
  dsimp only
  (repeat' split) <;> simp (maxDischargeDepth := 9) [h]

theorem recoverPageEnd_moves {op : ImageOp} {x : Transfer} (h : Moves p q ap s t) (ho : t.port.op = some op) :
    Moves p q ap s (t.recoverPageEnd op x) := by
  unfold State.recoverPageEnd
  (repeat' split) <;> simp [h, recoverHeader_moves h ho]

@[simp] theorem takeRecover_moves {tag slot target pr : Byte} {base : Half} (h : Moves p q ap s t) :
    Moves p q ap s (takeRecover tag slot target pr base t) := by
  unfold takeRecover
  dsimp only
  (repeat' split) <;> simp (maxDischargeDepth := 9) [h]

theorem toLost_countersMove (e : Entry) : CountersMove e e.toLost := by
  rintro ⟨-, k2, -⟩
  simp only [Entry.capacity] at k2
  simp only [Entry.CountersKept, Entry.CountersOk, Entry.capacity, Entry.toLost, pendingRecords, List.map_nil, List.sum_nil,
    reduceCtorEq, or_self, false_implies, and_true]
  omega

theorem toLost_moves {i : Fin 32} (h : Moves p q ap s t) : Moves p q ap s (t.setEntry i (t.entry i).toLost) :=
  keepEntry_moves h rfl rfl (fun k => by simp [Entry.toLost] at k) (.inr (toLost_countersMove _))

@[simp] theorem cancelOp_moves (h : Moves p q ap s t) : Moves p q ap s t.cancelOp := by
  unfold State.cancelOp
  split
  · exact h
  · split
    · exact endOp_moves (toLost_moves h)
    · exact endOp_moves h

@[simp] theorem preserveRead_moves {op : ImageOp} {m : Nat} {b : Bool} {rs : List Record} (h : Moves p q ap s t) :
    Moves p q ap s (t.preserveRead op m b rs) := by
  unfold State.preserveRead
  dsimp only
  (repeat' split) <;> simp (maxDischargeDepth := 9) [h]

@[simp] theorem preserveReadComplete_moves {d : Fin 2} {b : Fin 8} (h : Moves p True ap s t) :
    Moves p True ap s (preserveReadComplete d b t) := by
  unfold preserveReadComplete
  dsimp only
  (repeat' split) <;> simp (maxDischargeDepth := 9) [h]

theorem recoverWritten_moves {op : ImageOp} (h : Moves p q ap s t)
    (hr : ap ∨ ∀ op, t.port.op = some op → (t.entry op.series).state = .recovering) :
    Moves p q ap s (t.recoverWritten op) := by
  unfold State.recoverWritten
  (repeat' split) <;> simp [h, completeRecover_moves h hr]

/-- A write that completes leaves the port and the directory. -/
theorem completeWrite_sides (d : Fin 2) (b : Fin 8) (x : Txn) (s : State) :
    (s.completeWrite d b x).port = s.port ∧ (s.completeWrite d b x).dir = s.dir := by
  unfold State.completeWrite
  dsimp only
  split <;> exact ⟨rfl, rfl⟩

theorem recoverWriteComplete_moves {d : Fin 2} {b : Fin 8} (hp : p) (h : Moves p True ap s t)
    (hr : ap ∨ t.RecoverTargets) : Moves p True ap s (recoverWriteComplete d b t) := by
  unfold recoverWriteComplete
  dsimp only
  split
  · exact h
  · rename_i x hx
    have := fun x => completeWrite_moves (d := d) (b := b) (x := x) hp h
    split
    · rename_i ho
      split
      · split
        · rename_i op _ hl
          refine checkReset_moves (recoverWritten_moves (this _) (hr.imp id fun hr op' ho' => ?_))
          obtain ⟨e1, e2⟩ := completeWrite_sides d b x t
          rw [e1] at ho'
          rw [show ((t.completeWrite d b x).entry op'.series) = t.entry op'.series from
            congrArg (fun v : Vector Entry 32 => v[op'.series]) e2]
          exact hr op' ho' ⟨x, List.mem_of_find?_eq_some hx, ho, hl⟩
        · simp [this]
      · simp [this]
    · exact h

@[simp] theorem pageEnd_moves {x : Transfer} (h : Moves p q ap s t) : Moves p q ap s (t.pageEnd x) := by
  unfold State.pageEnd
  split
  · exact h
  · rename_i op ho
    split
    · exact modPort_moves h
    · (repeat' split) <;> simp [h, recoverPageEnd_moves h ho]

@[simp] theorem portAccessEnd_moves {pwait : Bool} {w : Half} (h : Moves p True ap s t) :
    Moves p True ap s (portAccessEnd pwait w t) := by
  unfold portAccessEnd
  dsimp only
  (repeat' split) <;> simp (maxDischargeDepth := 9) [h]

@[simp] theorem accessTimeout_moves {pwait : Bool} (h : Moves p q ap s t) : Moves p q ap s (accessTimeout pwait t) := by
  unfold accessTimeout
  (repeat' split) <;> simp [h]

@[simp] theorem turnaroundElapsed_moves (h : Moves p q ap s t) : Moves p q ap s (turnaroundElapsed t) := by
  unfold turnaroundElapsed
  (repeat' split) <;> simp (maxDischargeDepth := 9) [h]

@[simp] theorem takeSetPreservePort_moves {tag : Byte} {f : PortFields} (h : Moves p q ap s t) :
    Moves p q ap s (takeSetPreservePort tag f t) := by
  unfold takeSetPreservePort
  dsimp only
  (repeat' split) <;> simp (maxDischargeDepth := 9) [h]

/-! ### The store unit -/

theorem created_countersKept {base count lanes : Nat} {x : Policy} (h : 1 ≤ count) :
    (Entry.created base count lanes x).CountersKept := by
  simp only [Entry.CountersKept, Entry.CountersOk, Entry.capacity, Entry.created, pendingRecords, List.map_nil, List.sum_nil]
  omega

@[simp] theorem takeCreate_moves {tag series lanes policy : Byte} {base count : Half} (h : Moves p q ap s t) :
    Moves p q ap s (takeCreate tag series base count lanes policy t) := by
  unfold takeCreate
  dsimp only
  split
  · simp [h]
  · split
    · (repeat' split)
      all_goals first
        | exact respond_moves h
        | exact respond_moves (.entry _ _ h (.takes _ (fun k => by cases k)
            (fun j _ hf => overlapping_none (by assumption) j (by simp) hf) (created_countersKept (by simp_all [within])) rfl))
    · simp [h]

@[simp] theorem takeDescribe_moves {tag series : Byte} (h : Moves p q ap s t) :
    Moves p q ap s (takeDescribe tag series t) := by
  unfold takeDescribe
  (repeat' split) <;> simp [h]

theorem opened_of_write {x : SeriesState} (h : refusalToWrite x = none) : x = .opened := by
  cases x <;> simp_all [refusalToWrite]

@[simp] theorem takeSeal_moves {tag series : Byte} (h : Moves p q ap s t) : Moves p q ap s (takeSeal tag series t) := by
  unfold takeSeal
  dsimp only
  (repeat' split)
  all_goals first
    | exact respond_moves h
    | exact respond_moves (keepEntry_moves h rfl rfl (fun k => by cases k)
        (.inr (countersMove_same rfl rfl rfl rfl rfl (.inr (.inr (.inl (opened_of_write (by assumption))))))))

@[simp] theorem issueAll_moves {ts : List Txn} (h : Moves p q ap s t)
    (ht : ∀ x ∈ ts, x.issued = false ∧ x.passOver = 0) : Moves p q ap s (t.issueAll ts) := by
  unfold State.issueAll forEach
  induction ts generalizing t with
  | nil => exact h
  | cons x ts ih =>
    exact ih (issue_moves h (ht x (by simp)).1 (ht x (by simp)).2) fun y hy => ht y (by simp [hy])

theorem mapTxn_waiting {α : Type} (l : List α) (f : α → Txn) (hf : ∀ a, (f a).issued = false ∧ (f a).passOver = 0) :
    ∀ x ∈ l.map f, x.issued = false ∧ x.passOver = 0 := by
  intro x hx
  obtain ⟨a, _, rfl⟩ := List.mem_map.mp hx
  exact hf a

theorem takeAppend_moves {tag series count : Byte} {rs : List Record} (ha : ap) (h : Moves p q ap s t) :
    Moves p q ap s (takeAppend tag series count rs t) := by
  unfold takeAppend
  dsimp only
  (repeat' split)
  any_goals simp [h]
  exact issueAll_moves (keepEntry_moves h rfl rfl (fun k => k) (.inl ha)) (mapTxn_waiting _ _ fun _ => ⟨rfl, rfl⟩)

theorem pendingRecords_filter (f : Batch → Bool) (bs : List Batch) : pendingRecords (bs.filter f) ≤ pendingRecords bs := by
  induction bs with
  | nil => exact Nat.le_refl _
  | cons b bs ih =>
    simp only [pendingRecords, List.filter_cons, List.map_cons, List.sum_cons] at ih ⊢
    split
    · simp only [List.map_cons, List.sum_cons]; omega
    · omega

/-- Batches of a DROPPING entry may leave without a commit (R41). -/
theorem batches_countersMove {e : Entry} {bs : List Batch} (hd : e.state = .dropping)
    (hb : pendingRecords bs ≤ pendingRecords e.batches) : CountersMove e { e with batches := bs } := by
  rintro ⟨-, ⟨k1, k2, k3, k4⟩, k5⟩
  exact ⟨⟨fun h => absurd hd h, ⟨k1, by dsimp only; omega, k3, k4⟩, k5⟩, Nat.le_refl _⟩

theorem batchesGone_moves {i : Fin 32} (h : Moves p q ap s t) (hd : (t.entry i).state = .dropping) :
    Moves p q ap s (t.batchesGone i) :=
  forEach_moves (keepEntry_moves h rfl rfl (fun k => k) (.inr (batches_countersMove hd (pendingRecords_filter _ _))))
    fun _ _ k => respond_moves k

theorem countWrite_records (tag : Byte) (bs : List Batch) : pendingRecords (countWrite tag bs) = pendingRecords bs := by
  unfold countWrite pendingRecords
  rw [List.map_map]
  congr 1
  refine List.map_congr_left fun b _ => ?_
  simp only [Function.comp_apply]
  split <;> rfl

/-- A write counted leaves the counters (R28). -/
theorem countWrite_countersMove (e : Entry) (tag : Byte) :
    CountersMove e { e with batches := countWrite tag e.batches } := by
  rintro ⟨k1, k2, k3⟩
  simp only [Entry.CountersKept, Entry.CountersOk, countWrite_records]
  exact ⟨⟨k1, k2, k3⟩, Nat.le_refl _⟩

@[simp] theorem batchWritten_moves {i : Fin 32} {tag : Byte} (h : Moves p q ap s t) :
    Moves p q ap s (t.batchWritten i tag) := by
  unfold State.batchWritten
  dsimp only
  have key := keepEntry_moves (e := { t.entry i with batches := countWrite tag (t.entry i).batches }) h rfl rfl
    (fun k => k) (.inr (countWrite_countersMove _ _))
  split
  · rename_i hd
    exact checkDrop_moves (batchesGone_moves key (by rw [setEntry_entry, if_pos rfl]; exact hd))
  · exact commits_moves key (by rw [setEntry_entry, if_pos rfl])

theorem batchWriteComplete_moves {d : Fin 2} {b : Fin 8} (hp : p) (h : Moves p True ap s t) :
    Moves p True ap s (batchWriteComplete d b t) := by
  unfold batchWriteComplete
  dsimp only
  split
  · exact h
  · have := fun x => completeWrite_moves (d := d) (b := b) (x := x) hp h
    (repeat' split) <;> simp (maxDischargeDepth := 9) [h, this]

@[simp] theorem takeFetch_moves {tag series count : Byte} {first : BitVec 32} (h : Moves p q ap s t) :
    Moves p q ap s (takeFetch tag series first count t) := by
  unfold takeFetch
  dsimp only
  (repeat' split)
  any_goals simp [h]
  exact issueAll_moves (setFetches_moves h) (mapTxn_waiting _ _ fun _ => ⟨rfl, rfl⟩)

@[simp] theorem endFetch_moves {tag : Byte} (h : Moves p q ap s t) : Moves p q ap s (t.endFetch tag) := setFetches_moves h

@[simp] theorem answerFetch_moves {f : Fetch} (h : Moves p q ap s t) : Moves p q ap s (t.answerFetch f) := by
  unfold State.answerFetch
  dsimp only
  (repeat' split) <;> simp (maxDischargeDepth := 9) [h]

@[simp] theorem fetchRead_moves {tag : Byte} {b : Bool} {rs : List Record} (h : Moves p q ap s t) :
    Moves p q ap s (t.fetchRead tag b rs) := by
  unfold State.fetchRead
  dsimp only
  (repeat' split) <;> simp [h]

@[simp] theorem fetchReadComplete_moves {d : Fin 2} {b : Fin 8} (h : Moves p True ap s t) :
    Moves p True ap s (fetchReadComplete d b t) := by
  unfold fetchReadComplete
  dsimp only
  (repeat' split) <;> simp (maxDischargeDepth := 9) [h]

@[simp] theorem endScansOf_moves {i : Fin 32} {r : EndReason} (h : Moves p q ap s t) :
    Moves p q ap s (t.endScansOf i r) := by
  unfold State.endScansOf
  dsimp only
  exact forEach_moves (freely_moves h rfl) fun _ _ k => endScan_moves k

@[simp] theorem beginDrop_moves {i : Fin 32} {tag : Byte} (h : Moves p q ap s t) :
    Moves p q ap s (t.beginDrop i tag) := by
  unfold State.beginDrop
  dsimp only
  have key : Moves p q ap s (((t.setEntry i { t.entry i with state := .dropping }).setDrops
      (t.drops ++ [⟨tag, i⟩])).batchesGone i) :=
    batchesGone_moves (setDrops_moves (keepEntry_moves h rfl rfl (fun k => by cases k)
      (.inr (countersMove_same rfl rfl rfl rfl rfl (.inr (.inl rfl)))))) (by
        rw [setDrops_entry, setEntry_entry, if_pos rfl])
  (repeat' split) <;> simp (maxDischargeDepth := 9) [key]

@[simp] theorem takeDrop_moves {tag series : Byte} (h : Moves p q ap s t) : Moves p q ap s (takeDrop tag series t) := by
  unfold takeDrop
  dsimp only
  (repeat' split) <;> simp (maxDischargeDepth := 9) [h]

@[simp] theorem loseBatches_moves {i : Fin 32} {bs : List Batch} (h : Moves p q ap s t) :
    Moves p q ap s (t.loseBatches i bs) := withdraw_moves (forEach_moves h fun _ _ k => respond_moves k)

@[simp] theorem loseFetches_moves {i : Fin 32} (h : Moves p q ap s t) : Moves p q ap s (t.loseFetches i) := by
  unfold State.loseFetches
  dsimp only
  exact forEach_moves (freely_moves h rfl) fun _ _ k => withdraw_moves (endFetch_moves (respond_moves k))

@[simp] theorem loseReaders_moves {i : Fin 32} (h : Moves p q ap s t) : Moves p q ap s (t.loseReaders i) := by
  unfold State.loseReaders
  dsimp only
  (repeat' split) <;> simp (maxDischargeDepth := 9) [h]

@[simp] theorem overrunEntry_moves {i : Fin 32} (h : Moves p q ap s t) : Moves p q ap s (t.overrunEntry i) := by
  unfold State.overrunEntry
  dsimp only
  split
  · exact loseReaders_moves (loseBatches_moves (toLost_moves h))
  · exact loseReaders_moves (loseBatches_moves (toLost_moves h))
  · exact loseReaders_moves (loseBatches_moves (toLost_moves h))
  · rename_i hd
    exact checkDrop_moves (loseReaders_moves (loseBatches_moves (keepEntry_moves h rfl rfl (fun k => k)
      (.inr (batches_countersMove hd (Nat.zero_le _))))))
  · exact h
  · exact h

end

end Sys2Proof.Laws
end

