-- ==== Sys2Proof/Laws/MovesStep.lean ====
section
/-! SUPPORT. The operations of the array controller, the monitor, the link and the request table move as `Moves` says, and
with them every command and every step. -/

namespace Sys2Proof.Laws

open Sys2Proof.Machine

section

variable {p q ap : Prop} {s t : State}

/-! ### The arbiter's steps -/

theorem passHeads_spec (d : Fin 2) (bs : List (Fin 8)) (v : List Txn) :
    (passHeads d bs v).length = v.length ∧ ((∀ x ∈ v, x.passOver ≤ 8) → ∀ x ∈ passHeads d bs v, x.passOver ≤ 8) ∧
      ∀ d' b', issuedCount (passHeads d bs v) d' b' = issuedCount v d' b' := by
  induction v generalizing bs with
  | nil => exact ⟨rfl, fun h => h, fun _ _ => rfl⟩
  | cons x v ih =>
    have same : ∀ cs, (x :: passHeads d cs v).length = (x :: v).length ∧
        ((∀ y ∈ x :: v, y.passOver ≤ 8) → ∀ y ∈ x :: passHeads d cs v, y.passOver ≤ 8) ∧
        ∀ d' b', issuedCount (x :: passHeads d cs v) d' b' = issuedCount (x :: v) d' b' := fun cs => by
      refine ⟨by simp [(ih cs).1], fun h y hy => ?_, fun d' b' => ?_⟩
      · rcases List.mem_cons.mp hy with rfl | hy
        · exact h _ (by simp)
        · exact (ih cs).2.1 (fun z hz => h z (by simp [hz])) y hy
      · have := (ih cs).2.2 d' b'
        simp only [issuedCount, List.filter_cons] at this ⊢
        split <;> simp [this]
    unfold passHeads
    split
    · split
      · rename_i b hb hc
        refine ⟨by simp [(ih _).1], fun h y hy => ?_, fun d' b' => ?_⟩
        · rcases List.mem_cons.mp hy with rfl | hy
          · exact Nat.min_le_left _ _
          · exact (ih _).2.1 (fun z hz => h z (by simp [hz])) y hy
        · have hi : x.issued = false := by simp at hc; exact hc.1.1
          have := (ih (bs.erase b)).2.2 d' b'
          simpa [issuedCount, List.filter_cons, Txn.passed, hi] using this
      · exact same _
    · exact same _

@[simp] theorem passOthers_moves {d : Fin 2} {b : Fin 8} (h : Moves p q ap s t) : Moves p q ap s (t.passOthers d b) := by
  unfold State.passOthers
  split
  · exact h
  · refine .queues _ _ h fun k => ?_
    obtain ⟨h1, h2, h3, h4⟩ := k
    obtain ⟨p1, p2, p3⟩ := passHeads_spec d (allBanks.filter fun c => c != b && (t.bankStep d c).isSome) t.arr.queue
    refine ⟨by rw [p1]; exact h1, h2, fun x hx => ?_, fun d' b' => by rw [p3]; exact h4 d' b'⟩
    rcases List.mem_append.mp hx with hx | hx
    · exact p2 (fun y hy => h3 y (List.mem_append_left _ hy)) x hx
    · exact h3 x (List.mem_append_right _ hx)

/-- What `updateFirst` does to a queue: the first WAITING transaction that fits is ISSUED. -/
theorem updateFirst_spec (fits : Txn → Bool) (data : List Record) (v : List Txn) :
    (updateFirst fits (Txn.issue data) v).length = v.length ∧
      ((∀ x ∈ v, x.passOver ≤ 8) → ∀ x ∈ updateFirst fits (Txn.issue data) v, x.passOver ≤ 8) ∧
      ∀ d b, issuedCount (updateFirst fits (Txn.issue data) v) d b ≤ issuedCount v d b + 1 ∧
        ((∀ x, fits x = true → x.isFor d b = false) →
          issuedCount (updateFirst fits (Txn.issue data) v) d b = issuedCount v d b) := by
  induction v with
  | nil => exact ⟨rfl, fun h => h, fun _ _ => ⟨Nat.zero_le _, fun _ => rfl⟩⟩
  | cons x v ih =>
    obtain ⟨i1, i2, i3⟩ := ih
    unfold updateFirst
    split
    · rename_i hx
      refine ⟨rfl, fun h y hy => ?_, fun d b => ⟨?_, fun hf => ?_⟩⟩
      · rcases List.mem_cons.mp hy with rfl | hy
        · exact Nat.zero_le _
        · exact h y (List.mem_cons_of_mem _ hy)
      · simp only [issuedCount, List.filter_cons]
        have : (Txn.issue data x).isFor d b = x.isFor d b := rfl
        split <;> split <;> (try simp only [List.length_cons]) <;> omega
      · have e1 : (Txn.issue data x).isFor d b = x.isFor d b := rfl
        simp [issuedCount, e1, hf x hx]
    · refine ⟨by simp [i1], fun h y hy => ?_, fun d b => ?_⟩
      · rcases List.mem_cons.mp hy with rfl | hy
        · exact h _ (by simp)
        · exact i2 (fun z hz => h z (by simp [hz])) y hy
      · have := i3 d b
        simp only [issuedCount, List.filter_cons] at this ⊢
        split
        · exact ⟨by simp only [List.length_cons]; omega, fun hf => by simp only [List.length_cons, this.2 hf]⟩
        · exact this

/-- ISSUING the first WAITING transaction that fits keeps the queue in order, when each bank it may be for has none
ISSUED. -/
theorem queuesOk_issueFirst {v w : List Txn} {fits : Txn → Bool} {data : List Record} (h : QueuesOk v w)
    (hf : ∀ d b, issuedCount v d b = 0 ∨ ∀ x, fits x = true → x.isFor d b = false) :
    QueuesOk (updateFirst fits (Txn.issue data) v) w := by
  obtain ⟨h1, h2, h3, h4⟩ := h
  obtain ⟨u1, u2, u3⟩ := updateFirst_spec fits data v
  refine ⟨by rw [u1]; exact h1, h2, fun x hx => ?_, fun d b => ?_⟩
  · rcases List.mem_append.mp hx with hx | hx
    · exact u2 (fun y hy => h3 y (List.mem_append_left _ hy)) x hx
    · exact h3 x (List.mem_append_right _ hx)
  · rcases hf d b with h0 | h0
    · have := (u3 d b).1
      omega
    · rw [(u3 d b).2 h0]
      exact h4 d b

theorem issuedCount_none {d : Fin 2} {b : Fin 8} (h : (t.issuedAt d b).isNone = true) :
    issuedCount t.arr.queue d b = 0 := by
  simp only [State.issuedAt, Option.isNone_iff_eq_none, List.find?_eq_none] at h
  simp only [issuedCount, List.length_eq_zero_iff, List.filter_eq_nil_iff]
  exact h

@[simp] theorem passOthers_issuedCount (d : Fin 2) (b : Fin 8) (d' : Fin 2) (b' : Fin 8) :
    issuedCount (t.passOthers d b).arr.queue d' b' = issuedCount t.arr.queue d' b' := by
  unfold State.passOthers
  split
  · rfl
  · simp [(passHeads_spec _ _ _).2.2]

theorem isFor_unique {x : Txn} {d d' : Fin 2} {b b' : Fin 8} (h : x.isFor d b = true) (hn : ¬ (d' = d ∧ b' = b)) :
    x.isFor d' b' = false := by
  simp only [Txn.isFor, Bool.and_eq_true, beq_iff_eq] at h
  simp only [Txn.isFor, h.1, h.2, Bool.and_eq_false_iff, beq_eq_false_iff_ne]
  by_cases hd : d = d'
  · right
    intro hb
    exact hn ⟨hd.symm, (Option.some.inj hb).symm⟩
  · exact .inl hd

theorem transferHead_moves {d : Fin 2} {b : Fin 8} (h : Moves p q ap s t) (hi : issuedCount t.arr.queue d b = 0) :
    Moves p q ap s (t.transferHead d b) := by
  unfold State.transferHead
  split
  · exact h
  · have key : ∀ data, Moves p q ap s (t.setQueues
        (updateFirst (fun x => !x.issued && x.isFor d b) (Txn.issue data) t.arr.queue) t.arr.waiting) := fun data =>
      .queues _ _ h fun k => queuesOk_issueFirst k fun d' b' => by
        by_cases hn : d' = d ∧ b' = b
        · exact .inl (by rw [hn.1, hn.2]; exact hi)
        · refine .inr fun x hx => isFor_unique ?_ hn
          simp only [Bool.and_eq_true] at hx
          exact hx.2
    dsimp only
    split
    · exact key _
    · exact setDie_moves (key _) fun k => k

/-- What a choice says: the die is quiet, and the step is the bank's eligible one (R99, R100). -/
theorem choice_bank {d : Fin 2} {b : Fin 8} {x : BankStep} (h : t.choice d = some (.bank b x)) :
    (t.die d).quiet = true ∧ t.bankStep d b = some x := by
  have hc : ∀ c, t.choose d c = some (.bank b x) → t.bankStep d b = some x := fun c hc => by
    unfold State.choose at hc
    cases hb : t.bankStep d c with
    | none => simp [hb] at hc
    | some y =>
      simp only [hb, Option.map_some, Option.some.injEq, Choice.bank.injEq] at hc
      rw [← hc.1, hb, hc.2]
  unfold State.choice at h
  split at h
  · refine ⟨by assumption, ?_⟩
    split at h
    · exact hc _ h
    · split at h
      · cases h
      · split at h
        · exact hc _ h
        · split at h
          · exact hc _ h
          · split at h
            · exact hc _ h
            · cases h
  · cases h

theorem choice_status {d : Fin 2} (h : t.choice d = some .status) :
    (t.die d).quiet = true ∧ t.statusEligible d = true := by
  have hc : ∀ c, t.choose d c ≠ some .status := fun c hc => by
    unfold State.choose at hc
    cases hb : t.bankStep d c <;> simp [hb] at hc
  unfold State.choice at h
  split at h
  · refine ⟨by assumption, ?_⟩
    split at h
    · exact absurd h (hc _)
    · split at h
      · assumption
      · split at h
        · exact absurd h (hc _)
        · split at h
          · exact absurd h (hc _)
          · split at h
            · exact absurd h (hc _)
            · cases h
  · cases h

theorem quiet_iff (x : Die) : x.quiet = true ↔ x.state = .ready ∧ x.activity = .none ∧ x.path = .free := by
  simp [Die.quiet, and_assoc]

theorem drained_iff (x : Die) : x.drained = true ↔ x.quiet = true ∧ x.allIdle = true := by simp [Die.drained]

@[simp] theorem passOthers_die (d : Fin 2) (b : Fin 8) (d' : Fin 2) : (t.passOthers d b).die d' = t.die d' := by
  unfold State.passOthers
  split <;> rfl

/-- A bank state set on a quiet die moves. -/
theorem setBankState_moves {d : Fin 2} {b : Fin 8} {x : BankState} (h : Moves p q ap s t) (hq : (t.die d).quiet = true) :
    Moves p q ap s (t.setBankState d b x) := by
  obtain ⟨h1, h2, _⟩ := (quiet_iff _).mp hq
  refine setDie_moves h fun k => ⟨k.1, k.2.1, fun c => absurd h1 c, fun c => ?_⟩
  have c' : (t.die d).activity.needsIdle = true := c
  rw [h2] at c'
  cases c'

@[simp] theorem openStep_moves {d : Fin 2} {b : Fin 8} (h : Moves p q ap s t) : Moves p q ap s (openStep d b t) := by
  unfold openStep
  split
  · rename_i hc
    split
    · exact setBankState_moves (passOthers_moves h) (by simpa using (choice_bank hc).1)
    · exact h
  · exact h

@[simp] theorem closeStep_moves {d : Fin 2} {b : Fin 8} (h : Moves p q ap s t) : Moves p q ap s (closeStep d b t) := by
  unfold closeStep
  split
  · rename_i hc
    split
    · exact setBankState_moves (passOthers_moves h) (by simpa using (choice_bank hc).1)
    · exact h
  · exact h

/-- A transfer is eligible only where the bank has nothing ISSUED (R99). -/
theorem bankStep_transfer {d : Fin 2} {b : Fin 8} (h : t.bankStep d b = some .transfer) :
    (t.issuedAt d b).isNone = true := by
  unfold State.bankStep at h
  (repeat' split at h) <;> first | assumption | cases h

@[simp] theorem transferStep_moves {d : Fin 2} {b : Fin 8} (h : Moves p q ap s t) :
    Moves p q ap s (transferStep d b t) := by
  unfold transferStep
  split
  · rename_i hc
    split
    · rename_i he
      subst he
      refine transferHead_moves (passOthers_moves h) ?_
      rw [passOthers_issuedCount]
      exact issuedCount_none (bankStep_transfer (choice_bank hc).2)
    · exact h
  · exact h

@[simp] theorem statusReadStep_moves {d : Fin 2} (h : Moves p q ap s t) : Moves p q ap s (statusReadStep d t) := by
  unfold statusReadStep
  split
  · rename_i hc
    obtain ⟨h1, h2, _⟩ := (quiet_iff _).mp (choice_status hc).1
    refine setDie_moves (.queues _ _ h fun k => queuesOk_issueFirst k fun d' b' => .inr fun x hx => ?_) fun k =>
      ⟨k.1, k.2.1, fun c => absurd h1 c, fun c => by cases c⟩
    simp only [Txn.isStatus, Bool.and_eq_true, beq_iff_eq] at hx
    simp [Txn.isFor, hx.2.2]
  · exact h

/-! ### Delays, START_ARRAY and SET_ARRAY_TIMING -/

@[simp] theorem openDelayElapsed_moves {d : Fin 2} {b : Fin 8} (h : Moves p q ap s t) :
    Moves p q ap s (openDelayElapsed d b t) := by
  unfold openDelayElapsed
  split
  · rename_i hb
    exact setBank_moves h fun k => by rw [hb] at k; cases k
  · exact h

@[simp] theorem closeDelayElapsed_moves {d : Fin 2} {b : Fin 8} (h : Moves p q ap s t) :
    Moves p q ap s (closeDelayElapsed d b t) := by
  unfold closeDelayElapsed
  split
  · exact setBank_moves h fun _ => rfl
  · exact h

@[simp] theorem writeRecoveryElapsed_moves {d : Fin 2} {b : Fin 8} (h : Moves p q ap s t) :
    Moves p q ap s (writeRecoveryElapsed d b t) := by
  unfold writeRecoveryElapsed
  split
  · exact setBank_moves h fun k => k
  · exact h

theorem started_ok {x : Die} (h : x.Ok) : x.started.Ok :=
  ⟨Nat.zero_le _, h.2.1, fun _ => allIdle_fresh _ rfl, fun _ => allIdle_fresh _ rfl⟩

@[simp] theorem takeStartArray_moves {tag : Byte} (h : Moves p q ap s t) : Moves p q ap s (takeStartArray tag t) := by
  unfold takeStartArray
  split
  · exact respond_moves h
  · split
    · exact respond_moves h
    · exact modArr_moves (setDie_moves (setDie_moves h started_ok) fun k => by
        rw [setDie_die_other (by decide)] at k
        exact started_ok k) fun _ => ⟨rfl, rfl, rfl⟩

@[simp] theorem resetSequenceEnd_moves {d : Fin 2} (h : Moves p q ap s t) : Moves p q ap s (resetSequenceEnd d t) := by
  unfold resetSequenceEnd
  split
  · exact setDie_moves h fun k => k
  · exact h

@[simp] theorem takeSetArrayTiming_moves {tag : Byte} {f : TimingFields} (h : Moves p q ap s t) :
    Moves p q ap s (takeSetArrayTiming tag f t) := by
  unfold takeSetArrayTiming
  split
  · exact respond_moves h
  · split
    · exact respond_moves h
    · split
      · exact badValue_moves h
      · exact modArr_moves h fun _ => ⟨rfl, rfl, rfl⟩

@[simp] theorem timingLoadEnd_moves (h : Moves p q ap s t) : Moves p q ap s (timingLoadEnd t) := by
  unfold timingLoadEnd
  dsimp only
  split
  · exact h
  · split
    · exact respond_moves (modArr_moves h fun _ => ⟨rfl, rfl, rfl⟩)
    · exact modArr_moves h fun _ => ⟨rfl, rfl, rfl⟩

/-! ### Rest and deep rest -/

@[simp] theorem dropPendingCal_moves {d : Fin 2} (h : Moves p q ap s t) : Moves p q ap s (t.dropPendingCal d) := by
  unfold State.dropPendingCal
  split
  · split
    · exact setDieMon_moves h fun k => k
    · exact h
  · exact h

@[simp] theorem withdrawStatus_moves {d : Fin 2} (h : Moves p q ap s t) :
    Moves p q ap s (t.withdrawStatus d) := withdraw_moves h

/-- A drained die may take any state. -/
theorem becomeResting_moves {d : Fin 2} (h : Moves p q ap s t) (hd : (t.die d).allIdle = true) :
    Moves p q ap s (t.becomeResting d) := by
  unfold State.becomeResting
  dsimp only
  have key : Moves p q ap s (t.setDie d { t.die d with
      state := .resting, timer := none, restTarget := .none, driftHold := false }) :=
    setDie_moves h fun k => ⟨k.1, k.2.1, fun _ => hd, fun _ => hd⟩
  split <;> simp (maxDischargeDepth := 9) [key]

@[simp] theorem enterResting_moves {d : Fin 2} (h : Moves p q ap s t) : Moves p q ap s (enterResting d t) := by
  unfold enterResting
  split
  · rename_i hr
    refine becomeResting_moves h ?_
    simp only [Die.readyToRest, Bool.and_eq_true] at hr
    exact ((drained_iff _).mp hr.1.1.1.1).2
  · exact h

theorem off_ok {x : Die} (h : x.Ok) : x.off.Ok :=
  ⟨Nat.zero_le _, h.2.1, fun _ => allIdle_fresh _ rfl, fun _ => allIdle_fresh _ rfl⟩

theorem ready_ok {x : Die} (h : x.Ok) : x.ready.Ok :=
  ⟨Nat.zero_le _, h.2.1, fun _ => allIdle_fresh _ rfl, fun _ => allIdle_fresh _ rfl⟩

theorem becomeOff_moves {d : Fin 2} (hp : p) (h : Moves p q ap s t) : Moves p q ap s (t.becomeOff d) :=
  withdrawStatus_moves (dropPendingCal_moves
    (setMem_moves hp (setDie_moves h off_ok) fun k => memory_wf_forgetDie k d))

theorem enterOff_moves {d : Fin 2} (hp : p) (h : Moves p q ap s t) : Moves p q ap s (enterOff d t) := by
  unfold enterOff
  split
  · exact checkPower_moves (becomeOff_moves hp h)
  · exact h

@[simp] theorem wakeDelayElapsed_moves {d : Fin 2} (h : Moves p q ap s t) : Moves p q ap s (wakeDelayElapsed d t) := by
  unfold wakeDelayElapsed
  split
  · exact checkPower_moves (setDie_moves h ready_ok)
  · exact h

@[simp] theorem aimRest_moves {x : RestTarget} {d : Fin 2} (h : Moves p q ap s t) : Moves p q ap s (t.aimRest x d) := by
  unfold State.aimRest
  split
  · exact setDie_moves h fun k => k
  · exact h

@[simp] theorem deepRestAll_moves (h : Moves p q ap s t) : Moves p q ap s t.deepRestAll := by
  refine forEach_moves h fun i u k => keepEntry_moves k ?_ ?_ ?_ (.inr ?_) <;> unfold Entry.deepRest <;> split <;>
    first
      | exact toLost_countersMove _
      | exact countersMove_same rfl rfl rfl rfl rfl (.inl rfl)
      | simp_all [Entry.toLost]

theorem deepDie_moves {d : Fin 2} (hp : p) (h : Moves p q ap s t) : Moves p q ap s (t.deepDie d) := by
  unfold State.deepDie
  split
  · exact becomeOff_moves hp h
  · exact aimRest_moves h

theorem applyPower_moves {l : PowerLevel} (hp : p) (h : Moves p q ap s t) : Moves p q ap s (t.applyPower l) := by
  unfold State.applyPower
  split
  · exact beginWake_moves (beginWake_moves h)
  · exact enterResting_moves (enterResting_moves (aimRest_moves (aimRest_moves h)))
  · exact enterOff_moves hp (enterOff_moves hp (deepDie_moves hp (deepDie_moves hp (deepRestAll_moves h))))

theorem takePower_moves {tag level : Byte} (hp : p) (h : Moves p q ap s t) : Moves p q ap s (takePower tag level t) := by
  unfold takePower
  split
  · exact badValue_moves h
  · split
    · exact respond_moves h
    · exact respond_moves h
    · exact checkPower_moves (applyPower_moves hp (modArr_moves h fun _ => ⟨rfl, rfl, rfl⟩))

/-! ### Refresh -/

@[simp] theorem overrun_moves {d : Fin 2} (h : Moves p q ap s t) : Moves p q ap s (t.overrun d) := by
  unfold State.overrun
  dsimp only
  refine raise_moves (forEach_moves (freely_moves (setDie_moves h fun k => ?_) rfl) fun _ _ k => overrunEntry_moves k)
  exact ⟨k.1, Nat.min_le_left _ _, k.2.2⟩

@[simp] theorem expire_moves {d : Fin 2} (h : Moves p q ap s t) : Moves p q ap s (t.expire d) := by
  unfold State.expire
  dsimp only
  have key : Moves p q ap s (t.setDie d { t.die d with timer := some 0 }) := setDie_moves h fun k => k
  split
  · rename_i hd
    exact setDie_moves key fun k => ⟨hd, k.2⟩
  · exact overrun_moves key

@[simp] theorem refreshTimerExpiry_moves {d : Fin 2} (h : Moves p q ap s t) :
    Moves p q ap s (refreshTimerExpiry d t) := by
  unfold refreshTimerExpiry
  split
  · exact expire_moves h
  · exact h

@[simp] theorem refreshStart_moves {d : Fin 2} (h : Moves p q ap s t) : Moves p q ap s (refreshStart d t) := by
  unfold refreshStart
  split
  · rename_i hc
    simp only [Bool.and_eq_true] at hc
    have hi := ((drained_iff _).mp hc.1).2
    exact setDie_moves h fun k => ⟨k.1, k.2.1, fun _ => hi, fun _ => hi⟩
  · exact h

@[simp] theorem refreshEnd_moves {d : Fin 2} (h : Moves p q ap s t) : Moves p q ap s (refreshEnd d t) := by
  unfold refreshEnd
  split
  · exact enterResting_moves (setDie_moves h fun k =>
      ⟨Nat.le_trans (Nat.sub_le _ _) k.1, k.2.1, k.2.2.1, fun c => by cases c⟩)
  · exact h

/-! ### Calibration -/

@[simp] theorem setCalStage_moves {d : Fin 2} {x : CalStage} (h : Moves p q ap s t) :
    Moves p q ap s (t.setCalStage d x) :=
  setDieMon_moves h fun k => k

theorem beginCal_moves {d : Fin 2} (h : Moves p q ap s t) (hi : (t.die d).Ok → (t.die d).allIdle = true) :
    Moves p q ap s (t.beginCal d) := by
  unfold State.beginCal
  split
  · exact h
  · exact setDie_moves (setCalStage_moves h) fun k => ⟨k.1, k.2.1, fun _ => hi k, fun _ => hi k⟩

@[simp] theorem grantTo_moves {d : Fin 2} (h : Moves p q ap s t) : Moves p q ap s (t.grantTo d) := by
  unfold State.grantTo
  dsimp only
  have key : Moves p q ap s ((t.modMon fun m => { m with reference := some d }).setCalStage d .granted) :=
    setCalStage_moves (modMon_moves h fun _ => rfl)
  split
  · rename_i hs
    exact beginCal_moves key fun k => k.2.2.1 (by rw [hs]; decide)
  · exact setDie_moves key fun k => k

@[simp] theorem tryGrant_moves (h : Moves p q ap s t) : Moves p q ap s t.tryGrant := by
  unfold State.tryGrant
  split
  · exact grantTo_moves h
  · exact h

@[simp] theorem recordCal_moves {d : Fin 2} {k : CalKind} {j : List Byte} {done : Bool} (h : Moves p q ap s t) :
    Moves p q ap s (t.recordCal d k j done) := by
  unfold State.recordCal
  dsimp only
  refine checkStart_moves (forEach_moves ?_ fun _ _ k => respond_moves k)
  have key : Moves p q ap s ((t.setDieMon d { t.dieMon d with base := t.newBase d, drift := 0, req := none }).setDie d
      { t.die d with driftHold := false }) :=
    setDie_moves (setDieMon_moves h fun _ => Nat.zero_le _) fun k => k
  split
  · exact setDie_moves key ready_ok
  · exact key

@[simp] theorem requestCal_moves {d : Fin 2} {k : CalKind} {j : List Byte} (h : Moves p q ap s t) :
    Moves p q ap s (t.requestCal d k j) := by
  unfold State.requestCal
  split
  · split
    · exact setDieMon_moves h fun k => k
    · exact tryGrant_moves (modMon_moves (setDieMon_moves h fun k => k) fun _ => rfl)
  · exact recordCal_moves h

@[simp] theorem calibrationStart_moves {d : Fin 2} (h : Moves p q ap s t) : Moves p q ap s (calibrationStart d t) := by
  unfold calibrationStart
  split
  · rename_i hc
    simp only [Bool.and_eq_true] at hc
    exact beginCal_moves h fun _ => ((drained_iff _).mp hc.1.1).2
  · exact h

@[simp] theorem calibrationEnd_moves {d : Fin 2} (h : Moves p q ap s t) : Moves p q ap s (calibrationEnd d t) := by
  unfold calibrationEnd
  split
  · exact h
  · split
    · exact tryGrant_moves (recordCal_moves (modMon_moves
        (setDie_moves h fun k => ⟨k.1, k.2.1, k.2.2.1, fun c => by cases c⟩) fun _ => rfl))
    · exact h

/-! ### Sampling and temperature -/

@[simp] theorem readStatus_moves {d : Fin 2} (h : Moves p q ap s t) : Moves p q ap s (t.readStatus d) := by
  unfold State.readStatus
  split
  · exact issue_moves h rfl rfl
  · exact h

@[simp] theorem takeSample_moves {v : Nat} {o : List (Fin 2)} (h : Moves p q ap s t) :
    Moves p q ap s (t.takeSample v o) :=
  forEach_moves (modMon_moves h fun _ => rfl) fun _ _ k => readStatus_moves k

@[simp] theorem sample_moves {v : Nat} {d : Fin 2} (h : Moves p q ap s t) :
    Moves p q ap s (sample v d t) := takeSample_moves h

@[simp] theorem sampleFree_moves (h : Moves p q ap s t) : Moves p q ap s t.sampleFree :=
  takeSample_moves (freely_moves (.draws _ h) rfl)

@[simp] theorem testHot_moves {d : Fin 2} {x : Int} (h : Moves p q ap s t) : Moves p q ap s (t.testHot d x) := by
  unfold State.testHot
  dsimp only
  have key := fun v => setDie_moves (x := { t.die d with hot := v }) h fun k => k
  (repeat' split) <;> simp [h, key]

@[simp] theorem applyHardLimit_moves {d : Fin 2} (h : Moves p q ap s t) : Moves p q ap s (t.applyHardLimit d) := by
  unfold State.applyHardLimit
  split
  · exact raise_moves (setDie_moves h fun k => k)
  · exact h

@[simp] theorem applyLimits_moves {d : Fin 2} (h : Moves p q ap s t) : Moves p q ap s (t.applyLimits d) := by
  unfold State.applyLimits
  (repeat' split) <;> simp [h]

@[simp] theorem computeDrift_moves {d : Fin 2} {x : Int} (h : Moves p q ap s t) :
    Moves p q ap s (t.computeDrift d x) := by
  unfold State.computeDrift
  split
  · split
    · exact applyLimits_moves (setDieMon_moves h fun _ => Nat.min_le_left _ _)
    · exact h
  · exact h

@[simp] theorem takeTemperature_moves {d : Fin 2} {x : Int} (h : Moves p q ap s t) :
    Moves p q ap s (t.takeTemperature d x) :=
  testHot_moves (setDieMon_moves h fun k => k)

@[simp] theorem statusReadComplete_moves {d : Fin 2} {x : Int} (h : Moves p q ap s t) :
    Moves p q ap s (statusReadComplete d x t) := by
  unfold statusReadComplete
  dsimp only
  split
  · exact h
  · exact computeDrift_moves (takeTemperature_moves (setDie_moves (leaveQueue_moves h) fun k =>
      ⟨k.1, k.2.1, k.2.2.1, fun c => by cases c⟩))

@[simp] theorem identityReadEnd_moves {d : Fin 2} {x : IdentityAnswer} (h : Moves p q ap s t) :
    Moves p q ap s (identityReadEnd d x t) := by
  unfold identityReadEnd
  split
  · split
    · exact requestCal_moves (takeTemperature_moves (setDie_moves h fun k => k))
    all_goals
      exact checkStart_moves (setDie_moves h fun k =>
        ⟨k.1, k.2.1, fun _ => allIdle_fresh _ rfl, fun _ => allIdle_fresh _ rfl⟩)
  · exact h

@[simp] theorem takeSetMonitor_moves {tag : Byte} {f : MonitorFields} (h : Moves p q ap s t) :
    Moves p q ap s (takeSetMonitor tag f t) := by
  unfold takeSetMonitor
  dsimp only
  have key : Moves p q ap s ((t.modMon fun m => { m with settings := f }).respond tag .setMonitor .ok []) :=
    respond_moves (modMon_moves h fun _ => rfl)
  split
  · exact badValue_moves h
  · split
    · exact sampleFree_moves key
    · exact key

@[simp] theorem takeCalibrate_moves {tag die kind : Byte} (h : Moves p q ap s t) :
    Moves p q ap s (takeCalibrate tag die kind t) := by
  unfold takeCalibrate
  (repeat' split) <;> simp [h]

/-! ### The link -/

theorem setBuf_discards (l : Link) (j : Fin 2) (x : InBuf) : (l.setBuf j x).discards = l.discards := rfl

theorem dropFilling_discards (l : Link) : l.dropFilling.discards = l.discards := by
  unfold Link.dropFilling
  split <;> rfl

@[simp] theorem discard_moves {x : RxState} (h : Moves p True ap s t) : Moves p True ap s (t.discard x) :=
  raise_moves (countDiscard_moves (modLink_moves h dropFilling_discards))

@[simp] theorem claimDecoder_moves (h : Moves p True ap s t) : Moves p True ap s t.claimDecoder := by
  unfold State.claimDecoder
  split
  · exact h
  · split
    · exact h
    · split
      · exact modLink_moves h fun _ => rfl
      · exact waitForSlot_moves h

@[simp] theorem hold_moves {j : Fin 2} {body : List Byte} (h : Moves p True ap s t) : Moves p True ap s (t.hold j body) :=
  claimDecoder_moves (modLink_moves h fun _ => rfl)

@[simp] theorem store_moves {j : Fin 2} {b : Byte} (h : Moves p True ap s t) : Moves p True ap s (t.store j b) := by
  unfold State.store
  dsimp only
  have key := modLink_moves (f := fun l => l.setBuf j ⟨.filling, (t.link.buf j).bytes ++ [b]⟩) h fun _ => rfl
  have next := fun x => modLink_moves (f := fun l => { l with rx := x }) key fun _ => rfl
  (repeat' split) <;> simp [key, next]

@[simp] theorem startFrame_moves (h : Moves p True ap s t) : Moves p True ap s t.startFrame := by
  unfold State.startFrame
  split
  · exact modLink_moves h fun _ => rfl
  · exact discard_moves h

@[simp] theorem rxByte_moves {x : LineByte} (h : Moves p True ap s t) : Moves p True ap s (t.rxByte x) := by
  unfold State.rxByte
  dsimp only
  have key := modLink_moves (f := fun l => { l with rxIdle := 0 }) h fun _ => rfl
  (repeat' split) <;> simp [key]

@[simp] theorem rxBytes_moves {xs : List LineByte} (h : Moves p True ap s t) : Moves p True ap s (t.rxBytes xs) :=
  forEach_moves h fun _ _ k => rxByte_moves k

@[simp] theorem gapTimeout_moves (h : Moves p True ap s t) : Moves p True ap s t.gapTimeout := by
  unfold State.gapTimeout
  split <;> simp [h]

@[simp] theorem skipTimeout_moves (h : Moves p True ap s t) : Moves p True ap s t.skipTimeout := by
  unfold State.skipTimeout
  split
  · exact modLink_moves h fun _ => rfl
  · exact h

@[simp] theorem byteInSkip_moves (h : Moves p True ap s t) : Moves p True ap s (byteInSkip t) := by
  unfold byteInSkip
  split
  · exact modLink_moves h fun _ => rfl
  · exact h

@[simp] theorem grant_moves {c : Claimant} (h : Moves p True ap s t) : Moves p True ap s (t.grant c) := by
  unfold State.grant
  split
  · exact modLink_moves h fun _ => rfl
  · exact grantScan_moves h
  · exact queueNotice_moves h

@[simp] theorem grantClaims_moves {n : Nat} (h : Moves p True ap s t) : Moves p True ap s (t.grantClaims n) := by
  induction n generalizing t with
  | zero => exact h
  | succ n ih =>
    unfold State.grantClaims
    split
    · exact h
    · split
      · exact ih (grant_moves (modLink_moves h fun _ => rfl))
      · exact h

@[simp] theorem transmitFrameStart_moves {x : Bool} (h : Moves p True ap s t) :
    Moves p True ap s (transmitFrameStart x t) := by
  unfold transmitFrameStart
  split
  · exact modLink_moves h fun _ => rfl
  · exact h

@[simp] theorem changeRate_moves {r : Fin 5} (h : Moves p True ap s t) : Moves p True ap s (t.changeRate r) := by
  unfold State.changeRate
  dsimp only
  have key := modLink_moves (f := fun l => { l with rate := r }) h fun _ => rfl
  split
  · exact discard_moves key
  · exact key

@[simp] theorem frameSent_moves (h : Moves p True ap s t) : Moves p True ap s (frameSent t) := by
  unfold frameSent
  dsimp only
  split
  · have key := fun x => grantClaims_moves (n := grantRounds)
      (modLink_moves (f := fun l => { l with queue := x, tx := none }) h fun _ => rfl)
    split
    · exact changeRate_moves (key _)
    · exact key _
  · exact h

/-! ### Requests -/

@[simp] theorem takeIdentify_moves {tag : Byte} (h : Moves p q ap s t) :
    Moves p q ap s (takeIdentify tag t) := respond_moves h
@[simp] theorem takeStatus_moves {tag : Byte} (h : Moves p q ap s t) :
    Moves p q ap s (takeStatus tag t) := respond_moves h

@[simp] theorem takeSetLink_moves {tag code : Byte} (h : Moves p q ap s t) : Moves p q ap s (takeSetLink tag code t) := by
  unfold takeSetLink
  split
  · exact badValue_moves h
  · exact release_moves (enqueue_moves h)

@[simp] theorem cancelScan_moves {x : Byte} (h : Moves p q ap s t) : Moves p q ap s (t.cancelScan x) := by
  unfold State.cancelScan
  split <;> simp [h]

@[simp] theorem takeCancel_moves {tag x : Byte} (h : Moves p q ap s t) : Moves p q ap s (takeCancel tag x t) := by
  unfold takeCancel
  (repeat' split) <;> simp [h]

theorem resetLink_moves {tag : Byte} {j : Fin 2} (h : Moves p True ap s t) : Moves p True ap s (t.resetLink tag j) := by
  have key : Moves p True ap s (if t.link.otherFrame j then t.countDiscard else t) := by
    split
    · exact countDiscard_moves h
    · exact h
  unfold State.resetLink
  dsimp only
  exact modLink_moves (setTable_moves key fun _ => by simp) fun _ => rfl

theorem commitLeading_keeps (e : Entry) (bs : List Batch) :
    (e.commitLeading bs).1.base = e.base ∧ (e.commitLeading bs).1.count = e.count ∧
      (e.commitLeading bs).1.state = e.state := by
  induction bs generalizing e with
  | nil => exact ⟨rfl, rfl, rfl⟩
  | cons b bs ih =>
    unfold Entry.commitLeading
    split
    · exact ih _
    · exact ⟨rfl, rfl, rfl⟩

/-- The prefix of complete batches commits: the committed head rises by their records (R24). -/
theorem commitLeading_heads (e : Entry) (bs : List Batch) :
    (e.commitLeading bs).1.oldest = e.oldest ∧ (e.commitLeading bs).1.reserved = e.reserved ∧
      e.committed ≤ (e.commitLeading bs).1.committed ∧
      (e.commitLeading bs).1.committed ≤ e.committed + pendingRecords bs := by
  induction bs generalizing e with
  | nil => exact ⟨rfl, rfl, Nat.le_refl _, Nat.le_refl _⟩
  | cons b bs ih =>
    unfold Entry.commitLeading
    split
    · obtain ⟨h1, h2, h3, h4⟩ := ih (e.commit b bs)
      simp only [pendingRecords, List.map_cons, List.sum_cons, Entry.commit] at h1 h2 h3 h4 ⊢
      exact ⟨h1, h2, by omega, by omega⟩
    · exact ⟨rfl, rfl, Nat.le_refl _, Nat.le_add_right _ _⟩

/-- What RESET makes of the counters of an OPEN or SEALED entry (R24). -/
theorem reset_countersMove (e : Entry) : CountersMove e
    { (e.commitLeading e.batches).1 with
      batches := [], reserved := (e.commitLeading e.batches).1.committed
      lastReserved := (e.commitLeading e.batches).1.lastCommitted
      dirty := (e.commitLeading e.batches).1.dirty || !(e.commitLeading e.batches).2.isEmpty } := by
  obtain ⟨c1, c2, c3⟩ := commitLeading_keeps e e.batches
  obtain ⟨d1, d2, d3, d4⟩ := commitLeading_heads e e.batches
  rintro ⟨-, k2, k3⟩
  simp only [Entry.capacity] at k2
  simp only [Entry.CountersKept, Entry.CountersOk, Entry.capacity, pendingRecords, List.map_nil, List.sum_nil, c2, c3]
  exact ⟨⟨fun _ => by omega, by omega, k3⟩, by omega⟩

theorem afterReset_move (u : State) (i : Fin 32) : EntryMove ap u i (u.entry i).afterReset := by
  obtain ⟨c1, c2, c3⟩ := commitLeading_keeps (u.entry i) (u.entry i).batches
  unfold Entry.afterReset
  split
  · exact .keeps _ c1 c2 (fun k => by rw [← c3]; exact k) (.inr (reset_countersMove _))
  · exact .keeps _ c1 c2 (fun k => by rw [← c3]; exact k) (.inr (reset_countersMove _))
  · exact .frees
  · exact .keeps _ rfl rfl (fun k => by simp [Entry.toLost] at k) (.inr (toLost_countersMove _))
  · exact .keeps _ rfl rfl (fun k => k) (.inr (countersMove_same rfl rfl rfl rfl rfl (.inl rfl)))
  · exact .keeps _ rfl rfl (fun k => k) (.inr (countersMove_same rfl rfl rfl rfl rfl (.inl rfl)))

theorem takeReset_moves {tag : Byte} {j : Fin 2} (h : Moves p True ap s t) : Moves p True ap s (takeReset tag j t) := by
  have h1 : Moves p True ap s (t.resetLink tag j).resetStore :=
    setDrops_moves (setFetches_moves (forEach_moves (resetLink_moves h) fun i u k =>
      .entry i _ k (afterReset_move u i)))
  have h2 : Moves p True ap s (t.resetLink tag j).resetStore.resetScans.resetArray :=
    modArr_moves (withdraw_moves (.ctxs _ h1)) fun _ => ⟨rfl, rfl, rfl⟩
  have h3 : Moves p True ap s (t.resetLink tag j).resetStore.resetScans.resetArray.resetMonitor :=
    forEach_moves h2 fun d u k => setDieMon_moves k fun x => x
  have h4 : Moves p True ap s (t.resetLink tag j).resetStore.resetScans.resetArray.resetMonitor.resetPort := modPort_moves h3
  unfold takeReset
  dsimp only
  split
  · exact checkReset_moves (grantClaims_moves (waitForSlot_moves h4))
  · exact checkReset_moves (grantClaims_moves h4)

theorem take_moves {tag : Byte} {r : Request} (hp : p) (ha : r.kind = .append → ap) (h : Moves p q ap s t) :
    Moves p q ap s (take tag r t) := by
  unfold take
  split
  case h_10 => exact takeAppend_moves (ha rfl) h
  all_goals simp [h, takePower_moves hp h]

theorem decodeBody_moves {body : List Byte} (hp : p) (ha : ap) (h : Moves p True ap s t) :
    Moves p True ap s (t.decodeBody body) := by
  unfold State.decodeBody
  dsimp only
  have key := modLink_moves (f := fun l => { l with decoderSlot := false }) h fun _ => rfl
  split
  · exact enqueue_moves key
  · rename_i hk
    refine take_moves hp (fun _ => ha) (setTable_moves key fun _ => ?_)
    unfold State.frameCheck at hk
    split at hk
    · cases hk
    · (repeat' split at hk) <;> first | (cases hk; done) | skip
      rename_i hl
      simp only [List.length_append, List.length_singleton]
      omega

theorem endDecode_moves {j : Fin 2} (h : Moves p True ap s t) : Moves p True ap s (t.endDecode j) :=
  claimDecoder_moves (modLink_moves h fun _ => rfl)

theorem decodeFrame_moves (hp : p) (ha : ap) (h : Moves p True ap s t) : Moves p True ap s (decodeFrame t) := by
  unfold decodeFrame
  dsimp only
  split
  · exact h
  · split
    · exact takeReset_moves h
    · split
      · exact endDecode_moves (decodeBody_moves hp ha h)
      · exact h

@[simp] theorem receive_moves {body : List Byte} (h : Moves p True ap s t) : Moves p True ap s (t.receive body) := by
  unfold State.receive
  dsimp only
  have key := modLink_moves (f := fun l => { l with rxIdle := 0 }) h fun _ => rfl
  (repeat' split) <;> simp [h, key]

theorem hostRequest_moves {tag : Byte} {r : Request} (hp : p) (ha : ap) (h : Moves p True ap s t) :
    Moves p True ap s (hostRequest tag r t) :=
  decodeFrame_moves hp ha (decodeFrame_moves hp ha (receive_moves h))

/-! ### The clock -/

@[simp] theorem countRefresh_moves {d : Fin 2} (h : Moves p q ap s t) : Moves p q ap s (t.countRefresh d) := by
  unfold State.countRefresh
  split
  · exact setDie_moves h fun k => k
  · exact h

@[simp] theorem tick_moves (h : Moves p True ap s t) : Moves p True ap s (tick t) := by
  have h1 : Moves p True ap s t.tickRefresh :=
    forEach_moves (freely_moves (countRefresh_moves (countRefresh_moves h)) rfl) fun _ _ k => expire_moves k
  have h2 : Moves p True ap s t.tickRefresh.tickLink := by
    unfold State.tickLink
    dsimp only
    have key := modLink_moves (f := fun l => { l with rxIdle := l.rxIdle + 1 }) h1 fun _ => rfl
    (repeat' split) <;> simp [key]
  unfold tick State.tickSample
  dsimp only
  split
  · exact modMon_moves h2 fun _ => rfl
  · have key := modMon_moves (f := fun m => { m with subMs := 0, sinceMs := m.sinceMs + 1 }) h2 fun _ => rfl
    split
    · exact sampleFree_moves key
    · exact key

/-! ### Commands and steps -/

/-- What a command does; only one that decodes can admit an APPEND. -/
theorem exec_moves {c : Instr} (hp : storesNothing c = false → p)
    (ha : ap ∨ (requestOf c = none ∧ c ≠ .decodeFrame) ∧ t.RecoverTargets) (e : exec c t = .next s) :
    Moves p True ap t s := by
  have ha' : (requestOf c ≠ none ∨ c = .decodeFrame) → ap := fun hc => ha.resolve_right fun hr =>
    hc.elim (fun h => h hr.1.1) fun h => hr.1.2 h
  have hr := ha.imp id And.right
  clear ha
  cases c <;> cases e
  case powerOnReset => exact .restart _ (hp rfl) trivial .refl
  case decodeFrame => exact decodeFrame_moves (hp rfl) (ha' (.inr rfl)) .refl
  case batchWriteComplete => exact batchWriteComplete_moves (hp rfl) .refl
  case recoverWriteComplete => exact recoverWriteComplete_moves (hp rfl) .refl hr
  case enterOff => exact enterOff_moves (hp rfl) .refl
  case frameReceived => exact rxBytes_moves .refl
  case receiveGapTimeout => exact gapTimeout_moves .refl
  case skipIdleTimeout => exact skipTimeout_moves .refl
  case byteReceivedInSkip => exact byteInSkip_moves .refl
  case transmitFrameStart => exact transmitFrameStart_moves .refl
  case frameSent => exact frameSent_moves .refl
  case openStep => exact openStep_moves .refl
  case closeStep => exact closeStep_moves .refl
  case transferStep => exact transferStep_moves .refl
  case statusReadStep => exact statusReadStep_moves .refl
  case openDelayElapsed => exact openDelayElapsed_moves .refl
  case closeDelayElapsed => exact closeDelayElapsed_moves .refl
  case writeRecoveryElapsed => exact writeRecoveryElapsed_moves .refl
  case fetchReadComplete => exact fetchReadComplete_moves .refl
  case rowReadComplete => exact rowReadComplete_moves .refl
  case edgeProbeComplete => exact edgeProbeComplete_moves .refl
  case binaryProbeComplete => exact binaryProbeComplete_moves .refl
  case refreshTimerExpiry => exact refreshTimerExpiry_moves .refl
  case refreshStart => exact refreshStart_moves .refl
  case refreshEnd => exact refreshEnd_moves .refl
  case calibrationStart => exact calibrationStart_moves .refl
  case calibrationEnd => exact calibrationEnd_moves .refl
  case sample => exact sample_moves .refl
  case statusReadComplete => exact statusReadComplete_moves .refl
  case resetSequenceEnd => exact resetSequenceEnd_moves .refl
  case identityReadEnd => exact identityReadEnd_moves .refl
  case timingLoadEnd => exact timingLoadEnd_moves .refl
  case enterResting => exact enterResting_moves .refl
  case wakeDelayElapsed => exact wakeDelayElapsed_moves .refl
  case turnaroundElapsed => exact turnaroundElapsed_moves .refl
  case portAccessEnd => exact portAccessEnd_moves .refl
  case accessTimeout => exact accessTimeout_moves .refl
  case preserveReadComplete => exact preserveReadComplete_moves .refl
  all_goals exact hostRequest_moves (hp rfl) (ha' (.inl (by simp [requestOf]))) .refl

/-- Every step moves, from the state without the command it takes. -/
theorem step_moves (e : step t = .next s) : ∃ l, Moves True True True (t.setPending l) s := by
  unfold step at e
  split at e
  · exact ⟨_, exec_moves (fun _ => trivial) (.inl trivial) e⟩
  · cases e
    exact ⟨t.pending, tick_moves .refl⟩

end

end Sys2Proof.Laws
end

