-- ==== Sys2Proof/Laws/Request.lean ====
section
/-! SUPPORT. What a request row does where the link takes the frame at once: the owner takes the request, and the link is
as it was. -/

namespace Sys2Proof.Laws

open Sys2Proof.Machine

/-- The state in which an owner takes a request that a request row brought: its frame lies HELD in buffer 0, and its table
entry is made. -/
def taking (tag : Byte) (r : Request) (s : State) : State :=
  (s.modLink fun l =>
    { l with rxIdle := 0, bufs := #v[⟨.held, requestBody tag r⟩, ⟨.free, []⟩], heldOrder := [0] }).setTable
    (s.table ++ [.admitted tag r.kind])

/-- The state after the decode: the buffer is free again. -/
def landed (s : State) : State :=
  s.modLink fun l => { l with bufs := Vector.replicate 2 ⟨.free, []⟩, heldOrder := [] }

/-- A byte sampled from the line as it was sent is that byte, without framing error (R170). -/
theorem sampleBits_lineBits (b : Byte) : sampleBits (lineBits b) = ⟨b, false⟩ := by revert b; decide +kernel

/-- The bytes of a frame as they are sampled from the line. -/
theorem lineBytes_eq (body : List Byte) : lineBytes body = (frameBytes body).map fun b => ⟨b, false⟩ := by
  simp only [lineBytes, sampleBits_lineBits]

theorem kind_ofCode (k : Kind) : Kind.ofCode k.code = some k := by cases k <;> rfl

theorem lengthOk_le {k : Kind} {n : Nat} (h : k.lengthOk n = true) : n ≤ 962 := by
  cases k <;> simp [Kind.lengthOk] at h <;> omega

theorem resetFrame_false {tag : Byte} {r : Request} (h : r.kind ≠ .reset) : resetFrame (requestBody tag r) = false := by
  unfold requestBody resetFrame
  split
  · rename_i hb
    simp only [List.cons.injEq] at hb
    obtain ⟨rfl, rfl, _⟩ := hb
    cases hk : r.kind <;> first | exact absurd hk h | rfl
  · rfl

/-- Fields of the link that a state has at rest. -/
theorem firstBuf_replicate (l : Link) (h : l.bufs = Vector.replicate 2 ⟨.free, []⟩) : l.firstBuf .free = some 0 := by
  simp [Link.firstBuf, Link.buf, h]

theorem noDecode {s : State} (h : s.link.heldOrder = []) : decodeFrame s = s := by
  unfold decodeFrame
  rw [h]

/-- A request row, where the link takes the frame at once and the frame checks pass: the owner takes the request. -/
theorem hostRequest_taken {s : State} {tag : Byte} {r : Request} (h : s.Admits tag) (hk : r.kind ≠ .reset)
    (hl : r.kind.lengthOk r.payload.length = true) (hr : Request.ofPayload r.kind r.payload = r) :
    hostRequest tag r s = landed (take tag r (taking tag r s)) := by
  obtain ⟨⟨hrx, hbufs, hheld, hslot, hfree⟩, ht, he, hn⟩ := h
  have hlen : within 2 1022 (requestBody tag r).length = true := by
    have hle := lengthOk_le hl
    simp only [within, requestBody, List.length_cons, Bool.and_eq_true]
    exact ⟨decide_eq_true (Nat.le_add_left _ _),
      decide_eq_true (Nat.le_trans (Nat.add_le_add_right hle 2) (show 962 + 2 ≤ 1022 by decide))⟩
  have hrf := resetFrame_false (tag := tag) hk
  have hrecv : s.receive (requestBody tag r) = s.modLink fun l => { l with
      rxIdle := 0, bufs := #v[⟨.held, requestBody tag r⟩, ⟨.free, []⟩], heldOrder := [0], decoderSlot := true } := by
    unfold State.receive
    rw [if_pos ⟨hrx, hlen⟩]
    dsimp only
    rw [show (s.modLink fun l => { l with rxIdle := 0 }).link.firstBuf .free = some 0 from
      firstBuf_replicate _ (by simpa using hbufs)]
    dsimp only
    unfold State.hold State.claimDecoder State.oldestHeld
    have hf : 0 < 32 - (s.link.queue.length + s.table.length) := by
      simpa [State.freeSlots, State.queued, State.reserved, State.inHand, hslot] using hfree
    simp [hheld, Link.buf, Link.setBuf, hrf, hslot, State.modLink, hbufs, hrx, State.freeSlots, State.queued,
      State.reserved, State.inHand, hf]
    rfl
  unfold hostRequest
  rw [hrecv]
  have hdec : decodeFrame (s.modLink fun l => { l with
      rxIdle := 0, bufs := #v[⟨.held, requestBody tag r⟩, ⟨.free, []⟩], heldOrder := [0], decoderSlot := true }) =
      ((take tag r (taking tag r s)).endDecode 0) := by
    unfold decodeFrame
    simp only [modLink_link]
    have hb : (Link.buf { s.link with
        rxIdle := 0, bufs := #v[⟨.held, requestBody tag r⟩, ⟨.free, []⟩], heldOrder := [0], decoderSlot := true }
        0).bytes = requestBody tag r := rfl
    rw [hb, if_neg (by simp [hrf]), if_pos trivial]
    congr 1
    unfold State.decodeBody
    have h0 : byteAt (requestBody tag r) 0 = r.kind.code := rfl
    have h1 : byteAt (requestBody tag r) 1 = tag := rfl
    have h2 : (requestBody tag r).drop 2 = r.payload := rfl
    dsimp only
    rw [h0, h1, h2]
    have hc : (((s.modLink fun l => { l with
        rxIdle := 0, bufs := #v[⟨.held, requestBody tag r⟩, ⟨.free, []⟩], heldOrder := [0],
        decoderSlot := true }).modLink fun l => { l with decoderSlot := false }).frameCheck r.kind.code tag
        r.payload) = .ok r.kind := by
      have he' : s.table.find? (fun e => e.tag == tag) = none := he
      simp only [State.frameCheck, kind_ofCode, hl, State.entryOf, modLink_table, he', Bool.true_eq_false, if_false, ht]
      simp only [Option.isSome_none, Bool.false_eq_true, if_false]
      exact if_neg (show ¬ 16 ≤ s.table.length by omega)
    rw [hc]
    dsimp only
    unfold State.enterTable
    rw [hr]
    congr 1
    simp [taking, State.modLink, State.setTable, hslot]
  rw [hdec]
  have same : SameIn (take tag r (taking tag r s)).link (taking tag r s).link :=
    (take_moves (p := True) (q := False) (ap := True) trivial (fun _ => trivial) .refl).sameIn
  obtain ⟨_, _, _, hb, hh, hd, _, _⟩ := same
  have hb' : (take tag r (taking tag r s)).link.bufs = #v[⟨.held, requestBody tag r⟩, ⟨.free, []⟩] := hb
  have hh' : (take tag r (taking tag r s)).link.heldOrder = [0] := hh
  have hland : (take tag r (taking tag r s)).endDecode 0 = landed (take tag r (taking tag r s)) := by
    unfold State.endDecode State.claimDecoder State.oldestHeld
    simp only [modLink_link, hh', List.tail_cons, List.head?_nil, Option.map_none]
    unfold landed Link.setBuf
    simp only [State.modLink, hb', hh']
    congr 2
  rw [hland]
  exact noDecode rfl

/-- A request that its owner answers at once (R176, R180). -/
theorem landed_answer (s : State) (tag : Byte) (r : Request) (h : s.Admits tag) (res : Result) (f : List Byte) :
    landed ((taking tag r s).respond tag r.kind res f) = s.answered tag r.kind res f := by
  have h1 := h.1.2.1
  have h2 := h.1.2.2.1
  unfold landed State.respond State.answered taking
  simp only [State.modLink, State.setTable, State.enqueue, State.release]
  have : (s.table ++ [TableEntry.admitted tag r.kind]).filter (fun e => e.tag != tag) = s.table := by
    rw [List.filter_append, List.filter_eq_self.mpr]
    · simp [TableEntry.admitted]
    · intro a ha
      have := List.find?_eq_none.mp (show s.table.find? (fun e => e.tag == tag) = none from h.2.2.1) a ha
      simpa using this
  rw [this]
  obtain ⟨_, l, _⟩ := s
  obtain ⟨⟩ := l
  simp at h1 h2 ⊢
  exact ⟨h1.symm, h2⟩

end Sys2Proof.Laws
end

