-- ==== Sys2Proof/Laws/Counters.lean ====
section
/-! SUPPORT. The counters of every entry through a step (R4): every change but the admission of an APPEND keeps them in
order and lets no lead grow, and a decode admits at most one APPEND of at most 30 records. -/

namespace Sys2Proof.Laws

open Sys2Proof.Machine

/-! ### Chains of moves without an APPEND -/

theorem setEntry_each {P : Fin 32 → Entry → Prop} {t : State} {i : Fin 32} {e : Entry} (h : ∀ j, P j (t.entry j))
    (he : P i e) (j : Fin 32) : P j ((t.setEntry i e).entry j) := by
  rw [setEntry_entry]
  split
  · rename_i hj; rw [hj]; exact he
  · exact h j

/-- Without an APPEND the counters of every entry stay in order, and no reserved head leads by more than it did. -/
theorem Moves.counters {p q : Prop} {s t : State} (h : Moves p q False s t) (hs : s.CountersKept) (i : Fin 32) :
    (t.entry i).CountersKept ∧
      (t.entry i).reserved - (t.entry i).committed ≤ (s.entry i).reserved - (s.entry i).committed := by
  induction h generalizing i with
  | refl => exact ⟨hs i, Nat.le_refl _⟩
  | link _ _ _ _ ih | table _ _ _ ih | fetches _ _ ih | drops _ _ ih | ctxs _ _ ih
  | die _ _ _ _ ih | queues _ _ _ _ ih | arr _ _ _ _ _ ih | mon _ _ _ ih | port _ _ ih | mem _ _ _ _ ih
  | draws _ _ ih => exact ih i
  | entry j e _ he ih =>
    refine setEntry_each (P := fun i e => e.CountersKept ∧
      e.reserved - e.committed ≤ (s.entry i).reserved - (s.entry i).committed) ih ?_ i
    cases he with
    | keeps _ _ _ _ hk =>
      obtain ⟨k1, k2⟩ := hk.resolve_left id (ih j).1
      exact ⟨k1, Nat.le_trans k2 (ih j).2⟩
    | frees => exact ⟨by decide, Nat.zero_le _⟩
    | takes _ _ _ hk hr => exact ⟨hk, by omega⟩
  | restart =>
    have : ∀ i : Fin 32, (State.reset.entry i) = Entry.free := by decide
    have h2 : ((powerOnReset ‹_› ‹_›).entry i) = Entry.free := this i
    rw [h2]
    exact ⟨by decide, Nat.zero_le _⟩

/-- The counters of every entry are in order, and no reserved head leads its committed head by more than `n`. -/
def CountersBy (n : Nat) (s : State) : Prop :=
  s.CountersKept ∧ ∀ i : Fin 32, (s.entry i).reserved ≤ (s.entry i).committed + n

theorem CountersBy.mono {m n : Nat} {s : State} (h : CountersBy m s) (hn : m ≤ n) : CountersBy n s :=
  ⟨h.1, fun i => Nat.le_trans (h.2 i) (by omega)⟩

theorem Moves.countersBy {p q : Prop} {n : Nat} {s t : State} (h : Moves p q False s t) (hs : CountersBy n s) :
    CountersBy n t :=
  ⟨fun i => (h.counters hs.1 i).1, fun i => by have := (h.counters hs.1 i).2; have := hs.2 i; omega⟩

/-! ### The admission of an APPEND (R25, R26) -/

/-- The admission of a batch to an entry whose lead leaves room for it in the smallest capacity. -/
theorem withBatch_countersKept {e : Entry} {tag : Byte} {rs : List Record} {n count : Nat} (hs : e.state = .opened)
    (hk : e.CountersKept) (hf : e.appendFault count rs = none) (hl : e.reserved ≤ e.committed + n) (hn : n + 30 ≤ 512) :
    (e.withBatch tag rs).CountersKept ∧ (e.withBatch tag rs).reserved ≤ (e.withBatch tag rs).committed + (n + 30) := by
  obtain ⟨k1, k2, k3⟩ := hk
  have k1 := k1 (by rw [hs]; decide)
  have k4 : 1 ≤ e.count := k3 (.inl hs)
  clear k3
  unfold Entry.appendFault at hf
  (repeat' split at hf) <;> first | (cases hf; done) | skip
  rename_i c1 c2 _ _ c3 c4
  simp only [within, Bool.and_eq_false_iff, decide_eq_false_iff_not, not_or, Decidable.not_not] at c1
  simp only [Entry.CountersOk, Entry.capacity, Entry.CountersKept, Entry.withBatch, pendingRecords, List.map_append,
    List.sum_append, List.map_cons, List.map_nil, List.sum_cons, List.sum_nil, hs] at *
  refine ⟨⟨fun _ => ?_, ?_, fun _ => k4⟩, by omega⟩
  · cases hp : e.policy <;> simp [hp] at * <;> (try split) <;> omega
  · cases hp : e.policy <;> simp [hp] at * <;> (try split) <;> omega

theorem takeAppend_counters {tag series count : Byte} {rs : List Record} {n : Nat} {s : State} (h : CountersBy n s)
    (hn : n + 30 ≤ 512) : CountersBy (n + 30) (takeAppend tag series count rs s) := by
  have same := h.mono (Nat.le_add_right n 30)
  unfold takeAppend
  dsimp only
  (repeat' split) <;> try exact same
  rename_i j _ _ hw _ _ hf
  have hb := fun tag => withBatch_countersKept (tag := tag) (opened_of_write hw) (h.1 j) hf (h.2 j) hn
  exact (issueAll_moves (p := False) (q := False) (ap := False) .refl
    (mapTxn_waiting _ _ fun _ => ⟨rfl, rfl⟩)).countersBy
      ⟨setEntry_each (P := fun _ e => e.CountersKept) same.1 (hb tag).1,
        setEntry_each (P := fun _ e => e.reserved ≤ e.committed + (n + 30)) same.2 (hb tag).2⟩

theorem take_counters {tag : Byte} {r : Request} {n : Nat} {s : State} (h : CountersBy n s) (hn : n + 30 ≤ 512) :
    CountersBy (n + 30) (take tag r s) := by
  by_cases hr : r.kind = .append
  · cases r <;> simp [Request.kind] at hr
    exact takeAppend_counters h hn
  · exact ((take_moves (p := True) (q := False) (ap := False) trivial (fun k => hr k) .refl).countersBy h).mono
      (Nat.le_add_right n 30)

/-! ### A decode (R179) -/

/-- What a decode needs and leaves: counters in order, and a lead of at most `n` or a full request table. -/
def DecodeReady (n : Nat) (s : State) : Prop :=
  s.CountersKept ∧ (16 ≤ s.table.length ∨ CountersBy n s)

theorem DecodeReady.of_table {n : Nat} {s t : State} (h : DecodeReady n s) (hm : Moves True True False s t)
    (ht : t.table = s.table) : DecodeReady n t :=
  ⟨fun i => (hm.counters h.1 i).1, h.2.imp (fun k => by rw [ht]; exact k) fun k => hm.countersBy k⟩

theorem claimDecoder_table (s : State) : s.claimDecoder.table = s.table := by
  unfold State.claimDecoder State.waitForSlot
  (repeat' split) <;> rfl

theorem endDecode_table (j : Fin 2) (s : State) : (s.endDecode j).table = s.table := claimDecoder_table _

theorem raise_table (n : Notice) (s : State) : (s.raise n).table = s.table := by
  unfold State.raise State.queueNotice State.noticeSent State.waitForSlot
  (repeat' split) <;> rfl

theorem discard_table (x : RxState) (s : State) : (s.discard x).table = s.table := raise_table _ _

theorem rxByte_table (x : LineByte) (s : State) : (s.rxByte x).table = s.table := by
  unfold State.rxByte State.startFrame State.store State.hold
  dsimp only
  (repeat' split) <;> first
    | rfl
    | exact discard_table _ _
    | exact claimDecoder_table _

theorem rxBytes_table (xs : List LineByte) (s : State) : (s.rxBytes xs).table = s.table := by
  unfold State.rxBytes forEach
  induction xs generalizing s with
  | nil => rfl
  | cons x xs ih => exact (ih _).trans (rxByte_table x s)

theorem receive_table (body : List Byte) (s : State) : (s.receive body).table = s.table := by
  unfold State.receive State.hold
  dsimp only
  (repeat' split) <;> first
    | exact rxBytes_table _ _
    | exact discard_table _ _
    | exact claimDecoder_table _

theorem grantClaims_heldOrder (n : Nat) (s : State) : (s.grantClaims n).link.heldOrder = s.link.heldOrder := by
  induction n generalizing s with
  | zero => rfl
  | succ n ih =>
    unfold State.grantClaims
    split
    · rfl
    · split
      · rw [ih]
        unfold State.grant
        split
        · rfl
        · exact (grantScan_moves (p := True) (q := False) (ap := True) .refl).sameIn.2.2.2.2.1
        · exact (queueNotice_moves (p := True) (q := False) (ap := True) .refl).sameIn.2.2.2.2.1
      · rfl

theorem checkReset_heldOrder (s : State) : s.checkReset.link.heldOrder = s.link.heldOrder := by
  unfold State.checkReset
  (repeat' split) <;> rfl

/-- RESET leaves no frame HELD (R182). -/
theorem takeReset_heldOrder (tag : Byte) (j : Fin 2) (s : State) : (takeReset tag j s).link.heldOrder = [] := by
  have h1 : Moves True False True (s.resetLink tag j)
      (s.resetLink tag j).resetStore.resetScans.resetArray.resetMonitor.resetPort :=
    modPort_moves (forEach_moves (modArr_moves (withdraw_moves (.ctxs _ (setDrops_moves (setFetches_moves
      (forEach_moves .refl fun i u k => .entry i _ k (afterReset_move u i)))))) fun _ => ⟨rfl, rfl, rfl⟩)
      fun d u k => setDieMon_moves k fun x => x)
  have h0 : (s.resetLink tag j).link.heldOrder = [] := rfl
  unfold takeReset
  dsimp only
  rw [checkReset_heldOrder, grantClaims_heldOrder]
  split
  · exact (waitForSlot_moves h1).sameIn.2.2.2.2.1.trans h0
  · exact h1.sameIn.2.2.2.2.1.trans h0

/-- One decode admits at most one APPEND of at most 30 records; after a RESET no frame is left to decode. -/
theorem decodeFrame_counters {n : Nat} {s : State} (h : DecodeReady n s) (hn : n + 30 ≤ 512) :
    (decodeFrame s).CountersKept ∧ (DecodeReady (n + 30) (decodeFrame s) ∨ (decodeFrame s).link.heldOrder = []) := by
  suffices hd : DecodeReady (n + 30) (decodeFrame s) ∨
      (decodeFrame s).CountersKept ∧ (decodeFrame s).link.heldOrder = [] from
    hd.elim (fun k => ⟨k.1, .inl k⟩) fun k => ⟨k.1, .inr k.2⟩
  have same : DecodeReady (n + 30) s := ⟨h.1, h.2.imp id fun k => k.mono (Nat.le_add_right n 30)⟩
  unfold decodeFrame
  split
  · exact .inl same
  · rename_i j _ _
    dsimp only
    split
    · exact .inr ⟨fun i => ((takeReset_moves (p := True) (ap := False) .refl).counters h.1 i).1, takeReset_heldOrder _ _ _⟩
    · split
      · left
        refine DecodeReady.of_table (s := s.decodeBody _) ?_ (endDecode_moves .refl) (endDecode_table _ _)
        unfold State.decodeBody
        dsimp only
        split
        · exact same.of_table (enqueue_moves (modLink_moves .refl fun _ => rfl)) rfl
        · rename_i k hk
          have hc : CountersBy n s := h.2.resolve_left fun hf => by
            unfold State.frameCheck at hk
            (repeat' split at hk) <;> first | (cases hk; done) | skip
            exact absurd hf (by assumption)
          have hs := take_counters (s := (s.modLink fun l => { l with decoderSlot := false }).setTable
            (s.table ++ [.admitted (byteAt (s.link.buf j).bytes 1) (Request.ofPayload k ((s.link.buf j).bytes.drop 2)).kind]))
            (tag := byteAt (s.link.buf j).bytes 1) (r := Request.ofPayload k ((s.link.buf j).bytes.drop 2)) hc hn
          exact ⟨hs.1, .inr hs⟩
      · exact .inl same

theorem hostRequest_counters {tag : Byte} {r : Request} {s : State} (h : DecodeReady 452 s) :
    (hostRequest tag r s).CountersKept := by
  have h1 : DecodeReady 452 (s.receive (requestBody tag r)) := h.of_table (receive_moves .refl) (receive_table _ _)
  obtain ⟨h2, h3⟩ := decodeFrame_counters h1 (by decide)
  unfold hostRequest
  rcases h3 with h3 | h3
  · exact (decodeFrame_counters h3 (by decide)).1
  · rw [noDecode h3]; exact h2

/-! ### Commands and steps -/

/-- Every command keeps the counters of every entry in order (R4). -/
theorem exec_counters {c : Instr} {s t : State} (e : exec c s = .next t) (hk : s.CountersKept) (hr : s.RecoverTargets)
    (hl : s.LeadsOk) : t.CountersKept := by
  have hd : DecodeReady 452 s := ⟨hk, hl.imp id fun k => ⟨hk, k⟩⟩
  by_cases hc : requestOf c = none ∧ c ≠ .decodeFrame
  · exact fun i => ((exec_moves (p := True) (ap := False) (fun _ => trivial) (.inr ⟨hc, hr⟩) e).counters hk i).1
  · cases c <;> simp [requestOf] at hc <;> cases e
    all_goals first
      | exact hostRequest_counters hd
      | exact (decodeFrame_counters hd (by decide)).1

theorem step_counters {s t : State} (e : step s = .next t) (hk : s.CountersKept) (hr : s.RecoverTargets)
    (hl : s.LeadsOk) : t.CountersKept := by
  unfold step at e
  split at e
  · exact exec_counters e hk hr hl
  · cases e
    exact fun i => ((tick_moves (p := True) (ap := False) .refl).counters hk i).1

end Sys2Proof.Laws
end

