-- ==== Sys2Proof/Laws/Work.lean ====
section
/-! SUPPORT. What the shared operations of the blocks do, said once: the access queue, the cuts of a run, the end of an
image operation, the pages of PRESERVE and RECOVER, and the order of complete batches. -/

namespace Sys2Proof.Laws

open Sys2Proof.Machine

/-! ### The access queue (R94 to R98) -/

/-- Work of which no transaction remains is withdrawn: at most the waiting list moves up. -/
theorem withdraw_idle (mine : Txn → Bool) (s : State) (h : ∀ y ∈ s.arr.queue ++ s.arr.waiting, mine y = false) :
    ∃ q w, q ++ w = s.arr.queue ++ s.arr.waiting ∧ s.withdraw mine = s.setQueues q w := by
  have hq : (s.arr.queue.filter fun t => !(mine t && !t.issued)) = s.arr.queue := by
    rw [List.filter_eq_self]
    intro y hy
    simp [h y (List.mem_append_left _ hy)]
  have hm : (s.arr.queue.map fun t => if mine t then { t with live := false } else t) = s.arr.queue := by
    conv => rhs; rw [← List.map_id s.arr.queue]
    apply List.map_congr_left
    intro y hy
    simp [h y (List.mem_append_left _ hy)]
  have hw : (s.arr.waiting.filter fun t => !mine t) = s.arr.waiting := by
    rw [List.filter_eq_self]
    intro y hy
    simp [h y (List.mem_append_right _ hy)]
  unfold State.withdraw State.refill
  simp only [hq, hm, hw]
  exact ⟨_, _, by simp [State.setQueues, State.modArr], rfl⟩

/-- The first transaction that fits leaves the queue, and the waiting list moves up. -/
theorem leaveQueue_queues (fits : Txn → Bool) (s : State) :
    ∃ q w, q ++ w = s.arr.queue.eraseP fits ++ s.arr.waiting ∧ s.leaveQueue fits = s.setQueues q w :=
  ⟨s.arr.queue.eraseP fits ++ s.arr.waiting.take (32 - (s.arr.queue.eraseP fits).length),
    s.arr.waiting.drop (32 - (s.arr.queue.eraseP fits).length), by simp, rfl⟩

/-- Where the one element of a kind is the first that fits, none of the kind is left once it is gone. -/
theorem eraseP_only {α : Type} {l : List α} {fits kind : α → Bool} {x : α} (hf : l.find? fits = some x)
    (hk : l.filter kind = [x]) : ∀ y ∈ l.eraseP fits, kind y = false := by
  induction l with
  | nil => cases hf
  | cons a l ih =>
    by_cases ha : fits a
    · rw [List.find?_cons_of_pos ha] at hf
      obtain rfl := Option.some.inj hf
      rw [List.eraseP_cons_of_pos ha]
      by_cases hka : kind a
      · rw [List.filter_cons_of_pos hka] at hk
        intro y hy
        simpa using List.filter_eq_nil_iff.mp (List.cons.inj hk).2 y hy
      · rw [List.filter_cons_of_neg hka] at hk
        have hm : a ∈ l.filter kind := by rw [hk]; simp
        exact absurd (List.mem_filter.mp hm).2 hka
    · rw [List.find?_cons_of_neg ha] at hf
      rw [List.eraseP_cons_of_neg ha]
      by_cases hka : kind a
      · rw [List.filter_cons_of_pos hka] at hk
        exact absurd (List.find?_some hf) (by rw [← (List.cons.inj hk).1]; exact ha)
      · rw [List.filter_cons_of_neg hka] at hk
        intro y hy
        rcases List.mem_cons.mp hy with rfl | hy
        · simpa using hka
        · exact ih hf hk y hy

/-- The first that fits is of a kind and leaves: one less of the kind is left. -/
theorem eraseP_kind {α : Type} {l : List α} {fits kind : α → Bool} {x : α} (hf : l.find? fits = some x)
    (hk : kind x = true) :
    ((l.eraseP fits).filter kind).length + 1 = (l.filter kind).length := by
  induction l with
  | nil => cases hf
  | cons a l ih =>
    by_cases ha : fits a
    · rw [List.find?_cons_of_pos ha] at hf
      obtain rfl := Option.some.inj hf
      rw [List.eraseP_cons_of_pos ha, List.filter_cons_of_pos hk]
      rfl
    · rw [List.find?_cons_of_neg ha] at hf
      rw [List.eraseP_cons_of_neg ha]
      have := ih hf
      by_cases hka : kind a
      · rw [List.filter_cons_of_pos hka, List.filter_cons_of_pos hka]; simp; omega
      · rw [List.filter_cons_of_neg hka, List.filter_cons_of_neg hka]; exact this

theorem filter_pos {α : Type} {l : List α} {kind : α → Bool} (h : 1 ≤ (l.filter kind).length) :
    ∃ y ∈ l, kind y = true := by
  cases hl : l.filter kind with
  | nil => rw [hl] at h; simp at h
  | cons y _ => exact ⟨y, List.mem_filter.mp (by rw [hl]; simp)⟩

theorem filter_none {α : Type} {l : List α} {kind : α → Bool} (h : (l.filter kind).length = 0) :
    ∀ y ∈ l, kind y = false := by
  intro y hy
  have := List.filter_eq_nil_iff.mp (List.length_eq_zero_iff.mp h) y hy
  simpa using this

/-- A transaction that finds room joins the queue; nothing else changes but its die, where that is RESTING. -/
theorem issue_room {t : Txn} {s : State} (h : s.arr.queue.length < 32) :
    ∃ dies, s.issue t = { s with arr := { s.arr with queue := s.arr.queue ++ [t], dies := dies } } := by
  unfold State.issue
  rw [if_pos h]
  split
  · exact ⟨s.arr.dies, rfl⟩
  · unfold State.beginWake
    dsimp only
    split
    · exact ⟨_, rfl⟩
    · exact ⟨s.arr.dies, rfl⟩

/-- Transactions that find room join the queue in list order. -/
theorem issueEach_room {α : Type} (l : List α) (f : α → Txn) (s : State) (h : s.arr.queue.length + l.length ≤ 32) :
    ∃ dies, forEach l (fun a => State.issue (f a)) s =
      { s with arr := { s.arr with queue := s.arr.queue ++ l.map f, dies := dies } } := by
  induction l generalizing s with
  | nil => exact ⟨s.arr.dies, by simp [forEach]⟩
  | cons a l ih =>
    simp only [List.length_cons] at h
    obtain ⟨d1, e1⟩ := issue_room (t := f a) (s := s) (by omega)
    obtain ⟨d2, e2⟩ := ih (s.issue (f a)) (by rw [e1]; simp; omega)
    refine ⟨d2, ?_⟩
    change forEach l _ (s.issue (f a)) = _
    rw [e2, e1]
    simp

/-- A run is cut into at most two parts (R9). -/
theorem cut_length_le (e : Entry) (q n : Nat) : (e.cut q n).length ≤ 2 := by
  unfold Entry.cut
  split <;> simp

/-! ### Moments that nothing waits for -/

theorem checkReset_none {s : State} (h : s.link.reset = none) : s.checkReset = s := by
  unfold State.checkReset
  rw [h]

theorem checkDrop_stays {s : State} {i : Fin 32} (h : (s.entry i).state ≠ .dropping) : s.checkDrop i = s := by
  unfold State.checkDrop
  simp [h]

/-- An entry that was marked ENDING is released all the same. -/
theorem filter_markEnding (l : List TableEntry) (tag : Byte) :
    (l.map fun e => if e.tag == tag then { e with state := .ending } else e).filter (fun e => e.tag != tag) =
      l.filter fun e => e.tag != tag := by
  induction l with
  | nil => rfl
  | cons a l ih =>
    simp only [List.map_cons, List.filter_cons, ih]
    by_cases h : a.tag == tag <;> simp_all

/-! ### Image operations (R156, R159, R165) -/

/-- An image operation of which nothing is under way ends: it answers in the same change. -/
theorem endOp_now {s : State} {op : ImageOp} (r : Result) (detail : List Byte) (ho : s.port.op = some op)
    (hr : op.result = none) (ha : op.abandoned = false) (hp : s.port.accessing = false)
    (hq : ∀ y ∈ s.arr.queue ++ s.arr.waiting, y.origin.ofImage = false)
    (hd : (s.entry op.series).state ≠ .dropping) :
    ∃ q w, q ++ w = s.arr.queue ++ s.arr.waiting ∧ s.endOp r detail = { s with
      arr := { s.arr with queue := q, waiting := w }
      port := { s.port with op := none, transfer := none }
      table := s.table.filter fun e => e.tag != op.tag
      link := { s.link with queue := s.link.queue ++ [Frame.response op.tag op.kind.kind r
        ({ op with detail := detail } : ImageOp).report] } } := by
  obtain ⟨q, w, h, e⟩ := withdraw_idle (fun t => t.origin.ofImage) (s.modOp fun op =>
    { op with phase := .ending, result := some r, detail := detail }) hq
  have hi : (q.any fun t => t.issued && t.origin.ofImage) = false := by
    rw [List.any_eq_false]
    intro y hy
    have hy' : y ∈ s.arr.queue ++ s.arr.waiting := (show q ++ w = s.arr.queue ++ s.arr.waiting from h) ▸
      List.mem_append_left w hy
    simp [hq y hy']
  refine ⟨q, w, h, ?_⟩
  unfold State.endOp
  simp only [ho]
  rw [if_neg (by simp [hr, ha]), e, if_neg (by simp [hp])]
  unfold State.finishOp
  simp only [State.markEnding, State.setTransfer, State.modOp, State.modPort, State.setQueues, State.modArr,
    State.setTable, ho, Option.map_some, Port.accessing, State.imageIssued, hi]
  rw [if_neg (by simp), checkDrop_stays (by exact hd)]
  simp only [State.respond, State.enqueue, State.release, State.modLink, State.setTable, filter_markEnding]
  rfl

/-- The records formed from a page are issued, and the read of the next page begins (R165). -/
theorem issueFormed_room {s : State} {op : ImageOp} (ho : s.port.op = some op) (hl : s.arr.queue.length + 2 ≤ 32) :
    ∃ dies, s.issueFormed = { s with
      arr := { s.arr with
        dies := dies
        queue := s.arr.queue ++ ((s.entry op.series).cut op.pageFirst op.formed.length).map fun part =>
          (s.entry op.series).txn .recoverWrite .write part.1 part.2
            ((op.formed.drop (part.1 - op.pageFirst)).take part.2) }
      port := if op.page < dataPages op.records then { s.port with
          op := some { op with formed := [], phase := .pageRead, page := op.page + 1 }
          transfer := some ⟨.read, op.slot * s.port.slotPages + (op.page + 1), 0, [], 0, false,
            s.port.lastDir == .read⟩ }
        else { s.port with op := some { op with formed := [] } } } := by
  have hc := cut_length_le (s.entry op.series) op.pageFirst op.formed.length
  obtain ⟨dies, e⟩ := issueEach_room ((s.entry op.series).cut op.pageFirst op.formed.length) (fun part =>
    (s.entry op.series).txn .recoverWrite .write part.1 part.2 ((op.formed.drop (part.1 - op.pageFirst)).take part.2))
    (s.modOp fun op => { op with formed := [] }) (by show s.arr.queue.length + _ ≤ 32; omega)
  refine ⟨dies, ?_⟩
  unfold State.issueFormed
  simp only [ho, e]
  split
  · simp only [State.recoverPage, State.modOp, State.modPort, ho, Option.map_some, State.startPage]
    rfl
  · simp only [State.modOp, State.modPort, ho, Option.map_some]

/-- The reads of a data page join the queue (R159). -/
theorem preservePage_room {s : State} {op : ImageOp} (k : Nat) (ho : s.port.op = some op)
    (hl : s.arr.queue.length + 2 ≤ 32) :
    let op' : ImageOp := { op with phase := .pageRead, page := k, half0 := [], half1 := [] }
    ∃ dies, s.preservePage k = { s with
      arr := { s.arr with
        dies := dies
        queue := s.arr.queue ++ ((s.entry op.series).cut op'.pageFirst op'.pageRecords).map fun part =>
          (s.entry op.series).txn (.preserveRead part.1 (part.1 != op'.pageFirst)) .read part.1 part.2 [] }
      port := { s.port with op := some op' } } := by
  intro op'
  have hc := cut_length_le (s.entry op.series) op'.pageFirst op'.pageRecords
  obtain ⟨dies, e⟩ := issueEach_room ((s.entry op.series).cut op'.pageFirst op'.pageRecords) (fun part =>
    (s.entry op.series).txn (.preserveRead part.1 (part.1 != op'.pageFirst)) .read part.1 part.2 [])
    (s.modPort fun p => { p with op := some op' }) (by show s.arr.queue.length + _ ≤ 32; omega)
  refine ⟨dies, ?_⟩
  unfold State.preservePage
  simp only [ho]
  exact e

theorem recordsOf_length (n : Nat) (bytes : List Byte) : (recordsOf n bytes).length = n := by
  induction n generalizing bytes with
  | zero => rfl
  | succ n ih => simp [recordsOf, ih]

/-- The stamps of a page rise where no record lies below one before it. -/
theorem stampsRise_iff (low : Stamp) (rs : List Record) :
    stampsRise low.toNat rs = true ↔ (low :: rs.map Record.stamp).Pairwise (fun a b => a.toNat ≤ b.toNat) := by
  induction rs generalizing low with
  | nil => simp [stampsRise]
  | cons r rs ih =>
    simp only [stampsRise, Bool.and_eq_true, decide_eq_true_eq, ih, List.map_cons]
    rw [List.pairwise_cons (a := low)]
    constructor
    · rintro ⟨a, b⟩
      refine ⟨fun x hx => ?_, b⟩
      rcases List.mem_cons.mp hx with rfl | hx
      · exact a
      · exact Nat.le_trans a (List.rel_of_pairwise_cons b hx)
    · rintro ⟨a, b⟩
      exact ⟨a _ (by simp), b⟩

/-! ### Complete batches (R41) -/

theorem putByFinish_perm (b : Batch) (l : List Batch) : (b.putByFinish l).Perm (b :: l) := by
  induction l with
  | nil => exact .refl _
  | cons c cs ih =>
    unfold Batch.putByFinish
    split
    · exact .refl _
    · exact (ih.cons c).trans (.swap b c cs)

/-- No batch is dropped or added. -/
theorem byFinish_perm (l : List Batch) : (byFinish l).Perm l := by
  induction l with
  | nil => exact .refl _
  | cons b l ih => exact (putByFinish_perm b _).trans (ih.cons b)

theorem putByFinish_sorted (b : Batch) (l : List Batch) (h : l.Pairwise fun x y => x.finish ≤ y.finish) :
    (b.putByFinish l).Pairwise fun x y => x.finish ≤ y.finish := by
  induction l with
  | nil => simp [Batch.putByFinish]
  | cons c cs ih =>
    rw [List.pairwise_cons] at h
    unfold Batch.putByFinish
    split
    · rename_i hbc
      rw [List.pairwise_cons, List.pairwise_cons]
      refine ⟨fun y hy => ?_, h⟩
      rcases List.mem_cons.mp hy with rfl | hy
      · exact hbc
      · exact Nat.le_trans hbc (h.1 y hy)
    · rename_i hbc
      rw [List.pairwise_cons]
      refine ⟨fun y hy => ?_, ih h.2⟩
      rcases List.mem_cons.mp ((putByFinish_perm b cs).mem_iff.mp hy) with rfl | hy
      · omega
      · exact h.1 y hy

/-- The batches stand in the order in which they became complete. -/
theorem byFinish_sorted (l : List Batch) : (byFinish l).Pairwise fun x y => x.finish ≤ y.finish := by
  induction l with
  | nil => exact .nil
  | cons b l ih => exact putByFinish_sorted b _ ih

end Sys2Proof.Laws
end

