-- ==== Sys2Proof/Laws/Scan.lean ====
section
/-! SUPPORT. What evaluation, the reads of a range and the end of a scan do, said once (R66 to R83). -/

namespace Sys2Proof.Laws

open Sys2Proof.Machine

theorem setCtx_setCtx (s : State) (k : Fin 4) (a b : Option Ctx) : (s.setCtx k a).setCtx k b = s.setCtx k b := by
  simp [State.setCtx]

theorem setCtx_self {s : State} {k : Fin 4} {a : Option Ctx} (h : s.ctx k = a) : s.setCtx k a = s := by
  subst h
  simp [State.setCtx, State.ctx]

/-! ### Records that do not end a scan (R52, R58, R75, R76) -/

/-- Hit frames of a context enter the queue. -/
def queueHits (c : Ctx) (frames : List (List Hit)) (s : State) : State :=
  s.modLink fun l => { l with queue := l.queue ++ frames.map (Frame.hits c.tag) }

theorem pastUpper_iff (c : Ctx) (r : Record) : c.pastUpper r = false ↔ c.inStamps r := by
  unfold Ctx.pastUpper Ctx.inStamps
  cases c.range with
  | sequence a b => simp
  | stamp a b => cases b <;> simp

theorem queueHits_nil (c : Ctx) (s : State) : queueHits c [] s = s := by simp [queueHits, State.modLink]

theorem freeSlots_queueHits (c : Ctx) (frames : List (List Hit)) (s : State) (k : Fin 4) (a : Option Ctx) :
    ((queueHits c frames s).setCtx k a).freeSlots = s.freeSlots - frames.length := by
  change 32 - ((s.link.queue ++ frames.map (Frame.hits c.tag)).length + s.table.length + s.inHand) =
    32 - (s.link.queue.length + s.table.length + s.inHand) - frames.length
  rw [List.length_append, List.length_map]
  omega

/-- Records tested one after the other count together. -/
theorem tested_cons (c c' : Ctx) (q : Nat) (r : Record) (rs : List Record) (hs : List Hit)
    (h : c' = { c.tested q [r] with hits := hs }) :
    Ctx.tested c' (q + 1) rs = { c.tested q (r :: rs) with hits := hs } := by
  subst h
  simp only [Ctx.tested, List.length_cons, List.length_nil, List.filter_cons, List.filter_nil]
  congr 1
  · cases rs <;> simp; omega
  · omega
  · split <;> simp; omega
  · split <;> simp; omega
  · split <;> simp; omega
  · split <;> simp; omega
  · cases rs <;> simp; omega

/-- A hit after such records. -/
theorem tested_hit (c : Ctx) (q : Nat) (before : List Record) (r : Record) (m : Conditions) (hs : List Hit)
    (ht : c.filter.test r = .hit m) :
    (({ c.tested q before with hits := hs } : Ctx).counted (q + before.length) m).withHit (q + before.length) r =
      { c.tested q (before ++ [r]) with
        hits := if c.mode = .list then hs ++ [⟨q + before.length, r⟩] else hs } := by
  obtain ⟨a, b, d⟩ := m
  simp only [Ctx.withHit, Ctx.counted, Ctx.tested, List.filter_append, List.length_append, List.filter_cons,
    List.filter_nil, isHit, handsOver, ht, List.length_cons, List.length_nil]
  cases c.mode <;> cases a <;> cases b <;> cases d <;> simp <;> omega

theorem listed_hit (c : Ctx) (q : Nat) (before : List Record) (r : Record) (m : Conditions)
    (ht : c.filter.test r = .hit m) :
    c.listed q (before ++ [r]) =
      if c.mode = .list then c.listed q before ++ [⟨q + before.length, r⟩] else [] := by
  unfold Ctx.listed
  split
  · rw [List.zipIdx_append, List.filter_append, List.map_append]
    simp [isHit, ht]
  · rfl

theorem counted_eq (c : Ctx) (q : Nat) (r : Record) (m : Conditions) (hit : Bool)
    (ht : c.filter.test r = if hit then .hit m else .miss m) :
    { c.counted q m with hitCount := c.hitCount + hit.toNat } = c.tested q [r] := by
  cases hit <;> simp at ht <;> obtain ⟨a, b, d⟩ := m <;> cases a <;> cases b <;> cases d <;>
    simp [Ctx.counted, Ctx.tested, isHit, handsOver, ht]

/-- A record that does not end the scan is counted; in LIST mode a 24th hit sends the hit buffer. -/
theorem evalRecord_goesOn {k : Fin 4} {q : Nat} {r : Record} {s : State} {c : Ctx} (hc : s.ctx k = some c)
    (hm : c.mode = .count → c.hits = []) (hh : c.hits.length < 24) (hg : c.GoesOn [r])
    (hf : c.mode = .count ∨ (c.hits.length + ([r].filter (isHit c.filter)).length) / 24 ≤ s.freeSlots) :
    ∃ (frames : List (List Hit)) (hs : List Hit),
      s.evalRecord k q r = (queueHits c frames s).setCtx k (some { c.tested q [r] with hits := hs }) ∧
      frames.flatten ++ hs = c.listed q [r] ∧ (∀ f ∈ frames, f.length = 24) ∧ hs.length < 24 ∧
      (c.mode = .count → hs = []) := by
  have hns := (hg.1 r (by simp)).2
  have hpu := (pastUpper_iff c r).mpr (hg.1 r (by simp)).1
  unfold State.evalRecord
  simp only [hc, hpu, Bool.false_eq_true, if_false]
  cases ht : c.filter.test r with
  | stop u => exact absurd ht (hns u)
  | mismatch =>
    refine ⟨[], c.hits, ?_, ?_, by simp, hh, hm⟩
    · rw [queueHits_nil]
      simp [Ctx.counted, Ctx.tested, isHit, handsOver, ht, Conditions.none]
    · cases hmo : c.mode <;> simp [Ctx.listed, hmo, isHit, ht, hm]
  | miss m =>
    refine ⟨[], c.hits, ?_, ?_, by simp, hh, hm⟩
    · rw [queueHits_nil, ← counted_eq c q r m false (by simpa using ht)]
      rfl
    · cases hmo : c.mode <;> simp [Ctx.listed, hmo, isHit, ht, hm]
  | hit m =>
    dsimp only
    have he := tested_hit c q [] r m c.hits ht
    have h0 : ({ c.tested q [] with hits := c.hits } : Ctx) = c := by simp [Ctx.tested]
    simp only [List.length_nil, Nat.add_zero, List.nil_append, h0] at he
    have hlim : ((c.counted q m).withHit q r).limitReached = false := by
      simp only [Ctx.limitReached, Ctx.withHit, Ctx.counted]
      cases hl : c.hitLimit with
      | none => rfl
      | some n =>
        have hn := hg.2 n hl
        simp [isHit, ht] at hn
        exact decide_eq_false (by show ¬ n ≤ c.hitCount + 1; omega)
    have hli := listed_hit c q [] r m ht
    simp only [hlim, Bool.false_eq_true, if_false]
    rw [he]
    by_cases hmo : c.mode = .list
    case neg =>
      have hco : c.mode = .count := by
        cases h : c.mode
        · exact absurd h hmo
        · rfl
      simp only [if_neg hmo] at hli ⊢
      rw [if_neg (by omega)]
      refine ⟨[], c.hits, by rw [queueHits_nil], ?_, by simp, hh, fun _ => hm hco⟩
      rw [show c.listed q [r] = [] from hli, hm hco]
      rfl
    case pos =>
      simp only [if_pos hmo, List.length_nil, Nat.add_zero, List.nil_append] at hli ⊢
      have hl0 : c.listed q [] = c.hits := by simp [Ctx.listed, hmo]
      rw [hl0] at hli
      by_cases h24 : 24 ≤ (c.hits ++ [(⟨q, r⟩ : Hit)]).length
      · rw [if_pos h24]
        have hlen : c.hits.length = 23 := by simp at h24; omega
        have hfree : 0 < s.freeSlots := by
          rcases hf with h | h
          · rw [hmo] at h
            cases h
          · simp [isHit, ht] at h
            omega
        refine ⟨[c.hits ++ [⟨q, r⟩]], [], ?_, by simp [hli], by simp [hlen], by simp, fun _ => rfl⟩
        unfold State.fullHits
        rw [if_pos (by exact hfree)]
        unfold State.sendHits
        rw [setCtx_ctx_same]
        exact setCtx_setCtx (queueHits c [c.hits ++ [⟨q, r⟩]] s) k _ _
      · rw [if_neg h24]
        refine ⟨[], c.hits ++ [⟨q, r⟩], by rw [queueHits_nil], by simp [hli], by simp, ?_,
          fun h => by rw [hmo] at h; cases h⟩
        simp at h24 ⊢
        omega

/-- Frames of 24 hold 24 hits each. -/
theorem flatten_length24 {frames : List (List Hit)} (h : ∀ f ∈ frames, f.length = 24) :
    frames.flatten.length = 24 * frames.length := by
  induction frames with
  | nil => rfl
  | cons a l ih =>
    simp only [List.flatten_cons, List.length_append, List.length_cons, ih (fun f hf => h f (by simp [hf])),
      h a (by simp)]
    omega

/-- Records that do not end the scan are all counted, and in LIST mode their hits go in frames of 24, where slots are
free; then the rest is evaluated. -/
theorem evalRecords_goesOn {k : Fin 4} (rest before : List Record) : ∀ {q : Nat} {s : State} {c : Ctx},
    s.ctx k = some c → c.state = .running → (c.mode = .count → c.hits = []) → c.hits.length < 24 → c.GoesOn before →
    (c.mode = .count ∨ (c.hits.length + (before.filter (isHit c.filter)).length) / 24 ≤ s.freeSlots) →
    ∃ (frames : List (List Hit)) (hs : List Hit),
      s.evalRecords k q (before ++ rest) = State.evalRecords k (q + before.length) rest
        ((queueHits c frames s).setCtx k (some { c.tested q before with hits := hs })) ∧
      frames.flatten ++ hs = c.listed q before ∧ (∀ f ∈ frames, f.length = 24) ∧ hs.length < 24 ∧
      (c.mode = .count → hs = []) := by
  induction before with
  | nil =>
    intro q s c hc hr hm hh hg hf
    refine ⟨[], c.hits, ?_, ?_, by simp, hh, hm⟩
    · have h2 : ({ c.tested q [] with hits := c.hits } : Ctx) = c := by simp [Ctx.tested]
      rw [queueHits_nil, h2, setCtx_self hc]
      rfl
    · cases hmo : c.mode <;> simp [Ctx.listed, hmo, hm]
  | cons r rs ih =>
    intro q s c hc hr hm hh hg hf
    have hcount : ((r :: rs).filter (isHit c.filter)).length =
        ([r].filter (isHit c.filter)).length + (rs.filter (isHit c.filter)).length := by
      simp only [List.filter_cons, List.filter_nil]
      split <;> simp
      omega
    rw [hcount] at hf
    have hg1 : c.GoesOn [r] := by
      refine ⟨fun x hx => hg.1 x (by simp at hx; simp [hx]), fun n hn => ?_⟩
      have := hg.2 n hn
      rw [hcount] at this
      omega
    obtain ⟨f1, h1, e1, l1, a1, b1, d1⟩ := evalRecord_goesOn (q := q) (r := r) hc hm hh hg1 (by
      rcases hf with h | h
      · exact .inl h
      · right
        omega)
    have hstep : s.evalRecords k q (r :: rs ++ rest) =
        State.evalRecords k (q + 1) (rs ++ rest) (s.evalRecord k q r) := by
      rw [List.cons_append, State.evalRecords, if_pos (by simp [State.ctxRunning, hc, hr])]
    rw [hstep, e1]
    have hlh : (f1.flatten ++ h1).length ≤ c.hits.length + ([r].filter (isHit c.filter)).length := by
      rw [l1]
      unfold Ctx.listed
      split
      · simp only [List.zipIdx_cons, List.zipIdx_nil, List.filter_cons, List.filter_nil]
        split <;> simp
      · simp
    have hfl := flatten_length24 a1
    obtain ⟨f2, h2, e2, l2, a2, b2, d2⟩ := ih (q := q + 1)
      (s := (queueHits c f1 s).setCtx k (some { c.tested q [r] with hits := h1 }))
      (c := { c.tested q [r] with hits := h1 }) (setCtx_ctx_same ..) hr d1 b1 (by
        refine ⟨fun x hx => hg.1 x (by simp [hx]), fun n hn => ?_⟩
        have := hg.2 n hn
        rw [hcount] at this
        show c.hitCount + ([r].filter (isHit c.filter)).length + (rs.filter (isHit c.filter)).length < n
        omega) (by
        rcases hf with h | h
        · exact .inl h
        · right
          rw [freeSlots_queueHits]
          rw [List.length_append] at hlh
          show (h1.length + (rs.filter (isHit c.filter)).length) / 24 ≤ _
          omega)
    refine ⟨f1 ++ f2, h2, ?_, ?_, ?_, b2, d2⟩
    · rw [e2]
      congr 1
      · simp only [List.length_cons]
        omega
      · have hx : ({ Ctx.tested { c.tested q [r] with hits := h1 } (q + 1) rs with hits := h2 } : Ctx) =
            { c.tested q (r :: rs) with hits := h2 } := by rw [tested_cons c _ q r rs h1 rfl]
        rw [hx]
        simp [queueHits, State.setCtx, State.modLink, Ctx.tested]
    · rw [List.flatten_append, List.append_assoc, l2]
      change _ ++ (if c.mode = .list then h1 ++ ((rs.zipIdx (q + 1)).filter fun p => isHit c.filter p.1).map
        (fun p => (⟨p.2, p.1⟩ : Hit)) else []) = _
      cases hmo : c.mode with
      | count =>
        have hl1 : c.listed q [r] = [] := by simp [Ctx.listed, hmo]
        rw [hl1] at l1
        simp [Ctx.listed, hmo, List.append_eq_nil_iff.mp l1]
      | list =>
        simp only [if_true]
        rw [← List.append_assoc, l1]
        simp only [Ctx.listed, hmo, if_true, List.zipIdx_cons, List.filter_cons, List.zipIdx_nil, List.filter_nil]
        split <;> simp
    · intro f hf'
      rcases List.mem_append.mp hf' with h | h
      · exact a1 f h
      · exact a2 f h

/-! ### The end of a scan (R82, R83) -/

/-- A scan with no read under way, and a free slot for the hits it holds, ends at once: its hits, then its report. -/
theorem endScan_now {k : Fin 4} {s : State} {c : Ctx} (r : EndReason) (hc : s.ctx k = some c) (hr : c.state ≠ .draining)
    (hq : ∀ y ∈ s.arr.queue ++ s.arr.waiting, y.origin.ofCtx k = false) (hd : (s.entry c.series).state ≠ .dropping)
    (hf : c.hits = [] ∨ (Claimant.scan k ∉ s.link.claims ∧ 0 < s.freeSlots)) :
    ∃ q w, q ++ w = s.arr.queue ++ s.arr.waiting ∧ s.endScan k r = { s with
      ctxs := s.ctxs.set k none
      arr := { s.arr with queue := q, waiting := w }
      table := s.table.filter fun e => e.tag != c.tag
      link := { s.link with
        queue := s.link.queue ++ (if c.hits = [] then [] else [Frame.hits c.tag c.hits])
          ++ [Frame.response c.tag .scan .ok (c.drain r).report] } } := by
  obtain ⟨q, w, h, e⟩ := withdraw_idle (fun t => t.origin.ofCtx k) (s.setCtx k (some (c.drain r))) hq
  have hi : (q.any fun t => t.issued && t.origin.ofCtx k) = false := by
    rw [List.any_eq_false]
    intro y hy
    have hy' : y ∈ s.arr.queue ++ s.arr.waiting := (show q ++ w = s.arr.queue ++ s.arr.waiting from h) ▸
      List.mem_append_left w hy
    simp [hq y hy']
  have hctx : ∀ t : State, t.ctxs = s.ctxs.set k (some (c.drain r)) → t.ctx k = some (c.drain r) := by
    intro t ht
    simp [State.ctx, ht]
  refine ⟨q, w, h, ?_⟩
  unfold State.endScan
  simp only [hc, if_neg hr]
  rw [show (State.withdraw (fun t => t.origin.ofCtx k) (s.setCtx k (some (c.drain r)))) = _ from e]
  unfold State.drainHits
  rw [hctx _ (by rfl)]
  dsimp only
  rw [show (c.drain r).hits = c.hits from rfl]
  by_cases hh : c.hits = []
  · rw [if_pos (.inl hh)]
    unfold State.finishScan
    rw [hctx _ (by rfl)]
    dsimp only
    rw [if_pos ⟨rfl, hh, hi⟩, checkDrop_stays (by exact hd)]
    simp only [hh, if_true, List.append_nil]
    simp only [State.respond, State.enqueue, State.release, State.modLink, State.setTable, State.markEnding,
      State.setQueues, State.modArr, State.setCtx]
    congr 1
    · exact filter_markEnding _ _
    · simp
  · obtain ⟨hcl, hfree⟩ := hf.resolve_left hh
    rw [if_neg (by
      rintro (h | h)
      · exact hh h
      · exact hcl (by simpa using (show s.link.claims.contains (Claimant.scan k) = true from h)))]
    rw [if_pos (by
      change 0 < 32 - (s.link.queue.length + (s.table.map _).length + _)
      rw [List.length_map]
      exact hfree)]
    unfold State.sendHits
    rw [hctx _ (by rfl)]
    dsimp only
    unfold State.finishScan
    rw [setCtx_ctx_same]
    dsimp only
    rw [if_pos ⟨rfl, rfl, hi⟩, checkDrop_stays (by exact hd), if_neg hh]
    simp only [State.respond, State.enqueue, State.release, State.modLink, State.setTable, State.markEnding,
      State.setQueues, State.modArr, State.setCtx]
    congr 1
    · exact filter_markEnding _ _
    · simp

/-! ### The reads of a range (R67, R71, R72) -/

/-- A free buffer takes the read of the next numbers of the range. -/
theorem readInto_free {k : Fin 4} {second : Bool} {s : State} {c : Ctx} (hc : s.ctx k = some c)
    (hb : c.buf second = none) (hh : c.readPoint ≤ c.high) (ho : (s.entry c.series).oldest ≤ c.readPoint)
    (hq : s.arr.queue.length < 32) :
    ∃ dies n t, 1 ≤ n ∧ c.readPoint + n ≤ c.high + 1 ∧ s.readInto k second = { s with
      ctxs := s.ctxs.set k (some (({ c with readPoint := c.readPoint + n }).setBuf second
        (some ⟨c.readPoint, c.readPoint + n - 1, false, 0, []⟩)))
      arr := { s.arr with queue := s.arr.queue ++ [t], dies := dies } } := by
  have hpo : c.passOvertaken (s.entry c.series).oldest = c := by
    unfold Ctx.passOvertaken
    rw [if_neg (by omega)]
  have hn : 1 ≤ min ((s.entry c.series).roomInRow c.readPoint) (c.high + 1 - c.readPoint) := by
    have : 1 ≤ (s.entry c.series).roomInRow c.readPoint := by
      unfold Entry.roomInRow
      omega
    omega
  generalize hnn : min ((s.entry c.series).roomInRow c.readPoint) (c.high + 1 - c.readPoint) = n at hn
  obtain ⟨dies, e⟩ := issue_room (t := (s.entry c.series).txn (.scanRow k second) .read c.readPoint n [])
    (s := s.setCtx k (some (({ c with readPoint := c.readPoint + n }).setBuf second
      (some ⟨c.readPoint, c.readPoint + n - 1, false, 0, []⟩)))) hq
  refine ⟨dies, n, (s.entry c.series).txn (.scanRow k second) .read c.readPoint n [], hn, by omega, ?_⟩
  unfold State.readInto
  rw [hc]
  dsimp only
  rw [if_neg (by rw [hb]; simp; omega)]
  simp only [hpo]
  rw [if_neg (by omega)]
  simp only [hnn]
  exact e

/-- A range of numbers that the series still holds starts: the context is RUNNING from its first number. -/
theorem startRange_runs {k : Fin 4} {s : State} {c : Ctx} {n : Nat} (hc : s.ctx k = some c) (h0 : c.buf0 = none)
    (h1 : c.buf1 = none) (hn : n ≤ c.high) (ho : (s.entry c.series).oldest ≤ n) (hq : s.arr.queue.length + 2 ≤ 32) :
    ∃ c', (s.startRange k n).ctx k = some c' ∧ c'.state = .running ∧ c'.low = n ∧ c'.cursor = n ∧ c'.resolved = true ∧
      c'.high = c.high ∧ (s.startRange k n).dir = s.dir ∧ (s.startRange k n).link = s.link ∧
      (s.startRange k n).mem = s.mem := by
  let c1 : Ctx := { c with state := .running, low := n, cursor := n, readPoint := n, resolved := true }
  have hm : s.modCtx k (fun c =>
      { c with state := .running, low := n, cursor := n, readPoint := n, resolved := true }) =
      s.setCtx k (some c1) := by
    unfold State.modCtx
    rw [hc]
  obtain ⟨d1, m1, t1, a1, b1, e1⟩ := readInto_free (k := k) (second := false) (s := s.setCtx k (some c1)) (c := c1)
    (setCtx_ctx_same ..) h0 hn ho (by show s.arr.queue.length < 32; omega)
  let c2 : Ctx := ({ c1 with readPoint := n + m1 }).setBuf false (some ⟨n, n + m1 - 1, false, 0, []⟩)
  let s2 : State := { s.setCtx k (some c1) with
    ctxs := (s.setCtx k (some c1)).ctxs.set k (some c2)
    arr := { s.arr with queue := s.arr.queue ++ [t1], dies := d1 } }
  have hs2 : s2.ctx k = some c2 := by simp [State.ctx, s2]
  have hreads : ∃ v cc, s2.readInto k true = v ∧ v.ctx k = some cc ∧
      cc.buf0 = some ⟨n, n + m1 - 1, false, 0, []⟩ ∧ (∀ b, cc.buf1 = some b → n ≤ b.first) ∧ cc.state = .running ∧
      cc.low = n ∧ cc.cursor = n ∧ cc.resolved = true ∧ cc.high = c.high ∧ v.dir = s.dir ∧ v.link = s.link ∧
      v.mem = s.mem := by
    by_cases hh : c2.readPoint ≤ c2.high
    · obtain ⟨d2, m2, t2, a2, b2, e2⟩ := readInto_free (second := true) hs2 h1 hh
        (by show (s.entry c.series).oldest ≤ n + m1; omega)
        (by show (s.arr.queue ++ [t1]).length < 32; rw [List.length_append]; simp; omega)
      refine ⟨_, ({ c2 with readPoint := n + m1 + m2 } : Ctx).setBuf true
        (some ⟨n + m1, n + m1 + m2 - 1, false, 0, []⟩), e2, ?_, rfl, ?_, rfl, rfl, rfl, rfl, rfl, rfl, rfl, rfl⟩
      · simp [State.ctx]
        rfl
      · intro b hb
        simp [Ctx.setBuf] at hb
        rw [← hb]
        simp
    · have e2 : s2.readInto k true = s2 := by
        unfold State.readInto
        rw [hs2]
        dsimp only
        rw [if_pos (.inr (by omega))]
      refine ⟨_, c2, e2, hs2, rfl, ?_, rfl, rfl, rfl, rfl, rfl, rfl, rfl, rfl⟩
      intro b hb
      simp [c2, Ctx.setBuf, c1, h1] at hb
  obtain ⟨v, cc, ev, hcv, hb0, hb1, k1, k2, k3, k4, k5, k6, k7, k8⟩ := hreads
  have hcur : cc.current = some (false, ⟨n, n + m1 - 1, false, 0, []⟩) := by
    unfold Ctx.current
    rw [hb0]
    cases hx : cc.buf1 with
    | none => rfl
    | some b => simp [hb1 b hx]
  have hev : s.startRange k n = v.setCtx k (some { cc with cursor := max cc.cursor n }) := by
    unfold State.startRange
    rw [hm]
    unfold State.issueReads
    rw [e1]
    change State.evaluate k (s2.readInto k true) = _
    rw [ev]
    unfold State.evaluate
    rw [State.evalBuffers, hcv]
    dsimp only
    rw [if_neg (by rw [k1]; simp), hcur]
    dsimp only
    rw [if_pos rfl]
  rw [hev]
  exact ⟨_, setCtx_ctx_same .., k1, k2, by show max cc.cursor n = n; omega, k4, k5, k6, k7, k8⟩

/-! ### Buffers and reads (R72 to R74) -/

/-- A buffer in use, or a read point past the range, issues no read. -/
theorem readInto_stays {k : Fin 4} {second : Bool} {s : State} {c : Ctx} (hc : s.ctx k = some c)
    (h : (c.buf second).isSome = true ∨ c.high < c.readPoint) : s.readInto k second = s := by
  unfold State.readInto
  rw [hc]
  dsimp only
  rw [if_pos h]

/-- A context with nothing to read into, or nothing left to read, issues no reads. -/
theorem issueReads_stays {k : Fin 4} {s : State} {c : Ctx} (hc : s.ctx k = some c)
    (h : ∀ second, (c.buf second).isSome = true ∨ c.high < c.readPoint) : s.issueReads k = s := by
  unfold State.issueReads
  rw [readInto_stays hc (h false), readInto_stays hc (h true)]

theorem buf_setBuf (c : Ctx) (second : Bool) (b : Option RowBuf) : (c.setBuf second b).buf second = b := by
  cases second <;> rfl

theorem buf_setBuf_other (c : Ctx) (second : Bool) (b : Option RowBuf) :
    (c.setBuf second b).buf (!second) = c.buf (!second) := by
  cases second <;> rfl

/-- With the other buffer in use, reads are issued into the free one alone. -/
theorem issueReads_one {k : Fin 4} {second : Bool} {s : State} {c : Ctx} (hc : s.ctx k = some c)
    (ho : (c.buf (!second)).isSome = true) : s.issueReads k = s.readInto k second := by
  cases second
  · unfold State.issueReads
    have h1 : ∃ c1, (s.readInto k false).ctx k = some c1 ∧ (c1.buf true).isSome = true := by
      unfold State.readInto
      rw [hc]
      dsimp only
      split
      · exact ⟨c, hc, ho⟩
      · have hp : ∀ n, (c.passOvertaken n).buf1 = c.buf1 := fun n => by unfold Ctx.passOvertaken; split <;> rfl
        split
        · exact ⟨_, setCtx_ctx_same .., by rw [Ctx.buf, if_pos rfl, hp]; exact ho⟩
        · have hi : ∀ (u : State) (t : Txn), (u.issue t).ctx k = u.ctx k := by
            intro u t
            unfold State.issue State.beginWake
            dsimp only
            repeat' split
            all_goals rfl
          exact ⟨_, (hi _ _).trans (setCtx_ctx_same ..), by simp only [Ctx.setBuf, Ctx.buf, hp]; exact ho⟩
    obtain ⟨c1, h2, h3⟩ := h1
    exact readInto_stays h2 (.inl h3)
  · unfold State.issueReads
    rw [readInto_stays (second := false) hc (.inl ho)]

/-- The read into a free buffer, from oldest on where the read point has fallen below it (R72). -/
theorem readInto_reads {k : Fin 4} {second : Bool} {s : State} {c : Ctx} (hc : s.ctx k = some c)
    (hb : c.buf second = none) (hh : c.readPoint ≤ c.high) (hq : s.arr.queue.length < 32) :
    let e := s.entry c.series
    let next := max c.readPoint e.oldest
    let c1 : Ctx := { c with
      overtaken := c.overtaken + (min e.oldest (c.high + 1) - c.readPoint), readPoint := next }
    (c.high < next → s.readInto k second = s.setCtx k (some c1)) ∧
    (next ≤ c.high →
      let n := min (e.roomInRow next) (c.high + 1 - next)
      ∃ dies, s.readInto k second = { s.setCtx k (some (({ c1 with readPoint := next + n }).setBuf second
          (some ⟨next, next + n - 1, false, 0, []⟩))) with
        arr := { s.arr with
          queue := s.arr.queue ++ [e.txn (.scanRow k second) .read next n []], dies := dies } }) := by
  intro e next c1
  have hp : c.passOvertaken e.oldest = c1 := by
    unfold Ctx.passOvertaken
    split
    · rename_i h
      have : next = e.oldest := by simp only [next]; omega
      simp only [c1, this]
    · rename_i h
      have h1 : next = c.readPoint := by simp only [next]; omega
      have h2 : min e.oldest (c.high + 1) - c.readPoint = 0 := by omega
      simp only [c1, h1, h2]
      rfl
  have hs : s.readInto k second =
      if c.high < next then s.setCtx k (some c1)
      else
        let n := min (e.roomInRow next) (c.high + 1 - next)
        (s.setCtx k (some (({ c1 with readPoint := next + n }).setBuf second
          (some ⟨next, next + n - 1, false, 0, []⟩)))).issue (e.txn (.scanRow k second) .read next n []) := by
    unfold State.readInto
    rw [hc]
    dsimp only
    rw [if_neg (by rw [hb]; simp; omega)]
    change (if (c.passOvertaken e.oldest).high < (c.passOvertaken e.oldest).readPoint then _ else _) = _
    rw [hp]
  refine ⟨fun h => by rw [hs, if_pos h], fun h => ?_⟩
  rw [hs, if_neg (by omega)]
  exact issue_room hq

/-! ### Evaluation of a buffer (R74) -/

/-- The context waits at a current buffer that is not filled yet. -/
theorem evalBuffers_waits {k : Fin 4} {n : Nat} {second : Bool} {b : RowBuf} {s : State} {c : Ctx}
    (hc : s.ctx k = some c) (hr : c.state = .running) (hcur : c.current = some (second, b)) (hf : b.filled = false) :
    s.evalBuffers k (n + 1) = s.setCtx k (some { c with cursor := max c.cursor b.first }) := by
  rw [State.evalBuffers, hc]
  dsimp only
  rw [if_neg (by rw [hr]; simp), hcur]
  dsimp only
  rw [if_pos hf]

/-- With no buffer in use the range is done. -/
theorem evalBuffers_done {k : Fin 4} {n : Nat} {s : State} {c : Ctx} (hc : s.ctx k = some c) (hr : c.state = .running)
    (hcur : c.current = none) : s.evalBuffers k (n + 1) = s.endScan k .endOfRange := by
  rw [State.evalBuffers, hc]
  dsimp only
  rw [if_neg (by rw [hr]; simp), hcur]

/-- The current buffer, filled, is evaluated record by record; while the context is RUNNING it is left, read into again,
and the next buffer is evaluated. -/
theorem evalBuffers_filled {k : Fin 4} {n : Nat} {second : Bool} {b : RowBuf} {s : State} {c : Ctx} {q : Nat}
    (hc : s.ctx k = some c) (hr : c.state = .running) (hcur : c.current = some (second, b)) (hf : b.filled = true)
    (hq : q = max c.cursor (b.first + b.skipped)) :
    s.evalBuffers k (n + 1) =
      let t := State.evalRecords k q (b.records.drop (q - (b.first + b.skipped)))
        (s.setCtx k (some { c with cursor := max c.cursor b.first }))
      if t.ctxRunning k then State.evalBuffers k n ((t.modCtx k fun c => c.leaveBuf second b).issueReads k) else t := by
  subst hq
  rw [State.evalBuffers, hc]
  dsimp only
  rw [if_neg (by rw [hr]; simp), hcur]
  dsimp only
  rw [if_neg (by rw [hf]; simp)]

/-- A current buffer whose records left do not end the scan is left, and read into again. -/
theorem evalBuffers_left {k : Fin 4} {n : Nat} {second : Bool} {b : RowBuf} {s : State} {c : Ctx} {q : Nat}
    {rs : List Record} (hc : s.ctx k = some c) (hr : c.state = .running) (hcur : c.current = some (second, b))
    (hf : b.filled = true) (hq : q = max c.cursor (b.first + b.skipped))
    (hrs : rs = b.records.drop (q - (b.first + b.skipped))) (hm : c.mode = .count → c.hits = [])
    (hh : c.hits.length < 24) (hg : c.GoesOn rs)
    (hs : c.mode = .count ∨ (c.hits.length + (rs.filter (isHit c.filter)).length) / 24 ≤ s.freeSlots) :
    ∃ (frames : List (List Hit)) (hits : List Hit),
      s.evalBuffers k (n + 1) = State.evalBuffers k n (((queueHits c frames s).setCtx k
        (some (({ c.tested q rs with hits := hits } : Ctx).leaveBuf second b))).issueReads k) ∧
      frames.flatten ++ hits = c.listed q rs ∧ (∀ f ∈ frames, f.length = 24) ∧ hits.length < 24 ∧
      (c.mode = .count → hits = []) := by
  obtain ⟨frames, hits, he, hrest⟩ := evalRecords_goesOn (k := k) [] rs (q := q)
    (s := s.setCtx k (some { c with cursor := max c.cursor b.first })) (c := { c with cursor := max c.cursor b.first })
    (setCtx_ctx_same ..) hr hm hh hg hs
  refine ⟨frames, hits, ?_, hrest⟩
  rw [List.append_nil] at he
  have hset : (queueHits { c with cursor := max c.cursor b.first } frames
      (s.setCtx k (some { c with cursor := max c.cursor b.first }))).setCtx k
        (some { Ctx.tested { c with cursor := max c.cursor b.first } q rs with hits := hits }) =
      (queueHits c frames s).setCtx k
        (some { Ctx.tested { c with cursor := max c.cursor b.first } q rs with hits := hits }) := by
    simp [queueHits, State.setCtx, State.modLink]
  have he' := (he.trans (by rw [State.evalRecords])).trans hset
  rw [evalBuffers_filled hc hr hcur hf hq, ← hrs, he']
  dsimp only
  rw [if_pos (by simp [State.ctxRunning, setCtx_ctx_same, Ctx.tested, hr])]
  unfold State.modCtx
  rw [setCtx_ctx_same]
  dsimp only
  rw [setCtx_setCtx]
  congr 2

/-! ### The current buffer and contexts that stay as they are (R74, R82, R177) -/

theorem setBuf_self {c : Ctx} {second : Bool} {b : Option RowBuf} (h : c.buf second = b) : c.setBuf second b = c := by
  subst h
  cases second <;> rfl

/-- The buffer with the lower span is the current one. -/
theorem current_set {c : Ctx} {second : Bool} {b : RowBuf} (h : ∀ y, c.buf (!second) = some y → b.first < y.first) :
    (c.setBuf second (some b)).current = some (second, b) := by
  cases second
  · unfold Ctx.current Ctx.setBuf
    simp only [Bool.false_eq_true, if_false]
    cases h1 : c.buf1 with
    | none => rfl
    | some y =>
      have := h y h1
      simp only
      rw [if_pos (by omega)]
  · unfold Ctx.current Ctx.setBuf
    simp only [if_true]
    cases h1 : c.buf0 with
    | none => rfl
    | some y =>
      have := h y h1
      simp only
      rw [if_neg (by omega)]

/-- With one buffer in use, it is the current one. -/
theorem current_other {c : Ctx} {second : Bool} {y : RowBuf} (h1 : c.buf second = none)
    (h : c.buf (!second) = some y) : c.current = some (!second, y) := by
  cases second <;> simp [Ctx.buf] at h h1 <;> simp [Ctx.current, h, h1]

theorem current_none {c : Ctx} {second : Bool} (h1 : c.buf second = none) (h : c.buf (!second) = none) :
    c.current = none := by
  cases second <;> simp [Ctx.buf] at h h1 <;> simp [Ctx.current, h, h1]

/-- A context that is not RUNNING evaluates no record. -/
theorem evalRecords_stays {k : Fin 4} {s : State} {q : Nat} {rs : List Record} (h : s.ctxRunning k = false) :
    s.evalRecords k q rs = s := by
  cases rs with
  | nil => rfl
  | cons a l => rw [State.evalRecords, if_neg (by simp [h])]

/-- A context that is not RUNNING evaluates no buffer. -/
theorem evalBuffers_stays {k : Fin 4} {s : State} {n : Nat} {c : Ctx} (hc : s.ctx k = some c) (h : c.state ≠ .running) :
    s.evalBuffers k n = s := by
  cases n with
  | zero => rfl
  | succ n =>
    rw [State.evalBuffers, hc]
    dsimp only
    rw [if_pos h]

/-- A context with hits to send, or with a read ISSUED, does not answer yet. -/
theorem finishScan_waits {k : Fin 4} {s : State} {c : Ctx} (hc : s.ctx k = some c)
    (h : c.hits ≠ [] ∨ s.ctxIssued k = true) : s.finishScan k = s := by
  unfold State.finishScan
  rw [hc]
  dsimp only
  rw [if_neg]
  rintro ⟨-, h1, h2⟩
  rcases h with h | h
  · exact h h1
  · rw [h2] at h
    cases h

/-- With no slot free, no claim is granted. -/
theorem grantClaims_full {n : Nat} {s : State} (h : s.freeSlots = 0) : s.grantClaims n = s := by
  cases n with
  | zero => rfl
  | succ n =>
    rw [State.grantClaims]
    split
    · rfl
    · rw [if_neg (by omega)]

theorem length_filter_zipIdx {α : Type} (p : α → Bool) (l : List α) (n : Nat) :
    ((l.zipIdx n).filter fun x => p x.1).length = (l.filter p).length := by
  induction l generalizing n with
  | nil => rfl
  | cons a l ih =>
    simp only [List.zipIdx_cons, List.filter_cons]
    split <;> simp [ih]

/-- In LIST mode the hits listed are those of the buffer and one for each HIT. -/
theorem listed_length {c : Ctx} (h : c.mode = .list) (q : Nat) (rs : List Record) :
    (c.listed q rs).length = c.hits.length + (rs.filter (isHit c.filter)).length := by
  unfold Ctx.listed
  rw [if_pos h, List.length_append, List.length_map, length_filter_zipIdx]

end Sys2Proof.Laws
end

