-- ==== Sys2Proof/Laws/Ends.lean ====
section
/-! SUPPORT. How work ends when its series is lost or its scan drains: what is withdrawn, what answers, and the notice of a
refresh overrun (R17, R36, R44, R81 to R83, R98, R118, R178). -/

namespace Sys2Proof.Laws

open Sys2Proof.Machine

/-! ### Withdrawal (R98) -/

/-- What is left of a queue and its waiting list once the work that `mine` names is withdrawn: its ISSUED transactions, their
completions discarded, and every other one. -/
structure Withdrawn (mine : Origin → Bool) (aq aw q w : List Txn) : Prop where
  gone : ∀ x ∈ q ++ w, mine x.origin = true → x.issued = true ∧ x.live = false
  source : ∀ x ∈ q ++ w, ∃ y ∈ aq ++ aw, x.origin = y.origin ∧ x.issued = y.issued ∧ (y.live = false → x.live = false)
    ∧ (mine x.origin = true → y ∈ aq)
  stay : ∀ y ∈ aq, y.issued = true → ∃ x ∈ q, x.origin = y.origin ∧ x.issued = true
  wait : ∀ x ∈ w, x ∈ aw

/-- Every withdrawal leaves its work `Withdrawn` (R98). -/
theorem withdraw_withdrawn (mine : Origin → Bool) (s : State) :
    ∃ q w, s.withdraw (fun t => mine t.origin) = s.setQueues q w ∧ Withdrawn mine s.arr.queue s.arr.waiting q w := by
  let kept := s.arr.queue.filter fun t => !(mine t.origin && !t.issued)
  let marked := kept.map fun t => if mine t.origin then { t with live := false } else t
  let wt := s.arr.waiting.filter fun t => !mine t.origin
  refine ⟨marked ++ wt.take (32 - marked.length), wt.drop (32 - marked.length), rfl, ?_, ?_, ?_, ?_⟩
  · intro x hx hm
    rw [List.append_assoc, List.take_append_drop] at hx
    rcases List.mem_append.mp hx with hx | hx
    · obtain ⟨y, hy, rfl⟩ := List.mem_map.mp hx
      have := (List.mem_filter.mp hy).2
      by_cases hmy : mine y.origin = true
      · simp [hmy] at this ⊢; exact this
      · simp [hmy] at hm
    · have := (List.mem_filter.mp hx).2
      simp [hm] at this
  · intro x hx
    rw [List.append_assoc, List.take_append_drop] at hx
    rcases List.mem_append.mp hx with hx | hx
    · obtain ⟨y, hy, rfl⟩ := List.mem_map.mp hx
      have hy' := (List.mem_filter.mp hy).1
      refine ⟨y, List.mem_append_left _ hy', ?_, ?_, ?_, fun _ => hy'⟩ <;> split <;> simp
    · have := (List.mem_filter.mp hx)
      refine ⟨x, List.mem_append_right _ this.1, rfl, rfl, id, fun h => ?_⟩
      simp [h] at this
  · intro y hy hi
    refine ⟨if mine y.origin then { y with live := false } else y, List.mem_append_left _
      (List.mem_map.mpr ⟨y, List.mem_filter.mpr ⟨hy, by simp [hi]⟩, rfl⟩), ?_, ?_⟩ <;> split <;> simp [hi]
  · intro x hx
    exact (List.mem_filter.mp (List.mem_of_mem_drop hx)).1

theorem Withdrawn.keep {mine other : Origin → Bool} {aq aw q w : List Txn} (h : Withdrawn mine aq aw q w)
    (ho : ∀ x ∈ aq ++ aw, other x.origin = true → x.issued = true ∧ x.live = false) :
    ∀ x ∈ q ++ w, other x.origin = true → x.issued = true ∧ x.live = false := by
  intro x hx hm
  obtain ⟨y, hy, h1, h2, h3, -⟩ := h.source x hx
  obtain ⟨h4, h5⟩ := ho y hy (h1 ▸ hm)
  exact ⟨h2.trans h4, h3 h5⟩

/-! ### Free orders (log 6) -/

theorem mem_shuffle {α : Type} (x : α) : ∀ (n c : Nat) (l : List α), l.length ≤ n → (x ∈ shuffle n c l ↔ x ∈ l) := by
  intro n
  induction n with
  | zero => intro c l h; have : l = [] := List.length_eq_zero_iff.mp (by omega); subst this; simp [shuffle]
  | succ n ih =>
    intro c l h
    cases l with
    | nil => simp [shuffle]
    | cons a l =>
      have hlt : c % (a :: l).length < (a :: l).length := Nat.mod_lt _ (by simp)
      rw [shuffle]
      rw [List.mem_cons, ih _ _ (by rw [List.length_eraseIdx, if_pos hlt]; simp at h ⊢; exact h)]
      have hg : (a :: l).getD (c % (a :: l).length) a = (a :: l)[c % (a :: l).length] := by
        rw [List.getD_eq_getElem?_getD, List.getElem?_eq_getElem hlt]; rfl
      rw [hg]
      constructor
      · rintro (h1 | h1)
        · rw [h1]; exact List.getElem_mem hlt
        · exact List.mem_of_mem_eraseIdx h1
      · intro h1
        obtain ⟨j, hj, rfl⟩ := List.getElem_of_mem h1
        by_cases hjj : j = c % (a :: l).length
        · left; simp [hjj]
        · right
          exact List.mem_eraseIdx_iff_getElem.mpr ⟨j, hj, hjj, rfl⟩

theorem freely_spec {α : Type} (l : List α) (s : State) : ∃ o n, s.freely l = (o, { s with freeDraws := n }) ∧
    (∀ x, x ∈ o ↔ x ∈ l) ∧ (l.length ≤ 1 → o = l) := by
  unfold State.freely
  split
  · exact ⟨l, s.freeDraws, rfl, fun _ => Iff.rfl, fun _ => rfl⟩
  · exact ⟨_, _, rfl, fun x => mem_shuffle x _ _ _ (Nat.le_refl _), fun h => by omega⟩

theorem freely_small {α : Type} {l : List α} (s : State) (h : l.length ≤ 1) : s.freely l = (l, s) := by
  unfold State.freely; rw [if_pos h]

theorem nodup_one {α : Type} {l : List α} {i : α} (hn : l.Nodup) (hi : i ∈ l) (h : ∀ j ∈ l, j = i) :
    l = [i] := by
  cases l with
  | nil => cases hi
  | cons a l =>
    have ha := h a (by simp)
    subst ha
    cases l with
    | nil => rfl
    | cons b l =>
      have hb := h b (by simp)
      subst hb
      simp at hn

/-! ### Responses and notices (R176 to R178) -/

theorem respondTags {α : Type} (tag : α → Byte) (kind : Kind) (res : Result) (fields : List Byte) (l : List α)
    (s : State) :
    forEach l (fun a s => s.respond (tag a) kind res fields) s = { s with
      table := s.table.filter fun e => !(l.map tag).contains e.tag
      link := { s.link with queue := s.link.queue ++ l.map fun a => Frame.response (tag a) kind res fields } } := by
  induction l generalizing s with
  | nil =>
    have h0 : s.table.filter (fun e => !((([] : List α).map tag)).contains e.tag) = s.table := by simp
    rw [h0]
    simp [forEach]
  | cons a l ih =>
    change forEach l _ (s.respond (tag a) kind res fields) = _
    rw [ih]
    simp only [State.respond, State.enqueue, State.release, State.modLink, State.setTable, List.filter_filter,
      List.map_cons, List.append_assoc, List.cons_append, List.nil_append]
    congr 2
    funext e
    by_cases h : e.tag = tag a
    · simp [h]
    · by_cases h3 : (l.map tag).contains e.tag = true
      · have h4 : (tag a :: l.map tag).contains e.tag = true := by simp at h3 ⊢; exact .inr h3
        simp only [h3, h4, Bool.not_true, Bool.false_and]
      · have h3 : (l.map tag).contains e.tag = false := by simpa using h3
        have h4 : (tag a :: l.map tag).contains e.tag = false := by
          rw [List.contains_cons, h3]; simpa using h
        have h5 : (e.tag != tag a) = true := by simpa using h
        simp only [h3, h4, Bool.not_false, Bool.true_and, h5]

/-- What raising the REFRESH_MISSED notice of die `d` keeps and does, where its overrun count stands at `n`: the notice
waits and the count stays, or its frame is queued and the count is 0 (R118, R178). -/
structure Raised (u t : State) (d : Fin 2) (n : Nat) : Prop where
  mem : t.mem = u.mem
  debt : (t.die d).debt = (u.die d).debt
  timer : (t.die d).timer = (u.die d).timer
  dir : t.dir = u.dir
  ctxs : t.ctxs = u.ctxs
  port : t.port = u.port
  fetches : t.fetches = u.fetches
  drops : t.drops = u.drops
  table : t.table = u.table
  aq : t.arr.queue = u.arr.queue
  aw : t.arr.waiting = u.arr.waiting
  claims : ∀ c ∈ u.link.claims, c ∈ t.link.claims
  keep : u.noticePending (.refreshMissed d) = true → (t.die d).overruns = n
  cases : t.noticePending (.refreshMissed d) = true ∧ (t.die d).overruns = n ∨
    (t.die d).overruns = 0 ∧ Frame.notice 3 (BitVec.ofNat 8 d.val) (leBytes 2 n) ∈ t.link.queue
  queue : ∃ rest, t.link.queue = u.link.queue ++ rest

theorem raise_raised (u : State) (d : Fin 2) (n : Nat) (hn : (u.die d).overruns = n) :
    Raised u (u.raise (.refreshMissed d)) d n := by
  unfold State.raise
  split
  · rename_i h
    exact ⟨rfl, rfl, rfl, rfl, rfl, rfl, rfl, rfl, rfl, rfl, rfl, fun _ h => h, fun _ => hn, .inl ⟨h, hn⟩,
      ⟨[], by simp⟩⟩
  · rename_i h
    split
    · unfold State.queueNotice
      refine ⟨rfl, ?_, ?_, rfl, rfl, rfl, rfl, rfl, rfl, rfl, rfl, fun _ h => h, fun h2 => absurd h2 h, .inr ⟨?_, ?_⟩,
        ⟨[u.noticeFrame (.refreshMissed d)], rfl⟩⟩
      · simp [State.noticeSent, State.die, State.setDie, State.modArr, State.enqueue, State.modLink]
      · simp [State.noticeSent, State.die, State.setDie, State.modArr, State.enqueue, State.modLink]
      · simp [State.noticeSent, State.die, State.setDie, State.modArr, State.enqueue, State.modLink]
      · show _ ∈ u.link.queue ++ [u.noticeFrame (.refreshMissed d)]
        simp [State.noticeFrame, hn]
    · unfold State.waitForSlot
      have h' : u.link.claims.contains (.notice (.refreshMissed d)) = false := by
        simpa [State.noticePending] using h
      rw [if_neg (by rw [h']; simp)]
      refine ⟨rfl, rfl, rfl, rfl, rfl, rfl, rfl, rfl, rfl, rfl, rfl, fun c hc => List.mem_append_left _ hc,
        fun _ => hn, .inl ⟨?_, hn⟩, ⟨[], ?_⟩⟩
      · show (u.link.claims ++ [Claimant.notice (.refreshMissed d)]).contains _ = true
        simp
      · show u.link.queue = _; simp

/-! ### A series is lost (R17, R36, R44, R81) -/

/-- Every batch of a lost series answers LOST, in the order of the list, and its programs are withdrawn (R17, R36). -/
theorem loseBatches_eq (i : Fin 32) (bs : List Batch) (u : State) :
    ∃ q w, Withdrawn (fun o => o.ofBatches i) u.arr.queue u.arr.waiting q w ∧ u.loseBatches i bs = { u with
      table := u.table.filter fun e => !(bs.map Batch.tag).contains e.tag
      link := { u.link with queue := u.link.queue ++ bs.map fun b => (⟨.response, b.tag, [0x14, 15], none⟩ : Frame) }
      arr := { u.arr with queue := q, waiting := w } } := by
  unfold State.loseBatches
  rw [respondTags]
  obtain ⟨q, w, h, hw⟩ := withdraw_withdrawn (fun o => o.ofBatches i) ({ u with
      table := u.table.filter fun e => !(bs.map Batch.tag).contains e.tag
      link := { u.link with queue := u.link.queue ++ bs.map fun b => Frame.response b.tag .append .lost [] } } : State)
  exact ⟨q, w, hw, h⟩

theorem endScansOf_none {i : Fin 32} {r : EndReason} {u : State}
    (h : ∀ (k : Fin 4) (c : Ctx), u.ctx k = some c → c.series = i → c.state = .draining) : u.endScansOf i r = u := by
  unfold State.endScansOf
  dsimp only
  generalize hl : List.filter _ allCtxs = l
  have : l = [] := by
    rw [← hl, List.filter_eq_nil_iff]
    intro k _
    split
    · rename_i c hc
      intro h2
      simp at h2
      exact h2.2 (h k c hc h2.1)
    · simp
  rw [this, freely_small _ (by simp)]
  rfl

theorem loseFetches_none {i : Fin 32} {u : State} (h : ∀ f ∈ u.fetches, f.series ≠ i) : u.loseFetches i = u := by
  have : (u.fetches.filter fun f => f.series == i) = [] := by
    rw [List.filter_eq_nil_iff]; intro f hf; simpa using h f hf
  unfold State.loseFetches
  rw [this, freely_small _ (by simp)]
  rfl

/-- The one fetch of a lost series answers LOST and its reads are withdrawn (R81). -/
theorem loseFetches_one {i : Fin 32} {u : State} {f : Fetch} (h : (u.fetches.filter fun f => f.series == i) = [f]) :
    ∃ q w, Withdrawn (fun o => o.ofFetch f.tag) u.arr.queue u.arr.waiting q w ∧ u.loseFetches i = { u with
      table := u.table.filter fun e => e.tag != f.tag
      fetches := u.fetches.filter fun g => g.tag != f.tag
      link := { u.link with queue := u.link.queue ++ [(⟨.response, f.tag, [0x15, 15], none⟩ : Frame)] }
      arr := { u.arr with queue := q, waiting := w } } := by
  unfold State.loseFetches
  rw [h, freely_small _ (by simp)]
  obtain ⟨q, w, h, hw⟩ := withdraw_withdrawn (fun o => o.ofFetch f.tag)
    ((u.respond f.tag .fetch .lost []).endFetch f.tag)
  refine ⟨q, w, hw, ?_⟩
  show State.withdraw _ _ = _
  rw [h]
  rfl

theorem worksOn_none {i : Fin 32} {u : State}
    (h : ∀ op, u.port.op = some op → op.series = i → op.kind = .recover ∧ op.phase ≠ .pageRead) :
    u.port.worksOn i = false := by
  unfold Port.worksOn
  split
  · rfl
  · rename_i op ho
    by_cases hs : op.series = i
    · obtain ⟨h1, h2⟩ := h op ho hs
      simp [h1, ImageOp.striped, h2, hs]
    · simp [hs]

theorem endScansOf_one {i : Fin 32} {r : EndReason} {u : State} {k : Fin 4} {c : Ctx} (hc : u.ctx k = some c)
    (hs : c.series = i) (hd : c.state ≠ .draining)
    (h : ∀ (j : Fin 4) (c : Ctx), j ≠ k → u.ctx j = some c → c.series = i → c.state = .draining) :
    u.endScansOf i r = u.endScan k r := by
  unfold State.endScansOf
  dsimp only
  generalize hl : List.filter _ allCtxs = l
  have : l = [k] := by
    refine nodup_one (by rw [← hl]; exact (show allCtxs.Nodup by decide).filter _) ?_ ?_
    · rw [← hl, List.mem_filter]
      refine ⟨(by decide : ∀ k : Fin 4, k ∈ allCtxs) k, ?_⟩
      rw [hc]; simp [hs, hd]
    · intro j hj
      rw [← hl, List.mem_filter] at hj
      refine Classical.byContradiction fun hjk => ?_
      cases hx : u.ctx j with
      | none => rw [hx] at hj; simp at hj
      | some c2 =>
        rw [hx] at hj
        have h3 := hj.2
        simp at h3
        exact h3.2 (h j c2 hjk hx h3.1)
  rw [this, freely_small _ (by simp)]
  rfl

/-- Two withdrawals leave the ISSUED transactions of a reader as they were. -/
theorem issued_iff {mine : Origin → Bool} {aq aw q w q2 w2 : List Txn} {m2 : Origin → Bool}
    (h1 : Withdrawn m2 aq aw q w) (h2 : Withdrawn mine q w q2 w2) (hw : ∀ x ∈ aw, x.issued = false) :
    (q2.any fun t => t.issued && mine t.origin) = true ↔ ∃ x ∈ aq, x.issued = true ∧ mine x.origin = true := by
  rw [List.any_eq_true]
  constructor
  · rintro ⟨x, hx, hi⟩
    simp at hi
    obtain ⟨y, hy, e1, e2, -, -⟩ := h2.source x (List.mem_append_left _ hx)
    obtain ⟨z, hz, f1, f2, -, -⟩ := h1.source y hy
    rcases List.mem_append.mp hz with hz | hz
    · exact ⟨z, hz, by rw [← f2, ← e2]; exact hi.1, by rw [← f1, ← e1]; exact hi.2⟩
    · have := hw z hz; rw [← f2, ← e2, hi.1] at this; cases this
  · rintro ⟨x, hx, hi, hm⟩
    obtain ⟨y, hy, e1, e2⟩ := h1.stay x hx hi
    obtain ⟨z, hz, f1, f2⟩ := h2.stay y hy e2
    exact ⟨z, hz, by simp [f2, f1, e1, hm]⟩

theorem drain_eq (c : Ctx) (r : EndReason) : c.drain r = { c with
          state := .draining, endReason := some r, buf0 := none, buf1 := none
          low := if c.state = .resolving ∨ c.state = .searching then c.searchLow else c.low } := by
  unfold Ctx.drain Ctx.lowAtEnd
  cases h : c.state <;> rfl

/-- A scan that is not DRAINING yet ends: what it sends, what it waits for, and when it answers, which may let a DROP end
(R43, R82, R83). -/
theorem endScan_eq {k : Fin 4} {v : State} {c : Ctx} (r : EndReason) (hc : v.ctx k = some c)
    (hcd : c.state ≠ .draining) :
    ∃ q w, Withdrawn (fun o => o.ofCtx k) v.arr.queue v.arr.waiting q w ∧
      let c' : Ctx := { c with
          state := .draining, endReason := some r, buf0 := none, buf1 := none
          low := if c.state = .resolving ∨ c.state = .searching then c.searchLow else c.low }
      let sends : Prop := c.hits ≠ [] ∧ Claimant.scan k ∉ v.link.claims ∧ 1 ≤ v.freeSlots
      let busy : Prop := (q.any fun t => t.issued && t.origin.ofCtx k) = true
      let frames : List Frame := if c.hits = [] then [] else [Frame.hits c.tag c.hits]
      let ended := v.table.map fun x => if x.tag = c.tag then { x with state := .ending } else x
      ((c.hits = [] ∨ sends) ∧ ¬ busy → v.endScan k r = State.checkDrop c.series { v with
        ctxs := v.ctxs.set k none
        arr := { v.arr with queue := q, waiting := w }
        table := v.table.filter fun x => x.tag != c.tag
        link := { v.link with queue := v.link.queue ++ frames ++ [⟨.response, c.tag, [0x18, 0] ++ c'.report,
          none⟩] } }) ∧
      (c.hits = [] ∨ sends → busy → v.endScan k r = { v with
        ctxs := v.ctxs.set k (some { c' with hits := [] })
        arr := { v.arr with queue := q, waiting := w }
        table := ended
        link := { v.link with queue := v.link.queue ++ frames } }) ∧
      (c.hits ≠ [] → ¬ sends → v.endScan k r = { v with
        ctxs := v.ctxs.set k (some c')
        arr := { v.arr with queue := q, waiting := w }
        table := ended
        link := { v.link with
          claims := if Claimant.scan k ∈ v.link.claims then v.link.claims else v.link.claims ++ [.scan k] } }) := by
  obtain ⟨q, w, hwd, hW⟩ := withdraw_withdrawn (fun o => o.ofCtx k) (v.setCtx k (some (c.drain r)))
  refine ⟨q, w, hW, ?_⟩
  intro c' sends busy frames ended
  have hdc : c.drain r = c' := drain_eq c r
  have hmk : (v.table.map fun e => if e.tag == c.tag then { e with state := .ending } else e) = ended := by
    apply List.map_congr_left; intro x _; by_cases h : x.tag = c.tag <;> simp [h]
  let m : State := { v with
    ctxs := v.ctxs.set k (some c'), arr := { v.arr with queue := q, waiting := w }, table := ended }
  have hmc : m.ctx k = some c' := by simp [State.ctx, m]
  have he : State.endScan k r v = (m.drainHits k).finishScan k := by
    unfold State.endScan
    rw [hc]
    dsimp only
    rw [if_neg hcd, show State.withdraw (fun t => t.origin.ofCtx k) (v.setCtx k (some (c.drain r))) = _ from hwd, hdc]
    have : State.markEnding c.tag ((v.setCtx k (some c')).setQueues q w) = m := by
      show ({ v with
        ctxs := _, arr := _
        table := v.table.map fun e => if e.tag == c.tag then { e with state := .ending } else e } : State) = m
      rw [hmk]
      rfl
    rw [this]
  have hfree : m.freeSlots = v.freeSlots := by
    show 32 - (v.link.queue.length + ended.length + _) = 32 - (v.link.queue.length + v.table.length + _)
    rw [show ended.length = v.table.length from List.length_map ..]
    rfl
  have hfil : ended.filter (fun x => x.tag != c.tag) = v.table.filter fun x => x.tag != c.tag := by
    rw [← hmk]; exact filter_markEnding _ _
  have hi : (q.any fun t => t.issued && t.origin.ofCtx k) = m.ctxIssued k := rfl
  have hh : c'.hits = c.hits := rfl
  have hd1 : c.hits = [] ∨ sends → m.drainHits k = { m with
      ctxs := v.ctxs.set k (some { c' with hits := [] })
      link := { v.link with queue := v.link.queue ++ frames } } := by
    intro h
    unfold State.drainHits
    rw [hmc]
    dsimp only
    rw [hh]
    by_cases h0 : c.hits = []
    · rw [if_pos (.inl h0)]
      have : ({ c' with hits := [] } : Ctx) = c' := by rw [← h0]
      rw [this]
      simp [frames, h0, m]
    · have hs := h.resolve_left h0
      rw [if_neg (by
        rintro (h1 | h1)
        · exact h0 h1
        · exact hs.2.1 (by simpa using (show v.link.claims.contains (Claimant.scan k) = true from h1))),
        if_pos (by have := hs.2.2; omega)]
      unfold State.sendHits
      rw [hmc]
      dsimp only
      simp [frames, h0, m, State.enqueue, State.setCtx, State.modLink]
      rfl
  refine ⟨?_, ?_, ?_⟩
  · rintro ⟨h, hb⟩
    rw [he, hd1 h]
    unfold State.finishScan
    have : ({ m with
      ctxs := v.ctxs.set k (some { c' with hits := [] })
      link := { v.link with queue := v.link.queue ++ frames } } : State).ctx k = some { c' with hits := [] } :=
        by simp [State.ctx]
    rw [this]
    dsimp only
    rw [if_pos ⟨rfl, rfl, by
      have : (q.any fun t => t.issued && t.origin.ofCtx k) = false := Bool.eq_false_iff.mpr hb
      exact this⟩]
    congr 1
    simp only [State.respond, State.enqueue, State.release, State.modLink, State.setTable, State.setCtx]
    have hf2 : m.table.filter (fun x => x.tag != c'.tag) = v.table.filter fun x => x.tag != c.tag := hfil
    rw [hf2]
    have hr2 : ({ c' with hits := [] } : Ctx).report = c'.report := rfl
    rw [hr2]
    simp [m, Frame.response, Kind.code, Result.code]
    rfl
  · intro h hb
    rw [he, hd1 h]
    let m2 : State := { m with
      ctxs := v.ctxs.set k (some { c' with hits := [] })
      link := { v.link with queue := v.link.queue ++ frames } }
    exact finishScan_waits (s := m2) (c := { c' with hits := [] }) (by simp [State.ctx, m2]) (.inr hb)
  · intro h0 hs
    rw [he]
    unfold State.drainHits
    rw [hmc]
    dsimp only
    rw [hh]
    by_cases hcl : Claimant.scan k ∈ v.link.claims
    · rw [if_pos (.inr (by show v.link.claims.contains _ = true; simpa using hcl)), if_pos hcl]
      exact finishScan_waits hmc (.inl h0)
    · have hcl' : v.link.claims.contains (Claimant.scan k) = false := by simpa using hcl
      rw [if_neg (by
        rintro (h1 | h1)
        · exact h0 h1
        · change v.link.claims.contains _ = true at h1; rw [hcl'] at h1; cases h1), if_neg (by
          intro h; exact hs ⟨h0, hcl, by omega⟩), if_neg hcl]
      unfold State.waitForSlot
      rw [if_neg (by change ¬ v.link.claims.contains _ = true; rw [hcl']; simp)]
      exact finishScan_waits (s := m.modLink fun l => { l with claims := l.claims ++ [.scan k] }) hmc (.inl h0)

/-- A scan that is not DRAINING yet ends: what it sends, what it waits for, and when it answers (R82, R83). -/
theorem endScan_spec {k : Fin 4} {v : State} {c : Ctx} (r : EndReason) (hc : v.ctx k = some c)
    (hcd : c.state ≠ .draining) (hdr : (v.entry c.series).state ≠ .dropping) :
    ∃ q w, Withdrawn (fun o => o.ofCtx k) v.arr.queue v.arr.waiting q w ∧
      let c' : Ctx := { c with
          state := .draining, endReason := some r, buf0 := none, buf1 := none
          low := if c.state = .resolving ∨ c.state = .searching then c.searchLow else c.low }
      let sends : Prop := c.hits ≠ [] ∧ Claimant.scan k ∉ v.link.claims ∧ 1 ≤ v.freeSlots
      let busy : Prop := (q.any fun t => t.issued && t.origin.ofCtx k) = true
      let frames : List Frame := if c.hits = [] then [] else [Frame.hits c.tag c.hits]
      let ended := v.table.map fun x => if x.tag = c.tag then { x with state := .ending } else x
      ((c.hits = [] ∨ sends) ∧ ¬ busy → v.endScan k r = { v with
        ctxs := v.ctxs.set k none
        arr := { v.arr with queue := q, waiting := w }
        table := v.table.filter fun x => x.tag != c.tag
        link := { v.link with queue := v.link.queue ++ frames ++ [⟨.response, c.tag, [0x18, 0] ++ c'.report,
          none⟩] } }) ∧
      (c.hits = [] ∨ sends → busy → v.endScan k r = { v with
        ctxs := v.ctxs.set k (some { c' with hits := [] })
        arr := { v.arr with queue := q, waiting := w }
        table := ended
        link := { v.link with queue := v.link.queue ++ frames } }) ∧
      (c.hits ≠ [] → ¬ sends → v.endScan k r = { v with
        ctxs := v.ctxs.set k (some c')
        arr := { v.arr with queue := q, waiting := w }
        table := ended
        link := { v.link with
          claims := if Claimant.scan k ∈ v.link.claims then v.link.claims else v.link.claims ++ [.scan k] } }) := by
  obtain ⟨q, w, hW, h1, h2, h3⟩ := endScan_eq r hc hcd
  exact ⟨q, w, hW, fun h => (h1 h).trans (checkDrop_stays hdr), h2, h3⟩

/-! ### The end of an image operation (R43, R156) -/

/-- With no PRESERVE of it, a series that is not RECOVERING has work in flight where other work on it is left. -/
theorem inFlight_iff {s : State} {i : Fin 32} (hp : s.port.preserving i = false)
    (hr : (s.entry i).state ≠ .recovering) : s.inFlight i = true ↔ s.otherWork i := by
  unfold State.inFlight State.otherWork
  rw [hp]
  have h1 : ((s.entry i).batches.isEmpty = false) ↔ (s.entry i).batches ≠ [] := by
    cases (s.entry i).batches <;> simp
  have h2 : (allCtxs.any fun k => ctxHolds i (s.ctx k)) = true ↔
      ∃ (k : Fin 4) (c : Ctx), s.ctx k = some c ∧ c.series = i ∧ c.endReason ≠ some .lost := by
    rw [List.any_eq_true]
    constructor
    · rintro ⟨k, -, h⟩
      unfold ctxHolds at h
      split at h
      · cases h
      · rename_i c hc
        simp only [Bool.and_eq_true, beq_iff_eq, bne_iff_ne] at h
        exact ⟨k, c, hc, h.1, h.2⟩
    · rintro ⟨k, c, hc, h1, h2⟩
      refine ⟨k, (by decide : ∀ k : Fin 4, k ∈ allCtxs) k, ?_⟩
      rw [hc]
      simp [ctxHolds, h1, h2]
  simp only [Bool.or_eq_true, Bool.not_eq_true', h1, h2, List.any_eq_true, beq_iff_eq, Bool.false_eq_true, or_false,
    hr, or_assoc]

/-- What the directory does when work on a DROPPING series ends: nothing while other work is left, else the series is FREE
and its DROP answers (R43). -/
theorem checkDrop_eq {s : State} {i : Fin 32} (hp : s.port.preserving i = false) :
    ((s.entry i).state ≠ .dropping ∨ s.otherWork i → s.checkDrop i = s) ∧
    (∀ w, (s.entry i).state = .dropping → ¬ s.otherWork i → s.drops.find? (fun w => w.series == i) = some w →
      s.checkDrop i = { s with
        dir := s.dir.set i Entry.free
        drops := s.drops.filter fun w => w.series != i
        table := s.table.filter fun e => e.tag != w.tag
        link := { s.link with
          queue := s.link.queue ++ [⟨.response, w.tag, [0x12, 0, BitVec.ofNat 8 i.val], none⟩] } }) := by
  refine ⟨?_, ?_⟩
  · rintro (h | h)
    · exact checkDrop_stays h
    · by_cases hd : (s.entry i).state = .dropping
      · unfold State.checkDrop
        rw [if_neg (by rw [(inFlight_iff hp (by simp [hd])).mpr h]; simp)]
      · exact checkDrop_stays hd
  · intro w hd ho hw
    unfold State.checkDrop
    have hf : s.inFlight i = false := by
      rw [← Bool.not_eq_true, inFlight_iff hp (by simp [hd])]
      exact ho
    rw [if_pos ⟨hd, hf⟩]
    dsimp only
    rw [hw]
    rfl

/-- An operation in ENDING of which nothing is under way answers (R156). -/
theorem finishOp_answers {s : State} {op : ImageOp} {r : Result} (ho : s.port.op = some op) (hr : op.result = some r)
    (ht : s.port.transfer = none) (hi : s.imageIssued = false) :
    s.OpAnswers s.finishOp op r ∧ s.finishOp.arr = s.arr ∧ s.finishOp.link.reset = s.link.reset := by
  let v := (s.respond op.tag op.kind.kind r op.report).modPort fun p => { p with op := none }
  have hp : v.port.preserving op.series = false := by
    show Port.preserving { s.port with op := none } _ = false
    rfl
  obtain ⟨h1, h2⟩ := checkDrop_eq hp
  have he : s.finishOp = v.checkDrop op.series := by
    unfold State.finishOp
    rw [ho]
    dsimp only
    rw [hr]
    dsimp only
    rw [if_neg (by simp [Port.accessing, ht, hi])]
  have hq : op.answer r = Frame.response op.tag op.kind.kind r op.report := by
    unfold ImageOp.answer ImageOp.report Frame.response
    cases op.kind <;> rfl
  have hport : v.port = { s.port with op := none, transfer := none } := by
    show { s.port with op := none } = { s.port with op := none, transfer := none }
    rw [← ht]
  rw [he]
  by_cases hd : (s.entry op.series).state ≠ .dropping ∨ s.otherWork op.series
  · rw [h1 hd]
    refine ⟨⟨hport, rfl, rfl, rfl, fun _ => ⟨rfl, rfl, rfl, ?_⟩, ?_⟩, rfl, rfl⟩
    · rw [hq]; rfl
    · intro w h3 h4
      exact absurd hd (by rintro (h | h); exact h h3; exact h4 h)
  · have hd' : (s.entry op.series).state = .dropping ∧ ¬ s.otherWork op.series :=
      ⟨Classical.byContradiction fun h => hd (.inl h), fun h => hd (.inr h)⟩
    cases hw : s.drops.find? fun w => w.series == op.series with
    | none =>
      have hc : v.checkDrop op.series = v.freeEntry op.series := by
        unfold State.checkDrop
        have hf : v.inFlight op.series = false := by
          rw [← Bool.not_eq_true, inFlight_iff hp (by show (s.entry op.series).state ≠ _; simp [hd'.1])]
          exact hd'.2
        rw [if_pos ⟨hd'.1, hf⟩]
        dsimp only
        rw [show v.drops.find? _ = none from hw]
      rw [hc]
      refine ⟨⟨hport, rfl, rfl, rfl, fun h => absurd h hd, ?_⟩, rfl, rfl⟩
      intro w _ _ h
      cases hw.symm.trans h
    | some w =>
      rw [h2 w hd'.1 hd'.2 hw]
      refine ⟨⟨hport, rfl, rfl, rfl, fun h => absurd h hd, ?_⟩, rfl, rfl⟩
      intro w' _ _ h
      obtain rfl := Option.some.inj (hw.symm.trans h)
      refine ⟨rfl, rfl, ?_, ?_⟩
      · show (s.table.filter _).filter _ = _
        rw [List.filter_filter]
        congr 1
        funext e
        exact Bool.and_comm ..
      · rw [hq]
        show ({ s.link with queue := (s.link.queue ++ [_]) ++ [_] } : Link) = _
        rw [List.append_assoc]
        rfl

/-- An operation in ENDING waits for its access and for its ISSUED transactions (R156). -/
theorem finishOp_waits {s : State} (h : s.port.accessing = true ∨ s.imageIssued = true) : s.finishOp = s := by
  unfold State.finishOp
  split
  · rfl
  · split
    · rfl
    · rw [if_pos h]

/-- An image operation without a result ends: what is withdrawn, what it waits for, and when it answers (R98, R156). -/
theorem endOp_spec {s : State} {op : ImageOp} (r : Result) (detail : List Byte) (ho : s.port.op = some op)
    (hr : op.result = none) (ha : op.abandoned = false) :
    ∃ q w, Withdrawn Origin.ofImage s.arr.queue s.arr.waiting q w ∧
      let busy : Prop := s.port.accessing = true ∨ (q.any fun t => t.issued && t.origin.ofImage) = true
      (s.endOp r detail).arr = { s.arr with queue := q, waiting := w } ∧
      (s.endOp r detail).link.reset = s.link.reset ∧
      (¬ busy → s.OpAnswers (s.endOp r detail) { op with detail := detail } r) ∧
      (busy → s.endOp r detail = { s with
        arr := { s.arr with queue := q, waiting := w }
        table := s.table.map fun e => if e.tag = op.tag then { e with state := .ending } else e
        port := { s.port with
          op := some { op with phase := .ending, result := some r, detail := detail }
          transfer := if s.port.accessing then s.port.transfer else none } }) := by
  obtain ⟨q, w, hwd, hW⟩ := withdraw_withdrawn Origin.ofImage (s.modOp fun op =>
    { op with phase := .ending, result := some r, detail := detail })
  refine ⟨q, w, hW, ?_⟩
  intro busy
  let op' : ImageOp := { op with phase := .ending, result := some r, detail := detail }
  let m : State := { s with
        arr := { s.arr with queue := q, waiting := w }
        table := s.table.map fun e => if e.tag = op.tag then { e with state := .ending } else e
        port := { s.port with op := some op', transfer := if s.port.accessing then s.port.transfer else none } }
  have hmk : (s.table.map fun e => if e.tag == op.tag then { e with state := .ending } else e) = m.table := by
    apply List.map_congr_left; intro x _; by_cases h : x.tag = op.tag <;> simp [h]
  have he : s.endOp r detail = m.finishOp := by
    unfold State.endOp
    rw [ho]
    dsimp only
    rw [if_neg (by simp [hr, ha]), hwd]
    congr 1
    simp only [State.markEnding, State.setTransfer, State.modOp, State.modPort, State.setQueues, State.modArr,
      State.setTable, ho, Option.map_some, hmk]
    rfl
  have hacc : m.port.accessing = s.port.accessing := by
    show Port.accessing { s.port with op := _, transfer := _ } = _
    by_cases h : s.port.accessing = true
    · simp only [h, if_true]; exact h
    · simp only [h]; simp [Port.accessing]
  rw [he]
  by_cases hb : busy
  · have hwt : m.finishOp = m := finishOp_waits (by rw [hacc]; exact hb)
    rw [hwt]
    exact ⟨rfl, rfl, fun h => absurd hb h, fun _ => rfl⟩
  · have h1 : s.port.accessing = false := Bool.eq_false_iff.mpr fun h => hb (.inl h)
    have h2 : m.imageIssued = false := Bool.eq_false_iff.mpr fun h => hb (.inr h)
    have h3 : m.port.transfer = none := by show (if s.port.accessing then _ else none) = none; rw [h1]; rfl
    obtain ⟨⟨a1, a2, a3, a4, a5, a6⟩, a7, a8⟩ := finishOp_answers (s := m) (op := op') rfl rfl h3 h2
    refine ⟨a7, a8, fun _ => ⟨a1, a2, a3, a4, ?_, ?_⟩, fun h => absurd h hb⟩
    · intro h
      obtain ⟨b1, b2, b3, b4⟩ := a5 h
      refine ⟨b1, b2, ?_, b4⟩
      rw [b3, ← hmk]
      exact filter_markEnding _ _
    · intro w' h h' h''
      obtain ⟨b1, b2, b3, b4⟩ := a6 w' h h' h''
      refine ⟨b1, b2, ?_, b4⟩
      rw [b3, ← hmk]
      have := congrArg (List.filter fun e : TableEntry => e.tag != w'.tag) (filter_markEnding s.table op.tag)
      rw [List.filter_filter, List.filter_filter] at this
      have hc : ∀ (l : List TableEntry), l.filter (fun e : TableEntry => e.tag != op.tag && e.tag != w'.tag) =
        l.filter fun e => e.tag != w'.tag && e.tag != op.tag := by
          intro l; exact List.filter_congr fun e _ => Bool.and_comm ..
      show List.filter (fun e : TableEntry => e.tag != op.tag && e.tag != w'.tag) _ = _
      rw [hc, this, hc]

/-! ### The refresh overrun (R118) -/

/-- The expiry as one overrun. -/
theorem expiry_overrun {s : State} {d : Fin 2} (ht : (s.die d).timer ≠ none) (hd : (s.die d).debt = 8) :
    let s0 := s.setDie d { s.die d with timer := some 0, overruns := min 255 ((s.die d).overruns + 1) }
    exec (.refreshTimerExpiry d) s = .next ((forEach (s0.freely (s.overrunSeries d)).1 State.overrunEntry
      (s0.freely (s.overrunSeries d)).2).raise (.refreshMissed d)) := by
  intro s0
  simp only [exec, execRefreshTimerExpiry, refreshTimerExpiry]
  rw [if_pos (by cases h : (s.die d).timer <;> simp_all)]
  unfold State.expire
  dsimp only
  have h1 : (s.setDie d { s.die d with timer := some 0 }).die d = { s.die d with timer := some 0 } := by
    simp [State.die, State.setDie, State.modArr]
  rw [h1]
  dsimp only
  rw [if_neg (by omega)]
  unfold State.overrun
  rw [h1]
  have h2 : (s.setDie d { s.die d with timer := some 0 }).setDie d
      { s.die d with timer := some 0, overruns := min 255 ((s.die d).overruns + 1) } = s0 := by
    simp [s0, State.setDie, State.modArr]
  dsimp only
  rw [h2]
  rfl

theorem overrunSeries_mem (s : State) (d : Fin 2) (i : Fin 32) :
    i ∈ s.overrunSeries d ↔
      (s.entry i).onDie d = true ∧ (s.entry i).state ≠ .free ∧ (s.entry i).state ≠ .lost := by
  unfold State.overrunSeries allSeries
  rw [List.mem_filter]
  simp only [List.mem_finRange, true_and, Bool.and_eq_true, bne_iff_ne, ne_eq]
  exact and_comm

theorem overrunSeries_one {s : State} {d : Fin 2} {i : Fin 32}
    (hi : (s.entry i).onDie d = true ∧ (s.entry i).state ≠ .free ∧ (s.entry i).state ≠ .lost)
    (hu : ∀ j, (s.entry j).onDie d = true ∧ (s.entry j).state ≠ .free ∧ (s.entry j).state ≠ .lost → j = i) :
    s.overrunSeries d = [i] := by
  refine nodup_one ?_ ((overrunSeries_mem ..).mpr hi) (fun j hj => hu j ((overrunSeries_mem ..).mp hj))
  unfold State.overrunSeries allSeries
  exact (List.nodup_finRange 32).filter _

end Sys2Proof.Laws
end

