-- ==== Sys2Proof/Laws/Drop.lean ====
section
/-! SUPPORT. What a DROP does that finds work in flight: the entry is DROPPING, its complete batches answer in their
order, and the readers of the series are told (R40, R41). -/

namespace Sys2Proof.Laws

open Sys2Proof.Machine

/-- Batches in a strict order of their completion are the only list so ordered. -/
theorem perm_sorted_eq {l l' : List Batch} (hp : l.Perm l') (h1 : l.Pairwise fun x y => x.finish < y.finish)
    (h2 : l'.Pairwise fun x y => x.finish ≤ y.finish) : l = l' := by
  induction l generalizing l' with
  | nil => exact (List.nil_perm.mp hp).symm
  | cons a l ih =>
    cases l' with
    | nil => exact absurd hp.symm (by simp)
    | cons b l' =>
      rw [List.pairwise_cons] at h1 h2
      have hab : a = b := by
        have hb : b ∈ a :: l := hp.mem_iff.mpr (by simp)
        have ha : a ∈ b :: l' := hp.mem_iff.mp (by simp)
        rcases List.mem_cons.mp hb with h | h
        · exact h.symm
        · rcases List.mem_cons.mp ha with h' | h'
          · exact h'
          · have := h1.1 b h; have := h2.1 a h'; omega
      subst hab
      rw [ih (List.Perm.cons_inv hp) h1.2 h2.2]

/-- A DROP of a series with work in flight: the complete batches have answered before the scans and the PRESERVE are told
(R40, R41, log 34). -/
theorem drop_taken {s : State} {tag series : Byte} {i : Fin 32} (hA : s.Admits tag) (hs : series.toNat = i.val)
    (ho : (s.entry i).state = .opened ∨ (s.entry i).state = .sealed) (hf : s.inFlight i = true) {complete : List Batch}
    (hp : complete.Perm ((s.entry i).batches.filter fun b => b.writes ≤ b.done))
    (hc : complete.Pairwise fun x y => x.finish < y.finish) :
    let dropping : Entry := { s.entry i with
      state := .dropping, batches := (s.entry i).batches.filter fun b => b.done < b.writes }
    let u : State := { s with
      dir := s.dir.set i dropping
      drops := s.drops ++ [⟨tag, i⟩]
      table := (s.table ++ [(⟨tag, .drop, .storeUnit, .working⟩ : TableEntry)]).filter
        (fun e => complete.all fun b => e.tag != b.tag)
      link := { s.link with
        rxIdle := 0
        queue := s.link.queue ++ complete.map fun b => (⟨.response, b.tag, [0x14, 23], none⟩ : Frame) } }
    let u' : State := { u with
      link := { u.link with bufs := #v[⟨.held, requestBody tag (.drop series)⟩, ⟨.free, []⟩], heldOrder := [0] } }
    exec (.drop tag series) s = .next (landed ((let w := u'.endScansOf i .seriesGone
      if w.port.preserving i then w.endOp .seriesGone [] else w).checkDrop i)) := by
  intro dropping u u'
  have he : exec (.drop tag series) s = .next (hostRequest tag (.drop series) s) := rfl
  rw [he, hostRequest_taken hA (by simp [Request.kind]) (by rfl) (by rfl)]
  congr 2
  have hso : seriesOf series = some i := by
    unfold seriesOf
    rw [dif_pos (by omega)]
    exact congrArg some (Fin.ext hs)
  show takeDrop tag series (taking tag (.drop series) s) = _
  unfold takeDrop
  rw [hso]
  dsimp only
  have hrf : refusalToDrop ((taking tag (.drop series) s).entry i).state = none := by
    show refusalToDrop (s.entry i).state = none
    rcases ho with h | h <;> rw [h] <;> rfl
  rw [hrf]
  dsimp only
  rw [if_neg (by
    rintro (h | h)
    · change (s.entry i).state = _ at h; rcases ho with h' | h' <;> rw [h'] at h <;> cases h
    · change s.inFlight i = false at h; rw [hf] at h; cases h)]
  unfold State.beginDrop
  dsimp only
  have hu : State.batchesGone i (State.setDrops ((taking tag (.drop series) s).drops ++ [⟨tag, i⟩])
      (State.setEntry i { (taking tag (.drop series) s).entry i with state := .dropping }
        (taking tag (.drop series) s))) = u' := by
    let v := State.setDrops ((taking tag (.drop series) s).drops ++ [⟨tag, i⟩])
      (State.setEntry i { (taking tag (.drop series) s).entry i with state := .dropping } (taking tag (.drop series) s))
    have hve : v.entry i = { s.entry i with state := .dropping } := by
      show (s.dir.set i { s.entry i with state := .dropping })[i] = _
      simp
    show State.batchesGone i v = u'
    unfold State.batchesGone
    rw [hve]
    dsimp only
    have hbf : byFinish ((s.entry i).batches.filter Batch.complete) = complete := by
      refine (perm_sorted_eq ?_ hc (byFinish_sorted _)).symm
      exact hp.trans (byFinish_perm _).symm
    rw [hbf, respondTags (fun b : Batch => b.tag)]
    have hleft : ((s.entry i).batches.filter fun b => !b.complete) =
        (s.entry i).batches.filter fun b => b.done < b.writes := by
      apply List.filter_congr
      intro b _
      simp only [Batch.complete]
      by_cases h : b.writes ≤ b.done
      · rw [decide_eq_true h, decide_eq_false (by omega)]; rfl
      · rw [decide_eq_false h, decide_eq_true (by omega)]; rfl
    have htab : (s.table ++ [(⟨tag, .drop, .storeUnit, .working⟩ : TableEntry)]).filter
        (fun e => !(complete.map fun b : Batch => b.tag).contains e.tag) = u.table := by
      apply List.filter_congr
      intro e _
      generalize complete = l
      induction l with
      | nil => rfl
      | cons b l ih =>
        simp only [List.map_cons, List.contains_cons, Bool.not_or, List.all_cons, ← ih]
        rfl
    simp only [hleft]
    show ({ s with
      dir := (s.dir.set i { s.entry i with state := .dropping }).set i dropping, drops := _
      table := (s.table ++ [(⟨tag, .drop, .storeUnit, .working⟩ : TableEntry)]).filter
        (fun e => !(complete.map fun b : Batch => b.tag).contains e.tag)
      link := _ } : State) = _
    rw [htab, show (s.dir.set i { s.entry i with state := .dropping }).set i dropping = u.dir by
      show _ = s.dir.set i dropping
      ext j hj
      by_cases h : i.val = j
      · subst h; simp
      · simp [h]]
    rfl
  rw [hu]

end Sys2Proof.Laws
end

