-- ==== Sys2Proof/Laws/Link.lean ====
section
/-! SUPPORT. What the receiver does with a discard and with the bytes of a whole frame (R171, R172, R174, R177, R178). -/

namespace Sys2Proof.Laws

open Sys2Proof.Machine

/-! ### Discards -/

/-- A discard (R172, R174, R177, R178): the count rises, and LINK_ERROR is sent with it, claims a slot, or waits on. -/
theorem discard_cases {s : State} {next : RxState} {l : Link} (hl : { s.link.dropFilling with rx := next } = l)
    (hq : l.queue = s.link.queue) (hc : l.claims = s.link.claims) (hd : l.discards = s.link.discards)
    (hs : l.decoderSlot = s.link.decoderSlot) :
    let n := min 65535 (s.link.discards + 1)
    (s.noticePending .linkError = false → 0 < s.freeSlots → s.discard next = { s with
      link := { l with discards := 0, queue := l.queue ++ [Frame.notice 0 0xFF (leBytes 2 n)] } }) ∧
    (s.noticePending .linkError = false → s.freeSlots = 0 → s.discard next = { s with
      link := { l with discards := n, claims := l.claims ++ [.notice .linkError] } }) ∧
    (s.noticePending .linkError = true → s.discard next = { s with link := { l with discards := n } }) := by
  intro n
  let v : State := { s with link := { l with discards := n } }
  have h1 : (s.modLink fun l => { l.dropFilling with rx := next }).countDiscard = v := by
    have : (if l.discards < 65535 then l.discards + 1 else 65535) = n := by
      show _ = min 65535 (s.link.discards + 1)
      rw [hd]
      split <;> omega
    show ({ s with link := { ({ s.link.dropFilling with rx := next } : Link) with
      discards := if ({ s.link.dropFilling with rx := next } : Link).discards < 65535 then
        ({ s.link.dropFilling with rx := next } : Link).discards + 1 else 65535 } } : State) = v
    rw [hl, this]
  have h2 : v.noticePending .linkError = s.noticePending .linkError := by
    show l.claims.contains _ = s.link.claims.contains _
    rw [hc]
  have h3 : v.freeSlots = s.freeSlots := by
    show 32 - (l.queue.length + s.table.length + (if l.decoderSlot then 1 else 0)) =
      32 - (s.link.queue.length + s.table.length + (if s.link.decoderSlot then 1 else 0))
    rw [hq, hs]
  unfold State.discard
  rw [h1]
  unfold State.raise
  rw [h2, h3]
  refine ⟨?_, ?_, ?_⟩
  · intro a b
    rw [if_neg (by simp [a]), if_pos b]
    rfl
  · intro a b
    rw [if_neg (by simp [a]), if_neg (by omega)]
    unfold State.waitForSlot
    rw [if_neg]
    · rfl
    · have : s.link.claims.contains (.notice .linkError) = false := a
      show ¬ l.claims.contains _ = true
      rw [hc, this]; simp
  · intro a
    rw [if_pos a]

/-- The one FILLING buffer is free again. -/
theorem dropFilling_only {l : Link} {j : Fin 2} (hj : l.bufs[j].state = .filling)
    (hk : ∀ k : Fin 2, k ≠ j → l.bufs[k].state ≠ .filling) :
    l.firstBuf .filling = some j ∧ l.dropFilling = { l with bufs := l.bufs.set j ⟨.free, []⟩ } := by
  have hfb : l.firstBuf .filling = some j := by
    unfold Link.firstBuf
    rcases (by decide : ∀ j : Fin 2, j = 0 ∨ j = 1) j with rfl | rfl
    · rw [List.find?_cons_of_pos]
      simp only [Link.buf, beq_iff_eq]; exact hj
    · rw [List.find?_cons_of_neg, List.find?_cons_of_pos]
      · simp only [Link.buf, beq_iff_eq]; exact hj
      · have := hk 0 (by decide)
        simpa [Link.buf] using this
  refine ⟨hfb, ?_⟩
  unfold Link.dropFilling
  rw [hfb]
  rfl

/-! ### A frame, byte by byte -/

/-- The lowest-numbered free buffer takes the frame (log 11). -/
theorem firstFree {l : Link} {j : Fin 2} (h : l.bufs[j] = ⟨.free, []⟩)
    (hm : ∀ k : Fin 2, k < j → l.bufs[k].state ≠ .free) : l.firstBuf .free = some j := by
  unfold Link.firstBuf
  rcases (by decide : ∀ j : Fin 2, j = 0 ∨ j = 1) j with rfl | rfl
  · rw [List.find?_cons_of_pos]
    simp only [Link.buf, beq_iff_eq]; rw [show l.bufs[(0 : Fin 2)] = _ from h]
  · rw [List.find?_cons_of_neg, List.find?_cons_of_pos]
    · simp only [Link.buf, beq_iff_eq]; rw [show l.bufs[(1 : Fin 2)] = _ from h]
    · have := hm 0 (by decide)
      simpa [Link.buf] using this

/-- A frame in reception: `bs` of it, its length first, are in the FILLING buffer `j`. -/
def filling (s : State) (j : Fin 2) (rx : RxState) (bs : List Byte) : State :=
  { s with link := { s.link with rx := rx, rxIdle := 0, bufs := s.link.bufs.set j ⟨.filling, bs⟩ } }

theorem filling_first {s : State} {j : Fin 2} {rx : RxState} {bs : List Byte}
    (hk : ∀ k : Fin 2, s.link.bufs[k].state ≠ .filling) :
    (filling s j rx bs).link.firstBuf .filling = some j ∧
      (filling s j rx bs).link.dropFilling =
        { s.link with rx := rx, rxIdle := 0, bufs := s.link.bufs.set j ⟨.free, []⟩ } := by
  obtain ⟨h1, h2⟩ := dropFilling_only (l := (filling s j rx bs).link) (j := j)
    (by show ((s.link.bufs.set j ⟨.filling, bs⟩)[j]).state = _; simp)
    (fun k h => by
      show ((s.link.bufs.set j ⟨.filling, bs⟩)[k]).state ≠ _
      rw [show (s.link.bufs.set j ⟨.filling, bs⟩)[k] = s.link.bufs[k] from
        Vector.getElem_set_ne _ _ (fun e => h (Fin.ext e.symm))]
      exact hk k)
  refine ⟨h1, ?_⟩
  rw [h2]
  show ({ s.link with rx := rx, rxIdle := 0, bufs := (s.link.bufs.set j _).set j _ } : Link) = _
  rw [Vector.set_set]

/-- A byte of a frame joins its buffer. -/
theorem rxByte_filling {s : State} {j : Fin 2} {rx : RxState} {bs : List Byte} (b : Byte) (hrx : rx.inFrame = true)
    (hk : ∀ k : Fin 2, s.link.bufs[k].state ≠ .filling) :
    (filling s j rx bs).rxByte ⟨b, false⟩ =
      match rx with
      | .header =>
        if (bs ++ [b]).length < 2 then filling s j .header (bs ++ [b])
        else if within 2 1022 (frameLength (bs ++ [b])) then filling s j .body (bs ++ [b])
        else (filling s j .header (bs ++ [b])).discard .skip
      | .body =>
        if (bs ++ [b]).length < 2 + frameLength (bs ++ [b]) then filling s j .body (bs ++ [b])
        else filling s j .check (bs ++ [b])
      | .check =>
        if (bs ++ [b]).length < 4 + frameLength (bs ++ [b]) then filling s j .check (bs ++ [b])
        else if checkMatches (bs ++ [b]) then
          (filling s j .check (bs ++ [b])).hold j (((bs ++ [b]).drop 2).take (frameLength (bs ++ [b])))
        else (filling s j .check (bs ++ [b])).discard .skip
      | .hunt => filling s j rx bs
      | .skip => filling s j rx bs := by
  have hb : ((filling s j rx bs).link.buf j).bytes = bs := by
    show ((s.link.bufs.set j ⟨.filling, bs⟩)[j]).bytes = bs
    simp
  have hset : ∀ r : RxState, ((filling s j rx bs).modLink fun l =>
      { l.setBuf j ⟨.filling, bs ++ [b]⟩ with rx := r }) = filling s j r (bs ++ [b]) := by
    intro r
    show ({ s with link := { s.link with rx := r, rxIdle := 0, bufs := (s.link.bufs.set j _).set j _ } } : State) = _
    rw [Vector.set_set]
    rfl
  have hs : (filling s j rx bs).store j b = match rx with
      | .header =>
        if (bs ++ [b]).length < 2 then filling s j .header (bs ++ [b])
        else if within 2 1022 (frameLength (bs ++ [b])) then filling s j .body (bs ++ [b])
        else (filling s j .header (bs ++ [b])).discard .skip
      | .body =>
        if (bs ++ [b]).length < 2 + frameLength (bs ++ [b]) then filling s j .body (bs ++ [b])
        else filling s j .check (bs ++ [b])
      | .check =>
        if (bs ++ [b]).length < 4 + frameLength (bs ++ [b]) then filling s j .check (bs ++ [b])
        else if checkMatches (bs ++ [b]) then
          (filling s j .check (bs ++ [b])).hold j (((bs ++ [b]).drop 2).take (frameLength (bs ++ [b])))
        else (filling s j .check (bs ++ [b])).discard .skip
      | .hunt => filling s j .hunt (bs ++ [b])
      | .skip => filling s j .skip (bs ++ [b]) := by
    have h0 : ((filling s j rx bs).modLink fun l => l.setBuf j ⟨.filling, bs ++ [b]⟩) =
        filling s j rx (bs ++ [b]) := by
      rw [← hset rx]; rfl
    have h1 : ∀ r, (filling s j rx (bs ++ [b])).modLink (fun l => { l with rx := r }) =
        filling s j r (bs ++ [b]) := fun _ => rfl
    unfold State.store
    dsimp only
    rw [hb, h0]
    simp only [h1]
    show (match rx with | .header => _ | .body => _ | .check => _ | .hunt => _ | .skip => _) = _
    cases rx <;> rfl
  unfold State.rxByte
  show (match rx with | .hunt => _ | .skip => _ | .header | .body | .check => _) = _
  cases rx with
  | hunt => cases hrx
  | skip => cases hrx
  | header | body | check =>
    refine Eq.trans ?_ hs
    show (match (filling s j _ bs).link.firstBuf .filling with
      | some j' => (filling s j _ bs).store j' b
      | none => filling s j _ bs) = _
    rw [(filling_first hk).1]
    rfl

/-- The bytes of a body join the buffer one after the other. -/
theorem rxBytes_body {s : State} {j : Fin 2} (hk : ∀ k : Fin 2, s.link.bufs[k].state ≠ .filling) (n : Nat) :
    ∀ (rest pre : List Byte), rest ≠ [] → pre.length + rest.length = n → n ≤ 1022 →
      forEach (rest.map fun b => (⟨b, false⟩ : LineByte)) State.rxByte (filling s j .body (leBytes 2 n ++ pre)) =
        filling s j .check (leBytes 2 n ++ pre ++ rest) := by
  intro rest
  induction rest with
  | nil => intro pre h; exact absurd rfl h
  | cons b rest ih =>
    intro pre _ hlen hn
    simp only [List.length_cons] at hlen
    have hfl : frameLength (leBytes 2 n ++ pre ++ [b]) = n := by
      unfold frameLength
      rw [List.append_assoc, List.take_append_of_le_length (by simp only [leBytes_length, Nat.le_refl]),
        List.take_of_length_le (by simp only [leBytes_length, Nat.le_refl]), leNat_leBytes]
      omega
    show forEach (rest.map _) State.rxByte (State.rxByte ⟨b, false⟩ _) = _
    rw [rxByte_filling b rfl hk]
    dsimp only
    rw [hfl]
    have hl2 : (leBytes 2 n ++ pre ++ [b]).length = 2 + pre.length + 1 := by
      simp [leBytes_length]; omega
    rw [hl2]
    cases rest with
    | nil =>
      simp only [List.length_nil] at hlen
      rw [if_neg (by omega)]
      rfl
    | cons c rest =>
      simp only [List.length_cons] at hlen
      rw [if_pos (by omega), List.append_assoc (leBytes 2 n), ih (pre ++ [b]) (by simp) (by simp; omega) hn]
      simp

/-- A frame on the line, its check right or wrong (R171, R172). -/
theorem rxBytes_frame {s : State} {j : Fin 2} {body : List Byte} (check : Half) (hrx : s.link.rx = .hunt)
    (hj : s.link.firstBuf .free = some j) (hk : ∀ k : Fin 2, s.link.bufs[k].state ≠ .filling) (h2 : 2 ≤ body.length)
    (hn : body.length ≤ 1022) :
    let bytes := [startByte] ++ leBytes 2 body.length ++ body ++ fieldBytes check
    let whole := filling s j .check (leBytes 2 body.length ++ body ++ fieldBytes check)
    s.rxBytes (bytes.map fun b => (⟨b, false⟩ : LineByte)) =
      if check = crc16 (leBytes 2 body.length ++ body) then whole.hold j body else whole.discard .skip := by
  intro bytes whole
  let n := body.length
  have hsplit : bytes.map (fun b => (⟨b, false⟩ : LineByte)) =
      ⟨startByte, false⟩ :: ⟨BitVec.ofNat 8 n, false⟩ :: ⟨BitVec.ofNat 8 (n / 256), false⟩ ::
        (body.map (fun b => (⟨b, false⟩ : LineByte)) ++
          [⟨BitVec.ofNat 8 check.toNat, false⟩, ⟨BitVec.ofNat 8 (check.toNat / 256), false⟩]) := by
    show (([startByte] ++ leBytes 2 n ++ body ++ fieldBytes check).map _) = _
    rw [fieldBytes16]
    simp [leBytes]
  rw [hsplit]
  unfold State.rxBytes
  show forEach _ State.rxByte (State.rxByte _ (State.rxByte _ (State.rxByte _ s))) = _
  have e1 : State.rxByte ⟨startByte, false⟩ s = filling s j .header [] := by
    unfold State.rxByte
    show (match s.link.rx with | .hunt => _ | .skip => _ | .header | .body | .check => _) = _
    rw [hrx]
    dsimp only
    rw [if_pos ⟨rfl, rfl⟩]
    unfold State.startFrame
    rw [show ((s.modLink fun l => { l with rxIdle := 0 }).link.firstBuf .free) = some j from hj]
    rfl
  have e2 : State.rxByte ⟨BitVec.ofNat 8 n, false⟩ (filling s j .header []) = filling s j .header [BitVec.ofNat 8 n] := by
    rw [rxByte_filling _ rfl hk]; rfl
  have hfl : ∀ rest, frameLength (leBytes 2 n ++ rest) = n := by
    intro rest
    unfold frameLength
    rw [List.take_append_of_le_length (by simp only [leBytes_length, Nat.le_refl]),
      List.take_of_length_le (by simp only [leBytes_length, Nat.le_refl]), leNat_leBytes]
    omega
  have e3 : State.rxByte ⟨BitVec.ofNat 8 (n / 256), false⟩ (filling s j .header [BitVec.ofNat 8 n]) =
      filling s j .body (leBytes 2 n) := by
    rw [rxByte_filling _ rfl hk]
    dsimp only
    have : [BitVec.ofNat 8 n] ++ [BitVec.ofNat 8 (n / 256)] = leBytes 2 n := rfl
    rw [this]
    have h0 := hfl []
    rw [List.append_nil] at h0
    rw [h0, if_neg (by rw [leBytes_length]; omega), if_pos (by simp [within]; omega)]
  rw [e1, e2, e3]
  unfold forEach
  rw [List.foldl_append]
  have e4 := rxBytes_body (s := s) (j := j) hk n body [] (by intro h; rw [h] at h2; simp at h2) (by simp [n]) hn
  unfold forEach at e4
  rw [List.append_nil] at e4
  rw [e4]
  let c0 := BitVec.ofNat 8 check.toNat
  let c1 := BitVec.ofNat 8 (check.toNat / 256)
  show State.rxByte ⟨c1, false⟩ (State.rxByte ⟨c0, false⟩ (filling s j .check (leBytes 2 n ++ body))) = _
  have hlen : (leBytes 2 n ++ body).length = 2 + n := by simp [leBytes_length, n]
  have e5 : State.rxByte ⟨c0, false⟩ (filling s j .check (leBytes 2 n ++ body)) =
      filling s j .check (leBytes 2 n ++ body ++ [c0]) := by
    rw [rxByte_filling _ rfl hk]
    dsimp only
    rw [List.append_assoc, hfl, ← List.append_assoc, if_pos (by rw [List.length_append, hlen]; simp; omega)]
  rw [e5, rxByte_filling _ rfl hk]
  dsimp only
  have hall : leBytes 2 n ++ body ++ [c0] ++ [c1] = leBytes 2 body.length ++ body ++ fieldBytes check := by
    rw [fieldBytes16]; simp [c0, c1, n]
  rw [hall]
  have hfw : frameLength (leBytes 2 body.length ++ body ++ fieldBytes check) = n := by rw [List.append_assoc]; exact hfl _
  have hlw : (leBytes 2 body.length ++ body ++ fieldBytes check).length = 4 + n := by
    rw [List.length_append]
    change (leBytes 2 n ++ body).length + _ = _
    rw [hlen, fieldBytes_length]
    omega
  rw [hfw, hlw, if_neg (by omega)]
  have hcm : checkMatches (leBytes 2 body.length ++ body ++ fieldBytes check) =
      decide (check = crc16 (leBytes 2 body.length ++ body)) := by
    unfold checkMatches
    rw [hfw]
    have ht : (leBytes 2 body.length ++ body ++ fieldBytes check).take (2 + n) = leBytes 2 body.length ++ body := by
      rw [List.take_append_of_le_length (by change _ ≤ (leBytes 2 n ++ body).length; omega),
        List.take_of_length_le (by change (leBytes 2 n ++ body).length ≤ _; omega)]
    have hd : (leBytes 2 body.length ++ body ++ fieldBytes check).drop (2 + n) = fieldBytes check := by
      rw [List.drop_append_of_le_length (by change _ ≤ (leBytes 2 n ++ body).length; omega),
        List.drop_of_length_le (by change (leBytes 2 n ++ body).length ≤ _; omega)]
      rfl
    dsimp only
    rw [ht, hd]
    have := fieldAt16 [] [] check (k := 0) rfl
    simp only [List.nil_append, List.append_nil] at this
    rw [this]
    rfl
  rw [hcm]
  have hbody : ((leBytes 2 body.length ++ body ++ fieldBytes check).drop 2).take n = body := by
    rw [List.append_assoc, List.drop_append_of_le_length (by simp only [leBytes_length, Nat.le_refl]),
      List.drop_of_length_le (by simp only [leBytes_length, Nat.le_refl])]
    simp [n]
  rw [hbody]
  by_cases h : check = crc16 (leBytes 2 body.length ++ body)
  · rw [decide_eq_true h, if_pos rfl, if_pos h]
  · rw [decide_eq_false h, if_neg (by simp), if_neg h]

end Sys2Proof.Laws
end

