-- ==== Sys2Proof/Laws/PerInstr.lean ====
section
/-! SUPPORT. Statements about every command, one lemma per row. Family MeasuredInRange: what a well-formed command delivers
from the outside world lies in the ranges the manual states (R97, R120, R121). -/

namespace Sys2Proof.Laws

/-- The supply in mV that a command delivers. -/
def suppliedBy : Instr → Option Nat
  | .powerOnReset supply => some supply
  | .sample supply _ => some supply
  | _ => none

/-- The die temperature in degrees Celsius that a command delivers. -/
def temperatureBy : Instr → Option Int
  | .statusReadComplete _ t => some t
  | .identityReadEnd _ (.arrayCode t) => some t
  | _ => none

/-- What a well-formed command delivers lies in its range. -/
def MeasuredInRange.Statement (c : Instr) : Prop :=
  c.wellFormed = true →
    (∀ v, suppliedBy c = some v → v ≤ 2047) ∧ ∀ t, temperatureBy c = some t → -40 ≤ t ∧ t ≤ 125

/-- A command that delivers nothing. -/
theorem measured_none {c : Instr} (hs : suppliedBy c = none) (ht : temperatureBy c = none) :
    MeasuredInRange.Statement c :=
  fun _ => ⟨fun _ h => (Option.some_ne_none _ (h.symm.trans hs)).elim,
    fun _ h => (Option.some_ne_none _ (h.symm.trans ht)).elim⟩

/-- A command that delivers a supply. -/
theorem measured_supply {c : Instr} {v : Nat} (h : c.wellFormed = supplyOk v) (hs : suppliedBy c = some v)
    (ht : temperatureBy c = none) : MeasuredInRange.Statement c := by
  intro hw
  rw [h] at hw
  refine ⟨fun u hu => ?_, fun _ k => (Option.some_ne_none _ (k.symm.trans ht)).elim⟩
  rw [hs] at hu
  cases hu
  exact of_decide_eq_true hw

/-- A command that delivers a temperature. -/
theorem measured_temperature {c : Instr} {v : Int} (h : c.wellFormed = temperatureOk v) (hs : suppliedBy c = none)
    (ht : temperatureBy c = some v) : MeasuredInRange.Statement c := by
  intro hw
  rw [h] at hw
  refine ⟨fun _ k => (Option.some_ne_none _ (k.symm.trans hs)).elim, fun u hu => ?_⟩
  rw [ht] at hu
  cases hu
  simpa [temperatureOk] using hw

theorem MeasuredInRange.powerOnReset (supply : Nat) : MeasuredInRange.Statement (.powerOnReset supply) :=
  measured_supply rfl rfl rfl
theorem MeasuredInRange.frameReceived (bytes : List LineByte) : MeasuredInRange.Statement (.frameReceived bytes) :=
  measured_none rfl rfl
theorem MeasuredInRange.receiveGapTimeout : MeasuredInRange.Statement .receiveGapTimeout := measured_none rfl rfl
theorem MeasuredInRange.skipIdleTimeout : MeasuredInRange.Statement .skipIdleTimeout := measured_none rfl rfl
theorem MeasuredInRange.decodeFrame : MeasuredInRange.Statement .decodeFrame := measured_none rfl rfl
theorem MeasuredInRange.transmitFrameStart (hold : Bool) : MeasuredInRange.Statement (.transmitFrameStart hold) :=
  measured_none rfl rfl
theorem MeasuredInRange.frameSent : MeasuredInRange.Statement .frameSent := measured_none rfl rfl
theorem MeasuredInRange.identify (tag : Byte) : MeasuredInRange.Statement (.identify tag) := measured_none rfl rfl
theorem MeasuredInRange.status (tag : Byte) : MeasuredInRange.Statement (.status tag) := measured_none rfl rfl
theorem MeasuredInRange.setLink (tag rateCode : Byte) : MeasuredInRange.Statement (.setLink tag rateCode) :=
  measured_none rfl rfl
theorem MeasuredInRange.cancel (tag target : Byte) : MeasuredInRange.Statement (.cancel tag target) :=
  measured_none rfl rfl
theorem MeasuredInRange.reset (tag : Byte) : MeasuredInRange.Statement (.reset tag) := measured_none rfl rfl
theorem MeasuredInRange.create (tag series : Byte) (base count : Half) (lanes policy : Byte) :
    MeasuredInRange.Statement (.create tag series base count lanes policy) :=
  measured_none rfl rfl
theorem MeasuredInRange.describe (tag series : Byte) : MeasuredInRange.Statement (.describe tag series) :=
  measured_none rfl rfl
theorem MeasuredInRange.seal (tag series : Byte) : MeasuredInRange.Statement (.seal tag series) :=
  measured_none rfl rfl
theorem MeasuredInRange.drop (tag series : Byte) : MeasuredInRange.Statement (.drop tag series) :=
  measured_none rfl rfl
theorem MeasuredInRange.append (tag series count : Byte) (records : List Record) :
    MeasuredInRange.Statement (.append tag series count records) :=
  measured_none rfl rfl
theorem MeasuredInRange.fetch (tag series : Byte) (first : BitVec 32) (count : Byte) :
    MeasuredInRange.Statement (.fetch tag series first count) :=
  measured_none rfl rfl
theorem MeasuredInRange.scan (tag : Byte) (fields : ScanFields) : MeasuredInRange.Statement (.scan tag fields) :=
  measured_none rfl rfl
theorem MeasuredInRange.startArray (tag : Byte) : MeasuredInRange.Statement (.startArray tag) := measured_none rfl rfl
theorem MeasuredInRange.setArrayTiming (tag : Byte) (fields : TimingFields) :
    MeasuredInRange.Statement (.setArrayTiming tag fields) :=
  measured_none rfl rfl
theorem MeasuredInRange.powerRun (tag : Byte) : MeasuredInRange.Statement (.powerRun tag) := measured_none rfl rfl
theorem MeasuredInRange.powerRest (tag : Byte) : MeasuredInRange.Statement (.powerRest tag) := measured_none rfl rfl
theorem MeasuredInRange.powerDeep (tag : Byte) : MeasuredInRange.Statement (.powerDeep tag) := measured_none rfl rfl
theorem MeasuredInRange.setMonitor (tag : Byte) (fields : MonitorFields) :
    MeasuredInRange.Statement (.setMonitor tag fields) :=
  measured_none rfl rfl
theorem MeasuredInRange.calibrate (tag die kind : Byte) : MeasuredInRange.Statement (.calibrate tag die kind) :=
  measured_none rfl rfl
theorem MeasuredInRange.setPreservePort (tag : Byte) (fields : PortFields) :
    MeasuredInRange.Statement (.setPreservePort tag fields) :=
  measured_none rfl rfl
theorem MeasuredInRange.preserve (tag series slot : Byte) : MeasuredInRange.Statement (.preserve tag series slot) :=
  measured_none rfl rfl
theorem MeasuredInRange.recover (tag slot target basePresence : Byte) (base : Half) :
    MeasuredInRange.Statement (.recover tag slot target basePresence base) :=
  measured_none rfl rfl
theorem MeasuredInRange.openStep (die : Fin 2) (bank : Fin 8) : MeasuredInRange.Statement (.openStep die bank) :=
  measured_none rfl rfl
theorem MeasuredInRange.closeStep (die : Fin 2) (bank : Fin 8) : MeasuredInRange.Statement (.closeStep die bank) :=
  measured_none rfl rfl
theorem MeasuredInRange.transferStep (die : Fin 2) (bank : Fin 8) :
    MeasuredInRange.Statement (.transferStep die bank) :=
  measured_none rfl rfl
theorem MeasuredInRange.statusReadStep (die : Fin 2) : MeasuredInRange.Statement (.statusReadStep die) :=
  measured_none rfl rfl
theorem MeasuredInRange.openDelayElapsed (die : Fin 2) (bank : Fin 8) :
    MeasuredInRange.Statement (.openDelayElapsed die bank) :=
  measured_none rfl rfl
theorem MeasuredInRange.closeDelayElapsed (die : Fin 2) (bank : Fin 8) :
    MeasuredInRange.Statement (.closeDelayElapsed die bank) :=
  measured_none rfl rfl
theorem MeasuredInRange.writeRecoveryElapsed (die : Fin 2) (bank : Fin 8) :
    MeasuredInRange.Statement (.writeRecoveryElapsed die bank) :=
  measured_none rfl rfl
theorem MeasuredInRange.batchWriteComplete (die : Fin 2) (bank : Fin 8) :
    MeasuredInRange.Statement (.batchWriteComplete die bank) :=
  measured_none rfl rfl
theorem MeasuredInRange.fetchReadComplete (die : Fin 2) (bank : Fin 8) :
    MeasuredInRange.Statement (.fetchReadComplete die bank) :=
  measured_none rfl rfl
theorem MeasuredInRange.rowReadComplete (die : Fin 2) (bank : Fin 8) :
    MeasuredInRange.Statement (.rowReadComplete die bank) :=
  measured_none rfl rfl
theorem MeasuredInRange.edgeProbeComplete (die : Fin 2) (bank : Fin 8) :
    MeasuredInRange.Statement (.edgeProbeComplete die bank) :=
  measured_none rfl rfl
theorem MeasuredInRange.binaryProbeComplete (die : Fin 2) (bank : Fin 8) :
    MeasuredInRange.Statement (.binaryProbeComplete die bank) :=
  measured_none rfl rfl
theorem MeasuredInRange.refreshTimerExpiry (die : Fin 2) : MeasuredInRange.Statement (.refreshTimerExpiry die) :=
  measured_none rfl rfl
theorem MeasuredInRange.refreshStart (die : Fin 2) : MeasuredInRange.Statement (.refreshStart die) :=
  measured_none rfl rfl
theorem MeasuredInRange.refreshEnd (die : Fin 2) : MeasuredInRange.Statement (.refreshEnd die) :=
  measured_none rfl rfl
theorem MeasuredInRange.calibrationStart (die : Fin 2) : MeasuredInRange.Statement (.calibrationStart die) :=
  measured_none rfl rfl
theorem MeasuredInRange.calibrationEnd (die : Fin 2) : MeasuredInRange.Statement (.calibrationEnd die) :=
  measured_none rfl rfl
theorem MeasuredInRange.sample (supply : Nat) (firstDie : Fin 2) :
    MeasuredInRange.Statement (.sample supply firstDie) :=
  measured_supply rfl rfl rfl
theorem MeasuredInRange.statusReadComplete (die : Fin 2) (temperature : Int) :
    MeasuredInRange.Statement (.statusReadComplete die temperature) :=
  measured_temperature rfl rfl rfl
theorem MeasuredInRange.resetSequenceEnd (die : Fin 2) : MeasuredInRange.Statement (.resetSequenceEnd die) :=
  measured_none rfl rfl
theorem MeasuredInRange.identityReadEnd (die : Fin 2) (answer : IdentityAnswer) :
    MeasuredInRange.Statement (.identityReadEnd die answer) :=
  by
  cases answer
  case arrayCode => exact measured_temperature rfl rfl rfl
  all_goals exact measured_none rfl rfl
theorem MeasuredInRange.timingLoadEnd : MeasuredInRange.Statement .timingLoadEnd := measured_none rfl rfl
theorem MeasuredInRange.enterResting (die : Fin 2) : MeasuredInRange.Statement (.enterResting die) :=
  measured_none rfl rfl
theorem MeasuredInRange.enterOff (die : Fin 2) : MeasuredInRange.Statement (.enterOff die) := measured_none rfl rfl
theorem MeasuredInRange.wakeDelayElapsed (die : Fin 2) : MeasuredInRange.Statement (.wakeDelayElapsed die) :=
  measured_none rfl rfl
theorem MeasuredInRange.turnaroundElapsed : MeasuredInRange.Statement .turnaroundElapsed := measured_none rfl rfl
theorem MeasuredInRange.portAccessEnd (pwait : Bool) (word : Half) :
    MeasuredInRange.Statement (.portAccessEnd pwait word) :=
  measured_none rfl rfl
theorem MeasuredInRange.accessTimeout (pwait : Bool) : MeasuredInRange.Statement (.accessTimeout pwait) :=
  measured_none rfl rfl
theorem MeasuredInRange.preserveReadComplete (die : Fin 2) (bank : Fin 8) :
    MeasuredInRange.Statement (.preserveReadComplete die bank) :=
  measured_none rfl rfl
theorem MeasuredInRange.recoverWriteComplete (die : Fin 2) (bank : Fin 8) :
    MeasuredInRange.Statement (.recoverWriteComplete die bank) :=
  measured_none rfl rfl
theorem MeasuredInRange.byteReceivedInSkip (byte : LineByte) : MeasuredInRange.Statement (.byteReceivedInSkip byte) :=
  measured_none rfl rfl

end Sys2Proof.Laws
end

