-- ==== Sys2Proof/Laws/Rest.lean ====
section
/-! SUPPORT. What the arrival of a die in RESTING does, and when a POWER answers (R136, R137, R140, R142, R144). -/

namespace Sys2Proof.Laws

open Sys2Proof.Machine

/-- What the POWER that waits does once its moment may have come (R136, R142, R144). -/
theorem checkPower_cases (s : State) :
    ((s.arr.power = none ∨ ∃ p, s.arr.power = some p ∧ s.powerDone p.level = false) → s.checkPower = s) ∧
    ∀ p, s.arr.power = some p → s.powerDone p.level = true → s.checkPower = { s with
      arr := { s.arr with power := none }
      table := s.table.filter fun e => e.tag != p.tag
      link := { s.link with queue := s.link.queue
        ++ [⟨.response, p.tag, [0x22, 0, (s.die 0).state.code, (s.die 1).state.code], none⟩] } } := by
  unfold State.checkPower
  refine ⟨?_, ?_⟩
  · rintro (h | ⟨p, h, h2⟩)
    · rw [h]
    · rw [h]; dsimp only; rw [h2]; rfl
  · intro p h h2
    rw [h]; dsimp only; rw [h2]; rfl

theorem otherDie_ne (d : Fin 2) : otherDie d ≠ d := by revert d; decide

/-- A pending calibration request of the die is gone; nothing else changes (R129). -/
theorem dropPendingCal_mon (d : Fin 2) (s : State) : ∃ mon, s.dropPendingCal d = { s with mon := mon } ∧
    ∀ r, (s.dieMon d).req = some r → r.stage = .pending → (mon.dies[d]).req = none := by
  unfold State.dropPendingCal
  split
  · rename_i r hr
    split
    · refine ⟨_, rfl, ?_⟩
      intros; simp
    · rename_i hp
      refine ⟨s.mon, rfl, ?_⟩
      intro r' hr' hp'
      rw [hr] at hr'
      obtain rfl := Option.some.inj hr'
      exact absurd hp' hp
  · rename_i hn
    refine ⟨s.mon, rfl, ?_⟩
    intro r' hr' _
    rw [hn] at hr'; cases hr'

/-- The arrival of a die in RESTING, its debt 0 (R136, R137, R140). -/
theorem becomeResting_arrives {s : State} {d : Fin 2} (hd : (s.die d).debt = 0) :
    s.RestArrives (s.becomeResting d) d := by
  let x : Die := { s.die d with state := .resting, timer := none, restTarget := .none, driftHold := false }
  let a := s.setDie d x
  obtain ⟨mon, hmon, hreq⟩ := dropPendingCal_mon d a
  let kept := s.arr.queue.filter fun t => !(t.isStatus d && !t.issued)
  let marked := kept.map fun t => if t.isStatus d then { t with live := false } else t
  let wt := s.arr.waiting.filter fun t => !t.isStatus d
  let n := 32 - marked.length
  let v : State := { s with
    mon := mon, arr := { s.arr with dies := s.arr.dies.set d x, queue := marked ++ wt.take n, waiting := wt.drop n } }
  have he : s.becomeResting d = (if v.workFor d || v.powerRunWaits then v.beginWake d else v).checkPower := by
    unfold State.becomeResting
    rw [show s.setDie d { s.die d with
      state := .resting, timer := none, restTarget := .none, driftHold := false } = a from rfl]
    dsimp only
    rw [hmon]
    rfl
  have hvd : v.die d = x := by
    show (s.arr.dies.set d x)[d] = x
    simp
  have hvo : v.die (otherDie d) = s.die (otherDie d) := by
    show (s.arr.dies.set d x)[otherDie d] = s.arr.dies[otherDie d]
    exact Vector.getElem_set_ne _ _ (fun h => otherDie_ne d (Fin.ext h.symm))
  -- the state before the POWER check
  obtain ⟨y, hy, hw⟩ : ∃ y : Die, (if v.workFor d || v.powerRunWaits then v.beginWake d else v) = v.setDie d y ∧
      (y = x ∧ (v.workFor d || v.powerRunWaits) = false ∨ y = { x with
        state := .waking, activity := .none, banks := Vector.replicate 8 Bank.idle, timer := none, debt := 0 } ∧
        (v.workFor d || v.powerRunWaits) = true) := by
    by_cases hw : (v.workFor d || v.powerRunWaits) = true
    · rw [if_pos hw]
      unfold State.beginWake
      rw [hvd, if_pos rfl]
      exact ⟨_, rfl, .inr ⟨rfl, hw⟩⟩
    · rw [if_neg hw]
      refine ⟨x, ?_, .inl ⟨rfl, by simpa using hw⟩⟩
      show v = ({ v with arr := { v.arr with dies := (s.arr.dies.set d x).set d x } } : State)
      rw [Vector.set_set]
  rw [he, hy]
  let u := v.setDie d y
  have hud : u.die d = y := by
    show (((s.arr.dies.set d x).set d y)[d]) = y
    simp
  have huo : u.die (otherDie d) = s.die (otherDie d) := by
    rw [← hvo]
    show ((v.arr.dies.set d y)[otherDie d]) = v.arr.dies[otherDie d]
    exact Vector.getElem_set_ne _ _ (fun h => otherDie_ne d (Fin.ext h.symm))
  have hstates : ∀ j : Fin 2, j = d ∨ j = otherDie d := (by decide : ∀ d j : Fin 2, j = d ∨ j = otherDie d) d
  have hyx : y.timer = none ∧ y.debt = 0 ∧ y.restTarget = .none ∧ y.driftHold = false ∧ y.hot = (s.die d).hot ∧
      y.overruns = (s.die d).overruns ∧ (y.state = .resting ∨ y.state = .waking) := by
    rcases hw with ⟨rfl, -⟩ | ⟨rfl, -⟩
    · exact ⟨rfl, hd, rfl, rfl, rfl, rfl, .inl rfl⟩
    · exact ⟨rfl, rfl, rfl, rfl, rfl, rfl, .inr rfl⟩
  obtain ⟨c1, c2⟩ := checkPower_cases u
  -- fields that checkPower keeps
  have hkeep : ∃ l t ar, (u.checkPower) = ({ u with link := l, table := t, arr := { u.arr with power := ar } } : State) := by
    by_cases hp : u.arr.power = none ∨ ∃ p, u.arr.power = some p ∧ u.powerDone p.level = false
    · exact ⟨u.link, u.table, u.arr.power, c1 hp⟩
    · cases hpp : u.arr.power with
      | none => exact absurd (.inl hpp) hp
      | some p =>
        cases hpd : u.powerDone p.level with
        | false => exact absurd (.inr ⟨p, hpp, hpd⟩) hp
        | true => exact ⟨_, _, _, c2 p hpp hpd⟩
  obtain ⟨l, tb, ar, hk⟩ := hkeep
  have hkd : ∀ j, (u.checkPower).die j = u.die j := by intro j; rw [hk]; rfl
  have hrunpow : v.powerRunWaits = true ↔ ∃ p, s.arr.power = some p ∧ p.level = .run := by
    show (match s.arr.power with | some p => p.level == .run | none => false) = true ↔ _
    cases s.arr.power <;> simp
  change State.RestArrives s u.checkPower d
  refine ⟨?_, ?_, ?_, ?_, ?_, ?_, ?_, ?_, ?_, ?_, ?_, ?_, ?_, ?_, ?_⟩
  · rw [hkd, hud]; exact hyx.1
  · rw [hkd, hud]; exact hyx.2.1
  · rw [hkd, hud]; exact hyx.2.2.1
  · rw [hkd, hud]; exact hyx.2.2.2.1
  · rw [hkd, hud]; exact hyx.2.2.2.2.1
  · rw [hkd, hud]; exact hyx.2.2.2.2.2.1
  · rw [hkd]; exact huo
  · intro h1 h2 h3
    rw [hkd, hud]
    rcases hw with ⟨rfl, -⟩ | ⟨-, hw⟩
    · rfl
    · exfalso
      rw [Bool.or_eq_true] at hw
      rcases hw with hw | hw
      · have hwt : wt.any (fun t => t.die == d) = false := by
          rw [List.any_eq_false]
          intro z hz
          obtain ⟨hz1, hz2⟩ := List.mem_filter.mp hz
          intro hzd
          rw [h2 z hz1 (by simpa using hzd)] at hz2
          cases hz2
        unfold State.workFor at hw
        rw [Bool.or_eq_true] at hw
        rcases hw with hw | hw
        · obtain ⟨z, hz, hzk⟩ := List.any_eq_true.mp hw
          simp only [Bool.and_eq_true, Bool.not_eq_true', beq_iff_eq] at hzk
          change z ∈ marked ++ wt.take n at hz
          rcases List.mem_append.mp hz with hz | hz
          · obtain ⟨z', hz', rfl⟩ := List.mem_map.mp hz
            obtain ⟨hz1, hz2⟩ := List.mem_filter.mp hz'
            have hi : z'.issued = false := by have := hzk.1; split at this <;> exact this
            have hdd : z'.die = d := by have := hzk.2; split at this <;> exact this
            rcases h1 z' hz1 hdd with h | h
            · rw [h] at hi; cases hi
            · simp [h, hi] at hz2
          · have := List.any_eq_false.mp hwt z (List.mem_of_mem_take hz)
            simp [hzk.2] at this
        · obtain ⟨z, hz, hzk⟩ := List.any_eq_true.mp hw
          exact List.any_eq_false.mp hwt z (List.mem_of_mem_drop hz) hzk
      · obtain ⟨p, hp, hp2⟩ := hrunpow.mp hw
        exact h3 p hp hp2
  · intro h
    rw [hkd, hud]
    rcases hw with ⟨-, hw⟩ | ⟨rfl, -⟩
    · exfalso
      rw [Bool.or_eq_false_iff] at hw
      rcases h with ⟨z, hz, h1, h2, h3⟩ | h
      · unfold State.workFor at hw
        rw [Bool.or_eq_false_iff] at hw
        have : z ∈ marked ++ wt := by
          rcases List.mem_append.mp hz with hz | hz
          · refine List.mem_append_left _ (List.mem_map.mpr ⟨z, List.mem_filter.mpr ⟨hz, by simp [h3]⟩, by simp [h3]⟩)
          · exact List.mem_append_right _ (List.mem_filter.mpr ⟨hz, by simp [h3]⟩)
        have hz2 : z ∈ (marked ++ wt.take n) ++ wt.drop n := by
          rw [List.append_assoc, List.take_append_drop]; exact this
        rcases List.mem_append.mp hz2 with hz2 | hz2
        · have := List.any_eq_false.mp hw.1.1 z hz2
          simp [h1, h2] at this
        · have := List.any_eq_false.mp hw.1.2 z hz2
          simp [h2] at this
      · have := hrunpow.mpr h
        rw [hw.2] at this; cases this
    · rfl
  · intro r h1 h2
    rw [hk]
    exact hreq r h1 h2
  · rw [hk]
    show ∀ z ∈ (marked ++ wt.take n) ++ wt.drop n, _
    rw [List.append_assoc, List.take_append_drop]
    intro z hz hzs
    rcases List.mem_append.mp hz with hz | hz
    · obtain ⟨z', hz', rfl⟩ := List.mem_map.mp hz
      obtain ⟨hz1, hz2⟩ := List.mem_filter.mp hz'
      by_cases h : z'.isStatus d = true
      · simp [h] at hz2 ⊢; exact hz2
      · simp [h] at hzs
    · have := (List.mem_filter.mp hz).2
      simp [hzs] at this
  · rw [hk]; rfl
  · rw [hk]; rfl
  · intro h
    have : u.checkPower = u := by
      apply c1
      rcases h with h | ⟨tag, h⟩ | ⟨tag, h, h2⟩
      · exact .inl h
      · refine .inr ⟨_, h, ?_⟩
        show (allDies.all fun j => (u.die j).state != .resting && (u.die j).state != .waking) = false
        rw [List.all_eq_false]
        refine ⟨d, (by decide : ∀ d : Fin 2, d ∈ allDies) d, ?_⟩
        rw [hud]
        rcases hyx.2.2.2.2.2.2 with h | h <;> simp [h]
      · refine .inr ⟨_, h, ?_⟩
        show (allDies.all fun j => (u.die j).restTarget != .rest) = false
        rw [List.all_eq_false]
        refine ⟨otherDie d, (by decide : ∀ d : Fin 2, d ∈ allDies) _, ?_⟩
        rw [huo, h2]; simp
    rw [this]
    exact ⟨rfl, rfl, rfl⟩
  · intro tag h h2
    have := c2 _ h (by
        show (allDies.all fun j => (u.die j).restTarget != .rest) = true
        rw [List.all_eq_true]
        intro j _
        rcases hstates j with rfl | rfl
        · rw [hud, hyx.2.2.1]; rfl
        · rw [huo]; simpa using h2)
    rw [this]
    exact ⟨rfl, rfl, rfl⟩

end Sys2Proof.Laws
end

