-- ==== Sys2Proof/Tests/Slice0.lean ====
section
/-! SUPPORT. Tests: the checks of `wellFormed`, worked values of the manual, and for each statement of
Certificates/Slice0/Obligations.lean states and operands that meet its hypotheses, clause by clause. -/

namespace Sys2Proof.Tests

set_option Elab.async false

open Sys2Proof.Machine

/-! ### Small states -/

/-- The state a command leaves. -/
def after (c : Instr) (s : State) : State :=
  match exec c s with
  | .next t => t
  | .fault _ => s
  | .refused _ => s

/-- The payloads queued for LTX. -/
def sent (s : State) : List (List Byte) := s.link.queue.map Frame.payload

/-- A READY die at rest. -/
def readyDie : Die := { Die.reset0 with state := .ready, timer := some 0 }

/-- Both dies READY, at 25 degrees with baselines. -/
def ready : State :=
  { State.reset with
    arr := { ArrayCtl.reset0 with dies := Vector.replicate 2 readyDie }
    mon := { Monitor.reset0 1200 with dies := Vector.replicate 2 ⟨some 25, some ⟨25, 1200⟩, 0, none⟩ } }

/-- A state whose dies are all `x`. -/
def dies (x : Die) (s : State) : State := s.modArr fun a => { a with dies := Vector.replicate 2 x }

/-- A series of one stripe on die 0, two lanes, four records committed. -/
def series : Entry :=
  { Entry.free with
    state := .opened, base := 0, count := 1, lanes := 2, reserved := 4, committed := 4, lastReserved := 40
    lastCommitted := 40, dirty := true }

/-- Both dies READY, and entry 0 as given. -/
def store (e : Entry) : State := ready.setEntry 0 e

/-- A record with stamp and source, its first lane as given. -/
def record (stamp : Stamp) (source : Half) (lane : Lane) : Record := ⟨stamp, source, #v[lane, 0, 0, 0, 0, 0]⟩

/-- A transaction on die 0, bank 0, row 0. -/
def txn (o : Origin) (dir : Dir) (data : List Record) (issued : Bool) : Txn :=
  ⟨o, dir, 0, some ⟨0, 0, 0, data.length⟩, data, issued, 0, true⟩

/-- The access queue as given. -/
def queueing (q : List Txn) (s : State) : State := s.setQueues q []

/-- A table entry in work. -/
def holding (tag : Byte) (k : Kind) (s : State) : State := s.setTable (s.table ++ [.admitted tag k])

/-! ### What `wellFormed` refuses -/

theorem test_powerOnReset_supply_refused :
    (Instr.powerOnReset 2048).wellFormed = false ∧ (Instr.powerOnReset 2047).wellFormed = true := by decide
theorem test_sample_supply_refused :
    (Instr.sample 2048 0).wellFormed = false ∧ (Instr.sample 2047 1).wellFormed = true := by decide
theorem test_status_temperature_refused :
    (Instr.statusReadComplete 0 126).wellFormed = false ∧ (Instr.statusReadComplete 1 (-41)).wellFormed = false ∧
      (Instr.statusReadComplete 0 (-40)).wellFormed = true := by decide
theorem test_identity_temperature_refused :
    (Instr.identityReadEnd 0 (.arrayCode 126)).wellFormed = false ∧
      (Instr.identityReadEnd 0 (.arrayCode 125)).wellFormed = true ∧
      (Instr.identityReadEnd 0 .noAnswer).wellFormed = true := by decide
theorem test_append_length_refused :
    (Instr.append 1 0 30 (List.replicate 32 (record 0 0 0))).wellFormed = false ∧
      (Instr.append 1 0 30 (List.replicate 31 (record 0 0 0))).wellFormed = true := by decide +kernel

/-- No word of the table spells a command (log 29). -/
theorem test_no_row_has_bits : decodeTableWord 8 0xA7 = none ∧ State.reset.withFetchWord 8 0xA7 = State.reset := by
  decide +kernel

/-! ### The machine -/

theorem test_meets_StepTakesFrontCommand :
    (State.reset.setPending [.identify 1, .status 2]).pending = .identify 1 :: [.status 2] := by decide +kernel

/-- A refresh timer two cycles before its period. -/
def lateTimers : State := dies { readyDie with timer := some 3118 } ready

theorem test_meets_IdleStepCountsOneCycle :
    lateTimers.pending = [] ∧ lateTimers.link.rx = .hunt ∧ lateTimers.mon.subMs + 1 < 400000 ∧
      (∀ (d : Fin 2) (n : Nat), (lateTimers.die d).timer = some n →
        n + 1 < (if (lateTimers.die d).hot then lateTimers.arr.timing.refreshInterval.toNat / 2
          else lateTimers.arr.timing.refreshInterval.toNat)) := by
  refine ⟨by decide +kernel, by decide +kernel, by decide +kernel, fun d n h => ?_⟩
  have e : (lateTimers.die d).timer = some 3118 := by clear h; revert d; decide +kernel
  obtain rfl : n = 3118 := by rw [e] at h; exact (Option.some.inj h).symm
  revert d; decide +kernel

/-- At its period a timer starts again, and the debt rises (R115). -/
theorem test_timer_expires :
    let t := tick (ready.setDie 1 { readyDie with timer := some 3119 })
    (t.die 1).timer = some 0 ∧ (t.die 1).debt = 1 ∧ (t.die 0).timer = some 1 := by decide +kernel

/-- A SEAL waits. -/
def sealing : State := (store series).setPending [.seal 1 0]

theorem test_meets_step_invariants :
    (Memory.wf sealing.mem ∧ sealing.StripesApart ∧ sealing.QueueOk ∧ sealing.DiesOk ∧ sealing.CountsOk) ∧
      ∃ t, step sealing = .next t := ⟨by decide +kernel, _, rfl⟩

theorem test_meets_MemoryFrame :
    storesNothing (.transferStep 0 0) = true ∧ ∃ t, exec (.transferStep 0 0) ready = .next t := ⟨rfl, _, rfl⟩

theorem test_reset : after (.powerOnReset 1100) (store series) =
    { State.reset with mon := { State.reset.mon with supply := 1100 } } := by decide +kernel

/-! ### Formats -/

/-- The check of "123456789" (R171). -/
theorem test_crc : crc16 [0x31, 0x32, 0x33, 0x34, 0x35, 0x36, 0x37, 0x38, 0x39] = 0x29B1 := by decide +kernel

theorem test_meets_FrameLayout : (List.replicate 1022 (0 : Byte)).length ≤ 1022 ∧ ([] : List Byte).length ≤ 1022 := by
  decide +kernel

/-- 0x41 on the line: start, the data bits from the least significant on, stop; with a low stop bit a framing error. -/
theorem test_line_bits :
    lineBits 0x41 = [false, true, false, false, false, false, false, true, false, true] ∧
      sampleBits [false, true, false, false, false, false, false, true, false, false] = ⟨0x41, true⟩ := by decide +kernel

/-- The last stripe of the array, and two numbers at the ends of one ring (R8). -/
theorem test_meets_RecordPlace :
    let e : Entry := { series with base := 32767 }
    0 < e.count ∧ e.base + e.count ≤ 32768 ∧ (0 < 511 ∧ 511 < 0 + 512 * e.count) ∧
      e.dieOf 511 = 1 ∧ e.place 511 1 = ⟨7, 16383, 63, 1⟩ := by decide +kernel

/-- The cut of R9's worked example, and a run of 64 numbers at either side of a row boundary. -/
theorem test_cut :
    ({ series with base := 16380, count := 8 } : Entry).cut 10290 30 = [(10290, 14), (10304, 16)] ∧
      (0 < series.count ∧ 1 ≤ 1 ∧ (64 : Nat) ≤ 64) ∧ series.cut 0 64 = [(0, 64)] ∧
      series.cut 1 64 = [(1, 63), (64, 1)] := by decide +kernel

/-- The die boundary (R7). -/
theorem test_die_boundary :
    ({ series with base := 16383, count := 2 } : Entry).dieOf 511 = 0 ∧
      ({ series with base := 16383, count := 2 } : Entry).dieOf 512 = 1 := by decide +kernel

/-! ### Lanes and filters -/

theorem test_meets_LaneComparison :
    (1 ≤ laneExponent 0x00800000 ∧ laneExponent 0x7F7FFFFF ≤ 254) ∧ laneExponent 0x007FFFFF = 0 ∧
      (laneClass 0x7F800000 = .number ∧ laneClass 0x3F800000 = .number) ∧
      (laneClass 0x7F7FFFFF = .number ∧ (0x7F7FFFFF : Lane) ≠ 0x7F800000) ∧
      (laneClass 0xFF7FFFFF = .number ∧ (0xFF7FFFFF : Lane) ≠ 0xFF800000) := by decide +kernel

theorem test_meets_TermResult :
    laneClass (record 0 0 0x3F800000).lanes[(0 : Fin 6)] = .number ∧
      laneClass (record 0 0 0x7FC00000).lanes[(0 : Fin 6)] = .absent ∧
      laneClass (record 0 0 0x7FA00000).lanes[(0 : Fin 6)] = .faulted := by decide +kernel

/-- The order of two numbers, of the zeros and of a TINY lane (R48). -/
theorem test_lane_order :
    laneValue 0x3F800000 < laneValue 0x40000000 ∧ laneValue 0xC0000000 < laneValue 0xBF800000 ∧
      laneValue 0x80000000 = laneValue 0x00000000 ∧ laneValue 0x00000001 > laneValue 0x00000000 := by decide +kernel

/-- A filter on one lane. -/
def above1 : Filter := ⟨some 7, [⟨0, .above, 0x3F800000⟩], .all, false, true, true⟩

theorem test_meets_FilterTest :
    ({ above1 with terms := [] } : Filter).terms = [] ∧ above1.combine = .all ∧
      (({ above1 with combine := .any } : Filter).combine = .any ∧ above1.terms ≠ []) ∧
      (above1.source = some 7 ∧ (record 0 8 0).source ≠ 7) ∧ (record 0 7 0).source = 7 ∧
      above1.raised (record 0 7 0x7FC00000) ≠ ⟨false, false, false⟩ ∧
      above1.raised (record 0 7 0x40000000) = ⟨false, false, false⟩ := by decide +kernel

theorem test_meets_FilterTest_order :
    [(⟨0, .above, 0⟩ : Term), ⟨1, .below, 0⟩].Perm [⟨1, .below, 0⟩, ⟨0, .above, 0⟩] := .swap _ _ _

theorem test_filter :
    above1.test (record 0 8 0x40000000) = .mismatch ∧ above1.test (record 0 7 0x40000000) = .hit ⟨false, false, false⟩ ∧
      above1.test (record 0 7 0x3F800000) = .miss ⟨false, false, false⟩ ∧
      above1.test (record 0 7 0x7FC00000) = .stop ⟨true, false, false⟩ ∧
      above1.test (record 0 7 0x7FA00000) = .miss ⟨false, true, false⟩ := by decide +kernel

/-! ### The link -/

theorem test_meets_FrameReception :
    ready.LinkFree ∧ (2 ≤ ([0x01, 1] : List Byte).length ∧ ([0x01, 1] : List Byte).length ≤ 1022) ∧
      (0 : Half) ≠ crc16 (leBytes 2 2 ++ [0x01, 1]) := by decide +kernel

/-- A damaged frame comes into buffer 1, buffer 0 HELD, with the outbound queue and the waiting claims as given. -/
def damaged (queue : List Frame) (claims : List Claimant) : State :=
  ready.modLink fun l => { l with bufs := #v[⟨.held, [1, 1]⟩, ⟨.free, []⟩], queue := queue, claims := claims }

theorem test_meets_FrameReception_damaged :
    ((damaged [] []).link.rx = .hunt ∧ (damaged [] []).link.bufs[(1 : Fin 2)] = ⟨.free, []⟩ ∧
      (∀ k : Fin 2, k < 1 → (damaged [] []).link.bufs[k].state ≠ .free) ∧
      ∀ k : Fin 2, (damaged [] []).link.bufs[k].state ≠ .filling) ∧
    ((damaged [] []).noticePending .linkError = false ∧ 0 < (damaged [] []).freeSlots) ∧
    (let s := damaged (List.replicate 32 ⟨.response, 1, [], none⟩) []
     s.noticePending .linkError = false ∧ s.freeSlots = 0) ∧
    (damaged [] [.notice .linkError]).noticePending .linkError = true := by decide +kernel

theorem test_frame_damaged :
    let frame := ([0xA7, 2, 0, 1, 1, 0, 0] : List Byte).map fun b => (⟨b, false⟩ : LineByte)
    let t := after (.frameReceived frame) (damaged (List.replicate 32 ⟨.response, 1, [], none⟩) [])
    t.link.claims = [.notice .linkError] ∧ t.link.discards = 1 ∧ t.link.rx = .skip ∧
      sent (after (.frameReceived frame) (damaged [] [])) = [[0, 0xFF, 1, 0]] := by decide +kernel

/-- The receiver with buffer 0 FILLING. -/
def filling (rx : RxState) : State := ready.modLink fun l => { l with rx := rx, bufs := #v[⟨.filling, [2]⟩, ⟨.free, []⟩] }

/-- The receiver in SKIP. -/
def skipping : State := ready.modLink fun l => { l with rx := .skip }

theorem test_meets_OutsideFrame :
    ready.link.rx = .hunt ∧ (0xA6 : Byte) ≠ 0xA7 ∧ ready.link.bufs[(0 : Fin 2)].state = .free ∧
      (∀ k : Fin 2, k < 0 → ready.link.bufs[k].state ≠ .free) ∧ skipping.link.rx = .skip := by decide +kernel

/-- Buffer 1 where buffer 0 is not free: the other value of the clause. -/
theorem test_meets_OutsideFrame_second :
    let s := ready.modLink fun l => { l with bufs := #v[⟨.held, [1, 1]⟩, ⟨.free, []⟩] }
    s.link.bufs[(1 : Fin 2)].state = .free ∧ ∀ k : Fin 2, k < 1 → s.link.bufs[k].state ≠ .free := by decide +kernel

/-- Both buffers claimed, with the outbound queue and the waiting claims as given. -/
def claimed (queue : List Frame) (claims : List Claimant) : State :=
  ready.modLink fun l => { l with
    bufs := #v[⟨.held, [1, 1]⟩, ⟨.resetHeld, []⟩], queue := queue, claims := claims, discards := 7 }

theorem test_meets_OutsideFrame_claimed :
    (claimed [] []).link.rx = .hunt ∧
      (∀ j : Fin 2, (claimed [] []).link.bufs[j].state = .held ∨ (claimed [] []).link.bufs[j].state = .resetHeld) ∧
      ((claimed [] []).noticePending .linkError = false ∧ 0 < (claimed [] []).freeSlots) ∧
      (let s := claimed (List.replicate 32 ⟨.response, 1, [], none⟩) []
       s.noticePending .linkError = false ∧ s.freeSlots = 0) ∧
      (claimed [] [.notice .linkError]).noticePending .linkError = true := by decide +kernel

theorem test_start_byte_claimed : sent (after (.frameReceived [⟨0xA7, false⟩]) (claimed [] [])) = [[0, 0xFF, 8, 0]] ∧
    (after (.frameReceived [⟨0xA7, false⟩]) (claimed [] [])).link.rx = .skip := by decide +kernel

/-- An outbound queue with no free slot. -/
def full : State :=
  (filling .body).modLink fun l => { l with queue := List.replicate 32 ⟨.response, 1, [], none⟩, tx := some [0xA7] }

theorem test_meets_DiscardIsCounted :
    (filling .header).link.rx = .header ∧ (filling .header).link.bufs[(0 : Fin 2)].state = .filling ∧
      (∀ k : Fin 2, k ≠ 0 → (filling .header).link.bufs[k].state ≠ .filling) ∧
      ((filling .header).noticePending .linkError = false ∧ 0 < (filling .header).freeSlots) ∧
      (full.link.rx = .body ∧ full.link.bufs[(0 : Fin 2)].state = .filling ∧
        full.noticePending .linkError = false ∧ full.freeSlots = 0) ∧
      (let s := full.modLink fun l => { l with claims := [.notice .linkError], discards := 65535 }
       s.noticePending .linkError = true) := by decide +kernel

/-- The lengths just out of range (R172): 1 and 1,023. -/
theorem test_meets_DiscardIsCounted_length :
    (let s := (filling .header).modLink fun l => { l with bufs := #v[⟨.filling, [1]⟩, ⟨.free, []⟩] }
     s.link.bufs[(0 : Fin 2)].bytes = [1] ∧ (1 : Byte).toNat + 256 * (0 : Byte).toNat < 2 ∧
       sent (after (.frameReceived [⟨0, false⟩]) s) = [[0, 0xFF, 1, 0]]) ∧
    (let s := (filling .header).modLink fun l => { l with bufs := #v[⟨.filling, [0xFF]⟩, ⟨.free, []⟩] }
     s.link.bufs[(0 : Fin 2)].bytes = [0xFF] ∧ 1022 < (0xFF : Byte).toNat + 256 * (3 : Byte).toNat ∧
       (after (.frameReceived [⟨3, false⟩]) s).link.rx = .skip ∧
       (after (.frameReceived [⟨2, false⟩]) s).link.rx = .body) := by decide +kernel

theorem test_gap : sent (after .receiveGapTimeout (filling .check)) = [[0, 0xFF, 1, 0]] ∧
    (after .receiveGapTimeout full).link.claims = [.notice .linkError] := by decide +kernel
theorem test_framing_error : let t := after (.frameReceived [⟨0, true⟩]) full
    t.link.claims = [.notice .linkError] ∧ t.link.discards = 1 ∧ t.link.rx = .skip := by decide +kernel
theorem test_skipIdleTimeout : (after .skipIdleTimeout skipping).link.rx = .hunt := by decide +kernel
theorem test_byteReceivedInSkip : (after (.byteReceivedInSkip ⟨0xA7, false⟩) skipping).link.rx = .skip := by decide +kernel

/-- IDENTIFY byte by byte, and the end of the frame leaves it HELD with a slot (R172, R173, R179). -/
theorem test_frameReceived :
    (after (.frameReceived ((frameBytes [0x01, 5]).map fun b => ⟨b, false⟩)) ready).link.bufs = #v[⟨.held, [1, 5]⟩, ⟨.free, []⟩] := by
  decide +kernel

theorem test_meets_RequestRow :
    requestOf (.append 1 0 1 [record 41 7 0]) = some (1, .append 0 1 [record 41 7 0]) ∧
      (Instr.append 1 0 1 [record 41 7 0]).wellFormed = true ∧ (store series).LinkFree := by decide +kernel

/-- A HELD frame with its slot in the decoder's hand. -/
def held (body : List Byte) (s : State) : State :=
  s.modLink fun l => { l with bufs := #v[⟨.held, body⟩, ⟨.free, []⟩], heldOrder := [0], decoderSlot := true }

theorem test_meets_Decoder :
    ((held [0x06, 1] ready).link.heldOrder = [0] ∧ (held [0x06, 1] ready).link.bufs[(0 : Fin 2)] = ⟨.held, [0x06, 1]⟩ ∧
      (held [0x06, 1] ready).link.decoderSlot = true ∧ resetFrame [0x06, 1] = false ∧ Kind.ofCode 0x06 = none) ∧
    (Kind.ofCode 0x01 = some .identify ∧ Kind.identify.lengthOk 1 = false ∧ resetFrame [0x01, 1, 0] = false) ∧
    (Kind.identify.lengthOk 0 = true ∧ (∃ e ∈ (holding 1 .append ready).table, e.tag = 1) ∧
      resetFrame [0x01, 0] = false) ∧
    (let s := ready.setTable ((List.range 16).map fun n => .admitted (BitVec.ofNat 8 (n + 1)) .append)
     (∀ e ∈ s.table, e.tag ≠ 17) ∧ 16 ≤ s.table.length) ∧
    ready.link.heldOrder = [] ∧
    (let s := (held [0x01, 1] ready).modLink fun l => { l with decoderSlot := false }
     s.link.heldOrder = 0 :: [] ∧ s.link.decoderSlot = false ∧ resetFrame s.link.bufs[(0 : Fin 2)].bytes = false) ∧
    ((held [0x01, 1] ready).link.heldOrder = [0] ∧ (held [0x01, 1] ready).link.decoderSlot = true ∧
      (held [0x01, 1] ready).link.bufs[(0 : Fin 2)] = ⟨.held, [0x01, 1]⟩ ∧ (∀ e ∈ (held [0x01, 1] ready).table, e.tag ≠ 1) ∧
      (held [0x01, 1] ready).table.length < 16) := by decide +kernel

/-- Codes 0x06 and 0x05 at tag 0: UNKNOWN_KIND, and a RESET under tag 0 is BAD_VALUE (R179). -/
theorem test_decodeFrame : sent (after .decodeFrame (held [0x06, 9] ready)) = [[0x06, 1, 9]] ∧
    sent (after .decodeFrame (held [0x01, 0] ready)) = [[0x01, 3, 0]] := by decide +kernel

/-- One frame queued, and on LTX or not. -/
def sending (tx : Option (List Byte)) : State :=
  ready.modLink fun l => { l with queue := [⟨.response, 1, [3, 0, 4], some 4⟩], tx := tx }

theorem test_meets_Transmitter :
    ((sending none).link.tx = none ∧ (sending none).link.queue = ⟨.response, 1, [3, 0, 4], some 4⟩ :: []) ∧
    (ready.link.tx ≠ none ∨ ready.link.queue = []) ∧ (sending (some [])).link.tx ≠ none ∧
    ((sending (some [])).link.tx = some [] ∧ (sending (some [])).link.claims = [] ∧ (sending (some [])).link.rx = .hunt) ∧
    (full.link.tx = some [0xA7] ∧ full.link.queue = ⟨.response, 1, [], none⟩ :: List.replicate 31 ⟨.response, 1, [], none⟩ ∧
      full.link.decoderSlot = false ∧ full.queued + full.reserved = 32) ∧
    (full.modLink fun l => { l with claims := [.decoder] }).link.claims = .decoder :: [] ∧
    (full.modLink fun l => { l with claims := [.notice .linkError] }).link.claims = .notice .linkError :: [] := by
  decide +kernel

/-- Records that STOP no scan of a range of numbers without a hit limit. -/
theorem goesOn {c : Ctx} {rs : List Record} (hr : c.range = .sequence 0 none) (hl : c.hitLimit = none)
    (h : (rs.all fun r => match c.filter.test r with | .stop _ => false | _ => true) = true) : c.GoesOn rs := by
  refine ⟨fun r hm => ⟨fun _ _ h2 => ?_, fun u hu => ?_⟩, fun n hn => ?_⟩
  · rw [hr] at h2; cases h2
  · have := List.all_eq_true.mp h r hm
    rw [hu] at this; cases this
  · rw [hl] at hn; cases hn

/-- The row buffer of numbers `first` to `last`, filled; every record a HIT of the filter with no term. -/
def rowOf (first last : Nat) : RowBuf := ⟨first, last, true, 0, List.replicate (last + 1 - first) (record 10 7 0)⟩

/-- An outbound queue that just sent its first frame, with the claim of the scan in context 1. -/
def flushing (c : Ctx) : State :=
  ((holding 9 .scan (store series)).modLink fun l => { l with
    queue := List.replicate 31 ⟨.response, 1, [], none⟩, tx := some [0xA7], claims := [.scan 1] }).setCtx 1 (some c)

/-- A PAUSED context with 24 hits: its cursor, its buffers, its range up to `high` and its read point. -/
def pausedCtx (cursor : Nat) (buf0 buf1 : Option RowBuf) (high readPoint : Nat) : Ctx :=
  { Ctx.taken 9 0 (.sequence 0 none) ⟨none, [], .all, false, false, false⟩ .list 0 with
    state := .paused, high := high, resolved := true, cursor := cursor, readPoint := readPoint
    hits := List.replicate 24 ⟨0, record 10 7 0⟩, buf0 := buf0, buf1 := buf1 }

/-- PAUSED in its last row, after the record 23. -/
def lastRow : Ctx := pausedCtx 24 (some (rowOf 0 30)) none 30 31

theorem test_meets_Transmitter_scan :
    ((flushing lastRow).link.tx = some [0xA7] ∧
      (flushing lastRow).link.queue = ⟨.response, 1, [], none⟩ :: List.replicate 30 ⟨.response, 1, [], none⟩ ∧
      (flushing lastRow).link.decoderSlot = false ∧ (flushing lastRow).queued + (flushing lastRow).reserved = 32 ∧
      (flushing lastRow).link.claims = .scan 1 :: [] ∧ (flushing lastRow).ctx 1 = some lastRow ∧ lastRow.hits ≠ []) ∧
    (let s := queueing [txn (.scanRow 1 true) .read [] true] (flushing { lastRow with state := .draining })
     ∃ x ∈ s.arr.queue, x.issued = true ∧ x.origin.ofCtx 1 = true) ∧
    (let s := flushing { lastRow with state := .draining }
     (∀ x ∈ s.arr.queue, x.origin.ofCtx 1 = true → x.issued = false) ∧ (s.entry 0).state ≠ .dropping ∧
       (s.table.filter fun e => e.tag != 9).length + 1 = s.table.length) := by decide +kernel

/-- A context PAUSED in its last row, with records left and with none: it goes on to the end of its range. -/
theorem test_meets_Transmitter_lastRow (cursor : Nat) (h : cursor = 24 ∨ cursor = 31) :
    let c := { lastRow with cursor := cursor }
    let unread := (rowOf 0 30).records.drop (c.cursor - (0 + 0))
    let c1 : Ctx := { c with state := .running, hits := [] }
    (c.state = .paused ∧ c.buf false = some (rowOf 0 30) ∧ c.buf true = none ∧ c.high < c.readPoint ∧
      (rowOf 0 30).filled = true ∧ 0 + 0 ≤ c.cursor ∧ (unread.filter (isHit c.filter)).length < 24 ∧
      (c1.listed c.cursor unread).length = 31 - cursor) ∧ c1.GoesOn unread ∧
    (∀ x ∈ (flushing c).arr.queue ++ (flushing c).arr.waiting, x.origin.ofCtx 1 = false) := by
  rcases h with rfl | rfl <;>
    exact ⟨by decide +kernel, goesOn (by decide +kernel) (by decide +kernel) (by decide +kernel), by decide +kernel⟩

/-- A context PAUSED before another row: that row filled, still waited for, and with a number left to read; with 23 hits and
one more in its own row; and one that waits for its own row. -/
theorem test_meets_Transmitter_rows :
    (let c := pausedCtx 24 (some (rowOf 0 30)) (some (rowOf 31 40)) 40 41
     let unread := (rowOf 0 30).records.drop 24
     c.buf true = some (rowOf 31 40) ∧ 30 < 31 ∧ c.high < c.readPoint ∧
       ((unread ++ (rowOf 31 40).records).filter (isHit c.filter)).length < 24) ∧
    (({ lastRow with state := .running, hits := [] } : Ctx).tested 24 (List.replicate 7 (record 10 7 0))).GoesOn
      (rowOf 31 40).records ∧
    (let waits : RowBuf := ⟨31, 40, false, 0, []⟩
     let c := pausedCtx 24 (some (rowOf 0 30)) (some waits) 40 41
     c.buf true = some waits ∧ c.high < c.readPoint ∧ waits.filled = false ∧
     (let c := pausedCtx 24 (some (rowOf 0 30)) (some waits) 50 41
      waits.first < c.readPoint ∧ c.readPoint ≤ c.high ∧ ((flushing c).entry 0).oldest ≤ c.readPoint ∧
        (flushing c).arr.queue.length < 32)) ∧
    ((rowOf 0 63).records.drop 24 =
        List.replicate 23 (record 10 7 0) ++ record 10 7 0 :: List.replicate 16 (record 10 7 0) ∧
      lastRow.filter.test (record 10 7 0) = .hit ⟨false, false, false⟩ ∧ lastRow.mode = .list ∧
      ((List.replicate 23 (record 10 7 0)).filter (isHit lastRow.filter)).length = 23) ∧
    ({ lastRow with state := .running, hits := [] } : Ctx).GoesOn
      (List.replicate 23 (record 10 7 0) ++ [record 10 7 0]) ∧
    (let c := pausedCtx 24 (some ⟨24, 30, false, 0, []⟩) (some ⟨31, 40, false, 0, []⟩) 40 41
     c.buf false = some ⟨24, 30, false, 0, []⟩ ∧ c.buf true = some ⟨31, 40, false, 0, []⟩ ∧ 24 ≤ c.cursor) := by
  refine ⟨by decide +kernel, goesOn (by decide +kernel) (by decide +kernel) (by decide +kernel), by decide +kernel,
    by decide +kernel, goesOn (by decide +kernel) (by decide +kernel) (by decide +kernel), by decide +kernel⟩

/-- The rest of the row of a PAUSED context gives seven hits: DRAINING with its claim. With no record left it answers. -/
theorem test_paused_runs_on :
    (let t := after .frameSent (flushing lastRow)
     (t.ctx 1).map (fun c => (c.state, c.hits.length, c.hitCount, c.cursor)) = some (.draining, 7, 7, 31) ∧
       t.link.claims = [.scan 1]) ∧
    (let t := after .frameSent (flushing { lastRow with cursor := 31 })
     t.ctx 1 = none ∧ t.link.queue.length = 32 ∧ t.link.claims = []) := by decide +kernel

theorem test_transmitFrameStart :
    (after (.transmitFrameStart false) (sending none)).link.tx = some (frameBytes [0x80, 1, 3, 0, 4]) ∧
      (after (.transmitFrameStart true) (sending none)).link.tx = none := by decide +kernel
theorem test_frameSent : (after .frameSent (sending (some []))).link.rate = 4 ∧
    (after .frameSent (sending (some []))).link.queue = [] := by decide +kernel

/-! ### Requests of the link -/

theorem test_meets_IdentifyAndSetLink :
    ready.Admits 1 ∧ ready.Admits 255 ∧ (0x04 : Byte).toNat = (4 : Fin 5).val ∧ 5 ≤ (0x05 : Byte).toNat := by decide +kernel

theorem test_identify : sent (after (.identify 1) ready) =
    [[0x01, 0, 0x3D, 0x0B, 0x60, 0x02, 1, 1, 32, 16, 32, 4, 32, 2, 8, 64, 0]] := by decide +kernel
theorem test_setLink : sent (after (.setLink 1 5) ready) = [[0x03, 3, 0xFF]] ∧
    (after (.setLink 1 4) ready).link.queue = [⟨.response, 1, [0x03, 0, 4], some 4⟩] := by decide +kernel

/-- A scan at work in context 3 with the tag 9. -/
def scanCtx : Ctx :=
  { Ctx.taken 9 0 (.sequence 0 none) above1 .count 0 with
    state := .running, low := 0, high := 3, resolved := true, cursor := 0, readPoint := 4
    buf0 := some ⟨0, 3, false, 0, []⟩ }

/-- The store with that scan, its read ISSUED. -/
def scanning : State :=
  (holding 9 .scan (queueing [txn (.scanRow 3 false) .read
    [record 10 7 0x40000000, record 20 8 0, record 30 7 0x40000000, record 40 7 0] true] (store series))).setCtx 3
    (some scanCtx)

theorem test_meets_Status :
    ready.Admits 1 ∧ ((ready.dieMon 0).temp = some 25 ∧ (ready.dieMon 0).base = some ⟨25, 1200⟩) ∧
      ((State.reset.dieMon 1).temp = none ∧ (State.reset.dieMon 1).base = none) ∧
      (scanning.Admits 1 ∧ scanning.ctx 3 = some scanCtx ∧ scanning.ctx 0 = none) ∧ ready.port.op = none := by
  decide +kernel

theorem test_status : ((sent (after (.status 1) scanning)).map List.length) = [145] := by decide +kernel

/-- A PRESERVE at work, at its first page, with the tag 8. -/
def preserveOp : ImageOp :=
  { ImageOp.start .preserve 8 2 0 with
    phase := .pageRead, snapOldest := 0, snapHead := 4, snapStamp := 40, generation := 1, page := 1 }

/-- The store with that PRESERVE. -/
def preserving : State := (holding 8 .preserve (store series)).modPort fun p => { p with op := some preserveOp }

/-- A RECOVER at its data pages, with the tag 8, into a RECOVERING entry. -/
def recoverOp : ImageOp :=
  { ImageOp.start .recover 8 2 0 with
    phase := .pageRead, snapOldest := 0, snapHead := 4, page := 1, lastStamp := 40
    header := some ⟨1, 1, 0, 2, 0, 0, 1, 0, 4, 10, 40, 4, 2⟩ }

/-- The store with that RECOVER. -/
def recovering : State :=
  (holding 8 .recover (store { series with state := .recovering })).modPort fun p => { p with op := some recoverOp }

/-- A fetch with its read ISSUED, and a PRESERVE with a port access under way. -/
def fetchIssued : State := queueing [txn (.fetch 6 false) .read [] true] (holding 6 .fetch ready)
def accessing : State :=
  preserving.modPort fun p => { p with transfer := some ⟨.read, 0, 0, [], 0, false, true⟩ }

theorem test_meets_Status_op : preserving.port.op = some preserveOp ∧ preserving.Admits 1 := by decide +kernel

/-- The same scan, already on its way out. -/
def draining : State := scanning.setCtx 3 (some { scanCtx with state := .draining })

theorem test_meets_Cancel :
    ready.Admits 1 ∧ ((5 : Byte) ≠ 1 ∧ ∀ e ∈ ready.table, e.tag ≠ 5) ∧
      ((holding 5 .append ready).Admits 1 ∧ (holding 5 .append ready).entryOf 5 = some (.admitted 5 .append)) ∧
      (scanning.Admits 1 ∧ scanning.entryOf 9 = some (.admitted 9 .scan) ∧ scanning.ctxOf 9 = some 3 ∧
        scanning.ctx 3 = some scanCtx ∧ scanCtx.state ≠ .draining) ∧
      (draining.Admits 1 ∧ draining.ctxOf 9 = some 3 ∧ draining.ctx 3 = some { scanCtx with state := .draining }) := by
  decide +kernel

theorem test_meets_Cancel_image :
    (preserving.Admits 1 ∧ preserving.entryOf 8 = some (.admitted 8 .preserve) ∧
        preserving.port.op = some preserveOp ∧ preserveOp.result = none ∧ preserveOp.abandoned = false) ∧
      (recovering.Admits 1 ∧ recovering.entryOf 8 = some (.admitted 8 .recover) ∧
        recovering.port.op = some recoverOp ∧ recoverOp.kind = .recover ∧ recoverOp.phase = .pageRead) := by decide +kernel

/-- The scan of `scanning` with hits, its read ISSUED or not, and the free slots as the queue leaves them. -/
def hitting (issued : Bool) (queue : List Frame) : State :=
  (queueing [txn (.scanRow 3 false) .read [] issued] (holding 9 .scan (store series))).setCtx 3
    (some { scanCtx with hits := [⟨0, record 10 7 0⟩] }) |>.modLink fun l => { l with queue := queue }

theorem test_meets_Cancel_scan :
    ((hitting true []).Admits 1 ∧ (hitting true []).ctxOf 9 = some 3 ∧ ((hitting true []).entry 0).state ≠ .dropping ∧
      Claimant.scan 3 ∉ (hitting true []).link.claims ∧ 2 ≤ (hitting true []).freeSlots ∧
      (∃ x ∈ (hitting true []).arr.queue, x.issued = true ∧ x.origin.ofCtx 3 = true)) ∧
    ((hitting false []).Admits 1 ∧
      ¬ ∃ x ∈ (hitting false []).arr.queue, x.issued = true ∧ x.origin.ofCtx 3 = true) ∧
    (let s := hitting false (List.replicate 30 ⟨.response, 1, [], none⟩)
     s.Admits 1 ∧ ¬ 2 ≤ s.freeSlots) := by decide +kernel

theorem test_cancel_scan :
    (sent (after (.cancel 1 9) (hitting false []))).map List.length = [2, 33 + 4, 45] ∧
      ((after (.cancel 1 9) (hitting true [])).ctx 3).map (fun c => (c.state, c.hits)) = some (.draining, []) ∧
      (after (.cancel 1 9) (hitting false (List.replicate 30 ⟨.response, 1, [], none⟩))).link.claims = [.scan 3] := by
  decide +kernel

theorem test_meets_Cancel_image_busy :
    (accessing.Admits 1 ∧ accessing.entryOf 8 = some (.admitted 8 .preserve) ∧ accessing.port.op = some preserveOp ∧
      accessing.port.accessing = true ∧ (accessing.entry 0).state ≠ .dropping) ∧
    (recovering.port.accessing = false ∧ ¬ ∃ x ∈ recovering.arr.queue, x.issued = true ∧ x.origin.ofImage = true) ∧
    sent (after (.cancel 1 8) accessing) = [[0x04, 0]] := by decide +kernel

/-- The PRESERVE of `accessing` as it is ENDING. -/
def endingOp : ImageOp := { preserveOp with phase := .ending, result := some .portTimeout }
def endingAt (transfer : Option Transfer) (s : State) : State :=
  (holding 8 .preserve s).modPort fun p => { p with op := some endingOp, transfer := transfer }

theorem test_meets_Cancel_ending :
    (endingAt none ready).Admits 1 ∧ (endingAt none ready).entryOf 8 = some (.admitted 8 .preserve) ∧
      (endingAt none ready).port.op = some endingOp ∧ endingOp.result ≠ none ∧ endingOp.phase = .ending := by
  decide +kernel

theorem test_cancel : sent (after (.cancel 1 5) ready) = [[0x04, 25]] ∧ sent (after (.cancel 1 1) ready) = [[0x04, 24]] ∧
    (sent (after (.cancel 1 9) scanning)).head? = some [0x04, 0] ∧
    (after (.cancel 1 8) recovering).entry 0 = { series with state := .lost } := by decide +kernel

theorem test_meets_ResetRequest :
    (preserving.LinkFree ∧ (1 : Byte) ≠ 0 ∧ preserving.link.tx = none ∧ preserving.link.claims = [] ∧
      preserving.link.reset = none ∧ preserving.requestWorkIssued = false ∧ preserving.port.accessing = false) ∧
    ((preserving.entry 0).state = .opened ∧ (preserving.entry 1).state = .free ∧
      ((store { series with state := .dropping }).entry 0).state = .dropping ∧ (recovering.entry 0).state = .recovering) ∧
    ∃ t, exec (.reset 1) preserving = .next t := ⟨by decide +kernel, by decide +kernel, _, rfl⟩

/-- A complete batch, then one that is not: the first commits, the second is discarded (R24). -/
theorem test_reset_request :
    let s := store { series with
      reserved := 7, lastReserved := 70, batches := [⟨3, 4, 2, 1, 1, 60, 0⟩, ⟨4, 6, 1, 1, 0, 70, 0⟩] }
    (after (.reset 1) s).entry 0 = { series with
      committed := 6, reserved := 6, lastCommitted := 60, lastReserved := 60 } ∧
    sent (after (.reset 1) s) = [[0x05, 0, 0, 0]] := by decide +kernel

/-- A dead fetch read is all that a RESET waits for; with a second one, or a port access, it waits on. -/
def resetting (more : List Txn) : State :=
  (queueing ({ txn (.fetch 6 false) .read [] true with live := false } :: more) ready).modLink fun l =>
    { l with reset := some ⟨1, 2, 3⟩, bufs := Vector.replicate 2 ⟨.resetHeld, []⟩ }

theorem test_meets_ResetRequest_waits :
    (fetchIssued.LinkFree ∧ (1 : Byte) ≠ 0 ∧ fetchIssued.link.claims = [] ∧ fetchIssued.link.reset = none ∧
      fetchIssued.requestWorkIssued = true ∧ fetchIssued.port.accessing = false) ∧
    (accessing.LinkFree ∧ accessing.link.claims = [] ∧ accessing.port.accessing = true) ∧
    ((resetting []).link.reset = some ⟨1, 2, 3⟩ ∧
      (resetting []).issuedAt 0 0 = some { txn (.fetch 6 false) .read [] true with live := false } ∧
      (resetting []).arr.waiting = [] ∧
      ((resetting []).arr.queue.filter fun y => y.issued && y.origin != .statusRead) =
        [{ txn (.fetch 6 false) .read [] true with live := false }] ∧ (resetting []).port.accessing = false) ∧
    (let other := { txn (.batch 0 3) .write [] true with die := 1, live := false }
     2 ≤ ((resetting [other]).arr.queue.filter fun y => y.issued && y.origin != .statusRead).length) := by
  decide +kernel

theorem test_reset_waits :
    (after (.reset 1) fetchIssued).rdy = false ∧ (after (.reset 1) fetchIssued).link.queue = [] ∧
      sent (after (.fetchReadComplete 0 0) (resetting [])) = [[0x05, 0, 2, 3]] ∧
      (after (.fetchReadComplete 0 0) (resetting [])).rdy = true := by decide +kernel

/-- A LINK_ERROR that waits when RESET discards a frame leaves once, with the raised count (R174, R178). -/
theorem test_reset_one_notice :
    let s := ready.modLink fun l => { l with
      queue := List.replicate 32 ⟨.response, 1, [], none⟩, tx := some [], claims := [.notice .linkError], discards := 5
      bufs := #v[⟨.filling, [2]⟩, ⟨.held, [0x05, 1]⟩], rx := .body, heldOrder := [1] }
    let t := after .decodeFrame s
    (sent t).drop 1 = [[0, 0xFF, 6, 0], [0x05, 0, 0, 31]] ∧ t.link.claims = [] ∧ t.link.discards = 0 := by
  decide +kernel

/-! ### Requests of the store unit -/

theorem test_meets_Create_stripes :
    ∀ stripe, 32767 ≤ stripe → stripe < 32768 → (ready.die (stripeDie stripe)).usable = true := by
  intro stripe h h'
  obtain rfl : stripe = 32767 := by omega
  decide +kernel

theorem test_meets_Create :
    (ready.Admits 1 ∧ (31 : Byte).toNat = (31 : Fin 32).val ∧ (1 ≤ (1 : Half).toNat ∧ (4096 : Half).toNat ≤ 4096) ∧
      (1 ≤ (1 : Byte).toNat ∧ (6 : Byte).toNat ≤ 6) ∧ (ready.entry 31).state = .free) ∧ ready.port.op = none ∧
    (32767 : Half).toNat + (1 : Half).toNat ≤ 32768 ∧
    (∀ j, (ready.entry j).state = .free) ∧
    (State.reset.Admits 1 ∧ ∀ d : Fin 2, (State.reset.die d).usable = false) ∧
    (∃ d : Fin 2, (ready.die d).usable = true) ∧
    ((32 : Byte).toNat = 32 ∧ (0 : Half).toNat = 0 ∧ 4096 < (4097 : Half).toNat ∧ 6 < (7 : Byte).toNat ∧
      2 ≤ (2 : Byte).toNat) ∧
    ((store series).Admits 1 ∧ ((store series).entry 0).state ≠ .free) ∧
    (preserving.port.recovering 1 = false ∧ recovering.port.recovering 0 = true) ∧
    32768 < (32767 : Half).toNat + (2 : Half).toNat := by decide +kernel

/-- Die 1 MISSING: a range that crosses into it has no memory, one below it overlaps the series on stripe 0. -/
def oneDie : State := (store series).setDie 1 { Die.reset0 with state := .missing }

theorem test_meets_Create_last :
    oneDie.Admits 1 ∧ (∃ d : Fin 2, (oneDie.die d).usable = true) ∧ (oneDie.die (stripeDie 16384)).usable = false ∧
      (oneDie.die (stripeDie 0)).usable = true ∧
      (oneDie.entry 0).state ≠ .free ∧ (0 ≤ 0 ∧ 0 < 0 + (1 : Half).toNat ∧ (oneDie.entry 0).base ≤ 0 ∧
        0 < (oneDie.entry 0).base + (oneDie.entry 0).count) := by decide +kernel

theorem test_create : sent (after (.create 1 3 32767 1 6 1) ready) = [[0x10, 0, 3, 0, 2, 0, 0]] ∧
    sent (after (.create 1 3 16383 2 6 1) oneDie) = [[0x10, 13]] ∧
    sent (after (.create 1 3 0 1 6 1) oneDie) = [[0x10, 12, 0]] := by decide +kernel

theorem test_meets_DescribeAndSeal :
    (store series).Admits 1 ∧ 32 ≤ (32 : Byte).toNat ∧ ((store series).entry 0).state = .opened ∧
      ((store series).entry 31).state = .free ∧ ((store { series with state := .sealed }).entry 0).state = .sealed ∧
      ((store { series with state := .lost }).entry 0).state = .lost ∧
      ((store { series with state := .recovering }).entry 0).state = .recovering ∧
      ((store { series with state := .dropping }).entry 0).state = .dropping := by decide +kernel

theorem test_describe : ((sent (after (.describe 1 0) (store series))).map List.length) = [49] := by decide +kernel
theorem test_seal : sent (after (.seal 1 0) (store series)) = [[0x11, 0, 0, 4, 0, 0, 0, 0]] ∧
    ((after (.seal 1 0) (store series)).entry 0).state = .sealed := by decide +kernel

/-- The store with a batch that has no write complete. -/
def batching : State :=
  queueing [txn (.batch 0 3) .write [record 50 7 0] true] (holding 3 .append
    (store { series with reserved := 5, lastReserved := 50, batches := [⟨3, 4, 1, 1, 0, 50, 0⟩] }))

theorem test_meets_Drop :
    ((store series).Admits 1 ∧ ((store series).entry 0).state = .opened ∧ (store series).inFlight 0 = false) ∧
      ((store { series with state := .lost }).entry 0).state = .lost ∧
      (batching.Admits 1 ∧ (batching.entry 0).state = .opened ∧ batching.inFlight 0 = true ∧
        (∀ b ∈ (batching.entry 0).batches, b.done < b.writes) ∧ (∀ k : Fin 4, batching.ctx k = none) ∧
        batching.port.preserving 0 = false) := by decide +kernel

/-- Two complete batches behind one that is not: the later admitted became complete first. -/
def finished : State :=
  store { series with
    reserved := 7, lastReserved := 70
    batches := [⟨3, 4, 1, 1, 0, 50, 0⟩, ⟨4, 5, 1, 1, 1, 60, 2⟩, ⟨5, 6, 1, 1, 1, 70, 1⟩] }

theorem test_meets_Drop_complete :
    (finished.Admits 1 ∧ (finished.entry 0).state = .opened ∧
      (∃ b ∈ (finished.entry 0).batches, b.done < b.writes) ∧ (∀ k : Fin 4, finished.ctx k = none) ∧
      finished.port.preserving 0 = false) ∧
    (let complete : List Batch := [⟨5, 6, 1, 1, 1, 70, 1⟩, ⟨4, 5, 1, 1, 1, 60, 2⟩]
     complete.Pairwise (fun x y => x.finish < y.finish) ∧
       ((finished.entry 0).batches.filter fun b => b.writes ≤ b.done) = complete.reverse) := by decide +kernel

theorem test_meets_Drop_perm :
    [(⟨5, 6, 1, 1, 1, 70, 1⟩ : Batch), ⟨4, 5, 1, 1, 1, 60, 2⟩].Perm [⟨4, 5, 1, 1, 1, 60, 2⟩, ⟨5, 6, 1, 1, 1, 70, 1⟩] :=
  .swap _ _ _

/-- They answer in the order in which they became complete (R41). -/
theorem test_drop_complete : (after (.drop 1 0) finished).link.queue.map Frame.tag = [5, 4] ∧
    sent (after (.drop 1 0) finished) = [[0x14, 23], [0x14, 23]] := by decide +kernel

/-- Work that a DROP tells: a batch is left, a scan that is not DRAINING, a PRESERVE. -/
theorem test_meets_Drop_work :
    ((finished.entry 0).batches.filter fun b => b.done < b.writes) ≠ [] ∧
    ((hitting true []).Admits 1 ∧ ((hitting true []).entry 0).state = .opened ∧ ((hitting true []).entry 0).batches = [] ∧
      (hitting true []).ctx 3 = some { scanCtx with hits := [⟨0, record 10 7 0⟩] } ∧
      (scanCtx.series = 0 ∧ scanCtx.state ≠ .draining ∧ scanCtx.endReason ≠ some .lost) ∧
      (∀ j : Fin 4, j ≠ 3 → (hitting true []).ctx j = none) ∧ (hitting true []).port.preserving 0 = false ∧
      (hitting true []).arr.waiting = [] ∧ (hitting true []).drops = [] ∧ (hitting true []).fetches = []) ∧
    (Claimant.scan 3 ∉ (hitting true []).link.claims ∧ ([] : List Frame).length + 2 < 32 ∧
      ∃ x ∈ (hitting true []).arr.queue, x.issued = true ∧ x.origin.ofCtx 3 = true) ∧
    (¬ ∃ x ∈ (hitting false []).arr.queue, x.issued = true ∧ x.origin.ofCtx 3 = true) ∧
    (let s := hitting false (List.replicate 30 ⟨.response, 1, [], none⟩)
     s.Admits 1 ∧ ¬ s.link.queue.length + (s.table.length + 1) < 32) ∧
    ((preserving.entry 0).state = .opened ∧ preserving.port.op = some preserveOp ∧ preserveOp.series = 0 ∧
      preserveOp.kind = .preserve ∧ preserveOp.result = none ∧ preserveOp.abandoned = false ∧
      (∀ k : Fin 4, preserving.ctx k = none) ∧ preserving.arr.waiting = [] ∧ preserving.port.accessing = false) ∧
    accessing.port.accessing = true := by decide +kernel

/-- A DROP ends the scan, which answers and lets it answer, or drains; and the PRESERVE (R43, R80, R161). -/
theorem test_drop_work :
    (sent (after (.drop 1 0) (hitting false []))).map List.length = [33 + 4, 45, 3] ∧
      ((after (.drop 1 0) (hitting false [])).entry 0).state = .free ∧
      ((after (.drop 1 0) (hitting true [])).ctx 3).map (fun c => (c.state, c.endReason)) =
        some (.draining, some .seriesGone) ∧
      (after (.drop 1 0) (hitting false (List.replicate 30 ⟨.response, 1, [], none⟩))).link.claims = [.scan 3] ∧
      (sent (after (.drop 1 0) preserving)).map (fun p => p.take 2) = [[0x41, 23], [0x12, 0]] ∧
      (after (.drop 1 0) accessing).port.op.map ImageOp.result = some (some .seriesGone) ∧
      ((after (.drop 1 0) accessing).entry 0).state = .dropping := by decide +kernel

theorem test_drop : sent (after (.drop 1 0) (store series)) = [[0x12, 0, 0]] ∧
    ((after (.drop 1 0) batching).entry 0).state = .dropping := by decide +kernel

/-- Thirty records with rising stamps. -/
def thirty : List Record := (List.range 30).map fun n => record (BitVec.ofNat 48 (41 + n)) 7 0

theorem test_meets_Append :
    ((store series).Admits 1 ∧ ((store series).entry 0).state = .opened ∧ (store series).rangeUsable 0 1 = true ∧
      (1 ≤ thirty.length ∧ thirty.length ≤ 30 ∧ (30 : Byte).toNat = thirty.length) ∧
      (series.lastReserved :: thirty.map Record.stamp).Pairwise (fun x y => x.toNat ≤ y.toNat) ∧
      series.reserved + thirty.length ≤ 4294967295 ∧ (store series).arr.queue.length + 2 ≤ 32) ∧
    (let e := { series with policy := .halt, reserved := 482, committed := 482 }
     e.policy = .halt ∧ e.reserved + thirty.length - e.oldest ≤ 512 * e.count) ∧
    (let e := { series with policy := .halt, reserved := 483, committed := 483 }
     512 * e.count < e.reserved + 30 - e.oldest) ∧
    ((dies { Die.reset0 with state := .off } (store series)).rangeUsable 0 1 = false) ∧
    ((31 : Byte).toNat > 30 ∧ (0 : Byte).toNat = 0 ∧ thirty.length ≠ (29 : Byte).toNat) ∧
    (thirty ++ [record 1 0 0] = thirty ++ record 1 0 0 :: [] ∧
      (record 1 0 0).stamp.toNat < ((thirty.getLast?.map Record.stamp).getD 0).toNat) ∧
    4294967295 < ({ series with reserved := 4294967295 } : Entry).reserved + (1 : Byte).toNat := by decide +kernel

theorem test_append : let t := after (.append 1 0 30 thirty) (store { series with reserved := 60, committed := 60 })
    t.arr.queue.map Txn.place = [some ⟨0, 0, 60, 4⟩, some ⟨1, 0, 0, 26⟩] ∧ (t.entry 0).reserved = 90 := by decide +kernel
theorem test_append_order : sent (after (.append 1 0 2 [record 41 0 0, record 39 0 0]) (store series)) =
    [[0x14, 17, 1, 40, 0, 0, 0, 0, 0]] := by decide +kernel

theorem test_meets_AppendKeepsCounters :
    (1 ≤ ((store series).entry 0).count ∧ (∀ b ∈ ((store series).entry 0).batches, b.count ≤ 30) ∧
      ((store series).entry 0).batches.length ≤ 15 ∧ ((store series).entry 0).CountersOk) ∧
    ∃ t, exec (.append 1 0 30 thirty) (store series) = .next t := ⟨by decide +kernel, _, rfl⟩

/-- A step with and without room in the request table, and a RECOVER's write on its way. -/
theorem test_meets_AppendKeepsCounters_step :
    ((∃ t, step sealing = .next t) ∧ sealing.CountersKept ∧ sealing.RecoverTargets ∧ sealing.LeadsOk) ∧
    (sealing.setTable (List.replicate 16 (.admitted 9 .append))).LeadsOk ∧
    (recovering.CountersKept ∧ (queueing [txn .recoverWrite .write [record 10 7 0] true] recovering).RecoverTargets) := by
  refine ⟨⟨⟨_, rfl⟩, by decide +kernel, (fun op h => by cases h), .inr (by decide +kernel)⟩, .inl (by decide +kernel),
    by decide +kernel, fun op h _ => ?_⟩
  obtain rfl : recoverOp = op := Option.some.inj h
  decide +kernel

/-- The store with a FETCH of the four records whose read is ISSUED. -/
def fetching (e : Entry) : State :=
  (queueing [txn (.fetch 6 false) .read [record 10 7 1, record 20 7 2, record 30 7 3, record 40 7 4] true]
    (holding 6 .fetch (store e))).setFetches [⟨6, 0, 0, 4, 1, 0, [], []⟩]

theorem test_meets_Fetch :
    ((store series).Admits 1 ∧ (store series).rangeUsable 0 1 = true ∧ (0 : Byte).toNat = 0 ∧ 30 < (31 : Byte).toNat ∧
      (({ series with oldest := 1 } : Entry).oldest > (0 : BitVec 32).toNat ∧ series.committed < 3 + (2 : Byte).toNat) ∧
      (series.oldest ≤ (0 : BitVec 32).toNat ∧ (0 : BitVec 32).toNat + (4 : Byte).toNat ≤ series.committed ∧
        (store series).arr.queue.length + 2 ≤ 32)) ∧
    ((fetching series).link.reset = none ∧
      (fetching series).issuedAt 0 0 =
        some (txn (.fetch 6 false) .read [record 10 7 1, record 20 7 2, record 30 7 3, record 40 7 4] true) ∧
      (fetching series).fetches = [⟨6, 0, 0, 4, 1, 0, [], []⟩] ∧ ((fetching series).entry 0).state ≠ .dropping) ∧
    (0 + 1 < (⟨6, 0, 0, 4, 2, 0, [], []⟩ : Fetch).reads ∧ 0 + 1 = (⟨6, 0, 0, 4, 1, 0, [], []⟩ : Fetch).reads) ∧
    (let e := { series with state := .dropping, batches := [⟨3, 4, 1, 1, 0, 50, 0⟩] }
     ((fetching e).entry 0).state = .dropping ∧ ((fetching e).entry 0).batches ≠ []) := by decide +kernel

theorem test_fetch : sent (after (.fetch 1 0 3 2) (store series)) = [[0x15, 19, 0, 0, 0, 0, 4, 0, 0, 0]] ∧
    (after (.fetch 1 0 0 4) (store series)).arr.queue.length = 1 := by decide +kernel
theorem test_fetchReadComplete :
    sent (after (.fetchReadComplete 0 0) (fetching { series with oldest := 3 })) =
      [[0x15, 20, 0, 3, 0, 0, 0, 1] ++ recordBytes (record 40 7 4)] := by decide +kernel

theorem test_meets_Fetch_refused :
    (store series).Admits 1 ∧ 32 ≤ (32 : Byte).toNat ∧ ((store series).entry 31).state = .free ∧
      ((store { series with state := .dropping }).entry 0).state = .dropping ∧
      ((store { series with state := .lost }).entry 0).state = .lost ∧ (recovering.entry 0).state = .recovering ∧
      (((dies Die.reset0 (store series)).entry 0).state = .opened ∧
        (dies Die.reset0 (store series)).rangeUsable 0 1 = false) := by decide +kernel

/-! ### SCAN -/

/-- A SCAN of everything for records with source 7 and lane 0 above 1. -/
def scanAll : ScanFields :=
  ⟨0, 0, 0, 0, 0, 0, 0, 1, 7, 1, 0, 0, 1, 1,
    #v[⟨0, 2, 0x3F800000⟩, ⟨0xFF, 0xFF, 0⟩, ⟨0xFF, 0xFF, 0⟩, ⟨0xFF, 0xFF, 0⟩]⟩

theorem test_meets_ScanTaken :
    ((store series).Admits 1 ∧ scanAll.series.toNat = (0 : Fin 32).val ∧ ((store series).entry 0).state = .opened ∧
      (store series).rangeUsable 0 1 = true ∧ scanAll.mode = 0 ∧ scanAll.rangeKind = 0 ∧
      scanAll.lower.toNat ≤ 4294967295 ∧ scanAll.upperPresence = 0 ∧
      (checkFilter scanAll 2).toOption = some above1 ∧ (store series).ctx 0 = none ∧
      (∀ j : Fin 4, j < 0 → (store series).ctx j ≠ none) ∧ scanAll.lower.toNat < series.committed ∧
      series.oldest < series.committed ∧ (store series).arr.queue.length + 2 ≤ 32) ∧
    (let f := { scanAll with upperPresence := 1, upper := 4294967295, lower := 3 }
     f.upperPresence ≠ 0 ∧ (f.lower.toNat ≤ f.upper.toNat ∧ f.upper.toNat ≤ 4294967295) ∧
       series.oldest ≤ f.upper.toNat ∧ f.lower.toNat < series.committed) ∧
    (let f := { scanAll with rangeKind := 1, lower := 40, mode := 1 }
     f.mode = 1 ∧ f.rangeKind = 1 ∧ series.oldest + 1 < series.committed ∧
       f.lower.toNat ≤ series.lastCommitted.toNat) := by decide +kernel

theorem test_scan :
    ((after (.scan 1 scanAll) (store series)).ctx 0).map (fun c => (c.state, c.low, c.high)) = some (.running, 0, 3) ∧
      (after (.scan 1 { scanAll with rangeKind := 1, lower := 40 }) (store series)).arr.queue.map Txn.origin =
        [.edgeProbe 0 0] := by decide +kernel

theorem test_meets_ScanAnswersAtOnce :
    2 ≤ (2 : Byte).toNat ∧
      (checkFilter { scanAll with termCount := 5 } 2).toOption = none ∧
      (let s := { store series with ctxs := Vector.replicate 4 (some scanCtx) }
       s.Admits 1 ∧ ∀ k : Fin 4, s.ctx k ≠ none) ∧
      (let f := { scanAll with lower := 4 }
       series.committed ≤ f.lower.toNat ∧
         ∀ x ∈ (store series).arr.queue ++ (store series).arr.waiting, x.origin.ofCtx 0 = false) := by decide +kernel

theorem test_meets_ScanAnswersAtOnce_refused :
    (store series).Admits 1 ∧ 32 ≤ (32 : Byte).toNat ∧ ((store series).entry 31).state = .free ∧
      ((store { series with state := .dropping }).entry 0).state = .dropping ∧
      ((store { series with state := .lost }).entry 0).state = .lost ∧ (recovering.entry 0).state = .recovering ∧
      ((store series).entry 0).state = .opened ∧ (dies Die.reset0 (store series)).rangeUsable 0 1 = false ∧
      (store series).rangeUsable 0 1 = true ∧
      ((4294967296 : Stamp).toNat = 4294967296 ∧ (4 : Stamp).toNat < (5 : Stamp).toNat ∧
        ¬ (5 : Stamp).toNat < (5 : Stamp).toNat) := by decide +kernel

/-- The ranges that hold no number: above the committed head, below oldest, nothing retained, above the last stamp. -/
theorem test_meets_ScanAnswersAtOnce_empty :
    (store series).ctx 0 = none ∧ (∀ j : Fin 4, j < 0 → (store series).ctx j ≠ none) ∧
      series.committed ≤ ({ scanAll with lower := 4 } : ScanFields).lower.toNat ∧
      (({ scanAll with upperPresence := 1, upper := 2 } : ScanFields).upperPresence ≠ 0 ∧
        (2 : Stamp).toNat < ({ series with oldest := 3 } : Entry).oldest) ∧
      ({ series with oldest := 4 } : Entry).committed = ({ series with oldest := 4 } : Entry).oldest ∧
      series.lastCommitted.toNat < (41 : Stamp).toNat := by decide +kernel

/-- A term of each fault at the edge of its range, and a sound one. -/
theorem test_meets_ScanAnswersAtOnce_filter :
    let term := fun (lane predicate : Byte) (threshold : Lane) => (⟨lane, predicate, threshold⟩ : TermPlace)
    (4 < (5 : Byte).toNat ∧ (4 : Byte).toNat ≤ 4 ∧ 2 ≤ (2 : Byte).toNat ∧ (1 : Byte).toNat < 2) ∧
      8 ≤ (term 0 8 0).predicate.toNat ∧ ((term 2 7 0).predicate.toNat < 8 ∧ 2 ≤ (term 2 7 0).lane.toNat) ∧
      6 ≤ (term 6 0 0).lane.toNat ∧
      ((term 1 5 0x7FC00000).predicate.toNat < 6 ∧ (term 1 5 0x7FC00000).lane.toNat < 2 ∧
        laneClass (term 1 5 0x7FC00000).threshold ≠ .number) ∧
      ((term 1 5 0).predicate.toNat < 6 ∧ laneClass (term 1 5 0).threshold = .number) ∧
      (0 : Fin 4).val < scanAll.termCount.toNat := by decide +kernel

/-- Each fault the filter check names, by the bytes of BAD_FILTER (R189). -/
theorem test_filter_faults :
    let first := fun t : TermPlace => { scanAll with terms := #v[t, ⟨0xFF, 0xFF, 0⟩, ⟨0xFF, 0xFF, 0⟩, ⟨0xFF, 0xFF, 0⟩] }
    let answer := fun f : ScanFields => sent (after (.scan 1 f) (store series))
    answer { scanAll with combine := 2 } = [[0x18, 21, 1, 0xFF]] ∧ answer (first ⟨0, 8, 0⟩) = [[0x18, 21, 2, 0]] ∧
      answer (first ⟨2, 7, 0⟩) = [[0x18, 21, 3, 0]] ∧ answer (first ⟨1, 5, 0x7FC00000⟩) = [[0x18, 21, 4, 0]] := by
  decide +kernel

theorem test_scan_at_once : sent (after (.scan 1 { scanAll with mode := 2 }) (store series)) = [[0x18, 3, 0xFF]] ∧
    sent (after (.scan 1 { scanAll with termCount := 5 }) (store series)) = [[0x18, 21, 0, 0xFF]] := by decide +kernel

theorem test_meets_RowReadEndsScan :
    scanning.link.reset = none ∧
      (scanning.issuedAt 0 0).map (fun x => (x.origin, x.live, x.data.length)) = some (.scanRow 3 false, true, 4) ∧
      scanning.ctx 3 = some scanCtx ∧
      (scanCtx.state = .running ∧ scanCtx.mode = .count ∧ scanCtx.hitLimit = none ∧ scanCtx.hits = [] ∧
        scanCtx.range = .sequence 0 none ∧ scanCtx.high = 3 ∧ scanCtx.cursor = 0 ∧
        scanCtx.readPoint = 4 ∧ scanCtx.buf0 = some ⟨0, 3, false, 0, []⟩ ∧ scanCtx.buf1 = none) ∧
      (scanning.entry 0).oldest ≤ 0 ∧ (scanning.entry 0).state ≠ .dropping ∧ Claimant.scan 3 ∉ scanning.link.claims ∧
      (∀ x ∈ scanning.arr.queue, ∀ r ∈ x.data, (above1.unmasked (above1.raised r)).nonempty = false) ∧
      (scanning.arr.queue.filter fun y => y.origin.ofCtx 3) = scanning.arr.queue ∧ scanning.arr.waiting = [] := by
  decide +kernel

/-- A LIST scan of the same row, as given. -/
def listing (c : Ctx) : State := scanning.setCtx 3 (some { c with mode := .list })

/-- The outcomes of its four records: HIT, MISS, HIT, MISS, and what ends a scan among them. -/
theorem test_meets_RowReadEndsScan_clauses :
    (let rs := [record 10 7 0x40000000, record 20 8 0, record 30 7 0x40000000, record 40 7 0]
     rs.map above1.test = [.hit ⟨false, false, false⟩, .mismatch, .hit ⟨false, false, false⟩,
       .miss ⟨false, false, false⟩] ∧
     rs = [record 10 7 0x40000000, record 20 8 0] ++ record 30 7 0x40000000 :: [record 40 7 0]) ∧
    (record 40 7 0).stamp.toNat ≤ (40 : Stamp).toNat ∧ ¬ (record 40 7 0).stamp.toNat ≤ (39 : Stamp).toNat ∧
    above1.test (record 10 7 0x7FC00000) = .stop ⟨true, false, false⟩ ∧
    ({ scanCtx with hitLimit := some 2 } : Ctx).hitLimit = some (scanCtx.hitCount + 1 + 1) ∧
    ((listing scanCtx).ctx 3 = some { scanCtx with mode := .list } ∧ 4 ≤ (listing scanCtx).freeSlots) ∧
    (let c := { scanCtx with hits := List.replicate 22 ⟨0, record 10 7 0⟩ }
     c.hits.length < 24 ∧ c.hits.length + 1 = 23 ∧
       ((listing c).modLink fun l => { l with queue := List.replicate 31 ⟨.response, 1, [], none⟩ }).freeSlots = 0) := by
  decide +kernel

/-- The row in buffer 1, part of it overtaken, all of it overtaken; a filled later row after it. -/
theorem test_meets_RowReadEndsScan_buffers :
    (let c := { scanCtx with buf0 := none, buf1 := some ⟨0, 3, false, 0, []⟩ }
     let s := (scanning.setCtx 3 (some c)).setQueues (scanning.arr.queue.map fun x =>
       { x with origin := .scanRow 3 true }) []
     (s.issuedAt 0 0).map Txn.origin = some (.scanRow 3 true) ∧ c.buf true = some ⟨0, 3, false, 0, []⟩ ∧
       c.buf false = none ∧ (s.arr.queue.filter fun y => y.origin.ofCtx 3) = s.arr.queue ∧ c.high < c.readPoint) ∧
    (min ((scanning.setEntry 0 { series with oldest := 2 }).entry 0).oldest 4 = 2 ∧
      min ((scanning.setEntry 0 { series with oldest := 4 }).entry 0).oldest 4 = 4 ∧
      ((scanning.setEntry 0 { series with oldest := 4 }).entry 0).state ≠ .dropping) ∧
    (let later : RowBuf := ⟨4, 5, true, 0, [record 50 7 0, record 60 8 0]⟩
     let c := { scanCtx with buf1 := some later, high := 5, readPoint := 6 }
     c.buf true = some later ∧ later.filled = true ∧ later.records.length ≤ 64 ∧ c.high < c.readPoint ∧
       (3 : Nat) < later.first ∧ 7 ≤ scanning.freeSlots) ∧
    scanCtx.GoesOn [record 10 7 0x40000000, record 20 8 0, record 30 7 0x40000000, record 40 7 0] ∧
    scanCtx.GoesOn [] ∧ scanCtx.GoesOn [record 50 7 0, record 60 8 0] := by
  refine ⟨by decide +kernel, by decide +kernel, by decide +kernel, ?_, ?_, ?_⟩ <;>
    exact goesOn (by decide +kernel) (by decide +kernel) (by decide +kernel)

/-- A scan whose row is read while its later row waits: nothing left to read, all that is left overtaken, and one more row. -/
theorem test_meets_RowReadEndsScan_goesOn :
    let c := { scanCtx with buf1 := some ⟨4, 5, false, 0, []⟩, high := 5, readPoint := 6 }
    (scanning.arr.queue = [] ++ (scanning.arr.queue.headD (txn .statusRead .read [] true)) :: [] ∧
      scanning.arr.waiting = [] ∧ scanning.arr.queue.length ≤ 32 ∧ 3 ≤ scanning.freeSlots) ∧
    (c.state = .running ∧ c.cursor ≤ 0 ∧ c.buf true = some ⟨4, 5, false, 0, []⟩ ∧ (3 : Nat) < 4 ∧ 4 < c.readPoint ∧
      c.high < c.readPoint) ∧
    (let c := { c with high := 7 }
     let oldest := ({ series with oldest := 9 } : Entry).oldest
     c.readPoint ≤ c.high ∧ c.high < max c.readPoint oldest ∧
       max c.readPoint ({ series with oldest := 7 } : Entry).oldest ≤ c.high ∧
       max c.readPoint series.oldest ≤ c.high) ∧
    (let c := { scanCtx with buf0 := some ⟨0, 1, false, 0, []⟩, buf1 := some ⟨2, 5, false, 0, []⟩ }
     c.buf false = some ⟨0, 1, false, 0, []⟩ ∧ (0 : Nat) < 2 ∧ c.cursor = 0) ∧
    (let x := { txn (.scanRow 3 false) .read [] true with live := false }
     (queueing [x] draining).arr.queue = [] ++ x :: [] ∧ scanCtx.hits = [] ∧
       (∀ y ∈ ([] : List Txn), y.origin.ofCtx 3 = true → y.issued = false) ∧
       ∃ y ∈ ([] ++ [txn (.scanRow 3 true) .read [] true]), y.issued = true ∧ y.origin.ofCtx 3 = true) := by
  decide +kernel

/-- The scan goes on past a row: its two hits are kept, and the buffer is read into again; a second row may come first. -/
theorem test_rowReadComplete_goesOn :
    (let t := after (.rowReadComplete 0 0) ((listing { scanCtx with
        buf1 := some ⟨4, 63, false, 0, []⟩, high := 99, readPoint := 64 }).setEntry 0 { series with
          reserved := 100, committed := 100 })
     (t.ctx 3).map (fun c => (c.state, c.hits.length, c.cursor, c.readPoint)) = some (.running, 2, 4, 100) ∧
       t.arr.queue.map (fun x => (x.origin, x.place)) = [(.scanRow 3 false, some ⟨1, 0, 0, 36⟩)] ∧ sent t = []) ∧
    (let t := after (.rowReadComplete 0 0) (scanning.setCtx 3 (some { scanCtx with
        buf0 := some ⟨4, 7, false, 0, []⟩, buf1 := some ⟨0, 3, false, 0, []⟩, high := 7, readPoint := 8 }))
     (t.ctx 3).map (fun c => (c.state, c.buf0.map RowBuf.filled, c.cursor)) = some (.running, some true, 0) ∧
       sent t = []) := by decide +kernel

/-- Two hits in one HITS frame, then the report; with no slot the 24th hit leaves the context PAUSED at its cursor. -/
theorem test_rowReadComplete_list :
    (sent (after (.rowReadComplete 0 0) (listing scanCtx))).map List.length = [1 + 2 * 36, 45] ∧
    (let s := (listing { scanCtx with hits := List.replicate 22 ⟨0, record 10 7 0⟩ }).modLink fun l =>
        { l with queue := List.replicate 31 ⟨.response, 1, [], none⟩ }
     let t := after (.rowReadComplete 0 0) s
     (t.ctx 3).map (fun c => (c.state, c.hits.length, c.cursor)) = some (.paused, 24, 3) ∧
       t.link.claims = [.scan 3]) := by decide +kernel

theorem test_rowReadComplete_ends :
    let reason := fun c : Ctx => ((sent (after (.rowReadComplete 0 0) (scanning.setCtx 3 (some c)))).map fun p =>
      (p.drop 2).take 1)
    reason { scanCtx with hitLimit := some 2 } = [[1]] ∧ reason { scanCtx with range := .stamp 10 (some 29) } = [[0]] ∧
      reason { scanCtx with filter := { above1 with source := none, terms := [⟨1, .equal, 0⟩, ⟨0, .equal, 1⟩] } } =
        [[0]] := by decide +kernel

/-- The scan of `scanning`: two hits of four records. -/
theorem test_rowReadComplete : ((sent (after (.rowReadComplete 0 0) scanning)).map fun p => p.take 24) =
    [[0x18, 0, 0, 0, 0, 0, 0, 4, 0, 0, 0, 1, 3, 0, 0, 0, 4, 0, 0, 0, 2, 0, 0, 0]] := by decide +kernel

/-- A stamp search at its probe. -/
def probing (o : Origin) (stamp : Stamp) : State :=
  (queueing [txn o .read [record stamp 7 0] true] (holding 9 .scan (store series))).setCtx 2
    (some { scanCtx with state := .resolving, range := .stamp 30 none, searchLow := 0, searchHigh := 3, buf0 := none })

theorem test_meets_Probes :
    ((probing (.edgeProbe 2 0) 30).link.reset = none ∧
      (probing (.edgeProbe 2 0) 30).issuedAt 0 0 = some (txn (.edgeProbe 2 0) .read [record 30 7 0] true) ∧
      (probing (.edgeProbe 2 0) 30).arr.queue.length ≤ 31 ∧ (probing (.edgeProbe 2 0) 30).arr.waiting = [] ∧
      ((probing (.edgeProbe 2 0) 30).entry 0).oldest ≤ 0) ∧
    ((30 : Stamp).toNat ≤ (30 : Stamp).toNat ∧ (29 : Stamp).toNat < (30 : Stamp).toNat ∧ 0 + 1 < 3) ∧
    (probing (.binaryProbe 2 1) 29).issuedAt 0 0 = some (txn (.binaryProbe 2 1) .read [record 29 7 0] true) := by
  decide +kernel

/-- The bounds at which a probe leads on, ends the search, or finds every candidate gone. -/
theorem test_meets_Probes_bounds :
    (let c := { scanCtx with state := .searching, range := .stamp 30 none, searchLow := 1, searchHigh := 2, buf0 := none }
     c.range = .stamp 30 none ∧ 1 + 1 = c.searchHigh ∧ c.searchLow = 1 ∧ 1 < ({ c with searchHigh := 3 } : Ctx).searchHigh ∧
       c.searchLow < 2 ∧ (2 ≤ c.high ∧ c.buf0 = none ∧ c.buf1 = none)) ∧
    (let e := { series with oldest := 3 }
     let s := (probing (.edgeProbe 2 0) 30).setEntry 0 e
     0 < (s.entry 0).oldest ∧ (s.entry 0).oldest = 3 ∧
       ({ series with oldest := 2 } : Entry).oldest < 3 ∧ 2 < e.oldest ∧ (s.entry 0).state ≠ .dropping ∧
       (s.arr.queue.filter fun y => y.origin.ofCtx 2) = [txn (.edgeProbe 2 0) .read [record 30 7 0] true]) := by
  decide +kernel

/-- A binary probe at or above the lower stamp lowers the search high; where every candidate is gone the scan ends. -/
theorem test_probe_ends :
    (after (.binaryProbeComplete 0 0) (probing (.binaryProbe 2 2) 30)).arr.queue.map Txn.origin = [.binaryProbe 2 1] ∧
      ((after (.edgeProbeComplete 0 0) ((probing (.edgeProbe 2 0) 30).setEntry 0 { series with oldest := 3 })).ctx 2).map
        (fun c => (c.state, c.low)) = some (.running, 3) ∧
      ((sent (after (.edgeProbeComplete 0 0) ((probing (.edgeProbe 2 0) 30).setEntry 0
        { series with oldest := 4, committed := 4 }))).map fun p => p.take 11) =
        [[0x18, 0, 0, 4, 0, 0, 0, 0, 0, 0, 0]] := by decide +kernel

theorem test_edgeProbeComplete :
    ((after (.edgeProbeComplete 0 0) (probing (.edgeProbe 2 0) 30)).ctx 2).map Ctx.state = some .running ∧
      (after (.edgeProbeComplete 0 0) (probing (.edgeProbe 2 0) 29)).arr.queue.map Txn.origin = [.binaryProbe 2 2] := by
  decide +kernel
theorem test_binaryProbeComplete :
    (after (.binaryProbeComplete 0 0) (probing (.binaryProbe 2 1) 29)).arr.queue.map Txn.origin = [.binaryProbe 2 2] := by
  decide +kernel

/-! ### Starting, timing -/

/-- Die 0 in its reset sequence or at its identity read, die 1 as given. -/
def starting (path : CommandPath) (other : Die) : State :=
  ({ State.reset with arr := { ArrayCtl.reset0 with startTag := some 4 } } |> holding 4 .startArray).setDie 0
    { Die.reset0 with state := .initializing, path := path } |>.setDie 1 other

theorem test_meets_StartArray :
    (State.reset.Admits 1 ∧ (∀ d : Fin 2, (State.reset.die d).state = .unpowered ∨ (State.reset.die d).state = .off) ∧
      State.reset.arr.load = none) ∧
    (ready.Admits 1 ∧ (ready.die 1).state ≠ .unpowered ∧ (ready.die 1).state ≠ .off) ∧
    (State.reset.modArr fun a => { a with load := some ⟨defaultTiming, none⟩ }).arr.load ≠ none := by decide +kernel

theorem test_startArray : sent (after (.startArray 1) ready) = [[0x20, 7, 2, 2]] ∧
    ((after (.startArray 1) State.reset).die 1).path = .resetSequence := by decide +kernel

/-- The settings at their upper ends (R110). -/
def slowest : TimingFields := ⟨31, 31, 31, 31, 16000, 400, 1000, 4000, 200, 1⟩

theorem test_meets_ArrayTiming :
    State.reset.Admits 1 ∧ timingFault slowest = none ∧ timingFault ⟨4, 4, 4, 2, 1000, 40, 100, 400, 10, 0⟩ = none ∧
      (timingFault { slowest with openDelay := 3 } = some 0 ∧ timingFault { slowest with referenceFitted := 2 } = some 9) ∧
      (2 * (1000 : Half).toNat < (2001 : Half).toNat ∧
        timingFault { slowest with refreshInterval := 1000, longCal := 2001 } = some 7) ∧
      ((400 : Half).toNat ≤ 2 * (1000 : Half).toNat ∧ (400 : Half).toNat < (401 : Half).toNat ∧
        timingFault { slowest with shortCal := 401, longCal := 400 } = some 6) ∧
      (State.reset.modArr fun a => { a with load := some ⟨slowest, some 1⟩ }).arr.load = some ⟨slowest, some 1⟩ := by
  decide +kernel

theorem test_setArrayTiming :
    sent (after (.setArrayTiming 1 { slowest with longCal := 4001 }) State.reset) = [[0x21, 3, 7]] ∧
      (after (.setArrayTiming 1 slowest) State.reset).arr.load = some ⟨slowest, some 1⟩ := by decide +kernel
theorem test_timingLoadEnd :
    let t := after .timingLoadEnd (holding 1 .setArrayTiming
      (State.reset.modArr fun a => { a with load := some ⟨slowest, some 1⟩ }))
    t.arr.timing = slowest ∧ t.table = [] ∧ sent t = [[0x21, 0]] := by decide +kernel

theorem test_meets_StartUp :
    (((starting .resetSequence readyDie).die 0).state = .initializing ∧
      ((starting .resetSequence readyDie).die 0).path = .resetSequence) ∧
    (((starting .identityRead readyDie).die 0).path = .identityRead ∧
      ((starting .identityRead readyDie).die 1).state = .ready ∧
      (starting .identityRead readyDie).arr.startTag = some 4 ∧
      (starting .identityRead readyDie).arr.timing.referenceFitted = 1) ∧
    (((starting .identityRead { Die.reset0 with state := .initializing }).die 1).state = .initializing) ∧
    (((starting .identityRead readyDie).die 0).timer = none ∧ ((starting .identityRead readyDie).dieMon 0).req = none ∧
      (84 : Int) < ((starting .identityRead readyDie).mon.settings.hotThreshold.toNat : Int) ∧
      (starting .identityRead readyDie).mon.reference = none ∧ ((starting .identityRead readyDie).dieMon 1).req = none) ∧
    ((starting .identityRead { Die.reset0 with state := .initializing }).modArr fun a =>
      { a with timing := { a.timing with referenceFitted := 0 } }).arr.timing.referenceFitted = 0 := by decide +kernel

theorem test_resetSequenceEnd :
    ((after (.resetSequenceEnd 0) (starting .resetSequence readyDie)).die 0).path = .identityRead := by decide +kernel
theorem test_identityReadEnd :
    sent (after (.identityReadEnd 0 .noAnswer) (starting .identityRead readyDie)) = [[0x20, 0, 6, 0xFF, 2, 0]] ∧
      ((after (.identityReadEnd 0 (.arrayCode 25)) (starting .identityRead readyDie)).die 0).activity =
        .calibrating .long := by decide +kernel

/-! ### Refresh, calibration, samples -/

/-- A die that owes `n` refreshes. -/
def owing (n : Nat) : Die := { readyDie with debt := n, holdRefresh := 6 ≤ n }

theorem test_meets_Refresh :
    (((dies (owing 7) ready).die 0).timer ≠ none ∧ ((dies (owing 7) ready).die 0).debt < 8) ∧
      (State.reset.die 0).timer = none ∧
      (((dies (owing 8) ready).die 0).drained = true ∧ ((dies (owing 8) ready).die 0).holdRefresh = true) ∧
      (((dies (owing 5) ready).die 0).drained = true ∧ ((dies (owing 5) ready).die 0).holdRefresh = false ∧
        ((dies (owing 5) ready).die 0).holdCal = false ∧ ((dies (owing 5) ready).die 0).restTarget = .none ∧
        (1 ≤ ((dies (owing 5) ready).die 0).debt ∧ ((dies (owing 5) ready).die 0).debt ≤ 5) ∧
        ∀ x ∈ (dies (owing 5) ready).arr.queue ++ (dies (owing 5) ready).arr.waiting, x.die ≠ 0) ∧
      (State.reset.die 0).drained = false ∧
      ((dies { owing 1 with holdCal := true } ready).die 0).holdCal = true ∧
      (((dies { owing 1 with activity := .refreshing, path := .refresh } ready).die 0).activity = .refreshing ∧
        (owing 1).restTarget ≠ .rest) ∧ (ready.die 0).activity ≠ .refreshing := by decide +kernel

/-- A die that settles a debt of `n` before it rests, in a refresh, with a POWER REST. -/
def settling (n : Nat) (cal : Bool) : State :=
  (dies { readyDie with debt := n, restTarget := .rest, holdCal := cal } (holding 7 .power ready)).modArr
    fun a => { a with power := some ⟨7, .rest⟩ }
def settled (n : Nat) (cal : Bool) : State :=
  (settling n cal).setDie 0 { (settling n cal).die 0 with activity := .refreshing, path := .refresh }

theorem test_meets_Refresh_settlement :
    (((settling 1 false).die 0).drained = true ∧ ((settling 1 false).die 0).holdCal = false ∧
      ((settling 1 false).die 0).restTarget = .rest ∧ 1 ≤ ((settling 1 false).die 0).debt) ∧
    (((settling 0 false).die 0).holdRefresh = false ∧ ((settling 0 false).die 0).debt = 0) ∧
    (((settled 2 false).die 0).activity = .refreshing ∧ 1 < ((settled 2 false).die 0).debt) ∧
    (((settled 1 true).die 0).activity = .refreshing ∧ ((settled 1 true).die 0).holdCal = true) ∧
    (((settled 1 false).die 0).activity = .refreshing ∧ ((settled 1 false).die 0).restTarget = .rest ∧
      ((settled 1 false).die 0).state = .ready ∧ ((settled 1 false).die 0).allIdle = true ∧
      ((settled 1 false).die 0).holdCal = false ∧ ((settled 1 false).die 0).debt ≤ 1) := by decide +kernel

/-- The last settlement refresh leaves the die RESTING; the POWER REST answers once the other die has no rest target. -/
theorem test_settlement :
    ((after (.refreshEnd 0) (settled 1 false)).die 0).state = .resting ∧ sent (after (.refreshEnd 0) (settled 1 false)) = [] ∧
      ((after (.refreshEnd 0) (settled 2 false)).die 0).state = .ready ∧
      sent (after (.refreshEnd 0) ((settled 1 false).setDie 1 readyDie)) = [[0x22, 0, 4, 2]] := by decide +kernel

theorem test_refreshTimerExpiry : ((after (.refreshTimerExpiry 0) (dies (owing 5) ready)).die 0).holdRefresh = true ∧
    ((after (.refreshTimerExpiry 0) (dies (owing 4) ready)).die 0).holdRefresh = false := by decide +kernel
theorem test_refreshStart : ((after (.refreshStart 0) (dies (owing 1) ready)).die 0).activity = .refreshing := by
  decide +kernel
theorem test_refreshEnd :
    let s := dies { owing 1 with holdRefresh := true, activity := .refreshing, path := .refresh } ready
    (after (.refreshEnd 0) s).die 0 = readyDie := by decide +kernel

/-- The store with a debt of 8 on each die. -/
def overrunning : State := dies (owing 8) (store series)

theorem test_meets_RefreshOverrun :
    (overrunning.die 0).timer ≠ none ∧ (overrunning.die 0).debt = 8 ∧ overrunning.fetches = [] ∧
      (∀ k : Fin 4, overrunning.ctx k = none) ∧ overrunning.port.op = none ∧
      (∀ i : Fin 32, (overrunning.entry i).state ≠ .dropping) ∧
      ((overrunning.entry 0).onDie 0 = true ∧ (overrunning.entry 0).state ≠ .free ∧ (overrunning.entry 0).state ≠ .lost) ∧
      (∀ j : Fin 32, j ≠ 0 → (overrunning.entry j).onDie 0 = false) ∧ (overrunning.entry 0).onDie 1 = false ∧
      overrunning.noticePending (.refreshMissed 0) = false ∧
      (overrunning.modLink fun l => { l with claims := [.notice (.refreshMissed 0)] }).noticePending (.refreshMissed 0) =
        true := by decide +kernel

/-- The one reader of the entry hit: a fetch, and a scan with what it sends and waits for. -/
theorem test_meets_RefreshOverrun_readers :
    (let f : Fetch := { tag := 6, series := 0, first := 0, count := 1, reads := 1, done := 0, part0 := [], part1 := [] }
     let s := { overrunning with fetches := [f] }
     (s.entry 0).state ≠ .dropping ∧ (s.entry 0).batches = [] ∧
       (s.fetches.filter fun g => g.series == 0) = [f]) ∧
    (let s := (dies (owing 8) scanning).setCtx 3 (some { scanCtx with hits := [⟨0, record 10 7 0⟩] })
     (s.die 0).timer ≠ none ∧ (s.die 0).debt = 8 ∧ (s.entry 0).batches = [] ∧ s.fetches = [] ∧
       (∀ x ∈ s.arr.waiting, x.issued = false) ∧ s.ctx 3 = some { scanCtx with hits := [⟨0, record 10 7 0⟩] } ∧
       (∀ j : Fin 4, j ≠ 3 → s.ctx j = none) ∧ scanCtx.series = 0 ∧ scanCtx.state ≠ .draining ∧
       ((Claimant.scan 3 ∉ s.link.claims ∧ 1 ≤ s.freeSlots) ∧
         ∃ x ∈ s.arr.queue, x.issued = true ∧ x.origin.ofCtx 3 = true) ∧
       (¬ ∃ x ∈ (queueing [] s).arr.queue, x.issued = true ∧ x.origin.ofCtx 3 = true) ∧
       ¬ 1 ≤ (s.modLink fun l => { l with queue := List.replicate 31 ⟨.response, 1, [], none⟩ }).freeSlots) := by
  decide +kernel

/-- The image operation of the entry hit, with nothing under way, an access or a transaction; a DROPPING entry with and
without work left. -/
theorem test_meets_RefreshOverrun_work :
    (let s := dies (owing 8) preserving
     s.port.op = some preserveOp ∧ preserveOp.series = 0 ∧ preserveOp.kind = .preserve ∧ preserveOp.result = none ∧
       preserveOp.abandoned = false ∧ ¬ (s.port.accessing = true ∨ ∃ x ∈ s.arr.queue, x.issued = true) ∧
       (dies (owing 8) accessing).port.accessing = true ∧
       ∃ x ∈ (queueing [txn (.preserveRead 0 false) .read [] true] s).arr.queue,
         x.issued = true ∧ x.origin.ofImage = true) ∧
    (let s := dies (owing 8) recovering
     s.port.op = some recoverOp ∧ recoverOp.phase = .pageRead ∧ recoverOp.result = none ∧ (s.entry 0).batches = [] ∧
       (s.entry 0).state = .recovering) ∧
    (let s := (dies (owing 8) (store { series with
        state := .dropping, batches := [⟨3, 4, 1, 1, 0, 50, 0⟩] })).setDrops [⟨2, 0⟩]
     (s.entry 0).state = .dropping ∧ s.fetches = [] ∧ (∀ k : Fin 4, s.ctx k = none) ∧ s.port.op = none ∧
       s.drops.find? (fun w => w.series == 0) = some ⟨2, 0⟩) ∧
    (let c := { scanCtx with state := .draining, endReason := some .seriesGone }
     let s := ((dies (owing 8) scanning).setEntry 0 { series with state := .dropping }).setCtx 3 (some c)
     s.ctx 3 = some c ∧ c.series = 0 ∧ c.state = .draining ∧ c.endReason ≠ some .lost) ∧
    (let op := { preserveOp with phase := .ending, result := some .seriesGone }
     let s := (accessing.modPort fun p => { p with op := some op }).setEntry 0 { series with state := .dropping }
     s.port.op = some op ∧ op.series = 0 ∧ op.kind = .preserve ∧ op.abandoned = false ∧ op.result ≠ none) := by
  decide +kernel

/-- LOST for a scan with one hit, for a PRESERVE, and for a batch of a DROPPING entry, before each notice. -/
theorem test_overrun_work :
    ((sent (after (.refreshTimerExpiry 0) ((dies (owing 8) (queueing [] scanning)).setCtx 3
      (some { scanCtx with mode := .list, hits := [⟨0, record 10 7 0⟩] })))).map fun p => (p.length, p.take 3)) =
      [(37, [1, 0, 0]), (45, [0x18, 0, 5]), (4, [3, 0, 1])] ∧
    ((sent (after (.refreshTimerExpiry 0) (dies (owing 8) preserving))).map fun p => p.take 2) = [[0x41, 15], [3, 0]] ∧
    sent (after (.refreshTimerExpiry 0) ((dies (owing 8) (store { series with
      state := .dropping, batches := [⟨3, 4, 1, 1, 0, 50, 0⟩] })).setDrops [⟨2, 0⟩])) =
      [[0x14, 15], [0x12, 0, 0], [3, 0, 1, 0]] := by decide +kernel

theorem test_overrun : ((after (.refreshTimerExpiry 0) overrunning).entry 0).state = .lost ∧
    sent (after (.refreshTimerExpiry 0) overrunning) = [[3, 0, 1, 0]] ∧
    ((after (.refreshTimerExpiry 1) overrunning).entry 0).state = .opened := by decide +kernel

/-- A die whose calibration request is at `stage`, joined by the tag 4. -/
def calibrating (stage : CalStage) (x : Die) : State :=
  ((holding 4 .calibrate ready).setDie 0 x).modMon fun m =>
    { m with
      reference := some 0, made := 1
      dies := m.dies.set 0 ⟨some 30, some ⟨25, 1200⟩, 450, some ⟨.short, stage, 0, [4]⟩⟩ }

theorem test_meets_Calibrate :
    (ready.Admits 1 ∧ 2 ≤ (2 : Byte).toNat) ∧ State.reset.Admits 1 ∧ (State.reset.die 1).state ≠ .ready ∧
      ((1 : Byte).toNat = (1 : Fin 2).val ∧ (ready.die 1).state = .ready ∧ (ready.die 1).restTarget = .none ∧
        ready.arr.timing.referenceFitted = 1 ∧ (ready.dieMon 1).req = none ∧ ready.mon.reference = none ∧
        (ready.dieMon 0).req = none) ∧
      ((calibrating .pending readyDie).Admits 1 ∧
        ((calibrating .pending readyDie).dieMon 0).req = some ⟨.short, .pending, 0, [4]⟩) ∧
      ((ready.modArr fun a => { a with timing := { a.timing with referenceFitted := 0 } }).Admits 1 ∧
        (ready.dieMon 0).temp = some 25 ∧ ready.arr.startTag = none) := by decide +kernel

theorem test_calibrate :
    sent (after (.calibrate 1 0 1) (ready.modArr fun a => { a with timing := { a.timing with referenceFitted := 0 } })) =
      [[0x31, 0, 0, 1, 1, 25, 0xB0, 4]] ∧
    ((after (.calibrate 1 0 1) (calibrating .pending readyDie)).dieMon 0).req = some ⟨.long, .pending, 0, [4, 1]⟩ := by
  decide +kernel

/-- A die whose calibration runs, with the tags joined; the other die with its request pending. -/
def endingCal (joined : List Byte) (x : Die) (start : Option Byte) : State :=
  ((dies x ready).modMon fun m => { m with
    reference := some 0, made := 2
    dies := #v[⟨some 30, none, 0, some ⟨.long, .running, 0, joined⟩⟩,
      ⟨some 30, none, 0, some ⟨.short, .pending, 1, []⟩⟩] }).modArr fun a => { a with startTag := start }

theorem test_meets_Calibration :
    (((calibrating .granted { readyDie with holdCal := true }).dieMon 0).req = some ⟨.short, .granted, 0, [4]⟩ ∧
      ((calibrating .granted { readyDie with holdCal := true }).die 0).drained = true) ∧
    ((calibrating .granted readyDie).die 0).holdCal = false ∧ CalStage.granted ≠ .running ∧
    (((calibrating .running readyDie).dieMon 0).req = some ⟨.short, .running, 0, [4]⟩ ∧
      ((calibrating .running readyDie).die 0).state = .ready ∧ ((calibrating .running readyDie).dieMon 0).temp = some 30 ∧
      ((calibrating .running readyDie).dieMon 1).req = none ∧ (calibrating .running readyDie).arr.startTag = none) ∧
    (∀ joined ∈ ([[], [4], [4, 5]] : List (List Byte)),
     let s := endingCal joined readyDie none
     (s.dieMon 0).req = some ⟨.long, .running, 0, joined⟩ ∧ (s.die 0).state = .ready ∧ (s.dieMon 0).temp = some 30 ∧
       s.arr.startTag = none ∧ (s.dieMon (otherDie 0)).req = some ⟨.short, .pending, 1, []⟩ ∧
       (s.die (otherDie 0)).state ≠ .initializing ∧
       ((s.setDie 1 { readyDie with state := .initializing }).die (otherDie 0)).state = .initializing) ∧
    (let s := endingCal [] { Die.reset0 with state := .initializing } (some 7)
     (s.dieMon 0).req = some ⟨.long, .running, 0, []⟩ ∧ (s.die 0).state = .initializing ∧
       (s.die (otherDie 0)).state = .initializing ∧ (s.dieMon (otherDie 0)).req = some ⟨.short, .pending, 1, []⟩) ∧
    (let s := (endingCal [] { Die.reset0 with state := .initializing } (some 7)).setDieMon 1 ⟨some 25, none, 0, none⟩
     (s.dieMon (otherDie 0)).req = none ∧ s.arr.startTag = some 7 ∧ s.arr.timing.referenceFitted = 1 ∧
       ((s.setDie 1 readyDie).die (otherDie 0)).state = .ready ∧
       ((s.setDie 1 { Die.reset0 with state := .missing }).die (otherDie 0)).state = .missing) := by decide +kernel

theorem test_calibrationStart :
    ((after (.calibrationStart 0) (calibrating .granted { readyDie with holdCal := true })).die 0).activity =
      .calibrating .short := by decide +kernel
theorem test_calibrationEnd :
    let t := after (.calibrationEnd 0) (calibrating .running
      { readyDie with holdCal := true, activity := .calibrating .short, path := .calibration })
    sent t = [[0x31, 0, 0, 0, 0, 30, 0xB0, 4]] ∧ t.die 0 = readyDie ∧ t.mon.reference = none := by decide +kernel

/-- Two joined CALIBRATEs answer and the other die is granted the reference; the last die of a START_ARRAY answers it. -/
theorem test_calibrationEnd_grants :
    (let t := after (.calibrationEnd 0) (endingCal [4, 5] readyDie none)
     t.link.queue.map (fun f => (f.tag, f.payload)) =
         [(4, [0x31, 0, 0, 1, 0, 30, 0xB0, 4]), (5, [0x31, 0, 0, 1, 0, 30, 0xB0, 4])] ∧
       t.mon.reference = some 1 ∧ (t.die 1).holdCal = true) ∧
    sent (after (.calibrationEnd 0) (((endingCal [] { Die.reset0 with state := .initializing } (some 7)).setDieMon 1
      ⟨some 25, none, 0, none⟩).setDie 1 { Die.reset0 with state := .missing })) = [[0x20, 0, 2, 0, 6, 0xFF]] := by
  decide +kernel

/-- The status read of die 0 ISSUED. -/
def statusReading (x : Die) : State :=
  (ready.setDie 0 { x with activity := .statusRead, path := .statusRead }).setQueues
    [⟨.statusRead, .read, 0, none, [], true, 0, true⟩] []

theorem test_meets_Sampling :
    ready.arr.queue.length + 2 ≤ 32 ∧
      ((∃ x ∈ (statusReading readyDie).arr.queue, x.issued = true ∧ x.isStatus 0 = true) ∧
        ((statusReading readyDie).die 0).state = .ready ∧ ((statusReading readyDie).die 0).debt < 8) ∧
      (((statusReading readyDie).mon.settings.hotThreshold.toNat : Int) ≤ 85 ∧
        (80 : Int) ≤ ((statusReading readyDie).mon.settings.hotThreshold.toNat : Int) - 5 ∧
        (84 : Int) < ((statusReading readyDie).mon.settings.hotThreshold.toNat : Int)) ∧
      ((statusReading readyDie).arr.timing.referenceFitted = 1 ∧
        ((statusReading readyDie).dieMon 0).base = some ⟨25, 1200⟩) ∧ (State.reset.dieMon 0).base = none := by
  decide +kernel

/-- A die at the edges of its thresholds: HOT with and without a slot, and drifts at the due threshold and the limit. -/
theorem test_meets_Sampling_thresholds :
    (let s := (statusReading readyDie).modArr fun a => { a with timing := { a.timing with referenceFitted := 0 } }
     s.arr.timing.referenceFitted = 0 ∧ (s.mon.settings.hotThreshold.toNat : Int) ≤ 85 ∧ (s.die 0).hot = false ∧
       s.noticePending (.hot 0) = false ∧ 0 < s.freeSlots ∧
       (s.modLink fun l => { l with queue := List.replicate 32 ⟨.response, 1, [], none⟩ }).freeSlots = 0 ∧
       (s.modLink fun l => { l with claims := [.notice (.hot 0)] }).noticePending (.hot 0) = true ∧
       ((statusReading { readyDie with timer := some 1560 }).die 0).timer = some (s.arr.timing.refreshInterval.toNat / 2)) ∧
    (let s := statusReading readyDie
     (84 : Int) < (s.mon.settings.hotThreshold.toNat : Int) ∧ (s.dieMon 0).base = some ⟨25, 1200⟩ ∧
       s.mon.settings.dueThreshold.toNat < s.mon.settings.hardLimit.toNat ∧
       (s.mon.settings.kT.toNat = 60 ∧ s.mon.settings.dueThreshold.toNat = 400 ∧ s.mon.settings.hardLimit.toNat = 1000) ∧
       ((s.dieMon 0).req = none ∧ s.mon.reference = none ∧ (s.dieMon 1).req = none) ∧
       (s.die 0).driftHold = false ∧ s.noticePending (.calOverdue 0) = false ∧ 0 < s.freeSlots) := by decide +kernel

/-- A drift of 420 requests and is granted a short calibration; 1,020 holds the die and reports CAL_OVERDUE; 85 degrees
reports HOT and expires a timer at half the period (R115, R122, R124). -/
theorem test_thresholds :
    ((after (.statusReadComplete 0 32) (statusReading readyDie)).dieMon 0).req = some ⟨.short, .granted, 0, []⟩ ∧
      ((after (.statusReadComplete 0 31) (statusReading readyDie)).dieMon 0).req = none ∧
      ((after (.statusReadComplete 0 42) (statusReading readyDie)).die 0).driftHold = true ∧
      sent (after (.statusReadComplete 0 42) (statusReading readyDie)) = [[2, 0, 0xFC, 3]] ∧
      (let t := after (.statusReadComplete 0 85) ((statusReading { readyDie with timer := some 1560 }).modArr fun a =>
        { a with timing := { a.timing with referenceFitted := 0 } })
       (t.die 0).debt = 1 ∧ sent t = [[1, 0, 85, 0]]) := by decide +kernel

theorem test_sample : (after (.sample 1100 1) ready).arr.queue.map Txn.die = [1, 0] ∧
    (after (.sample 1100 1) ready).mon.supply = 1100 := by decide +kernel
theorem test_statusReadComplete :
    ((after (.statusReadComplete 0 85) (statusReading readyDie)).die 0).hot = true ∧
      ((after (.statusReadComplete 0 81) (statusReading { readyDie with hot := true })).die 0).hot = true ∧
      ((after (.statusReadComplete 0 80) (statusReading { readyDie with hot := true })).die 0).hot = false ∧
      ((after (.statusReadComplete 0 27) (statusReading readyDie)).dieMon 0).drift = 120 := by decide +kernel

theorem test_meets_SetMonitor :
    ready.Admits 1 ∧ monitorFault defaultMonitor = none ∧ monitorFault ⟨10, 60, 0, 0, 50, 51⟩ = none ∧
      monitorFault ⟨1000, 105, 500, 500, 5000, 10000⟩ = none ∧ monitorFault ⟨9, 60, 0, 0, 50, 51⟩ = some 0 ∧
      monitorFault ⟨10, 60, 0, 0, 50, 50⟩ = some 5 ∧ ready.mon.sinceMs < defaultMonitor.sampleInterval.toNat ∧
      (defaultMonitor.sampleInterval.toNat ≤ (ready.modMon fun m => { m with sinceMs := 100 }).mon.sinceMs ∧
        ready.arr.queue.length + 2 ≤ 32) := by decide +kernel

theorem test_setMonitor : sent (after (.setMonitor 1 ⟨10, 60, 0, 0, 50, 50⟩) ready) = [[0x30, 3, 5]] ∧
    sent (after (.setMonitor 1 ⟨10, 60, 0, 0, 50, 51⟩) ready) = [[0x30, 0]] := by decide +kernel

/-! ### Rest -/

/-- Both dies in a state. -/
def atState (x : DieState) (s : State) : State := dies { Die.reset0 with state := x } s

theorem test_meets_PowerRunAndRest :
    (let s := ready.modArr fun a => { a with power := some ⟨7, .rest⟩ }
     s.Admits 1 ∧ s.arr.power ≠ none) ∧
    (ready.Admits 1 ∧ ready.arr.power = none ∧ (∀ d : Fin 2, (ready.die d).state ≠ .initializing) ∧
      (ready.die 0).state = .ready ∧ ∀ d : Fin 2, (ready.die d).state ≠ .resting ∧ (ready.die d).state ≠ .waking) ∧
    (∀ d : Fin 2, (State.reset.die d).state = .unpowered) ∧
    ((atState .resting ready).Admits 1 ∧ ((atState .resting ready).die 0).state = .resting) ∧
    ((scanning).Admits 1 ∧ scanning.arr.power = none ∧ ∃ e ∈ scanning.table, e.kind = .scan) ∧
    ((dies { readyDie with restTarget := .rest } ready).die 0).restTarget ≠ .none ∧
    ((∀ e ∈ ready.table, kindHoldsRest e.kind = false) ∧
      (∀ d : Fin 2, (ready.die d).state = .ready ∧ (ready.die d).restTarget = .none)) ∧
    (∀ d : Fin 2, 0 < ((dies (owing 1) ready).die d).debt) ∧
    (∀ d : Fin 2, (ready.die d).drained = true ∧ (ready.die d).debt = 0 ∧ (ready.die d).holdRefresh = false ∧
      (ready.die d).holdCal = false ∧ ∀ x ∈ ready.arr.queue ++ ready.arr.waiting, x.die ≠ d) := by decide +kernel

theorem test_powerRun : sent (after (.powerRun 1) ready) = [[0x22, 0, 2, 2]] ∧
    ((after (.powerRun 1) (atState .resting ready)).die 1).state = .waking := by decide +kernel
theorem test_powerRest : sent (after (.powerRest 1) ready) = [[0x22, 0, 4, 4]] ∧
    sent (after (.powerRest 1) scanning) = [[0x22, 6]] ∧
    ((after (.powerRest 1) (dies (owing 1) ready)).die 0).restTarget = .rest := by decide +kernel

/-- The store with die 0 RESTING and die 1 READY with a bank open. -/
def halfResting : State :=
  ((store series).setDie 0 { Die.reset0 with state := .resting }).setBank 1 0 ⟨.opened 5, false⟩

theorem test_meets_PowerDeep :
    halfResting.Admits 1 ∧ halfResting.arr.power = none ∧ (∀ e ∈ halfResting.table, kindHoldsRest e.kind = false) ∧
      (∀ d : Fin 2, (halfResting.die d).state ≠ .initializing ∧ (halfResting.die d).state ≠ .waking ∧
        (halfResting.die d).restTarget = .none) ∧
      (halfResting.die 0).state = .resting ∧ ((halfResting.die 1).state = .ready ∧ (halfResting.die 1).drained = false) ∧
      ((halfResting.entry 0).state = .opened ∧ (halfResting.entry 1).state = .free) := by decide +kernel

theorem test_powerDeep : let t := after (.powerDeep 1) halfResting
    (t.entry 0).state = .lost ∧ (t.die 0).state = .off ∧ (t.die 1).restTarget = .deep := by decide +kernel

theorem test_meets_RestArrivals :
    (let s := dies { readyDie with restTarget := .rest } ready
     (s.die 0).drained = true ∧ (s.die 0).restTarget = .rest ∧ (s.die 0).holdRefresh = false ∧
       (s.die 0).holdCal = false ∧ (s.die 0).debt = 0 ∧ (∀ x ∈ s.arr.queue ++ s.arr.waiting, x.die = 0 → x.isStatus 0 = true) ∧
       s.arr.power = none) ∧
    (let s := queueing [txn .recoverWrite .write [] false] (dies { readyDie with restTarget := .rest } ready)
     ∃ x ∈ s.arr.queue, x.issued = false ∧ x.die = 0 ∧ x.isStatus 0 = false) ∧
    (ready.die 0).restTarget ≠ .rest ∧
    (let s := dies { readyDie with restTarget := .deep, debt := 8 } ready
     (s.die 0).drained = true ∧ (s.die 0).restTarget = .deep ∧ (s.die 0).holdRefresh = false ∧ (s.die 0).holdCal = false) ∧
    (((atState .waking ready).die 0).state = .waking ∧ (atState .waking ready).arr.power = none) := by decide +kernel

/-- A POWER waits as given: REST with the other die READY or on its way, RUN with the other die at rest or READY. -/
def powering (level : PowerLevel) (die other : Die) : State :=
  ((holding 7 .power ready).setDie 0 die |>.setDie 1 other).modArr fun a => { a with power := some ⟨7, level⟩ }

theorem test_meets_RestArrivals_power :
    (let s := powering .rest { readyDie with restTarget := .rest } readyDie
     (s.die 0).drained = true ∧ (s.die 0).debt = 0 ∧ s.arr.power = some ⟨7, .rest⟩ ∧
       (s.die (otherDie 0)).restTarget ≠ .rest) ∧
    (let s := powering .rest { readyDie with restTarget := .rest } { readyDie with restTarget := .rest }
     s.arr.power = some ⟨7, .rest⟩ ∧ (s.die (otherDie 0)).restTarget = .rest) ∧
    (powering .run { readyDie with restTarget := .rest } readyDie).arr.power = some ⟨7, .run⟩ ∧
    (let s := powering .run { readyDie with state := .waking } readyDie
     (s.die 0).state = .waking ∧ s.arr.power = some ⟨7, .run⟩ ∧ (s.die (otherDie 0)).state ≠ .resting ∧
       (s.die (otherDie 0)).state ≠ .waking) ∧
    (let s := powering .run { readyDie with state := .waking } { readyDie with state := .waking }
     s.arr.power = some ⟨7, .run⟩ ∧ (s.die (otherDie 0)).state = .waking) := by decide +kernel

theorem test_rest_power :
    sent (after (.enterResting 0) (powering .rest { readyDie with restTarget := .rest } readyDie)) = [[0x22, 0, 4, 2]] ∧
      ((after (.enterResting 0) (powering .run { readyDie with restTarget := .rest } readyDie)).die 0).state = .waking ∧
      sent (after (.wakeDelayElapsed 0) (powering .run { readyDie with state := .waking } readyDie)) =
        [[0x22, 0, 2, 2]] := by decide +kernel

theorem test_enterResting :
    ((after (.enterResting 0) (dies { readyDie with restTarget := .rest } ready)).die 0).state = .resting := by
  decide +kernel
theorem test_enterOff : let s := (dies { readyDie with restTarget := .deep } ready).setMem [(5, 1), (268435456, 2)]
    ((after (.enterOff 0) s).die 0).state = .off ∧ (after (.enterOff 0) s).mem = [(268435456, 2)] := by decide +kernel
theorem test_wakeDelayElapsed : (after (.wakeDelayElapsed 0) (atState .waking ready)).die 0 = readyDie := by decide +kernel

/-! ### Banks and the arbiter -/

/-- Bank 0 of die 0 as given, with queued work. -/
def bankAt (b : Bank) (q : List Txn) : State := (queueing q (store series)).setBank 0 0 b

/-- A WAITING read of the first record. -/
def waitingRead : Txn := ⟨.fetch 6 false, .read, 0, some ⟨0, 0, 0, 1⟩, [], false, 0, true⟩

/-- A WAITING write of one record. -/
def waitingWrite : Txn := ⟨.batch 0 3, .write, 0, some ⟨0, 0, 4, 1⟩, [record 50 7 9], false, 0, true⟩

theorem test_meets_BankCommands :
    ((bankAt ⟨.opening 0, false⟩ []).bank 0 0).state = .opening 0 ∧ ((bankAt ⟨.closing, false⟩ []).bank 0 0).state = .closing ∧
      ((bankAt ⟨.opened 0, true⟩ []).bank 0 0).recovering = true ∧
      (bankAt ⟨.idle, false⟩ [waitingRead]).choice 0 = some (.bank 0 (.openRow 0)) ∧
      (bankAt ⟨.opened 1, false⟩ [waitingRead]).choice 0 = some (.bank 0 .close) ∧
      ((bankAt ⟨.opened 0, false⟩ [waitingRead]).choice 0 = some (.bank 0 .transfer) ∧
        (bankAt ⟨.opened 0, false⟩ [waitingRead]).headOf 0 0 = some waitingRead) ∧
      ((bankAt ⟨.opened 0, false⟩ [waitingWrite]).choice 0 = some (.bank 0 .transfer) ∧
        (bankAt ⟨.opened 0, false⟩ [waitingWrite]).headOf 0 0 = some waitingWrite ∧ waitingWrite.dir = .write) ∧
      (bankAt ⟨.idle, false⟩ [statusTxn 0]).choice 0 = some .status ∧ ready.choice 0 = none := by decide +kernel

theorem test_openStep :
    ((after (.openStep 0 0) (bankAt ⟨.idle, false⟩ [waitingRead])).bank 0 0).state = .opening 0 := by decide +kernel
theorem test_closeStep :
    ((after (.closeStep 0 0) (bankAt ⟨.opened 1, false⟩ [waitingRead])).bank 0 0).state = .closing := by decide +kernel
theorem test_transferStep :
    ((after (.transferStep 0 0) (bankAt ⟨.opened 0, false⟩ [waitingWrite])).die 0).path = .write 0 ∧
      (after (.transferStep 0 0) (bankAt ⟨.opened 0, false⟩ [waitingRead])).arr.queue.map Txn.data = [[recordOf []]] := by
  decide +kernel
theorem test_statusReadStep :
    ((after (.statusReadStep 0) (bankAt ⟨.idle, false⟩ [statusTxn 0])).die 0).activity = .statusRead := by decide +kernel
theorem test_delays :
    ((after (.openDelayElapsed 0 0) (bankAt ⟨.opening 0, false⟩ [])).bank 0 0).state = .opened 0 ∧
      ((after (.closeDelayElapsed 0 0) (bankAt ⟨.closing, false⟩ [])).bank 0 0).state = .idle ∧
      ((after (.writeRecoveryElapsed 0 0) (bankAt ⟨.opened 0, true⟩ [])).bank 0 0).recovering = false := by decide +kernel

theorem test_meets_ArbiterChoice :
    (((bankAt ⟨.idle, false⟩ [waitingRead]).bank 0 0).state = .idle ∧
      (bankAt ⟨.idle, false⟩ [waitingRead]).headOf 0 0 = some waitingRead) ∧
    (((bankAt ⟨.opened 0, false⟩ [waitingRead]).bank 0 0).state = .opened 0 ∧ waitingRead.row = 0 ∧
      (bankAt ⟨.opened 0, false⟩ [waitingRead]).idleDemand 0 = false) ∧ waitingRead.row ≠ 1 ∧
    (bankAt ⟨.opened 0, false⟩ []).headOf 0 0 = none ∧ (State.reset.die 0).state ≠ .ready ∧
    (let s := bankAt ⟨.idle, false⟩ [{ waitingRead with passOver := 8 }]
     (s.die 0).quiet = true ∧ s.headOf 0 0 = some { waitingRead with passOver := 8 } ∧ (s.bankStep 0 0).isSome = true) ∧
    (let s := bankAt ⟨.opened 0, false⟩ [waitingRead]
     s.statusEligible 0 = false ∧ s.bankStep 0 0 = some .transfer) ∧
    (bankAt ⟨.idle, false⟩ [statusTxn 0]).statusEligible 0 = true := by decide +kernel

/-- Two banks that need an open, the head of bank 1 the elder; under an idle demand an open bank with no head closes. -/
def twoBanks : State :=
  (queueing [{ waitingRead with place := some ⟨1, 0, 0, 1⟩ }, waitingRead] (store series))

theorem test_meets_ArbiterChoice_ages :
    ((twoBanks.die 0).quiet = true ∧ twoBanks.statusEligible 0 = false ∧ twoBanks.idleDemand 0 = false ∧
      (∀ c : Fin 8, twoBanks.bankStep 0 c ≠ some .transfer) ∧ twoBanks.bankStep 0 1 = some (.openRow 0) ∧
      twoBanks.bankStep 0 0 = some (.openRow 0) ∧ (∀ c : Fin 8, ∀ h ∈ twoBanks.headOf 0 c, h.passOver ≠ 8) ∧
      twoBanks.choice 0 = some (.bank 1 (.openRow 0))) ∧
    (let s := (dies { readyDie with holdRefresh := true, debt := 6 } ready).setBank 0 5 ⟨.opened 3, false⟩
     (s.die 0).quiet = true ∧ s.idleDemand 0 = true ∧ s.bankStep 0 5 = some .close ∧
       (∀ c : Fin 8, c < 5 → s.bankStep 0 c = none) ∧ (∀ c : Fin 8, s.headOf 0 c = none) ∧
       s.choice 0 = some (.bank 5 .close)) ∧
    ((ready.die 0).quiet = true ∧ ∀ c : Fin 8, ready.bankStep 0 c = none) := by decide +kernel

/-- The step of one bank passes over the head of the other, up to a count of 8 (R100). -/
theorem test_pass_over :
    (after (.openStep 0 1) twoBanks).arr.queue.map Txn.passOver = [0, 1] ∧
      (after (.openStep 0 1) (queueing [{ waitingRead with place := some ⟨1, 0, 0, 1⟩, passOver := 8 },
        { waitingRead with passOver := 8 }] (store series))).arr.queue.map Txn.passOver = [8, 8] := by decide +kernel

/-! ### Completions -/

theorem test_meets_BatchWriteComplete :
    Memory.wf batching.mem ∧ batching.link.reset = none ∧
      batching.issuedAt 0 0 = some (txn (.batch 0 3) .write [record 50 7 0] true) ∧
      (txn (.batch 0 3) .write [record 50 7 0] true).live = true ∧
      ((batching.entry 0).state ≠ .dropping ∧ (batching.entry 0).batches = ⟨3, 4, 1, 1, 0, 50, 0⟩ :: [] ∧
        (⟨3, 4, 1, 1, 0, 50, 0⟩ : Batch).done + 1 = (⟨3, 4, 1, 1, 0, 50, 0⟩ : Batch).writes) ∧
      (let e := { series with batches := [⟨2, 4, 1, 2, 1, 45, 0⟩, ⟨3, 5, 1, 1, 0, 50, 0⟩] }
       e.batches = ⟨2, 4, 1, 2, 1, 45, 0⟩ :: [⟨3, 5, 1, 1, 0, 50, 0⟩] ∧ (2 : Byte) ≠ 3 ∧
         (⟨2, 4, 1, 2, 1, 45, 0⟩ : Batch).done < (⟨2, 4, 1, 2, 1, 45, 0⟩ : Batch).writes) := by decide +kernel

/-- The same write with the entry as given. -/
def batchingAs (e : Entry) : State := batching.setEntry 0 e

theorem test_meets_BatchWriteComplete_clauses :
    (let e := { series with batches := [⟨3, 4, 1, 2, 0, 50, 0⟩] }
     e.batches = ⟨3, 4, 1, 2, 0, 50, 0⟩ :: ([] ++ []) ∧ 0 + 1 < 2) ∧
    (let e := { series with batches := [⟨3, 4, 1, 1, 0, 50, 0⟩, ⟨4, 5, 1, 1, 1, 60, 1⟩, ⟨5, 6, 1, 1, 0, 70, 0⟩] }
     e.batches = ⟨3, 4, 1, 1, 0, 50, 0⟩ :: ([⟨4, 5, 1, 1, 1, 60, 1⟩] ++ [⟨5, 6, 1, 1, 0, 70, 0⟩]) ∧
       (∀ y ∈ e.batches.tail, y.tag ≠ 3)) ∧
    (let e := { series with state := .dropping, batches := [⟨3, 4, 1, 1, 0, 50, 0⟩, ⟨4, 5, 1, 1, 0, 60, 0⟩] }
     e.state = .dropping ∧ e.batches = [] ++ ⟨3, 4, 1, 1, 0, 50, 0⟩ :: [⟨4, 5, 1, 1, 0, 60, 0⟩] ∧
       ∀ z ∈ ([] ++ [⟨4, 5, 1, 1, 0, 60, 0⟩] : List Batch), z.tag ≠ 3 ∧ z.done < z.writes) ∧
    (let s := (batchingAs { series with state := .dropping, batches := [⟨3, 4, 1, 1, 0, 50, 0⟩] }).setDrops [⟨2, 0⟩]
     s.drops.find? (fun w => w.series == 0) = some ⟨2, 0⟩ ∧ s.fetches = [] ∧ (∀ k : Fin 4, s.ctx k = none) ∧
       s.port.preserving 0 = false) ∧
    (let x := { txn (.batch 0 3) .write [record 50 7 0] true with live := false }
     (queueing [x] batching).issuedAt 0 0 = some x ∧ x.live = false) := by decide +kernel

/-- The head commits with the complete batch that follows; the last batch of a DROPPING entry frees it (R29, R30, R43). -/
theorem test_batches :
    (let t := after (.batchWriteComplete 0 0) (batchingAs { series with
        reserved := 7, batches := [⟨3, 4, 1, 1, 0, 50, 0⟩, ⟨4, 5, 1, 1, 1, 60, 1⟩, ⟨5, 6, 1, 1, 0, 70, 0⟩] })
     (t.entry 0).committed = 6 ∧ (t.entry 0).lastCommitted = 60 ∧ t.link.queue.map Frame.tag = [3, 4]) ∧
    (let t := after (.batchWriteComplete 0 0) ((batchingAs { series with
        state := .dropping, batches := [⟨3, 4, 1, 1, 0, 50, 0⟩] }).setDrops [⟨2, 0⟩])
     (t.entry 0).state = .free ∧ sent t = [[0x14, 23], [0x12, 0, 0]] ∧ t.drops = []) := by decide +kernel

theorem test_batchWriteComplete : let t := after (.batchWriteComplete 0 0) batching
    sent t = [[0x14, 0, 0, 4, 0, 0, 0, 1]] ∧ t.mem = [(0, 50), (6, 7)] ∧ (t.entry 0).committed = 5 := by decide +kernel

/-- The preserve of `preserving` with the read of its page ISSUED. -/
def preserveReading (e : Entry) : State :=
  (queueing [txn (.preserveRead 0 false) .read [record 10 7 0] true] preserving).setEntry 0 e

theorem test_meets_PreserveReadComplete :
    (preserveReading series).link.reset = none ∧
      (preserveReading series).issuedAt 0 0 = some (txn (.preserveRead 0 false) .read [record 10 7 0] true) ∧
      (preserveReading series).port.op = some preserveOp ∧
      (preserveOp.kind = .preserve ∧ preserveOp.phase = .pageRead ∧ preserveOp.result = none ∧
        preserveOp.abandoned = false) ∧
      ((preserveReading series).arr.queue.filter fun y => y.origin.ofImage) =
        [txn (.preserveRead 0 false) .read [record 10 7 0] true] ∧
      (preserveReading series).arr.waiting = [] ∧ ((preserveReading series).entry 0).oldest ≤ 0 ∧
      (0 < ((preserveReading { series with oldest := 1 }).entry 0).oldest ∧
        ((preserveReading { series with oldest := 1 }).entry 0).state ≠ .dropping ∧
        (preserveReading { series with oldest := 1 }).port.transfer = none) := by decide +kernel

/-- Two reads of a page, the one of its second part ISSUED; and the PRESERVE ENDING. -/
def secondRead : Txn := txn (.preserveRead 8 true) .read [record 20 7 0] true
def firstRead : Txn := { txn (.preserveRead 0 false) .read [record 10 7 0] false with place := some ⟨1, 0, 0, 1⟩ }
def pageReading (q : List Txn) (op : ImageOp) : State := (queueing q preserving).modPort fun p => { p with op := some op }
def deadRead : Txn := { txn (.preserveRead 0 false) .read [record 10 7 0] true with live := false }

theorem test_meets_PreserveReadComplete_parts :
    (let s := pageReading [firstRead, secondRead] preserveOp
     s.issuedAt 0 0 = some secondRead ∧ secondRead.live = true ∧
       2 ≤ (s.arr.queue.filter fun y => y.live && y.origin.ofImage).length ∧ (s.entry 0).oldest ≤ 8) ∧
    (let s := pageReading [secondRead] { preserveOp with half0 := [record 10 7 0] }
     s.issuedAt 0 0 = some secondRead ∧ (s.arr.queue.filter fun y => y.live && y.origin.ofImage) = [secondRead] ∧
       ([record 10 7 0] ++ secondRead.data).head? = some (record 10 7 0) ∧ preserveOp.page = 1) ∧
    (let s := (pageReading [{ firstRead with issued := true }, secondRead] preserveOp).setEntry 0 { series with oldest := 9 }
     s.issuedAt 0 0 = some secondRead ∧ 8 < (s.entry 0).oldest ∧ s.port.transfer = none ∧
       2 ≤ (s.arr.queue.filter fun y => y.issued && y.origin.ofImage).length) ∧
    (let s := pageReading [deadRead] endingOp
     s.issuedAt 0 0 = some deadRead ∧ deadRead.live = false ∧ endingOp.result = some .portTimeout ∧
       endingOp.abandoned = false ∧ s.port.transfer = none ∧
       (s.arr.queue.filter fun y => y.issued && y.origin.ofImage) = [deadRead]) ∧
    (let s := pageReading [deadRead, { firstRead with issued := true, live := false }] endingOp
     s.issuedAt 0 0 = some deadRead ∧ 2 ≤ (s.arr.queue.filter fun y => y.issued && y.origin.ofImage).length) := by
  decide +kernel

/-- The second part waits for the first; both write the page, whose first record gives the first stamp (R159, R160); and the
last read of an ENDING operation lets it answer (R156). -/
theorem test_preserve_parts :
    (let t := after (.preserveReadComplete 0 0) (pageReading [firstRead, secondRead] preserveOp)
     t.port.op = some { preserveOp with half1 := [record 20 7 0] } ∧ t.port.transfer = none) ∧
    ((after (.preserveReadComplete 0 0) (pageReading [secondRead] { preserveOp with half0 := [record 10 7 0] })).port.op.map
      fun o => (o.phase, o.firstStamp)) = some (.pageWrite, 10) ∧
    (sent (after (.preserveReadComplete 0 0) (pageReading [deadRead] endingOp))).map (fun p => p.take 2) = [[0x41, 26]] := by
  decide +kernel

/-- Bytes of each length the check speaks of, and inverted bits at the ends of its range. -/
theorem test_meets_PreserveReadComplete_check :
    ((List.replicate 519 (0 : Byte)).length = 519 ∧ (List.replicate 528 (0 : Byte)).length = 528 ∧
      (List.replicate 512 (0 : Byte)).length = 512) ∧ ((0 : Nat) < 4166 ∧ 4165 < 4166 ∧ 0 ≠ 4165) := by decide +kernel

/-- Protected bits 0, 7 and 11 stand at the code positions 3, 12 and 17, past the powers of 2; each counts in bit 13. -/
theorem test_page_check :
    checkBytes [1] = [3, 0x20, 0, 0, 0, 0, 0, 0, 0] ∧ checkBytes [0x80] = [12, 0x20, 0, 0, 0, 0, 0, 0, 0] ∧
      checkBytes [0x81, 8] = [3 ^^^ 12 ^^^ 17, 0x20, 0, 0, 0, 0, 0, 0, 0] ∧ invertBit 11 [0x81, 0] = [0x81, 8] := by
  decide +kernel

theorem test_preserveReadComplete :
    (after (.preserveReadComplete 0 0) (preserveReading series)).port.transfer.map (fun t => (t.page, t.words.length)) =
      some (8193, 264) ∧
    (after (.preserveReadComplete 0 0) (preserveReading { series with oldest := 1 })).port.op = none := by decide +kernel

/-- The recover of `recovering` with its last write ISSUED. -/
def recoverWriting : State := queueing [txn .recoverWrite .write [record 10 7 0] true] recovering

theorem test_meets_RecoverWriteComplete :
    Memory.wf recoverWriting.mem ∧ recoverWriting.link.reset = none ∧
      recoverWriting.issuedAt 0 0 = some (txn .recoverWrite .write [record 10 7 0] true) ∧
      recoverWriting.port.op = some recoverOp ∧
      (recoverOp.kind = .recover ∧ recoverOp.phase = .pageRead ∧ recoverOp.result = none ∧ recoverOp.abandoned = false ∧
        recoverOp.header = some ⟨1, 1, 0, 2, 0, 0, 1, 0, 4, 10, 40, 4, 2⟩ ∧ recoverOp.formed = [] ∧
        (recoverOp.snapHead - recoverOp.snapOldest + 15) / 16 ≤ recoverOp.page) ∧
      recoverWriting.port.transfer = none ∧
      (recoverWriting.arr.queue.filter fun y => y.origin.ofImage) = [txn .recoverWrite .write [record 10 7 0] true] ∧
      recoverWriting.arr.waiting = [] := by decide +kernel

/-- A write of a RECOVER with another outstanding, with records formed, before the last page, and of one that is ENDING. -/
def recoverWrite (live : Bool) : Txn := { txn .recoverWrite .write [record 10 7 0] true with live := live }
def otherWrite : Txn := { recoverWrite true with place := some ⟨1, 0, 0, 1⟩, issued := false }
def formedOp : ImageOp := { recoverOp with snapHead := 18, page := 2, formed := [record 50 7 0, record 60 7 0] }
def recoverAt (q : List Txn) (op : ImageOp) : State := (queueing q recovering).modPort fun p => { p with op := some op }
def endingRecover : ImageOp := { recoverOp with phase := .ending, result := some .cancelled }

theorem test_meets_RecoverWriteComplete_ways :
    (let s := recoverAt [recoverWrite true, otherWrite] recoverOp
     s.issuedAt 0 0 = some (recoverWrite true) ∧ (recoverWrite true).place = some ⟨0, 0, 0, 1⟩ ∧
       2 ≤ (s.arr.queue.filter fun y => y.live && y.origin.ofImage).length) ∧
    (let s := recoverAt [recoverWrite true] { formedOp with page := 1, formed := [] }
     (s.arr.queue.filter fun y => y.live && y.origin.ofImage) = [recoverWrite true] ∧
       1 < (formedOp.snapHead - formedOp.snapOldest + 15) / 16) ∧
    (formedOp.formed ≠ [] ∧ (recoverAt [recoverWrite true] formedOp).arr.waiting = [] ∧
      (recoverAt [recoverWrite true] formedOp).arr.queue.length ≤ 31) ∧
    (let s := recoverAt [recoverWrite false] endingRecover
     s.issuedAt 0 0 = some (recoverWrite false) ∧ endingRecover.result = some .cancelled ∧
       endingRecover.abandoned = false ∧ s.port.transfer = none ∧
       (s.arr.queue.filter fun y => y.issued && y.origin.ofImage) = [recoverWrite false]) ∧
    (let s := recoverAt [recoverWrite false, { otherWrite with issued := true, live := false }] endingRecover
     2 ≤ (s.arr.queue.filter fun y => y.issued && y.origin.ofImage).length) := by decide +kernel

/-- The records formed meanwhile are written (R165); the last write of an ENDING operation is stored and lets it answer
(R156). -/
theorem test_recover_ways :
    (after (.recoverWriteComplete 0 0) (recoverAt [recoverWrite true] formedOp)).arr.queue.map Txn.data =
        [[record 50 7 0, record 60 7 0]] ∧
      (let t := after (.recoverWriteComplete 0 0) (recoverAt [recoverWrite false] endingRecover)
       (sent t).map (fun p => p.take 2) = [[0x42, 22]] ∧ t.mem = [(0, 10), (6, 7)] ∧ t.port.op = none) := by decide +kernel

/-- The report names the base of the range taken, which a base override gives (log 23). -/
theorem test_recover_report :
    ((sent (after (.recoverWriteComplete 0 0) recoverWriting)).map fun p => p.take 16) =
      [[0x42, 0, 0, 2, 0, 0, 0, 0, 0, 2, 0, 0, 1, 0, 0, 0]] := by decide +kernel

theorem test_recoverWriteComplete : let t := after (.recoverWriteComplete 0 0) recoverWriting
    (t.entry 0).state = .sealed ∧ (t.entry 0).image = some ⟨2, 4⟩ ∧ t.mem = [(0, 10), (6, 7)] := by decide +kernel

/-! ### The preserve port -/

theorem test_meets_SetPreservePort :
    ready.Admits 1 ∧ (preserving.Admits 1 ∧ preserving.port.op ≠ none) ∧ ready.port.op = none ∧
      portFault defaultPort = none ∧ portFault ⟨16, 64, 16, 8, 1, 1, 255, 1, 63550⟩ = none ∧
      portFault { defaultPort with setup := 0 } = some 0 ∧ portFault { defaultPort with slotCount := 64, slotPages := 1 } = some 8 ∧
      (63550 < (64 : Byte).toNat * (993 : Half).toNat ∧
        portFault { defaultPort with slotCount := 64, slotPages := 993 } = some 8) := by decide +kernel

theorem test_setPreservePort :
    let t := after (.setPreservePort 1 { defaultPort with slotPages := 100 }) (store { series with image := some ⟨2, 4⟩, dirty := false })
    (t.entry 0).image = none ∧ (t.entry 0).dirty = true := by decide +kernel

theorem test_meets_Preserve :
    (store series).Admits 1 ∧ (32 ≤ (32 : Byte).toNat ∧ (store series).port.settings.slotCount.toNat ≤ (8 : Byte).toNat) ∧
      (7 : Byte).toNat < (store series).port.settings.slotCount.toNat ∧ ((store series).entry 1).state = .free ∧
      ((store { series with state := .lost }).entry 0).state = .lost ∧ (recovering.entry 0).state = .recovering ∧
      (dies Die.reset0 (store series)).rangeUsable 0 1 = false ∧ (preserving.Admits 1 ∧ preserving.port.op ≠ none) ∧
      ((store series).port.op = none ∧ (store series).rangeUsable 0 1 = true ∧
        1 + (4 - 0 + 15) / 16 ≤ (store series).port.settings.slotPages.toNat) ∧
      (let s := (store { series with committed := 17, reserved := 17 }).modPort fun p =>
        { p with settings := { p.settings with slotPages := 2 } }
       s.Admits 1 ∧ s.port.settings.slotPages.toNat < 1 + (17 - 0 + 15) / 16) := by decide +kernel

theorem test_preserve : let t := after (.preserve 1 0 2) (store { series with image := some ⟨2, 4⟩, dirty := false })
    (t.port.transfer.map fun x => (x.page, x.begun)) = some (8192, true) ∧ (t.entry 0).image = none := by decide +kernel

theorem test_meets_Recover :
    ready.Admits 1 ∧ (32 ≤ (32 : Byte).toNat ∧ ready.port.settings.slotCount.toNat ≤ (8 : Byte).toNat ∧
      (32768 ≤ (32768 : Half).toNat ∧ (32767 : Half).toNat < 32768)) ∧ ((store series).entry 0).state = .opened ∧
      ((ready.entry 0).state = .free ∧ (∃ d : Fin 2, (ready.die d).usable = true) ∧ ready.port.op = none) ∧
      (∀ d : Fin 2, (State.reset.die d).usable = false) ∧
      (preserving.port.op ≠ none ∧ (preserving.entry 1).state = .free) := by decide +kernel

theorem test_recover : (after (.recover 1 2 0 1 100) ready).port.op.map ImageOp.baseOverride = some (some 100) ∧
    sent (after (.recover 1 2 0 1 32768) ready) = [[0x42, 3, 0xFF]] := by decide +kernel

/-- A transfer of the header page, at an access. -/
def transferring (x : Transfer) (op : ImageOp) : State :=
  (holding 8 .preserve (store series)).modPort fun p => { p with transfer := some x, op := some op }

/-- A read, and a write of the last word. -/
def reading : Transfer := ⟨.read, 0, 262, List.replicate 262 0xFFFF, 1023, false, true⟩
def lastWrite : Transfer := ⟨.write, 0, 263, List.replicate 264 0, 0, false, true⟩

theorem test_meets_PortAccess :
    ready.port.transfer = none ∧ (transferring { reading with begun := false } preserveOp).port.transfer =
        some { reading with begun := false } ∧ reading.begun = true ∧ reading.timedOut = false ∧
      ((transferring reading preserveOp).port.settings.waitEnable = 1 ∧
        (transferring reading preserveOp).port.settings.waitPolarity = 0) ∧
      reading.extension < ((transferring reading preserveOp).port.settings.maxWaitCode.toNat + 1) * 16 ∧
      ((transferring reading preserveOp).port.op = some preserveOp ∧ preserveOp.result = none ∧
        preserveOp.abandoned = false ∧ reading.index < 263) := by decide +kernel

/-- An access under way of an operation that is ENDING, and of one that RESET abandoned. -/
def abandoning : State :=
  (transferring reading { preserveOp with abandoned := true }).modLink fun l => { l with reset := some ⟨1, 1, 2⟩ }

theorem test_meets_PortAccess_ending :
    (let s := endingAt (some reading) ready
     s.port.transfer = some reading ∧ s.port.op = some endingOp ∧ reading.begun = true ∧ s.port.waits true = false ∧
       endingOp.result = some .portTimeout ∧ endingOp.abandoned = false ∧ s.link.reset = none ∧ s.arr.queue = []) ∧
    (let s := queueing [deadRead] (endingAt (some reading) ready)
     ∃ y ∈ s.arr.queue, y.issued = true ∧ y.origin.ofImage = true) ∧
    (abandoning.port.transfer = some reading ∧ abandoning.port.op = some { preserveOp with abandoned := true } ∧
      abandoning.port.waits true = false ∧ abandoning.link.reset = some ⟨1, 1, 2⟩ ∧ abandoning.arr.queue = []) ∧
    (∃ y ∈ (queueing [deadRead] abandoning).arr.queue, y.issued = true ∧ y.origin ≠ .statusRead) := by decide +kernel

theorem test_port_ending :
    (sent (after (.portAccessEnd true 0) (endingAt (some reading) ready))).map (fun p => p.take 2) = [[0x41, 26]] ∧
      sent (after (.portAccessEnd true 0) (queueing [deadRead] (endingAt (some reading) ready))) = [] ∧
      sent (after (.portAccessEnd true 0) abandoning) = [[0x05, 0, 1, 2]] := by decide +kernel

theorem test_portAccessEnd :
    (after (.portAccessEnd false 0) (transferring reading preserveOp)).port.transfer.map Transfer.extension = some 1024 ∧
      (after (.portAccessEnd true 7) (transferring reading preserveOp)).port.transfer.map Transfer.index = some 263 := by
  decide +kernel
theorem test_accessTimeout :
    (after (.accessTimeout false) (transferring reading preserveOp)).port.transfer.map Transfer.timedOut = some true := by
  decide +kernel
theorem test_turnaroundElapsed :
    (after .turnaroundElapsed (transferring { lastWrite with begun := false } preserveOp)).port.lastDir = .write := by
  decide +kernel

/-- A header of a SEALED series of one stripe, two lanes and four records. -/
def oldHeader : ImageHeader := ⟨1, 6, 0, 2, 0, 0, 1, 0, 4, 10, 40, 4, 2⟩

/-- The last access of a page that a RECOVER reads: its words, and whether an access timed out. -/
def loading (words : List Half) (timedOut : Bool) (op : ImageOp) (s : State) : State :=
  (holding 8 .recover s).modPort fun p => { p with
    op := some op, transfer := some ⟨.read, 8192, 263, words, 0, timedOut, true⟩ }

/-- The header page of an image, and a RECOVER that reads it. -/
def headerPage (h : ImageHeader) : List Byte := pageBytes (headerBytes h) 0 h.generation 0
def headerOp : ImageOp := ImageOp.start .recover 8 2 0

/-- Entry 0 LOST, and entry 1 as given. -/
def lostBeside (e : Entry) : State := (store { series with state := .lost }).setEntry 1 e

/-- The words of a page up to its last, which is 0: check bytes 7 and 8 (R153). -/
def words (bytes : List Byte) : List Half := wordsOfBytes (bytes.take 526)

theorem test_meets_PortAccess_header :
    let s := loading (words (headerPage oldHeader)) false headerOp (lostBeside Entry.free)
    s.port.op = some headerOp ∧ (headerOp.kind = .recover ∧ headerOp.result = none ∧ headerOp.abandoned = false ∧
      headerOp.phase = .headerRead ∧ headerOp.header = none ∧ headerOp.detail = []) ∧
    (s.port.transfer.map fun x => (x.begun, x.dir, x.index, x.timedOut)) = some (true, .read, 263, false) ∧
    s.port.waits true = false ∧ s.link.reset = none ∧ (s.entry 0).state = .lost ∧
    s.arr.queue ++ s.arr.waiting = [] := by decide +kernel

/-- The header page is read CLEAN and passes every test of R163 and R164. -/
theorem test_meets_PortAccess_sound :
    classPage (bytesOfWords (words (headerPage oldHeader) ++ [0])) false = (.clean, headerPage oldHeader) ∧
      headerOf (headerPage oldHeader) = oldHeader ∧ oldHeader.consistent 4096 = true ∧
      magicOk (headerPage oldHeader) = true ∧ byteAt (headerPage oldHeader) 4 = 1 ∧
      pageIndexOf (headerPage oldHeader) = 0 ∧ pageRecordsOf (headerPage oldHeader) = 0 ∧
      pageGenerationOf (headerPage oldHeader) = oldHeader.generation ∧
      (lostBeside Entry.free).rangeUsable oldHeader.base oldHeader.count = true ∧
      (lostBeside Entry.free).overlapping oldHeader.base oldHeader.count (some 0) = none := by
  refine ⟨?_, by decide +kernel⟩
  rw [words, headerPage, Laws.bytesOfWords_page (by decide +kernel)]
  exact Laws.classPage_formed (by decide +kernel) _ _ _

/-- What the end of the header page leads to: IMAGE_DAMAGED, the three tests of the stripe step, the first data page, and
with no record the completion (R163, R164, R166). -/
theorem test_recover_header :
    let step := fun (h : ImageHeader) (s : State) => ((loading [] false headerOp s).setTransfer none).stripeStep headerOp h
    let answer := fun t : State => (sent t).map fun p => p.take 2 ++ p.drop 28
    answer (after (.portAccessEnd true 0) (loading [] true headerOp (lostBeside Entry.free))) = [[0x42, 29]] ∧
    answer (step { oldHeader with base := 32768 } (lostBeside Entry.free)) = [[0x42, 3, 0xFF]] ∧
    answer (step oldHeader (dies Die.reset0 (lostBeside Entry.free))) = [[0x42, 13]] ∧
    answer (step oldHeader (lostBeside { series with count := 2 })) = [[0x42, 12, 1]] ∧
    (let t := step { oldHeader with base := 32767 } (lostBeside series)
     (t.entry 0).state = .recovering ∧ (t.entry 0).base = 32767 ∧ (t.port.transfer.map Transfer.page) = some 8193) ∧
    (let t := step { oldHeader with head := 0, records := 0 } (lostBeside Entry.free)
     answer t = [[0x42, 0]] ∧ (t.entry 0).state = .sealed ∧ (t.entry 0).image = some ⟨2, 0⟩) := by decide +kernel

/-- The data page of that image. -/
def fourRecords : List Record := [record 10 7 1, record 20 7 2, record 30 7 3, record 40 7 4]
def dataPage : List Byte := pageBytes (fillPage (recordsBytes fourRecords)) 1 6 4

/-- The RECOVER at that page. -/
def pageOp : ImageOp := { recoverOp with generation := 6, header := some oldHeader, lastStamp := 10 }

theorem test_meets_PortAccess_page :
    pageOp.phase = .pageRead ∧ pageOp.header = some oldHeader ∧
      (let s := loading [] false pageOp (store { series with state := .recovering })
       (∀ y ∈ s.arr.queue ++ s.arr.waiting, y.origin.ofImage = false) ∧ s.arr.queue.length + 2 ≤ 32) ∧
      (let s := queueing [txn .recoverWrite .write [record 10 7 0] true] recovering
       ∃ y ∈ s.arr.queue ++ s.arr.waiting, y.live = true ∧ y.origin.ofImage = true) ∧
      pageOp.page = (pageOp.snapHead - pageOp.snapOldest + 15) / 16 ∧
      1 < (({ pageOp with snapHead := 17 } : ImageOp).snapHead - pageOp.snapOldest + 15) / 16 := by decide +kernel

/-- The page is sound at its place, and damaged at another (R165). -/
theorem test_page_sound :
    classPage (bytesOfWords (words dataPage ++ [0])) false = (.clean, dataPage) ∧
      pageSound .clean dataPage oldHeader 1 4 10 = true ∧ pageSound .clean dataPage oldHeader 2 4 10 = false ∧
      pageSound .clean dataPage oldHeader 1 4 11 = false ∧ recordsOf 4 dataPage = fourRecords := by
  refine ⟨?_, by decide +kernel⟩
  rw [words, dataPage, Laws.bytesOfWords_page (by decide +kernel)]
  exact Laws.classPage_formed (by decide +kernel) _ _ _

/-- A page that timed out is written as damaged records (R165). -/
theorem test_recover_page :
    let t := after (.portAccessEnd true 0) (loading [] true pageOp (store { series with state := .recovering }))
    t.arr.queue.map Txn.data = [List.replicate 4 (damagedRecord 2 10)] ∧
      (t.port.op.map fun o => (o.damaged, o.timedOut, o.lastStamp)) = some (1, 1, 10) := by decide +kernel

/-- A PRESERVE at its final header. -/
def finalOp : ImageOp := { preserveOp with phase := .finalWrite }

theorem test_meets_PreserveEnds :
    (transferring lastWrite finalOp).port.transfer = some lastWrite ∧ (transferring lastWrite finalOp).port.op = some finalOp ∧
      (finalOp.kind = .preserve ∧ finalOp.phase = .finalWrite ∧ finalOp.result = none ∧ finalOp.abandoned = false) ∧
      (lastWrite.begun = true ∧ lastWrite.dir = .write ∧ lastWrite.timedOut = false ∧ lastWrite.index = 263) ∧
      (transferring lastWrite finalOp).link.reset = none ∧ ((transferring lastWrite finalOp).entry 0).state ≠ .dropping ∧
      (transferring lastWrite finalOp).port.waits true = false ∧ (transferring lastWrite finalOp).arr.queue = [] ∧
      (transferring lastWrite finalOp).arr.waiting = [] ∧ ({ lastWrite with timedOut := true } : Transfer).timedOut = true := by
  decide +kernel

/-- The last access of the old header's page under a PRESERVE. -/
def headerReading (timedOut : Bool) : State :=
  transferring ⟨.read, 8192, 263, words (headerPage oldHeader), 0, timedOut, true⟩
    { preserveOp with phase := .headerRead, generation := 0, page := 0 }

theorem test_meets_PreserveEnds_pages :
    (let s := headerReading false
     s.link.reset = none ∧ (s.entry 0).state ≠ .dropping ∧ s.arr.queue ++ s.arr.waiting = [] ∧
       s.port.waits true = false ∧ (s.port.transfer.map fun x => (x.begun, x.dir, x.index, x.timedOut)) =
         some (true, .read, 263, false)) ∧
    (let op := { preserveOp with phase := .headerWrite, page := 0 }
     op.phase = .headerWrite ∧ 0 < (op.snapHead - op.snapOldest + 15) / 16 ∧
       (({ op with snapHead := 0 } : ImageOp).snapHead - op.snapOldest + 15) / 16 ≤ 0 ∧
       (transferring lastWrite op).arr.queue.length + 2 ≤ 32) ∧
    (let op := { preserveOp with phase := .pageWrite }
     (op.snapHead - op.snapOldest + 15) / 16 ≤ op.page ∧
       op.page < (({ op with snapHead := 17 } : ImageOp).snapHead - op.snapOldest + 15) / 16) := by decide +kernel

/-- A header read that timed out gives generation 1 (R158); the WRITING header is followed by the first page's read, the
last page by the COMPLETE header (R159, R160). -/
theorem test_preserve_pages :
    ((after (.portAccessEnd true 0) (headerReading true)).port.op.map fun o => (o.phase, o.generation)) =
        some (.headerWrite, 1) ∧
      (after (.portAccessEnd true 0) (transferring lastWrite
        { preserveOp with phase := .headerWrite, page := 0 })).arr.queue.map Txn.origin = [.preserveRead 0 false] ∧
      ((after (.portAccessEnd true 0) (transferring lastWrite { preserveOp with phase := .pageWrite })).port.op.map
        fun o => (o.phase, o.page, o.pagesWritten)) = some (.finalWrite, 0, 1) := by decide +kernel

theorem test_preserve_ends :
    let t := after (.portAccessEnd true 0) (transferring lastWrite finalOp)
    (t.entry 0).image = some ⟨2, 4⟩ ∧ (t.entry 0).dirty = false ∧ ((sent t).map fun p => p.take 2) = [[0x41, 0]] := by
  decide +kernel

end Sys2Proof.Tests
end

section
/-! PROOFS. APPEND (R25 to R27): its payload reads back, its checks decide in their order, and a batch that passes them
joins its entry's list, its writes the access queue. -/

namespace Sys2Proof.Appending

open Sys2Proof.Machine Sys2Proof.Laws

/-! ### The payload reads back (R187, R188, R190) -/

theorem fieldAt_skip {w k : Nat} (pre rest : List Byte) (h : pre.length ≤ k) :
    fieldAt w (pre ++ rest) k = fieldAt w rest (k - pre.length) := by
  unfold fieldAt
  rw [List.drop_append, List.drop_of_length_le h, List.nil_append]

theorem recordOf_recordBytes (r : Record) : recordOf (recordBytes r) = r := by
  have head16 : ∀ (v : BitVec 16) post, fieldAt 16 (fieldBytes v ++ post) 0 = v := fun v post => fieldAt16 [] post v rfl
  have head32 : ∀ (v : BitVec 32) post, fieldAt 32 (fieldBytes v ++ post) 0 = v := fun v post => fieldAt32 [] post v rfl
  have head48 : ∀ (v : BitVec 48) post, fieldAt 48 (fieldBytes v ++ post) 0 = v := fun v post => fieldAt48 [] post v rfl
  have last32 : ∀ v : BitVec 32, fieldAt 32 (fieldBytes v) 0 = v := fun v => by simpa using head32 v []
  have lanes : r.lanes = #v[r.lanes[0], r.lanes[1], r.lanes[2], r.lanes[3], r.lanes[4], r.lanes[5]] := by
    ext i hi
    match i, hi with
    | 0, _ | 1, _ | 2, _ | 3, _ | 4, _ | 5, _ => rfl
  obtain ⟨stamp, source, ls⟩ := r
  simp only [recordOf, recordBytes, List.append_assoc, Record.mk.injEq]
  refine ⟨head48 _ _, ?_, Eq.trans ?_ lanes.symm⟩
  all_goals simp [fieldAt_skip, fieldBytes_length, head16, head32, last32]

theorem recordsOf_recordsBytes (rs : List Record) : recordsOf rs.length (recordsBytes rs) = rs := by
  induction rs with
  | nil => rfl
  | cons r rs ih =>
    have hl : (recordBytes r).length = 32 := recordBytes_length r
    simp only [List.length_cons, recordsOf, recordsBytes]
    rw [List.take_left' hl, List.drop_left' hl, recordOf_recordBytes, ih]

theorem appendPayload_length (series count : Byte) (rs : List Record) :
    (Request.append series count rs).payload.length = 32 * rs.length + 2 := by
  simp [Request.payload, recordsBytes_length]

theorem appendPayload_readsBack (series count : Byte) (rs : List Record) :
    Request.ofPayload .append (Request.append series count rs).payload = .append series count rs := by
  have hn : ((Request.append series count rs).payload.length - 2) / 32 = rs.length := by
    rw [appendPayload_length]; omega
  unfold Request.ofPayload
  rw [hn]
  exact congrArg _ (recordsOf_recordsBytes rs)

/-! ### The request is taken -/

section taken

variable {s : State} {tag series count : Byte} {rs : List Record}

/-- An APPEND that fits its frame is taken by the store unit at once. -/
theorem exec_append (hA : s.Admits tag) (hl : rs.length ≤ 30) :
    exec (.append tag series count rs) s =
      .next (landed (takeAppend tag series count rs (taking tag (.append series count rs) s))) := by
  let req := Request.append series count rs
  have hlen : req.kind.lengthOk req.payload.length = true := by
    rw [appendPayload_length]
    simp [req, Request.kind, Kind.lengthOk]
    omega
  have e : exec (.append tag series count rs) s = .next (hostRequest tag (.append series count rs) s) := rfl
  rw [e, hostRequest_taken hA (by simp [Request.kind]) hlen (appendPayload_readsBack series count rs)]
  rfl

/-- A refusal of the store unit is the whole answer: nothing else changes. -/
theorem exec_append_refused {r : Result} {detail : List Byte} (hA : s.Admits tag) (hl : rs.length ≤ 30)
    (h : let t := taking tag (.append series count rs) s
      takeAppend tag series count rs t = t.respond tag .append r detail) :
    exec (.append tag series count rs) s = .next (s.answered tag .append r detail) := by
  rw [exec_append hA hl, h]
  exact congrArg _ (landed_answer s tag (.append series count rs) hA r detail)

theorem seriesOf_bad (h : 32 ≤ series.toNat) : seriesOf series = none := dif_neg (by omega)

theorem seriesOf_id {i : Fin 32} (h : series.toNat = i.val) : seriesOf series = some i := by
  unfold seriesOf
  rw [dif_pos (by omega)]
  exact congrArg some (Fin.ext h)

/-! What the store unit answers, check by check (R25). -/

theorem takeAppend_badSeries (h : 32 ≤ series.toNat) :
    takeAppend tag series count rs s = s.respond tag .append .badValue [0xFF] := by
  unfold takeAppend
  rw [seriesOf_bad h]
  rfl

variable {i : Fin 32}

theorem takeAppend_state {r : Result} (hs : series.toNat = i.val) (h : refusalToWrite (s.entry i).state = some r) :
    takeAppend tag series count rs s = s.respond tag .append r [] := by
  simp only [takeAppend, seriesOf_id hs, h]

theorem takeAppend_notReady (hs : series.toNat = i.val) (ho : (s.entry i).state = .opened)
    (h : s.rangeUsable (s.entry i).base (s.entry i).count = false) :
    takeAppend tag series count rs s = s.respond tag .append .notReady [] := by
  simp only [takeAppend, seriesOf_id hs, ho, refusalToWrite, h, if_true]

theorem takeAppend_fault {r : Result} {detail : List Byte} (hs : series.toNat = i.val)
    (ho : (s.entry i).state = .opened) (hu : s.rangeUsable (s.entry i).base (s.entry i).count = true)
    (h : (s.entry i).appendFault count.toNat rs = some (r, detail)) :
    takeAppend tag series count rs s = s.respond tag .append r detail := by
  simp only [takeAppend, seriesOf_id hs, ho, refusalToWrite, hu, h, Bool.true_eq_false, if_false]

theorem takeAppend_passed (hs : series.toNat = i.val) (ho : (s.entry i).state = .opened)
    (hu : s.rangeUsable (s.entry i).base (s.entry i).count = true)
    (h : (s.entry i).appendFault count.toNat rs = none) :
    takeAppend tag series count rs s =
      (s.setEntry i ((s.entry i).withBatch tag rs)).issueAll ((s.entry i).batchWrites i tag rs) := by
  simp only [takeAppend, seriesOf_id hs, ho, refusalToWrite, hu, h, Bool.true_eq_false, if_false]

end taken

/-! ### The checks of the batch (R25, checks 4 to 8) -/

/-- No record lies below the one before it, the first not below `last`. -/
abbrev Rising (last : Stamp) (rs : List Record) : Prop :=
  (last :: rs.map Record.stamp).Pairwise fun x y => x.toNat ≤ y.toNat

theorem rising_cons {last : Stamp} {r : Record} {rs : List Record} (h : Rising last (r :: rs)) :
    last.toNat ≤ r.stamp.toNat ∧ Rising r.stamp rs :=
  ⟨List.rel_of_pairwise_cons h (by simp), h.of_cons⟩

theorem firstDisorder_rising {last : Stamp} {rs : List Record} (index : Nat) (h : Rising last rs) :
    firstDisorder index last.toNat rs = none := by
  induction rs generalizing last index with
  | nil => rfl
  | cons r rs ih =>
    obtain ⟨hr, hrs⟩ := rising_cons h
    simp only [firstDisorder, if_neg (Nat.not_lt.mpr hr), ih (index + 1) hrs]

/-- The first record below the one before it is found at its own index. -/
theorem firstDisorder_first {last : Stamp} {before after : List Record} {r : Record} (index : Nat)
    (h : Rising last before) (hr : r.stamp.toNat < (lastStampOf last before).toNat) :
    firstDisorder index last.toNat (before ++ r :: after) = some (index + before.length) := by
  induction before generalizing last index with
  | nil => exact if_pos hr
  | cons b bs ih =>
    obtain ⟨hb, hbs⟩ := rising_cons h
    have hl : lastStampOf last (b :: bs) = lastStampOf b.stamp bs := by
      unfold lastStampOf
      rw [List.getLast?_cons]
      cases bs.getLast? <;> rfl
    simp only [List.cons_append, firstDisorder, if_neg (Nat.not_lt.mpr hb), ih (index + 1) hbs (hl ▸ hr),
      List.length_cons]
    congr 1
    omega

section faults

variable {e : Entry} {count : Nat} {rs : List Record}

theorem appendFault_badCount (h : count = 0 ∨ 30 < count) : e.appendFault count rs = some (.badValue, [0xFF]) := by
  have hw : within 1 30 count = false := by simp [within]; omega
  simp [Entry.appendFault, hw]

variable (h1 : 1 ≤ count) (h30 : count ≤ 30)
include h1 h30

/-- With a count from 1 to 30, the checks that follow. -/
theorem appendFault_counted : e.appendFault count rs =
    if rs.length ≠ count then some (.badLength, [])
    else
      match firstDisorder 0 e.lastReserved.toNat rs with
      | some index => some (.order, [BitVec.ofNat 8 index] ++ fieldBytes e.lastReserved)
      | none =>
        if 4294967295 < e.reserved + count then some (.seqExhausted, leBytes 4 e.reserved)
        else if e.policy = .halt ∧ e.capacity < e.reserved + count - e.oldest then
          some (.full, [BitVec.ofNat 8 (e.capacity - e.fill)])
        else none := by
  have hw : within 1 30 count = true := by simp [within]; omega
  unfold Entry.appendFault
  rw [hw]
  rfl

theorem appendFault_badLength (h : rs.length ≠ count) : e.appendFault count rs = some (.badLength, []) := by
  rw [appendFault_counted h1 h30, if_pos h]

theorem appendFault_order {before after : List Record} {r : Record} (hl : rs.length = count)
    (hs : rs = before ++ r :: after) (hb : Rising e.lastReserved before)
    (hr : r.stamp.toNat < (lastStampOf e.lastReserved before).toNat) : e.appendFault count rs =
      some (.order, [BitVec.ofNat 8 before.length] ++ leBytes 6 e.lastReserved.toNat) := by
  rw [appendFault_counted h1 h30, if_neg (not_not_intro hl), hs, firstDisorder_first 0 hb hr, Nat.zero_add]
  rfl

variable (hl : rs.length = count) (ho : Rising e.lastReserved rs)
include hl ho

theorem appendFault_exhausted (h : 4294967295 < e.reserved + count) :
    e.appendFault count rs = some (.seqExhausted, leBytes 4 e.reserved) := by
  rw [appendFault_counted h1 h30, if_neg (not_not_intro hl), firstDisorder_rising 0 ho]
  exact if_pos h

variable (hx : e.reserved + count ≤ 4294967295)
include hx

theorem appendFault_full (hp : e.policy = .halt) (h : e.capacity < e.reserved + count - e.oldest) :
    e.appendFault count rs = some (.full, [BitVec.ofNat 8 (e.capacity - e.fill)]) := by
  rw [appendFault_counted h1 h30, if_neg (not_not_intro hl), firstDisorder_rising 0 ho]
  exact (if_neg (Nat.not_lt.mpr hx)).trans (if_pos ⟨hp, h⟩)

theorem appendFault_none (h : e.policy = .halt → e.reserved + count - e.oldest ≤ e.capacity) :
    e.appendFault count rs = none := by
  rw [appendFault_counted h1 h30, if_neg (not_not_intro hl), firstDisorder_rising 0 ho]
  exact (if_neg (Nat.not_lt.mpr hx)).trans (if_neg fun k => Nat.not_lt.mpr (h k.1) k.2)

end faults

/-! ### The writes of a batch wake their dies (R140) -/

/-- A die record as array work for the die leaves it. -/
def woken (x : Die) : Die :=
  if x.state = .resting then
    { x with state := .waking, activity := .none, banks := Vector.replicate 8 Bank.idle, timer := none, debt := 0 }
  else x

theorem woken_resting {x : Die} (h : x.state = .resting) : (woken x).state = .waking := by
  simp [woken, h]

theorem woken_awake {x : Die} (h : x.state ≠ .resting) : woken x = x := if_neg h

theorem woken_woken (x : Die) : woken (woken x) = woken x := by
  by_cases h : x.state = .resting
  · exact woken_awake (by rw [woken_resting h]; decide)
  · rw [woken_awake h, woken_awake h]

theorem beginWake_die (d d' : Fin 2) (s : State) :
    (s.beginWake d).die d' = if d = d' then woken (s.die d') else s.die d' := by
  unfold State.beginWake woken
  by_cases hd : d = d'
  · subst hd
    split <;> simp
  · rw [if_neg hd]
    split
    · exact setDie_die_other (Ne.symm hd) _ _
    · rfl

theorem issue_die {t : Txn} (h : t.origin ≠ .statusRead) (s : State) (d : Fin 2) :
    (s.issue t).die d = if t.die = d then woken (s.die d) else s.die d := by
  unfold State.issue
  dsimp only
  rw [if_neg h, beginWake_die]
  by_cases hroom : s.arr.queue.length < 32 <;> simp only [hroom, if_true, if_false, setQueues_die]

theorem issueAll_die {ts : List Txn} (h : ∀ t ∈ ts, t.origin ≠ .statusRead) (s : State) (d : Fin 2) :
    (s.issueAll ts).die d = if ∃ t ∈ ts, t.die = d then woken (s.die d) else s.die d := by
  induction ts generalizing s with
  | nil => simp [State.issueAll, forEach]
  | cons t ts ih =>
    have he : s.issueAll (t :: ts) = (s.issue t).issueAll ts := rfl
    rw [he, ih (fun x hx => h x (by simp [hx])), issue_die (h t (by simp))]
    by_cases ht : t.die = d <;> by_cases hts : ∃ x ∈ ts, x.die = d <;> simp [ht, hts, woken_woken]

/-- Writes that find room join the queue in list order; nothing else changes but their dies. -/
theorem issueAll_room {ts : List Txn} {s : State} (h : s.arr.queue.length + ts.length ≤ 32) :
    ∃ dies, s.issueAll ts = { s with arr := { s.arr with queue := s.arr.queue ++ ts, dies := dies } } := by
  have he := issueEach_room ts id s h
  rwa [List.map_id] at he

/-! ### A batch that passes its checks (R26, R27) -/

theorem batchWrites_length_le (e : Entry) (i : Fin 32) (tag : Byte) (rs : List Record) :
    (e.batchWrites i tag rs).length ≤ 2 := by
  simpa [Entry.batchWrites] using cut_length_le e e.reserved rs.length

theorem exists_batchWrite_die (e : Entry) (i : Fin 32) (tag : Byte) (rs : List Record) (d : Fin 2) :
    (∃ t ∈ e.batchWrites i tag rs, t.die = d) ↔ ∃ part ∈ e.cut e.reserved rs.length, e.dieOf part.1 = d := by
  unfold Entry.batchWrites
  constructor
  · rintro ⟨t, ht, h⟩
    obtain ⟨part, hp, rfl⟩ := List.mem_map.mp ht
    exact ⟨part, hp, h⟩
  · rintro ⟨part, hp, h⟩
    exact ⟨_, List.mem_map_of_mem hp, h⟩

theorem lastStampOf_getD {rs : List Record} (h : rs ≠ []) (a b : Stamp) : lastStampOf a rs = lastStampOf b rs := by
  unfold lastStampOf
  rw [List.getLast?_eq_some_getLast h]
  rfl

/-- The state after an APPEND that passed: each part is known, the dies one by one. -/
theorem exec_append_passed {s : State} {tag series count : Byte} {rs : List Record} {i : Fin 32} (hA : s.Admits tag)
    (hl : rs.length ≤ 30) (hs : series.toNat = i.val) (ho : (s.entry i).state = .opened)
    (hu : s.rangeUsable (s.entry i).base (s.entry i).count = true)
    (hf : (s.entry i).appendFault count.toNat rs = none) (hq : s.arr.queue.length + 2 ≤ 32) :
    ∃ dies, exec (.append tag series count rs) s = .next { s with
        dir := s.dir.set i ((s.entry i).withBatch tag rs)
        arr := { s.arr with queue := s.arr.queue ++ (s.entry i).batchWrites i tag rs, dies := dies }
        table := s.table ++ [.admitted tag .append]
        link := { s.link with rxIdle := 0 } } ∧
      ∀ d : Fin 2, dies[d] =
        if ∃ part ∈ (s.entry i).cut (s.entry i).reserved rs.length, (s.entry i).dieOf part.1 = d then woken (s.die d)
        else s.die d := by
  let ts := (s.entry i).batchWrites i tag rs
  let u := (taking tag (.append series count rs) s).setEntry i ((s.entry i).withBatch tag rs)
  have hts : ∀ t ∈ ts, t.origin ≠ .statusRead := by
    intro t ht
    obtain ⟨part, -, rfl⟩ := List.mem_map.mp ht
    exact fun k => by cases k
  obtain ⟨dies, hroom⟩ := issueAll_room (s := u) (ts := ts)
    (Nat.le_trans (Nat.add_le_add_left (batchWrites_length_le _ _ _ _) _) hq)
  refine ⟨dies, ?_, fun d => ?_⟩
  · have hp : takeAppend tag series count rs (taking tag (.append series count rs) s) = u.issueAll ts :=
      takeAppend_passed hs ho hu hf
    rw [exec_append hA hl, hp, hroom]
    obtain ⟨⟨hrx, hbufs, hheld, hslot, hfree⟩, -⟩ := hA
    obtain ⟨_, link, _⟩ := s
    obtain ⟨⟩ := link
    simp only at hbufs hheld
    subst hbufs hheld
    rfl
  · have hd : (u.issueAll ts).die d = dies[d] := by rw [hroom]; rfl
    rw [← hd, issueAll_die hts]
    simp only [ts, exists_batchWrite_die]
    rfl

/-- The entry with its new batch, field by field (R26). -/
theorem withBatch_eq (e : Entry) (tag : Byte) {rs : List Record} (h : rs ≠ []) :
    let n := rs.length
    let last := (rs.getLast?.map Record.stamp).getD 0
    e.withBatch tag rs = { e with
      reserved := e.reserved + n, lastReserved := last
      oldest := if e.policy = .wrap ∧ 512 * e.count < e.reserved + n - e.oldest then e.reserved + n - 512 * e.count
        else e.oldest
      batches := e.batches ++ [⟨tag, e.reserved, n, (e.cut e.reserved n).length, 0, last, 0⟩] } := by
  unfold Entry.withBatch
  rw [lastStampOf_getD h e.lastReserved 0]
  rfl

/-- Settles O32: the checks of R25 in their order, then the batch and its writes. -/
theorem append : Obligations.Append := by
  refine ⟨?passes, ?refusals⟩
  case passes =>
    intro s tag series count rs i hA hs ho hu h1 h30 hc hrise hx hw hq
    have hf : (s.entry i).appendFault count.toNat rs = none :=
      appendFault_none (hc ▸ h1) (hc ▸ h30) hc.symm hrise (hc ▸ hx) (hc ▸ hw)
    obtain ⟨dies, hexec, hdies⟩ := exec_append_passed hA h30 hs ho hu hf hq
    refine ⟨_, hexec, ?entry, ?others, rfl, rfl, rfl, rfl, rfl, rfl, rfl, rfl, rfl, ?woken⟩
    case entry => exact (setEntry_entry_same i _ s).trans (withBatch_eq _ tag (List.ne_nil_of_length_pos h1))
    case others => exact fun j hj => setEntry_entry_other hj _ s
    case woken =>
      intro d
      have hd := hdies d
      split
      case isTrue h => exact (congrArg Die.state (hd.trans (if_pos h.2))).trans (woken_resting h.1)
      case isFalse h =>
        refine hd.trans ?_
        split
        case isTrue hpart => exact woken_awake fun hrest => h ⟨hrest, hpart⟩
        case isFalse => rfl
  case refusals =>
    intro s tag series count rs hA hl answers
    refine ⟨fun h => exec_append_refused hA hl (takeAppend_badSeries h), fun i hs => ?_⟩
    have byState : ∀ {r}, refusalToWrite (s.entry i).state = some r → answers r [] :=
      fun h => exec_append_refused hA hl (takeAppend_state hs h)
    refine ⟨?_, fun h => byState (by rw [h]; rfl), fun h => byState (by rw [h]; rfl),
      fun h => byState (by rw [h]; rfl), fun ho => ⟨fun hu => ?_, fun hu => ?_⟩⟩
    · rintro (h | h) <;> exact byState (by rw [h]; rfl)
    · exact exec_append_refused hA hl (takeAppend_notReady hs ho hu)
    · have byFault : ∀ {r detail}, (s.entry i).appendFault count.toNat rs = some (r, detail) → answers r detail :=
        fun h => exec_append_refused hA hl (takeAppend_fault hs ho hu h)
      refine ⟨fun h => byFault (appendFault_badCount h), fun h1 h30 => ⟨?length, fun hlen => ⟨?order, ?capacity⟩⟩⟩
      case length => exact fun h => byFault (appendFault_badLength h1 h30 h)
      case order => exact fun before r after h hb hr => byFault (appendFault_order h1 h30 hlen h hb hr)
      case capacity =>
        exact fun hrise => ⟨fun h => byFault (appendFault_exhausted h1 h30 hlen hrise h),
          fun hx hp h => byFault (appendFault_full h1 h30 hlen hrise hx hp h)⟩

end Sys2Proof.Appending
end

section
/-! PROOFS. The completion of a batch's write (R97, R28 to R30, R41, R43): what the completion does to the array and to
its die, the count of the batch, the commits from the head of the list, and the batches of a DROPPING entry. -/

namespace Sys2Proof.Appending

open Sys2Proof.Machine Sys2Proof.Laws

theorem setEntry_self (i : Fin 32) (s : State) : s.setEntry i (s.entry i) = s := by
  simp [State.setEntry, State.entry]

theorem setEntry_setEntry (i : Fin 32) (a b : Entry) (s : State) : (s.setEntry i a).setEntry i b = s.setEntry i b := by
  simp [State.setEntry]

/-! ### The write leaves the queue (R93, R97) -/

/-- The record of a die after a write of bank `b` has completed. -/
def written (x : Die) (b : Fin 8) : Die :=
  { x with path := .free, banks := x.banks.set b { x.banks[b] with recovering := true } }

/-- The completion of a write that has a place: the array's bytes, the die and the queue change, nothing else. -/
theorem completeWrite_eq {s : State} {d : Fin 2} {b : Fin 8} {x : Txn} {p : Place} (hp : x.place = some p) :
    ∃ q w, q ++ w = s.arr.queue.eraseP (fun t => t.issued && t.isFor d b) ++ s.arr.waiting ∧
      s.completeWrite d b x = { s with
        mem := Memory.putRecords s.mem d p x.data
        arr := { s.arr with dies := s.arr.dies.set d (written (s.die d) b), queue := q, waiting := w } } := by
  let u := (s.setMem (Memory.putRecords s.mem d p x.data)).setDie d { s.die d with path := .free }
  have hu : u.setBank d b { u.bank d b with recovering := true } = { s with
      mem := Memory.putRecords s.mem d p x.data
      arr := { s.arr with dies := s.arr.dies.set d (written (s.die d) b) } } := by
    simp [u, State.setBank, State.setDie, State.modArr, State.setMem, State.bank, State.die, written]
  obtain ⟨q, w, hqw, hl⟩ := leaveQueue_queues (fun t => t.issued && t.isFor d b)
    (u.setBank d b { u.bank d b with recovering := true })
  refine ⟨q, w, ?_, ?_⟩
  · rw [hqw, hu]
  · unfold State.completeWrite
    rw [hp]
    exact hl.trans (by rw [hu]; rfl)

/-- The transaction that is ISSUED at a bank leaves: one less is queued or waits. -/
theorem issuedAt_leaves {s : State} {d : Fin 2} {b : Fin 8} {x : Txn} (hx : s.issuedAt d b = some x) :
    (s.arr.queue.eraseP fun t => t.issued && t.isFor d b).length + 1 = s.arr.queue.length := by
  have h := List.find?_some hx
  have hm := List.mem_of_find?_eq_some hx
  have := List.length_pos_of_mem hm
  rw [List.length_eraseP_of_mem hm h]
  omega

/-! ### What a completion for series `i` can change beside the array -/

/-- `t` is `s` but for entry `i`, the table, the waiting DROPs and the outbound queue. -/
def Touches (i : Fin 32) (s t : State) : Prop :=
  ∃ e table drops queue, t = { s.setEntry i e with
    table := table, drops := drops, link := { s.link with queue := queue } }

theorem Touches.refl (i : Fin 32) (s : State) : Touches i s s :=
  ⟨s.entry i, s.table, s.drops, s.link.queue, by rw [setEntry_self]⟩

theorem Touches.trans {i : Fin 32} {s t u : State} (h : Touches i s t) (k : Touches i t u) : Touches i s u := by
  obtain ⟨e, _, _, _, rfl⟩ := h
  obtain ⟨e', table, drops, queue, rfl⟩ := k
  exact ⟨e', table, drops, queue, by simp [State.setEntry]⟩

theorem Touches.setEntry {i : Fin 32} {s t : State} (h : Touches i s t) (e : Entry) : Touches i s (t.setEntry i e) :=
  h.trans ⟨e, t.table, t.drops, t.link.queue, rfl⟩

theorem Touches.respond {i : Fin 32} {s t : State} (h : Touches i s t) (tag : Byte) (k : Kind) (r : Result)
    (fields : List Byte) : Touches i s (t.respond tag k r fields) :=
  h.trans ⟨t.entry i, _, t.drops, _, by rw [setEntry_self]; rfl⟩

theorem Touches.setDrops {i : Fin 32} {s t : State} (h : Touches i s t) (l : List DropOp) :
    Touches i s (t.setDrops l) :=
  h.trans ⟨t.entry i, t.table, l, t.link.queue, by rw [setEntry_self]; rfl⟩

theorem Touches.entry_other {i j : Fin 32} {s t : State} (h : Touches i s t) (hj : j ≠ i) : t.entry j = s.entry j := by
  obtain ⟨e, _, _, _, rfl⟩ := h
  exact setEntry_entry_other hj e s

theorem Touches.frame {i : Fin 32} {s t : State} (h : Touches i s t) :
    t.mem = s.mem ∧ t.arr = s.arr ∧ t.link.reset = s.link.reset := by
  obtain ⟨_, _, _, _, rfl⟩ := h
  exact ⟨rfl, rfl, rfl⟩

theorem commits_touches (i : Fin 32) (bs : List Batch) {s t : State} (h : Touches i s t) :
    Touches i s (State.commits i bs t) := by
  induction bs generalizing t with
  | nil => exact h
  | cons b rest ih =>
    unfold State.commits
    split
    · exact ih ((h.setEntry _).respond _ _ _ _)
    · exact h

theorem batchesGone_touches {i : Fin 32} {s t : State} (h : Touches i s t) : Touches i s (t.batchesGone i) := by
  unfold State.batchesGone forEach
  dsimp only
  generalize byFinish ((t.entry i).batches.filter Batch.complete) = bs
  replace h := h.setEntry { t.entry i with batches := (t.entry i).batches.filter fun b => !b.complete }
  generalize t.setEntry i _ = u at h
  induction bs generalizing u with
  | nil => exact h
  | cons b bs ih => exact ih _ (h.respond _ _ _ _)

theorem checkDrop_touches {i : Fin 32} {s t : State} (h : Touches i s t) : Touches i s (t.checkDrop i) := by
  unfold State.checkDrop
  split
  · dsimp only
    split
    · exact h.setEntry _
    · exact ((h.setEntry _).setDrops _).respond _ _ _ _
  · exact h

theorem batchWritten_touches (i : Fin 32) (tag : Byte) (s : State) : Touches i s (s.batchWritten i tag) := by
  unfold State.batchWritten
  dsimp only
  split
  · exact checkDrop_touches (batchesGone_touches ((Touches.refl i s).setEntry _))
  · exact commits_touches i _ ((Touches.refl i s).setEntry _)

/-- The completion of a batch's write: the write itself, and where its work goes on the count of the batch. -/
theorem batchWriteComplete_eq {s : State} {d : Fin 2} {b : Fin 8} {x : Txn} {i : Fin 32} {tag : Byte}
    (hr : s.link.reset = none) (hx : s.issuedAt d b = some x) (ho : x.origin = .batch i tag) :
    batchWriteComplete d b s =
      if x.live then (s.completeWrite d b x).batchWritten i tag else s.completeWrite d b x := by
  have hw : (s.completeWrite d b x).link = s.link := by
    unfold State.completeWrite
    cases x.place <;> rfl
  unfold batchWriteComplete
  simp only [hx, ho]
  apply checkReset_none
  split
  · rw [(batchWritten_touches i tag _).frame.2.2, hw, hr]
  · rw [hw, hr]

/-! ### The count of a batch (R28, R41) -/

theorem counted_waits {b : Batch} (place : Nat) (h : b.done + 1 < b.writes) :
    b.counted place = { b with done := b.done + 1 } := by
  simp [Batch.counted, Nat.not_le.mpr h]

theorem counted_complete {b : Batch} (place : Nat) (h : b.done + 1 = b.writes) : (b.counted place).complete = true := by
  simp [Batch.complete, Batch.counted, h]

theorem complete_iff (b : Batch) : b.complete = true ↔ b.writes ≤ b.done := by simp [Batch.complete]

theorem not_complete_iff (b : Batch) : b.complete = false ↔ b.done < b.writes := by simp [Batch.complete]

theorem nextFinish_eq (bs : List Batch) : nextFinish bs = (bs.map Batch.finish).foldr max 0 + 1 := by
  simp [nextFinish, List.foldr_map]

/-- Only the batch of the tag is counted. -/
theorem countWrite_split {before after : List Batch} {y : Batch} {tag : Byte} (hy : y.tag = tag)
    (h : ∀ z ∈ before ++ after, z.tag ≠ tag) :
    countWrite tag (before ++ y :: after) = before ++ y.counted (nextFinish (before ++ y :: after)) :: after := by
  have keep : ∀ l : List Batch, (∀ z ∈ l, z.tag ≠ tag) → ∀ n,
      l.map (fun b => if b.tag == tag then b.counted n else b) = l := fun l hl n =>
    (List.map_congr_left fun z hz => by simp [hl z hz]).trans (List.map_id l)
  unfold countWrite
  rw [List.map_append, List.map_cons, keep before fun z hz => h z (by simp [hz]),
    keep after fun z hz => h z (by simp [hz])]
  simp [hy]

theorem countWrite_head {h : Batch} {rest : List Batch} {tag : Byte} (ht : h.tag = tag)
    (hne : ∀ z ∈ rest, z.tag ≠ tag) :
    countWrite tag (h :: rest) = h.counted (nextFinish (h :: rest)) :: rest :=
  countWrite_split (before := []) ht hne

/-- The head is another batch: it stays as it is. -/
theorem countWrite_behind {h : Batch} {rest : List Batch} {tag : Byte} (ht : h.tag ≠ tag) :
    let place := ((h :: rest).map Batch.finish).foldr max 0 + 1
    countWrite tag (h :: rest) = h :: rest.map fun y => if y.tag = tag then
      { y with done := y.done + 1, finish := if y.writes ≤ y.done + 1 then place else y.finish } else y := by
  intro place
  unfold countWrite
  rw [nextFinish_eq]
  simp [ht, Batch.counted, place]

/-! ### Commits from the head of the list (R29, R30) -/

theorem commits_stop {i : Fin 32} {bs : List Batch} (h : ∀ y, bs.head? = some y → y.complete = false) (s : State) :
    State.commits i bs s = s := by
  cases bs with
  | nil => rfl
  | cons b rest => simp [State.commits, h b rfl]

/-- The response of an APPEND whose batch has committed (R29). -/
abbrev okFrame (i : Fin 32) (b : Batch) : Frame := Frame.response b.tag .append .ok (b.okFields i)

/-- A complete head commits, and after it each complete batch that follows, up to the first incomplete one. -/
theorem commits_run {i : Fin 32} {h : Batch} {ready left : List Batch} (hh : h.complete = true)
    (hready : ∀ y ∈ ready, y.complete = true) (hleft : ∀ y, left.head? = some y → y.complete = false) (s : State) :
    State.commits i (h :: (ready ++ left)) s = { s.setEntry i { s.entry i with
        committed := (s.entry i).committed + h.count + (ready.map Batch.count).sum
        lastCommitted := (ready.getLast?.map Batch.lastStamp).getD h.lastStamp, dirty := true, batches := left } with
      table := s.table.filter fun e => (h :: ready).all fun y => e.tag != y.tag
      link := { s.link with queue := s.link.queue ++ (h :: ready).map (okFrame i) } } := by
  induction ready generalizing h s with
  | nil =>
    simp only [State.commits, hh, if_true, List.nil_append, commits_stop hleft]
    simp [State.respond, State.enqueue, State.release, State.modLink, State.setTable, State.setEntry, Entry.commit]
  | cons r ready ih =>
    have hr := hready r (by simp)
    rw [List.cons_append, State.commits, if_pos hh, ih hr fun y hy => hready y (by simp [hy])]
    have hlast : ((r :: ready).getLast?.map Batch.lastStamp).getD h.lastStamp =
        (ready.getLast?.map Batch.lastStamp).getD r.lastStamp := by
      rw [List.getLast?_cons]
      cases ready.getLast? <;> rfl
    rw [hlast]
    simp [State.respond, State.enqueue, State.release, State.modLink, State.setTable, State.setEntry, State.entry,
      Entry.commit, List.filter_filter, Nat.add_assoc, Bool.and_comm, Bool.and_left_comm]

/-! ### A write of a batch of an entry that is not DROPPING (R28 to R30) -/

section pending

variable {s : State} {i : Fin 32} {tag : Byte}

theorem batchWritten_pending (hd : (s.entry i).state ≠ .dropping) {bs : List Batch}
    (hb : countWrite tag (s.entry i).batches = bs) :
    s.batchWritten i tag = State.commits i bs (s.setEntry i { s.entry i with batches := bs }) := by
  unfold State.batchWritten
  dsimp only
  rw [if_neg hd, hb]

/-- While the head of the list is incomplete nothing commits: the batch is counted in its place. -/
theorem batchWritten_waits (hd : (s.entry i).state ≠ .dropping) {bs : List Batch}
    (hb : countWrite tag (s.entry i).batches = bs) (h : ∀ y, bs.head? = some y → y.done < y.writes) :
    s.batchWritten i tag = s.setEntry i { s.entry i with batches := bs } := by
  rw [batchWritten_pending hd hb, commits_stop fun y hy => (not_complete_iff y).mpr (h y hy)]

/-- The first of two writes of the head commits nothing. -/
theorem batchWritten_head_waits {h : Batch} {rest : List Batch} (hd : (s.entry i).state ≠ .dropping)
    (hb : (s.entry i).batches = h :: rest) (ht : h.tag = tag) (hne : ∀ y ∈ rest, y.tag ≠ tag)
    (hdone : h.done + 1 < h.writes) : s.batchWritten i tag =
      s.setEntry i { s.entry i with batches := { h with done := h.done + 1 } :: rest } := by
  refine batchWritten_waits hd ?_ (by rintro y ⟨⟩; exact hdone)
  rw [hb, countWrite_head ht hne, counted_waits _ hdone]

/-- A batch behind an incomplete head is counted, and takes its place among the complete ones with its last write. -/
theorem batchWritten_behind {h : Batch} {rest : List Batch} (hd : (s.entry i).state ≠ .dropping)
    (hb : (s.entry i).batches = h :: rest) (ht : h.tag ≠ tag) (hopen : h.done < h.writes) :
    let place := ((h :: rest).map Batch.finish).foldr max 0 + 1
    s.batchWritten i tag = s.setEntry i { s.entry i with
      batches := h :: rest.map fun y => if y.tag = tag then
        { y with done := y.done + 1, finish := if y.writes ≤ y.done + 1 then place else y.finish } else y } :=
  batchWritten_waits hd ((congrArg _ hb).trans (countWrite_behind ht)) (by rintro y ⟨⟩; exact hopen)

/-- With its last write the head commits, and each complete batch that follows it. -/
theorem batchWritten_commits {h : Batch} {ready left : List Batch} (hd : (s.entry i).state ≠ .dropping)
    (hb : (s.entry i).batches = h :: (ready ++ left)) (ht : h.tag = tag) (hne : ∀ y ∈ ready ++ left, y.tag ≠ tag)
    (hready : ∀ y ∈ ready, y.writes ≤ y.done) (hleft : ∀ y, left.head? = some y → y.done < y.writes)
    (hdone : h.done + 1 = h.writes) :
    s.batchWritten i tag = { s.setEntry i { s.entry i with
        committed := (s.entry i).committed + h.count + (ready.map Batch.count).sum
        lastCommitted := (ready.getLast?.map Batch.lastStamp).getD h.lastStamp, dirty := true, batches := left } with
      table := s.table.filter fun e => (h :: ready).all fun y => e.tag != y.tag
      link := { s.link with queue := s.link.queue ++ (h :: ready).map (okFrame i) } } := by
  rw [batchWritten_pending hd ((congrArg _ hb).trans (countWrite_head ht hne)), commits_run (counted_complete _ hdone)
    (fun y hy => (complete_iff y).mpr (hready y hy)) (fun y hy => (not_complete_iff y).mpr (hleft y hy)),
    setEntry_setEntry, setEntry_entry_same]
  rfl

end pending

/-! ### A write of a batch of a DROPPING entry (R41, R43) -/

section dropping

variable {s : State} {i : Fin 32} {tag : Byte} {before after : List Batch} {y : Batch}

theorem filter_incomplete {l : List Batch} (h : ∀ z ∈ l, z.complete = false) :
    l.filter Batch.complete = [] ∧ (l.filter fun b => !b.complete) = l :=
  ⟨List.filter_eq_nil_iff.mpr fun z hz => by simp [h z hz], List.filter_eq_self.mpr fun z hz => by simp [h z hz]⟩

theorem batchesGone_none (h : ∀ z ∈ (s.entry i).batches, z.complete = false) : s.batchesGone i = s := by
  obtain ⟨hc, hk⟩ := filter_incomplete h
  unfold State.batchesGone
  dsimp only
  rw [hc, hk]
  exact setEntry_self i s

/-- The one complete batch leaves the list and answers SERIES_GONE. -/
theorem batchesGone_one (hb : (s.entry i).batches = before ++ y :: after) (hy : y.complete = true)
    (h : ∀ z ∈ before ++ after, z.complete = false) :
    s.batchesGone i =
      (s.setEntry i { s.entry i with batches := before ++ after }).respond y.tag .append .seriesGone [] := by
  obtain ⟨b1, b2⟩ := filter_incomplete fun z hz => h z (List.mem_append_left after hz)
  obtain ⟨a1, a2⟩ := filter_incomplete fun z hz => h z (List.mem_append_right before hz)
  unfold State.batchesGone
  dsimp only
  rw [hb, List.filter_append, List.filter_append, List.filter_cons_of_pos hy, List.filter_cons_of_neg (by simp [hy]),
    b1, b2, a1, a2]
  rfl

theorem checkDrop_working (h : s.otherWork i ∨ s.port.preserving i = true) : s.checkDrop i = s := by
  by_cases hp : s.port.preserving i = true
  · have hf : s.inFlight i = true := by simp [State.inFlight, hp]
    unfold State.checkDrop
    rw [if_neg (by simp [hf])]
  · exact (checkDrop_eq (by simpa using hp)).1 (.inr (h.resolve_right hp))

variable (hd : (s.entry i).state = .dropping) (hb : (s.entry i).batches = before ++ y :: after) (hy : y.tag = tag)
  (hne : ∀ z ∈ before ++ after, z.tag ≠ tag ∧ z.done < z.writes)
include hd hb hy hne

theorem batchWritten_dropping : s.batchWritten i tag =
    ((s.setEntry i { s.entry i with
      batches := before ++ y.counted (nextFinish (before ++ y :: after)) :: after }).batchesGone i).checkDrop i := by
  have hcount := countWrite_split hy (fun z hz => (hne z hz).1)
  unfold State.batchWritten
  dsimp only
  rw [if_pos hd, hb, hcount]

/-- The first of two writes: the batch is counted and stays. -/
theorem batchWritten_dropping_waits (hdone : y.done + 1 < y.writes) : s.batchWritten i tag =
    s.setEntry i { s.entry i with batches := before ++ { y with done := y.done + 1 } :: after } := by
  rw [batchWritten_dropping hd hb hy hne, counted_waits _ hdone, batchesGone_none, checkDrop_working]
  · left; left; simp
  · intro z hz
    rw [setEntry_entry_same] at hz
    simp only [List.mem_append, List.mem_cons] at hz
    rw [not_complete_iff]
    rcases hz with hz | rfl | hz
    · exact (hne z (by simp [hz])).2
    · exact hdone
    · exact (hne z (by simp [hz])).2

/-- The last write: the batch leaves the list and answers SERIES_GONE, and the DROP is asked. -/
theorem batchWritten_dropping_complete (hdone : y.done + 1 = y.writes) : s.batchWritten i tag =
    ((s.setEntry i { s.entry i with batches := before ++ after }).respond tag .append .seriesGone []).checkDrop i := by
  rw [batchWritten_dropping hd hb hy hne, batchesGone_one (by rw [setEntry_entry_same]) (counted_complete _ hdone)
    fun z hz => (not_complete_iff z).mpr (hne z hz).2, setEntry_setEntry, setEntry_entry_same]
  simp only [Batch.counted, hy]

/-- The last write where other work is left: the entry stays DROPPING. -/
theorem batchWritten_dropping_stays (hdone : y.done + 1 = y.writes) (hw : before ++ after ≠ [] ∨
      (∃ f ∈ s.fetches, f.series = i) ∨
      (∃ (k : Fin 4) (c : Ctx), s.ctx k = some c ∧ c.series = i ∧ c.endReason ≠ some .lost) ∨
      s.port.preserving i = true) :
    s.batchWritten i tag =
      (s.setEntry i { s.entry i with batches := before ++ after }).respond tag .append .seriesGone [] := by
  let v := (s.setEntry i { s.entry i with batches := before ++ after }).respond tag .append .seriesGone []
  have hv : v.entry i = { s.entry i with batches := before ++ after } := setEntry_entry_same i _ s
  rw [batchWritten_dropping_complete hd hb hy hne hdone]
  refine checkDrop_working (s := v) ?_
  rcases hw with h | h | h | h
  · exact .inl (.inl (by rw [hv]; exact h))
  · exact .inl (.inr (.inl h))
  · exact .inl (.inr (.inr h))
  · exact .inr h

/-- The last write where no other work is left: the entry is FREE and its DROP answers (R43). -/
theorem batchWritten_dropping_frees {drop : DropOp} (hdone : y.done + 1 = y.writes) (hnone : before ++ after = [])
    (hfetch : ∀ f ∈ s.fetches, f.series ≠ i)
    (hctx : ∀ (k : Fin 4) (c : Ctx), s.ctx k = some c → c.series = i → c.endReason = some .lost)
    (hpres : s.port.preserving i = false) (hdrop : s.drops.find? (fun w => w.series == i) = some drop) :
    s.batchWritten i tag = { s.setEntry i Entry.free with
      drops := s.drops.filter fun w => w.series != i
      table := s.table.filter fun e => e.tag != tag && e.tag != drop.tag
      link := { s.link with queue := s.link.queue ++ [⟨.response, tag, [0x14, 23], none⟩,
        ⟨.response, drop.tag, [0x12, 0, BitVec.ofNat 8 i.val], none⟩] } } := by
  let v := (s.setEntry i { s.entry i with batches := before ++ after }).respond tag .append .seriesGone []
  have hv : v.entry i = { s.entry i with batches := before ++ after } := setEntry_entry_same i _ s
  have hidle : ¬ v.otherWork i := by
    rintro (h | ⟨f, hf, hs⟩ | ⟨k, c, hc, hs, hl⟩)
    · exact h (by rw [hv]; exact hnone)
    · exact hfetch f hf hs
    · exact hl (hctx k c hc hs)
  rw [batchWritten_dropping_complete hd hb hy hne hdone]
  refine ((checkDrop_eq (s := v) hpres).2 drop (by rw [hv]; exact hd) hidle hdrop).trans ?_
  simp [v, State.respond, State.enqueue, State.release, State.modLink, State.setTable, State.setEntry,
    Frame.response, Kind.code, Result.code, List.filter_filter, Bool.and_comm]

end dropping

/-- Settles O51: the completion's own effects, then one clause for each case of the count. -/
theorem batchWriteComplete : Obligations.BatchWriteComplete := by
  intro s d b x p i tag hmem hr hx ho hp
  obtain ⟨q, w, hqw, hw⟩ := completeWrite_eq (s := s) (d := d) (b := b) hp
  let u : State := { s with
    mem := Memory.putRecords s.mem d p x.data
    arr := { s.arr with dies := s.arr.dies.set d (written (s.die d) b), queue := q, waiting := w } }
  obtain ⟨t, ht⟩ : ∃ t, t = if x.live then u.batchWritten i tag else u := ⟨_, rfl⟩
  have hexec : exec (.batchWriteComplete d b) s = .next t := by
    refine congrArg Host.Outcome.next ((batchWriteComplete_eq hr hx ho).trans ?_)
    rw [hw, ht]
  have touches : Touches i u t := by
    rw [ht]
    split
    · exact batchWritten_touches i tag u
    · exact .refl i u
  have hlive : x.live = true → t = u.batchWritten i tag := fun h => by rw [ht, if_pos h]
  obtain ⟨tmem, tarr, -⟩ := touches.frame
  have tdie : t.die d = written (s.die d) b := by
    unfold State.die
    rw [tarr]
    exact setDie_die_same d (written (s.die d) b) s
  refine ⟨t, hexec, ?stored, ?others, ?path, ?recovering, ?bank, ?otherDie, ?queue, ?entries, ?dead, ?head, ?behind,
    ?dropping⟩
  case stored =>
    rw [tmem, ← recordsBytes_length]
    exact memory_readBytes_writeBytes hmem _ _
  case others =>
    intro a ha
    rw [tmem]
    exact memory_read_writeBytes_outside hmem _ _ _ (by rwa [recordsBytes_length])
  case path => rw [tdie]; rfl
  case recovering => simp [State.bank, tdie, written]
  case bank => simp [State.bank, tdie, written]
  case otherDie =>
    unfold State.die
    rw [tarr]
    exact setDie_die_other (otherDie_ne d) (written (s.die d) b) s
  case queue =>
    have hlen := congrArg List.length hqw
    have := issuedAt_leaves hx
    rw [tarr]
    simp only [List.length_append] at hlen
    show q.length + w.length + 1 = _
    omega
  case entries => exact fun j hj => touches.entry_other hj
  case dead => exact fun h => by rw [ht, h]; exact ⟨rfl, rfl, rfl⟩
  case head =>
    intro h ready left hl hd hb htag hne hready hleft
    rw [hlive hl]
    refine ⟨fun hdone => ?_, fun hdone => ?_⟩
    · rw [batchWritten_head_waits (s := u) hd hb htag hne hdone]
      exact ⟨setEntry_entry_same i _ u, rfl, rfl⟩
    · rw [batchWritten_commits (s := u) hd hb htag hne hready hleft hdone]
      exact ⟨setEntry_entry_same i _ u, rfl, rfl⟩
  case behind =>
    intro h rest hl hd hb htag hopen place
    rw [hlive hl, batchWritten_behind (s := u) hd hb htag hopen]
    exact ⟨setEntry_entry_same i _ u, rfl, rfl⟩
  case dropping =>
    intro before y after hl hd hb htag hne
    rw [hlive hl]
    refine ⟨fun hdone => ?_, fun hdone hwork => ?_, fun drop hdone hnone hfetch hctx hpres hdrop => ?_⟩
    · rw [batchWritten_dropping_waits (s := u) hd hb htag hne hdone]
      exact ⟨setEntry_entry_same i _ u, rfl, rfl, rfl⟩
    · rw [batchWritten_dropping_stays (s := u) hd hb htag hne hdone hwork]
      exact ⟨setEntry_entry_same i _ u, rfl, rfl, rfl⟩
    · rw [batchWritten_dropping_frees (s := u) hd hb htag hne hdone hnone hfetch hctx hpres hdrop]
      exact ⟨setEntry_entry_same i _ u, rfl, rfl, rfl⟩

end Sys2Proof.Appending
end

section
/-! PROOFS. The stamp search (R69 to R71, R83): how it goes on from its bounds, what a probe makes of them, and where
the completion of a probe leads. -/

namespace Sys2Proof.Scanning

open Sys2Proof.Machine Sys2Proof.Laws

/-! ### The search goes on from its bounds (R69 to R71) -/

/-- The middle of a search span (R70). -/
abbrev middle (low high : Nat) : Nat := low + (high - low) / 2

section search

variable {s : State} {k : Fin 4} {c : Ctx} (hc : s.ctx k = some c)
include hc

theorem searchOn_gone (next : State → State) (h : c.searchHigh < c.searchLow) :
    s.searchOn k next = s.endScan k .endOfRange := by
  unfold State.searchOn
  rw [hc]
  exact if_pos h

theorem searchOn_met (next : State → State) (h : c.searchLow = c.searchHigh) :
    s.searchOn k next = s.startRange k c.searchHigh := by
  unfold State.searchOn
  rw [hc]
  exact (if_neg (by omega)).trans (if_pos h)

theorem searchOn_open (next : State → State) (h : c.searchLow < c.searchHigh) : s.searchOn k next = next s := by
  unfold State.searchOn
  rw [hc]
  exact (if_neg (by omega)).trans (if_neg (by omega))

/-- An edge probe that finds room joins the queue, and the context is RESOLVING. -/
theorem probeEdge_room (hq : s.arr.queue.length < 32) :
    ∃ dies, s.probeEdge k = { s.setCtx k (some { c with state := .resolving }) with
      arr := { s.arr with
        queue := s.arr.queue ++ [(s.entry c.series).txn (.edgeProbe k c.searchLow) .read c.searchLow 1 []]
        dies := dies } } := by
  unfold State.probeEdge
  rw [hc]
  exact issue_room hq

/-- A binary probe that finds room joins the queue, and the context is SEARCHING. -/
theorem probeMiddle_room (hq : s.arr.queue.length < 32) :
    let m := middle c.searchLow c.searchHigh
    ∃ dies, s.probeMiddle k = { s.setCtx k (some { c with state := .searching }) with
      arr := { s.arr with
        queue := s.arr.queue ++ [(s.entry c.series).txn (.binaryProbe k m) .read m 1 []]
        dies := dies } } := by
  unfold State.probeMiddle
  rw [hc]
  exact issue_room hq

end search

/-! ### What a probe makes of the bounds (R69 to R71) -/

/-- The context with the search span from `low` to `high`. -/
def withSpan (c : Ctx) (low high : Nat) : Ctx := { c with searchLow := low, searchHigh := high }

section probed

variable {s : State} {k : Fin 4} {c : Ctx} {q : Nat} {r : Record} (hc : s.ctx k = some c)
include hc

theorem edgeProbed_overtaken (h : q < (s.entry c.series).oldest) :
    s.edgeProbed k q r =
      (s.setCtx k (some (withSpan c (s.entry c.series).oldest c.searchHigh))).searchOn k (State.probeEdge k) := by
  unfold State.edgeProbed
  rw [hc]
  exact if_pos h

theorem edgeProbed_reached (h : (s.entry c.series).oldest ≤ q) (hr : c.lower ≤ r.stamp.toNat) :
    s.edgeProbed k q r = s.startRange k q := by
  unfold State.edgeProbed
  rw [hc]
  exact (if_neg (Nat.not_lt.mpr h)).trans (if_pos hr)

theorem edgeProbed_below (h : (s.entry c.series).oldest ≤ q) (hr : r.stamp.toNat < c.lower) :
    s.edgeProbed k q r =
      (s.setCtx k (some (withSpan c (q + 1) c.searchHigh))).searchOn k (State.probeMiddle k) := by
  unfold State.edgeProbed
  rw [hc]
  exact (if_neg (Nat.not_lt.mpr h)).trans (if_neg (Nat.not_le.mpr hr))

theorem binaryProbed_overtaken (h : q < (s.entry c.series).oldest) :
    s.binaryProbed k q r =
      (s.setCtx k (some (withSpan c (s.entry c.series).oldest c.searchHigh))).searchOn k (State.probeMiddle k) := by
  unfold State.binaryProbed
  simp only [hc, if_pos h]
  rfl

theorem binaryProbed_reached (h : (s.entry c.series).oldest ≤ q) (hr : c.lower ≤ r.stamp.toNat) :
    s.binaryProbed k q r = (s.setCtx k (some (withSpan c c.searchLow q))).searchOn k (State.probeMiddle k) := by
  unfold State.binaryProbed
  simp only [hc, if_neg (Nat.not_lt.mpr h), if_pos hr]
  rfl

theorem binaryProbed_below (h : (s.entry c.series).oldest ≤ q) (hr : r.stamp.toNat < c.lower) :
    s.binaryProbed k q r =
      (s.setCtx k (some (withSpan c (q + 1) c.searchHigh))).searchOn k (State.probeMiddle k) := by
  unfold State.binaryProbed
  simp only [hc, if_neg (Nat.not_lt.mpr h), if_neg (Nat.not_le.mpr hr)]
  rfl

end probed

theorem lower_of_stamp {c : Ctx} {lower : Stamp} {upper : Option Stamp} (h : c.range = .stamp lower upper) :
    c.lower = lower.toNat := by
  unfold Ctx.lower
  rw [h]

/-! ### The probe leaves the queue (R95, R97) -/

section completion

variable {s : State} {d : Fin 2} {b : Fin 8} {x : Txn}

/-- The queue once the read of a bank has left it. -/
abbrev queueAfter (s : State) (d : Fin 2) (b : Fin 8) : List Txn := s.arr.queue.eraseP fun t => t.issued && t.isFor d b

theorem completeRead_eq (hw : s.arr.waiting = []) : s.completeRead d b = s.setQueues (queueAfter s d b) [] := by
  unfold State.completeRead State.leaveQueue State.refill
  rw [hw]
  simp [State.setQueues, State.modArr]

/-- While no RESET is in progress, no RESET is answered behind what the completed read leads to. -/
theorem checkReset_afterRead {t : State} (hr : s.link.reset = none)
    (ht : Moves True False True (s.completeRead d b) t) : t.checkReset = t := by
  obtain ⟨-, -, -, -, -, -, -, hreset⟩ := ht.sameIn
  exact checkReset_none (hreset.trans hr)

/-- The completion of a live edge probe: the probe leaves, and what it brought is taken (R69). -/
theorem exec_edgeProbe {k : Fin 4} {q : Nat} {r : Record} (hr : s.link.reset = none) (hx : s.issuedAt d b = some x)
    (hl : x.live = true) (hd : x.data = [r]) (ho : x.origin = .edgeProbe k q) (hw : s.arr.waiting = []) :
    exec (.edgeProbeComplete d b) s = .next ((s.setQueues (queueAfter s d b) []).edgeProbed k q r) := by
  have e : edgeProbeComplete d b s = ((s.completeRead d b).edgeProbed k q r).checkReset := by
    unfold edgeProbeComplete
    simp only [hx, ho, hd, hl, if_true]
  rw [checkReset_afterRead hr (edgeProbed_moves .refl), completeRead_eq hw] at e
  exact congrArg Host.Outcome.next e

/-- The completion of a live binary probe: the probe leaves, and what it brought is taken (R70). -/
theorem exec_binaryProbe {k : Fin 4} {q : Nat} {r : Record} (hr : s.link.reset = none) (hx : s.issuedAt d b = some x)
    (hl : x.live = true) (hd : x.data = [r]) (ho : x.origin = .binaryProbe k q) (hw : s.arr.waiting = []) :
    exec (.binaryProbeComplete d b) s = .next ((s.setQueues (queueAfter s d b) []).binaryProbed k q r) := by
  have e : binaryProbeComplete d b s = ((s.completeRead d b).binaryProbed k q r).checkReset := by
    unfold binaryProbeComplete
    simp only [hx, ho, hd, hl, if_true]
  rw [checkReset_afterRead hr (binaryProbed_moves .refl), completeRead_eq hw] at e
  exact congrArg Host.Outcome.next e

end completion

/-! ### Where the completion of a probe leads (R69 to R71, R83) -/

/-- The search has ended at `n`: the scan is RUNNING from there (R71). -/
def RunsFrom (cmd : Instr) (s : State) (k : Fin 4) (c : Ctx) (n : Nat) : Prop :=
  ∃ t c', exec cmd s = .next t ∧ t.ctx k = some c' ∧ c'.state = .running ∧ c'.low = n ∧ c'.cursor = n ∧
    c'.resolved = true ∧ c'.high = c.high ∧ t.dir = s.dir ∧ t.link = s.link ∧ t.mem = s.mem

/-- The context is `c'`, and the probe of number `n` is the last in the queue (R69, R70). -/
def ProbesAt (cmd : Instr) (s : State) (k : Fin 4) (e : Entry) (o : Origin) (n : Nat) (c' : Ctx) : Prop :=
  ∃ t, exec cmd s = .next t ∧ t.ctx k = some c' ∧ t.arr.queue.getLast? = some (e.txn o .read n 1 []) ∧
    t.dir = s.dir ∧ t.link = s.link ∧ t.mem = s.mem

/-- Every candidate is gone: the scan has answered END_OF_RANGE with the raised search low as its resolved low (R71). -/
def EndsEmpty (cmd : Instr) (s : State) (k : Fin 4) (c : Ctx) (low : Nat) : Prop :=
  ∃ t, exec cmd s = .next t ∧ t.ctx k = none ∧ t.table = s.table.filter (fun y => y.tag != c.tag) ∧
    t.link = { s.link with queue := s.link.queue ++ [⟨.response, c.tag,
      [0x18, 0] ++ ({ c with endReason := some .endOfRange, low := low } : Ctx).report, none⟩] } ∧
    t.dir = s.dir ∧ t.mem = s.mem

/-- The probe has left `queue`, and the search of context `k` stands at the span from `low` to `high`. -/
abbrev atSpan (s : State) (queue : List Txn) (k : Fin 4) (c : Ctx) (low high : Nat) : State :=
  (s.setQueues queue []).setCtx k (some (withSpan c low high))

section outcomes

variable {s : State} {cmd : Instr} {queue : List Txn} {k : Fin 4} {c : Ctx} {low high n : Nat}

theorem atSpan_ctx : (atSpan s queue k c low high).ctx k = some (withSpan c low high) := setCtx_ctx_same ..

theorem runsFrom_start (h : exec cmd s = .next ((atSpan s queue k c low high).startRange k n))
    (hq : queue.length + 2 ≤ 32) (ho : (s.entry c.series).oldest ≤ n) (hn : n ≤ c.high) (h0 : c.buf0 = none)
    (h1 : c.buf1 = none) : RunsFrom cmd s k c n := by
  obtain ⟨c', hrun⟩ := startRange_runs (s := atSpan s queue k c low high) atSpan_ctx h0 h1 hn ho hq
  exact ⟨_, c', h, hrun⟩

theorem runsFrom_met {next : State → State} (h : exec cmd s = .next ((atSpan s queue k c low high).searchOn k next))
    (hq : queue.length + 2 ≤ 32) (hm : low = high) (ho : (s.entry c.series).oldest ≤ high) (hn : high ≤ c.high)
    (h0 : c.buf0 = none) (h1 : c.buf1 = none) : RunsFrom cmd s k c high := by
  rw [searchOn_met atSpan_ctx next hm] at h
  exact runsFrom_start h hq ho hn h0 h1

theorem probesAt_edge (h : exec cmd s = .next ((atSpan s queue k c low high).searchOn k (State.probeEdge k)))
    (hq : queue.length + 2 ≤ 32) (hm : low < high) :
    ProbesAt cmd s k (s.entry c.series) (.edgeProbe k low) low { withSpan c low high with state := .resolving } := by
  obtain ⟨dies, hp⟩ := probeEdge_room (s := atSpan s queue k c low high) atSpan_ctx (show queue.length < 32 by omega)
  rw [searchOn_open atSpan_ctx _ hm, hp] at h
  exact ⟨_, h, setCtx_ctx_same .., List.getLast?_concat, rfl, rfl, rfl⟩

theorem probesAt_middle (h : exec cmd s = .next ((atSpan s queue k c low high).searchOn k (State.probeMiddle k)))
    (hq : queue.length + 2 ≤ 32) (hm : low < high) :
    ProbesAt cmd s k (s.entry c.series) (.binaryProbe k (middle low high)) (middle low high)
      { withSpan c low high with state := .searching } := by
  obtain ⟨dies, hp⟩ := probeMiddle_room (s := atSpan s queue k c low high) atSpan_ctx
    (show queue.length < 32 by omega)
  rw [searchOn_open atSpan_ctx _ hm, hp] at h
  exact ⟨_, h, setCtx_ctx_same .., List.getLast?_concat, rfl, rfl, rfl⟩

/-- The context that a search without candidates ends with reports the search low. -/
theorem report_drained (hs : c.state = .resolving ∨ c.state = .searching) :
    ((withSpan c low high).drain .endOfRange).report =
      ({ c with endReason := some .endOfRange, low := low } : Ctx).report := by
  have hlow : (withSpan c low high).lowAtEnd = low := by
    unfold Ctx.lowAtEnd withSpan
    rcases hs with hs | hs <;> simp only [hs]
  unfold Ctx.drain
  rw [hlow]
  rfl

theorem endsEmpty_gone {next : State → State}
    (h : exec cmd s = .next ((atSpan s queue k c low high).searchOn k next)) (hg : high < low)
    (hs : c.state = .resolving ∨ c.state = .searching) (hh : c.hits = []) (hd : (s.entry c.series).state ≠ .dropping)
    (hk : ∀ y ∈ queue, y.origin.ofCtx k = false) : EndsEmpty cmd s k c low := by
  have hrun : (withSpan c low high).state ≠ .draining := fun hx => by
    rcases hs with hs | hs <;> exact nomatch hs.symm.trans hx
  obtain ⟨q, w, -, he⟩ := endScan_now (s := atSpan s queue k c low high) .endOfRange atSpan_ctx hrun
    (fun y hy => hk y (by simpa [atSpan, State.setCtx, State.setQueues, State.modArr] using hy)) hd (.inl hh)
  rw [searchOn_gone atSpan_ctx next hg, he, report_drained hs] at h
  refine ⟨_, h, by simp [State.ctx], rfl, ?_, rfl, rfl⟩
  simp [withSpan, hh, Frame.response, Kind.code, Result.code]

end outcomes

/-- Settles O53: each completion by the place of its number and of its stamp, then by the bounds it leaves. -/
theorem probes : Obligations.Probes := by
  intro s d b x k c q r lower upper hr hx hl hd hc hrange hlen hw e middle runsFrom probes gone
  have hq : (queueAfter s d b).length + 2 ≤ 32 := by
    have : (queueAfter s d b).length + 1 = s.arr.queue.length := Appending.issuedAt_leaves hx
    omega
  have hstamp := lower_of_stamp hrange
  have hc' : (s.setQueues (queueAfter s d b) []).ctx k = some c := hc
  have left : (s.arr.queue.filter fun y => y.origin.ofCtx k) = [x] →
      ∀ y ∈ queueAfter s d b, y.origin.ofCtx k = false := eraseP_only hx
  refine ⟨fun ho => ?edge, fun ho => ?binary⟩
  case edge =>
    have h := exec_edgeProbe hr hx hl hd ho hw
    refine ⟨fun hold => ?overtaken, fun hold hst => ?reached, fun hold hst => ?below⟩
    case overtaken =>
      rw [edgeProbed_overtaken hc' hold] at h
      exact ⟨probesAt_edge h hq, fun hm => hm ▸ runsFrom_met h hq hm (Nat.le_of_eq hm),
        fun hg hs hh _ hdrop hk => endsEmpty_gone h hg hs hh hdrop (left hk)⟩
    case reached =>
      rw [edgeProbed_reached hc' hold (hstamp ▸ hst), ← setCtx_self hc'] at h
      exact runsFrom_start (low := c.searchLow) (high := c.searchHigh) h hq hold
    case below =>
      rw [edgeProbed_below hc' hold (hstamp ▸ hst)] at h
      exact ⟨probesAt_middle h hq, fun hm => hm ▸ runsFrom_met h hq hm (hm ▸ Nat.le_succ_of_le hold)⟩
  case binary =>
    have h := exec_binaryProbe hr hx hl hd ho hw
    refine ⟨fun hold => ?overtaken, fun hold hst => ?reached, fun hold hst => ?below⟩
    case overtaken =>
      rw [binaryProbed_overtaken hc' hold] at h
      exact ⟨probesAt_middle h hq, fun hm => hm ▸ runsFrom_met h hq hm (Nat.le_of_eq hm),
        fun hg hs hh _ hdrop hk => endsEmpty_gone h hg hs hh hdrop (left hk)⟩
    case reached =>
      rw [binaryProbed_reached hc' hold (hstamp ▸ hst)] at h
      exact ⟨probesAt_middle h hq, fun hm => runsFrom_met h hq hm hold⟩
    case below =>
      rw [binaryProbed_below hc' hold (hstamp ▸ hst)] at h
      exact ⟨probesAt_middle h hq, fun hm => hm ▸ runsFrom_met h hq hm (hm ▸ Nat.le_succ_of_le hold)⟩

end Sys2Proof.Scanning
end

section
/-! PROOFS. SCAN (R65 to R68, R72): its payload reads back, a SCAN that passes its checks takes the lowest FREE
context, and the range of that context begins with its first reads, or its search with an edge probe. -/

namespace Sys2Proof.Scanning

open Sys2Proof.Machine Sys2Proof.Laws

/-! ### The payload reads back (R187, R188) -/

theorem byteAt_cons (x : Byte) (rest : List Byte) (k : Nat) : byteAt (x :: rest) (k + 1) = byteAt rest k := rfl

theorem fieldAt_cons (w : Nat) (x : Byte) (rest : List Byte) (k : Nat) :
    fieldAt w (x :: rest) (k + 1) = fieldAt w rest k := rfl

theorem termOf_cons (x : Byte) (rest : List Byte) (k : Nat) : termOf (x :: rest) (k + 1) = termOf rest k := rfl

theorem byteAt_head (x : Byte) (rest : List Byte) : byteAt (x :: rest) 0 = x := rfl

theorem termOf_skip {k : Nat} (pre rest : List Byte) (h : pre.length ≤ k) :
    termOf (pre ++ rest) k = termOf rest (k - pre.length) := by
  unfold termOf
  rw [byteAt_append_right _ _ h, byteAt_append_right _ _ (by omega), Appending.fieldAt_skip _ _ (by omega),
    Nat.sub_add_comm h, Nat.sub_add_comm h]

theorem termBytes_length (t : TermPlace) : (termBytes t).length = 6 := by simp [termBytes, fieldBytes_length]

/-- A term place reads back from the head of what follows. -/
theorem termOf_termBytes (t : TermPlace) (post : List Byte) : termOf (termBytes t ++ post) 0 = t := by
  have h : fieldAt 32 (termBytes t ++ post) 2 = t.threshold := fieldAt32 [t.lane, t.predicate] post t.threshold rfl
  unfold termOf
  rw [h]
  rfl

theorem scanOf_scanBytes (f : ScanFields) : scanOf (scanBytes f) = f := by
  have terms : f.terms = #v[f.terms[0], f.terms[1], f.terms[2], f.terms[3]] := by
    ext i hi
    match i, hi with
    | 0, _ | 1, _ | 2, _ | 3, _ => rfl
  have last : termOf (termBytes f.terms[3]) 0 = f.terms[3] := by simpa using termOf_termBytes f.terms[3] []
  have head16 : ∀ (v : BitVec 16) post, fieldAt 16 (fieldBytes v ++ post) 0 = v := fun v post => fieldAt16 [] post v rfl
  have head48 : ∀ (v : BitVec 48) post, fieldAt 48 (fieldBytes v ++ post) 0 = v := fun v post => fieldAt48 [] post v rfl
  obtain ⟨series, kind, mode, presence, lower, upper, limit, sp, source, count, combine, ma, mf, mt, ts⟩ := f
  simp only [scanOf, scanBytes, List.append_assoc, ScanFields.mk.injEq]
  refine ⟨rfl, rfl, rfl, rfl, ?_, ?_, ?_, ?_, ?_, ?_, ?_, ?_, ?_, ?_, Eq.trans ?_ terms.symm⟩
  all_goals simp [byteAt_head, byteAt_cons, fieldAt_cons, termOf_cons, byteAt_append_right, Appending.fieldAt_skip,
    termOf_skip, fieldBytes_length, termBytes_length, head16, head48, termOf_termBytes, last]

/-! ### The first reads of a range (R67, R72) -/

section reads

variable {s : State} {k : Fin 4} {c : Ctx} (hc : s.ctx k = some c)
include hc

/-- A free buffer takes the read from the read point on, where the series still holds that number. -/
theorem readInto_readPoint {second : Bool} (hb : c.buf second = none) (hh : c.readPoint ≤ c.high)
    (ho : (s.entry c.series).oldest ≤ c.readPoint) (hq : s.arr.queue.length < 32) :
    let e := s.entry c.series
    let n := min (e.roomInRow c.readPoint) (c.high + 1 - c.readPoint)
    ∃ dies, s.readInto k second = { s.setCtx k (some (({ c with readPoint := c.readPoint + n }).setBuf second
        (some ⟨c.readPoint, c.readPoint + n - 1, false, 0, []⟩))) with
      arr := { s.arr with
        queue := s.arr.queue ++ [e.txn (.scanRow k second) .read c.readPoint n []], dies := dies } } := by
  have hmax : max c.readPoint (s.entry c.series).oldest = c.readPoint := by omega
  have hpassed : c.overtaken + (min (s.entry c.series).oldest (c.high + 1) - c.readPoint) = c.overtaken := by omega
  have hread := (readInto_reads hc hb hh hq).2 (by omega)
  simp only [hmax, hpassed] at hread
  exact hread

/-- The read into a free second buffer: it begins at the read point, or the range has no number left for it. -/
theorem readInto_second (hb : c.buf1 = none) (ho : (s.entry c.series).oldest ≤ c.readPoint)
    (hq : s.arr.queue.length < 32) :
    ∃ p buf rest dies, (∀ y, buf = some y → y.first = c.readPoint) ∧ rest.length ≤ 1 ∧
      s.readInto k true = { s.setCtx k (some { c with readPoint := p, buf1 := buf }) with
        arr := { s.arr with queue := s.arr.queue ++ rest, dies := dies } } := by
  by_cases hh : c.readPoint ≤ c.high
  · obtain ⟨dies, h⟩ := readInto_readPoint hc (second := true) hb hh ho hq
    exact ⟨_, _, [_], dies, fun y hy => by rw [← Option.some.inj hy], Nat.le_refl _, h⟩
  · have same : ({ c with readPoint := c.readPoint, buf1 := none } : Ctx) = c := by rw [← hb]
    refine ⟨c.readPoint, none, [], s.arr.dies, (fun y hy => by cases hy), Nat.zero_le _, ?_⟩
    rw [readInto_stays hc (.inr (by omega)), same, setCtx_self hc, List.append_nil]

/-- A range of numbers that the series still holds starts: its first read goes into buffer 0 (log 39), at most one more
follows, and the context waits at buffer 0. -/
theorem startRange_reads {n : Nat} (h0 : c.buf0 = none) (h1 : c.buf1 = none) (hn : n ≤ c.high)
    (ho : (s.entry c.series).oldest ≤ n) (hq : s.arr.queue.length + 2 ≤ 32) :
    let e := s.entry c.series
    let m := min (e.roomInRow n) (c.high + 1 - n)
    ∃ p buf rest dies, rest.length ≤ 1 ∧
      s.startRange k n = { s.setCtx k (some { c with
          state := .running, low := n, cursor := n, readPoint := p, resolved := true
          buf0 := some ⟨n, n + m - 1, false, 0, []⟩, buf1 := buf }) with
        arr := { s.arr with
          queue := s.arr.queue ++ [e.txn (.scanRow k false) .read n m []] ++ rest, dies := dies } } := by
  intro e m
  let started : Ctx := { c with state := .running, low := n, cursor := n, readPoint := n, resolved := true }
  let reading : Ctx := { started with readPoint := n + m, buf0 := some ⟨n, n + m - 1, false, 0, []⟩ }
  have hm : 1 ≤ m := by
    have : 1 ≤ e.roomInRow n := by unfold Entry.roomInRow; omega
    omega
  obtain ⟨d1, first⟩ := readInto_readPoint (s := s.setCtx k (some started)) (second := false) (setCtx_ctx_same ..) h0 hn
    ho (show s.arr.queue.length < 32 by omega)
  let v : State := { s.setCtx k (some reading) with
    arr := { s.arr with queue := s.arr.queue ++ [e.txn (.scanRow k false) .read n m []], dies := d1 } }
  have hv : (s.setCtx k (some started)).readInto k false = v := by
    rw [first, setCtx_setCtx]
    rfl
  obtain ⟨p, buf, rest, d2, hbuf, hrest, second⟩ := readInto_second (s := v) (c := reading) (setCtx_ctx_same ..) h1
    (Nat.le_trans ho (Nat.le_add_right ..)) (by simp [v]; omega)
  let both : Ctx := { reading with readPoint := p, buf1 := buf }
  have hcur : both.current = some (false, ⟨n, n + m - 1, false, 0, []⟩) :=
    current_set (c := both) (second := false) fun y hy => by
      have : y.first = n + m := hbuf y hy
      show n < y.first
      omega
  refine ⟨p, buf, rest, d2, hrest, ?_⟩
  have hstart : s.startRange k n = (v.readInto k true).evaluate k := by
    unfold State.startRange State.issueReads State.modCtx
    rw [hc]
    exact congrArg (fun t => (State.readInto k true t).evaluate k) hv
  let w : State := { v.setCtx k (some both) with arr := { v.arr with queue := v.arr.queue ++ rest, dies := d2 } }
  have hw : w = { s.setCtx k (some both) with
      arr := { s.arr with
        queue := s.arr.queue ++ [e.txn (.scanRow k false) .read n m []] ++ rest, dies := d2 } } := by
    simp [w, v, State.setCtx]
  have hwait : w.evaluate k = w := by
    refine (evalBuffers_waits (n := 3) (s := w) (c := both) (setCtx_ctx_same k _ v) rfl hcur rfl).trans ?_
    rw [show max both.cursor n = both.cursor from Nat.max_self n]
    exact setCtx_self (setCtx_ctx_same k _ v)
  rw [hstart, second, hwait, hw]

end reads

/-! ### The range is resolved (R65, R67, R68) -/

section resolution

variable {s : State} {k : Fin 4} {c : Ctx} {e : Entry}

theorem resolve_sequence {first : Nat} {last : Option Nat} (hr : c.range = .sequence first last)
    (hf : first < e.committed) (ho : e.oldest < e.committed) (hl : ∀ l, last = some l → e.oldest ≤ l) :
    (s.setCtx k (some c)).resolve k e = (s.setCtx k (some { c with
      low := max first e.oldest
      high := last.elim (e.committed - 1) fun l => min l (e.committed - 1) })).startRange k (max first e.oldest) := by
  unfold State.resolve
  rw [setCtx_ctx_same]
  simp only [hr, setCtx_setCtx]
  cases last with
  | none => exact if_neg (by simp; omega)
  | some l =>
    have := hl l rfl
    exact if_neg (by simp; omega)

theorem resolve_stamp {lower : Stamp} {upper : Option Stamp} (hr : c.range = .stamp lower upper)
    (ho : e.oldest + 1 < e.committed) (hs : lower.toNat ≤ e.lastCommitted.toNat) :
    (s.setCtx k (some c)).resolve k e = (s.setCtx k (some { c with
      low := e.oldest, high := e.committed - 1, searchLow := e.oldest
      searchHigh := e.committed - 1 })).probeEdge k := by
  unfold State.resolve
  rw [setCtx_ctx_same]
  simp only [hr, setCtx_setCtx]
  refine (if_neg (by omega)).trans (searchOn_open (setCtx_ctx_same ..) _ ?_)
  show e.oldest < e.committed - 1
  omega

end resolution

theorem optional_absent {α : Type} {presence : Byte} (h : presence = 0) (v : α) : Machine.optional presence v = none :=
  if_pos h

theorem optional_present {α : Type} {presence : Byte} (h : presence ≠ 0) (v : α) :
    Machine.optional presence v = some v := if_neg h

/-- The last number of a SEQUENCE range: the one asked, where one is asked and lies below `n` (R67). -/
theorem optional_elim_min (f : ScanFields) (n : Nat) :
    (((Machine.optional f.upperPresence f.upper).map BitVec.toNat).elim n fun l => min l n) =
      if f.upperPresence = 0 then n else min f.upper.toNat n := by
  by_cases hp : f.upperPresence = 0
  · rw [optional_absent hp, if_pos hp]
    rfl
  · rw [optional_present hp, if_neg hp]
    rfl

theorem upper_of_optional {f : ScanFields} {l : Nat}
    (h : (Machine.optional f.upperPresence f.upper).map BitVec.toNat = some l) :
    f.upperPresence ≠ 0 ∧ f.upper.toNat = l := by
  by_cases hp : f.upperPresence = 0
  · rw [optional_absent hp] at h
    cases h
  · rw [optional_present hp] at h
    exact ⟨hp, Option.some.inj h⟩

theorem rangeOf_sequence {f : ScanFields} (hk : f.rangeKind = 0) (hl : f.lower.toNat ≤ 4294967295)
    (hu : f.upperPresence ≠ 0 → f.lower.toNat ≤ f.upper.toNat ∧ f.upper.toNat ≤ 4294967295) :
    rangeOf f = some (.sequence f.lower.toNat ((Machine.optional f.upperPresence f.upper).map BitVec.toNat)) := by
  unfold rangeOf
  rw [hk]
  by_cases hp : f.upperPresence = 0
  · simp [optional_absent hp, hl]
  · obtain ⟨h1, h2⟩ := hu hp
    simp [optional_present hp, hl, h1, h2]

theorem rangeOf_stamp {f : ScanFields} (hk : f.rangeKind = 1)
    (hu : f.upperPresence ≠ 0 → f.lower.toNat ≤ f.upper.toNat) :
    rangeOf f = some (.stamp f.lower (Machine.optional f.upperPresence f.upper)) := by
  unfold rangeOf
  rw [hk]
  by_cases hp : f.upperPresence = 0
  · simp [optional_absent hp]
  · simp [optional_present hp, hu hp]

theorem modeOf_code {b : Byte} {mode : ScanMode} (h : b = 0 ∧ mode = .list ∨ b = 1 ∧ mode = .count) :
    modeOf b = some mode := by
  rcases h with ⟨rfl, rfl⟩ | ⟨rfl, rfl⟩ <;> rfl

/-! ### The context is taken (R65, R66) -/

theorem allCtxs_split : ∀ k : Fin 4, allCtxs = allCtxs.take k ++ k :: allCtxs.drop (k + 1) := by decide

theorem lt_of_mem_take_allCtxs : ∀ k : Fin 4, ∀ j ∈ allCtxs.take k, j < k := by decide

theorem freeCtx_lowest {s : State} {k : Fin 4} (hk : s.ctx k = none) (hlow : ∀ j < k, s.ctx j ≠ none) :
    s.freeCtx = some k := by
  unfold State.freeCtx
  rw [List.find?_eq_some_iff_append]
  refine ⟨by simp [hk], _, _, allCtxs_split k, fun j hj => ?_⟩
  simpa [Option.isSome_iff_ne_none] using hlow j (lt_of_mem_take_allCtxs k j hj)

section taken

variable {s : State} {tag : Byte} {f : ScanFields} {i : Fin 32} {range : RangeAsked} {filter : Filter} {k : Fin 4}
  {mode : ScanMode}

theorem takeScan_passed (hs : f.series.toNat = i.val)
    (ho : (s.entry i).state = .opened ∨ (s.entry i).state = .sealed)
    (hu : s.rangeUsable (s.entry i).base (s.entry i).count = true) (hm : modeOf f.mode = some mode)
    (hr : rangeOf f = some range) (hf : checkFilter f (s.entry i).lanes = .ok filter) (hk : s.freeCtx = some k) :
    takeScan tag f s =
      (s.setCtx k (some (Ctx.taken tag i range filter mode f.hitLimit))).resolve k (s.entry i) := by
  have hstate : refusalToRead (s.entry i).state = none := by rcases ho with h | h <;> rw [h] <;> rfl
  simp only [takeScan, Appending.seriesOf_id hs, hstate, hu, Bool.true_eq_false, if_false, hm, hr, hf, hk]

/-- A SCAN that passes its checks leads to what the resolution of its range makes of the context taken. -/
theorem exec_scan_passed {t : State} (hA : s.Admits tag) (hs : f.series.toNat = i.val)
    (ho : (s.entry i).state = .opened ∨ (s.entry i).state = .sealed)
    (hu : s.rangeUsable (s.entry i).base (s.entry i).count = true) (hm : modeOf f.mode = some mode)
    (hr : rangeOf f = some range) (hf : checkFilter f (s.entry i).lanes = .ok filter) (hk : s.ctx k = none)
    (hlow : ∀ j < k, s.ctx j ≠ none)
    (ht : State.resolve k (s.entry i) (State.setCtx k (some (Ctx.taken tag i range filter mode f.hitLimit))
      (taking tag (.scan f) s)) = t) :
    exec (.scan tag f) s = .next (landed t) := by
  have e : exec (.scan tag f) s = .next (hostRequest tag (.scan f) s) := rfl
  have hread : Request.ofPayload .scan (Request.scan f).payload = .scan f := congrArg _ (scanOf_scanBytes f)
  have htake : take tag (.scan f) (taking tag (.scan f) s) = t :=
    (takeScan_passed (s := taking tag (.scan f) s) hs ho hu hm hr hf (freeCtx_lowest hk hlow)).trans ht
  rw [e, hostRequest_taken (r := .scan f) hA (by simp [Request.kind]) rfl hread, htake]

/-- Once the request has landed, the link it was taken with is at rest again. -/
theorem landed_link {r : Request} {t : State} (hA : s.Admits tag) (h : t.link = (taking tag r s).link) :
    (landed t).link = { s.link with rxIdle := 0 } := by
  obtain ⟨⟨-, hbufs, hheld, -⟩, -⟩ := hA
  unfold landed
  rw [modLink_link, h, ← hbufs, ← hheld]
  rfl

end taken

/-- Settles O35: the context is taken, its range is resolved, and its first reads or its edge probe find room. -/
theorem scanTaken : Obligations.ScanTaken := by
  refine ⟨?sequence, ?stamp⟩
  case sequence =>
    intro s tag f i filter k mode hA hs ho hu hmode hkind hl hup hf hk hlow hc hne hret hq
    let u := taking tag (.scan f) s
    let last := (Machine.optional f.upperPresence f.upper).map BitVec.toNat
    let low := max f.lower.toNat (s.entry i).oldest
    let high := last.elim ((s.entry i).committed - 1) fun l => min l ((s.entry i).committed - 1)
    let c : Ctx := { Ctx.taken tag i (.sequence f.lower.toNat last) filter mode f.hitLimit with
      low := low, high := high }
    have hhigh : high = if f.upperPresence = 0 then (s.entry i).committed - 1
        else min f.upper.toNat ((s.entry i).committed - 1) := optional_elim_min f _
    have hlast : ∀ l, last = some l → (s.entry i).oldest ≤ l := by
      intro l h
      obtain ⟨hp, rfl⟩ := upper_of_optional h
      exact hret hp
    have hlowHigh : low ≤ high := by
      rw [hhigh]
      split
      case isTrue => omega
      case isFalse hp =>
        have := hup hp
        have := hret hp
        omega
    obtain ⟨p, buf, rest, dies, hrest, hrun⟩ := startRange_reads (s := u.setCtx k (some c)) (setCtx_ctx_same ..) rfl rfl
      hlowHigh (Nat.le_max_right ..) hq
    have hexec := exec_scan_passed hA hs ho hu (modeOf_code hmode) (rangeOf_sequence hkind hl hup) hf hk hlow
      ((resolve_sequence rfl hc hne hlast).trans hrun)
    refine ⟨_, _, hexec, setCtx_ctx_same .., ?others, rfl, rfl, rfl, rfl, rfl, rfl, rfl, hhigh, rfl, rfl, rfl, rfl, rfl,
      rfl, rfl, rfl, rfl, rfl, rfl, ⟨rest, rfl, hrest⟩, rfl, landed_link (r := .scan f) hA rfl, rfl, rfl⟩
    case others => exact fun j hj => (setCtx_ctx_other hj _ _).trans (setCtx_ctx_other hj _ u)
  case stamp =>
    intro s tag f i filter k mode hA hs ho hu hmode hkind hup hf hk hlow hne hl hq
    let u := taking tag (.scan f) s
    obtain ⟨dies, hprobe⟩ := probeEdge_room (setCtx_ctx_same k (some { Ctx.taken tag i
      (.stamp f.lower (Machine.optional f.upperPresence f.upper)) filter mode f.hitLimit with
        low := (s.entry i).oldest, high := (s.entry i).committed - 1, searchLow := (s.entry i).oldest
        searchHigh := (s.entry i).committed - 1 }) u) (show s.arr.queue.length < 32 by omega)
    have hexec := exec_scan_passed hA hs ho hu (modeOf_code hmode) (rangeOf_stamp hkind hup) hf hk hlow
      ((resolve_stamp rfl hne hl).trans hprobe)
    exact ⟨_, _, hexec, setCtx_ctx_same .., rfl, rfl, rfl, rfl, rfl, rfl, rfl, rfl, rfl, rfl, rfl, rfl, rfl, rfl, rfl,
      rfl, rfl, rfl, rfl, rfl, rfl, rfl, rfl, rfl, rfl, rfl⟩

end Sys2Proof.Scanning
end

section
/-! PROOFS. One array clock cycle with nothing commanded, as long as no period ends (log 4, R115, R120, R172). -/

namespace Sys2Proof.Clock

open Sys2Proof.Machine Sys2Proof.Laws

/-! ### The refresh timers (R115) -/

/-- A die record one cycle later: a running timer has counted, a stopped one stays stopped. -/
def counted (x : Die) : Die := { x with timer := x.timer.map (· + 1) }

/-- The state with every die record one cycle later. -/
def timersCounted (s : State) : State := s.modArr fun a => { a with dies := a.dies.map counted }

theorem timersCounted_die (s : State) (d : Fin 2) : (timersCounted s).die d = counted (s.die d) := by
  simp [timersCounted, State.modArr, State.die]

theorem setDie_self (s : State) (d : Fin 2) : s.setDie d (s.die d) = s := by
  simp [State.setDie, State.modArr, State.die]

theorem countRefresh_eq (s : State) (d : Fin 2) : s.countRefresh d = s.setDie d (counted (s.die d)) := by
  unfold State.countRefresh counted
  split
  next n hn => rw [hn]; rfl
  next hn => rw [hn, Option.map_none, ← hn, setDie_self]

theorem countRefresh_both (s : State) : (s.countRefresh 0).countRefresh 1 = timersCounted s := by
  have hdies : (s.arr.dies.set 0 (counted s.arr.dies[0])).set 1 (counted s.arr.dies[1]) = s.arr.dies.map counted := by
    ext1 i hi
    match i, hi with
    | 0, _ | 1, _ => simp
  rw [countRefresh_eq, countRefresh_eq, setDie_die_other (by decide)]
  exact congrArg (fun dies => ({ s with arr := { s.arr with dies := dies } } : State)) hdies

theorem overdue_timersCounted {s : State} {d : Fin 2}
    (h : ∀ n, (s.die d).timer = some n → n + 1 < s.refreshPeriod d) : (timersCounted s).overdue d = false := by
  have hperiod : (timersCounted s).refreshPeriod d = s.refreshPeriod d := by
    simp only [State.refreshPeriod, timersCounted_die]
    rfl
  unfold State.overdue
  rw [hperiod, timersCounted_die]
  cases ht : (s.die d).timer with
  | none => simp [counted, ht]
  | some n => simpa [counted, ht] using h n ht

theorem tickRefresh_running {s : State} (h : ∀ d n, (s.die d).timer = some n → n + 1 < s.refreshPeriod d) :
    s.tickRefresh = timersCounted s := by
  have hnone : (allDies.filter fun d => (timersCounted s).overdue d) = [] :=
    List.filter_eq_nil_iff.mpr fun d _ => by simp [overdue_timersCounted (h d)]
  unfold State.tickRefresh
  dsimp only
  rw [countRefresh_both, hnone, freely_small _ (by simp)]
  rfl

/-! ### The receiver and the sample timer (R120, R172) -/

theorem tickLink_hunt {s : State} (h : s.link.rx = .hunt) :
    s.tickLink = s.modLink fun l => { l with rxIdle := l.rxIdle + 1 } := by
  simp [State.tickLink, h, RxState.inFrame]

theorem tickSample_within {s : State} (h : s.mon.subMs + 1 < 400000) :
    s.tickSample = s.modMon fun m => { m with subMs := m.subMs + 1 } := if_pos h

/-- Settles O2: the timers, the receiver and the sample timer count one after the other, and none reaches its period. -/
theorem idleStepCountsOneCycle : Obligations.IdleStepCountsOneCycle := by
  intro s hp hrx hsub htimer
  let timed := timersCounted s
  let heard := timed.modLink fun l => { l with rxIdle := l.rxIdle + 1 }
  calc step s
    _ = .next s.tickRefresh.tickLink.tickSample := by unfold step; rw [hp]; rfl
    _ = .next timed.tickLink.tickSample := by rw [tickRefresh_running htimer]
    _ = .next heard.tickSample := by rw [tickLink_hunt (s := timed) hrx]
    _ = .next (heard.modMon fun m => { m with subMs := m.subMs + 1 }) := by rw [tickSample_within (s := heard) hsub]

end Sys2Proof.Clock
end

section
/-! PROOFS. CALIBRATE (R130): its checks, and what a calibration request does where the reference is free, where the die
has a request already, and where no reference is fitted (R125, R126, R128). -/

namespace Sys2Proof.Monitoring

open Sys2Proof.Machine Sys2Proof.Laws

/-! ### The request is taken -/

/-- A request that its owner only admits holds its table entry, and the link is at rest again. -/
theorem landed_admitted {s : State} {tag : Byte} (r : Request) (hA : s.Admits tag) :
    landed (taking tag r s) = s.admitted tag r.kind := by
  obtain ⟨⟨-, hbufs, hheld, -⟩, -⟩ := hA
  unfold landed taking State.admitted
  simp only [State.modLink, State.setTable]
  rw [← hbufs, ← hheld]

section taken

variable {s u : State} {tag die kind : Byte}

theorem exec_calibrate (hA : s.Admits tag) : exec (.calibrate tag die kind) s =
    .next (landed (takeCalibrate tag die kind (taking tag (.calibrate die kind) s))) :=
  congrArg Host.Outcome.next (hostRequest_taken (r := .calibrate die kind) hA (by simp [Request.kind]) rfl rfl)

/-- A CALIBRATE that the monitor answers at once, with the state it makes for the rest. -/
theorem exec_calibrate_answered {r : Result} {fields : List Byte} (hA : s.Admits tag) (hu : u.Admits tag)
    (h : takeCalibrate tag die kind (taking tag (.calibrate die kind) s) =
      (taking tag (.calibrate die kind) u).respond tag .calibrate r fields) :
    exec (.calibrate tag die kind) s = .next (u.answered tag .calibrate r fields) := by
  rw [exec_calibrate hA, h]
  exact congrArg _ (landed_answer u tag (.calibrate die kind) hu r fields)

/-- A CALIBRATE that stays in the table, with the state that the monitor makes for the rest. -/
theorem exec_calibrate_admitted (hA : s.Admits tag) (hu : u.Admits tag)
    (h : takeCalibrate tag die kind (taking tag (.calibrate die kind) s) = taking tag (.calibrate die kind) u) :
    exec (.calibrate tag die kind) s = .next (u.admitted tag .calibrate) := by
  rw [exec_calibrate hA, h]
  exact congrArg _ (landed_admitted (.calibrate die kind) hu)

/-! The checks of R130. -/

theorem dieOf_bad (h : 2 ≤ die.toNat) : dieOf die = none := dif_neg (by omega)

theorem dieOf_id {d : Fin 2} (h : die.toNat = d.val) : dieOf die = some d := by
  unfold dieOf
  rw [dif_pos (by omega)]
  exact congrArg some (Fin.ext h)

theorem calKindOf_bad (h : 2 ≤ kind.toNat) : calKindOf kind = none := by
  unfold calKindOf
  split
  next h0 => omega
  next h1 => omega
  next => rfl

theorem calKindOf_code {k : CalKind} (h : kind = 0 ∧ k = .short ∨ kind = 1 ∧ k = .long) : calKindOf kind = some k := by
  rcases h with ⟨rfl, rfl⟩ | ⟨rfl, rfl⟩ <;> rfl

theorem takeCalibrate_badValue (h : 2 ≤ die.toNat ∨ 2 ≤ kind.toNat) :
    takeCalibrate tag die kind s = s.respond tag .calibrate .badValue [0xFF] := by
  unfold takeCalibrate
  rcases h with h | h
  · rw [dieOf_bad h]
    rfl
  · rw [calKindOf_bad h]
    cases dieOf die <;> rfl

variable {d : Fin 2} {k : CalKind}

theorem takeCalibrate_state (hd : die.toNat = d.val) (hk : calKindOf kind = some k)
    (h : (s.die d).state ≠ .ready ∨ (s.die d).restTarget ≠ .none) :
    takeCalibrate tag die kind s = s.respond tag .calibrate .state s.dieStates := by
  simp only [takeCalibrate, dieOf_id hd, hk, if_pos h]

theorem takeCalibrate_passed (hd : die.toNat = d.val) (hk : calKindOf kind = some k) (hs : (s.die d).state = .ready)
    (ht : (s.die d).restTarget = .none) : takeCalibrate tag die kind s = s.requestCal d k [tag] := by
  have hgo : ¬ ((s.die d).state ≠ .ready ∨ (s.die d).restTarget ≠ .none) := by simp [hs, ht]
  simp only [takeCalibrate, dieOf_id hd, hk, if_neg hgo]

end taken

/-! ### A calibration request (R125, R126, R128) -/

section request

variable {s : State} {d : Fin 2} {k : CalKind} {joined : List Byte}

/-- The state after a request that was made and granted in one change: it holds the reference, and the die is held. -/
def grantedAtOnce (d : Fin 2) (k : CalKind) (joined : List Byte) (s : State) : State :=
  (s.modMon fun m => { m with
    reference := some d, made := m.made + 1
    dies := m.dies.set d { s.dieMon d with req := some ⟨k, .granted, m.made, joined⟩ } }).setDie d
      { s.die d with holdCal := true }

theorem fitted_of_one (h : s.arr.timing.referenceFitted = 1) : s.arr.fitted = true := by
  simp [ArrayCtl.fitted, h]

theorem fitted_of_zero (h : s.arr.timing.referenceFitted = 0) : s.arr.fitted = false := by
  simp [ArrayCtl.fitted, h]

theorem calPending_true {r : CalReq} (hr : (s.dieMon d).req = some r) (hp : r.stage = .pending) :
    s.calPending d = true := by
  simp [State.calPending, hr, hp]

theorem calPending_false (h : ∀ r, (s.dieMon d).req = some r → r.stage ≠ .pending) : s.calPending d = false := by
  unfold State.calPending
  split
  next r hr => simpa using h r hr
  next => rfl

theorem calChoice_only (hd : s.calPending d = true) (ho : s.calPending (otherDie d) = false) :
    s.calChoice = some d := by
  unfold State.calChoice
  match d with
  | 0 =>
    have h1 : s.calPending 1 = false := ho
    simp [hd, h1]
  | 1 =>
    have h0 : s.calPending 0 = false := ho
    simp [hd, h0]

theorem tryGrant_free (hf : s.mon.reference = none) (hc : s.calChoice = some d) : s.tryGrant = s.grantTo d := by
  unfold State.tryGrant
  rw [hf, hc]

theorem grantTo_ready (h : (s.die d).state = .ready) : s.grantTo d =
    ((s.modMon fun m => { m with reference := some d }).setCalStage d .granted).setDie d
      { s.die d with holdCal := true } := by
  unfold State.grantTo
  exact if_neg (show ¬ (s.die d).state = .initializing by rw [h]; decide)

theorem requestCal_granted (hs : (s.die d).state = .ready) (hfit : s.arr.timing.referenceFitted = 1)
    (hreq : (s.dieMon d).req = none) (hfree : s.mon.reference = none)
    (hother : ∀ r, (s.dieMon (otherDie d)).req = some r → r.stage ≠ .pending) :
    s.requestCal d k joined = grantedAtOnce d k joined s := by
  let made := (s.setDieMon d { s.dieMon d with req := some ⟨k, .pending, s.mon.made, joined⟩ }).modMon fun m =>
    { m with made := m.made + 1 }
  have hd : (made.dieMon d).req = some ⟨k, .pending, s.mon.made, joined⟩ :=
    congrArg DieMonitor.req (setDieMon_dieMon_same ..)
  have ho : made.dieMon (otherDie d) = s.dieMon (otherDie d) := setDieMon_dieMon_other (otherDie_ne d) _ s
  have hchoice : made.calChoice = some d :=
    calChoice_only (calPending_true hd rfl) (calPending_false fun r hr => hother r (by rwa [ho] at hr))
  calc s.requestCal d k joined
    _ = made.tryGrant := by simp only [State.requestCal, fitted_of_one hfit, hreq, if_true, made]
    _ = made.grantTo d := tryGrant_free hfree hchoice
    _ = grantedAtOnce d k joined s := by
      rw [grantTo_ready (s := made) hs]
      simp [made, grantedAtOnce, State.setCalStage, State.setDieMon, State.modMon, State.dieMon, State.die]

theorem joinKind_eq (r : CalReq) (k : CalKind) :
    r.joinKind k = if r.stage ≠ .running ∧ k = .long then .long else r.kind := by
  unfold CalReq.joinKind
  cases r.stage <;> cases k <;> rfl

theorem requestCal_joins {r : CalReq} (hfit : s.arr.timing.referenceFitted = 1) (hreq : (s.dieMon d).req = some r) :
    s.requestCal d k joined = s.setDieMon d { s.dieMon d with req := some { r with
      kind := if r.stage ≠ .running ∧ k = .long then .long else r.kind, joined := r.joined ++ joined } } := by
  simp only [State.requestCal, fitted_of_one hfit, hreq, if_true, joinKind_eq]

theorem newBase_of_temp {T : Int} (h : (s.dieMon d).temp = some T) : s.newBase d = some ⟨T, s.mon.supply⟩ := by
  simp [State.newBase, h]

theorem checkStart_none (h : s.arr.startTag = none) : s.checkStart = s := by
  unfold State.checkStart
  rw [h]

/-- The state after a READY die has its baselines anew, with no drift, no request and no drift hold. -/
def rebased (d : Fin 2) (T : Int) (s : State) : State :=
  (s.setDieMon d { s.dieMon d with base := some ⟨T, s.mon.supply⟩, drift := 0, req := none }).setDie d
    { s.die d with driftHold := false }

theorem calFields_rebased (T : Int) (done : Bool) : (rebased d T s).calFields d k done =
    [BitVec.ofNat 8 d.val, k.code, calOutcome done, temperatureByte T] ++ leBytes 2 s.mon.supply := by
  simp [State.calFields, rebased]

theorem requestCal_default {tag : Byte} {T : Int} (hs : (s.die d).state = .ready)
    (hfit : s.arr.timing.referenceFitted = 0) (htemp : (s.dieMon d).temp = some T) (hstart : s.arr.startTag = none) :
    s.requestCal d k [tag] = (rebased d T s).respond tag .calibrate .ok
      ([BitVec.ofNat 8 d.val, k.code, 1, temperatureByte T] ++ leBytes 2 s.mon.supply) := by
  have hready : ((rebased d T s).die d).state = .ready := (congrArg Die.state (setDie_die_same ..)).trans hs
  have hne : ¬ ((rebased d T s).die d).state = .initializing := by rw [hready]; decide
  calc s.requestCal d k [tag]
    _ = s.recordCal d k [tag] false := by simp [State.requestCal, fitted_of_zero hfit]
    _ = ((rebased d T s).respond tag .calibrate .ok ((rebased d T s).calFields d k false)).checkStart := by
      unfold State.recordCal
      rw [newBase_of_temp htemp]
      exact congrArg (fun t => State.checkStart (State.respond tag .calibrate .ok (State.calFields t d k false) t))
        (if_neg hne)
    _ = (rebased d T s).respond tag .calibrate .ok ((rebased d T s).calFields d k false) := checkStart_none hstart
    _ = (rebased d T s).respond tag .calibrate .ok
        ([BitVec.ofNat 8 d.val, k.code, 1, temperatureByte T] ++ leBytes 2 s.mon.supply) := by
      rw [calFields_rebased]
      rfl

end request

theorem byte_of_die {die : Byte} {d : Fin 2} (h : die.toNat = d.val) : BitVec.ofNat 8 d.val = die := by
  rw [← h, BitVec.ofNat_toNat, BitVec.setWidth_eq]

theorem code_of_kind {kind : Byte} {k : CalKind} (h : kind = 0 ∧ k = .short ∨ kind = 1 ∧ k = .long) :
    k.code = kind := by
  rcases h with ⟨rfl, rfl⟩ | ⟨rfl, rfl⟩ <;> rfl

/-- Settles O42: the checks of R130, then what the request makes of the reference, of the die's request, or of the
baselines. -/
theorem calibrate : Obligations.Calibrate := by
  intro s tag die kind hA
  refine ⟨fun h => exec_calibrate_answered hA hA (takeCalibrate_badValue h), fun d k hd hkind => ?_⟩
  have hk := calKindOf_code hkind
  refine ⟨fun h => exec_calibrate_answered hA hA (takeCalibrate_state hd hk h), fun hs ht => ?_⟩
  have htake : takeCalibrate tag die kind (taking tag (.calibrate die kind) s) =
      (taking tag (.calibrate die kind) s).requestCal d k [tag] := takeCalibrate_passed hd hk hs ht
  refine ⟨fun hfit hreq hfree hother => ?granted, fun r hfit hreq => ?joins, fun T hfit htemp hstart => ?default⟩
  case granted =>
    exact exec_calibrate_admitted (u := grantedAtOnce d k [tag] s) hA hA
      (htake.trans (requestCal_granted hs hfit hreq hfree hother))
  case joins => exact exec_calibrate_admitted hA hA (htake.trans (requestCal_joins hfit hreq))
  case default =>
    have hdefault := htake.trans (requestCal_default hs hfit htemp hstart)
    rw [byte_of_die hd, code_of_kind hkind] at hdefault
    exact exec_calibrate_answered (u := rebased d T s) hA hA hdefault

end Sys2Proof.Monitoring
end

section
/-! PROOFS. SET_MONITOR (R131, R132): its payload reads back, the first setting out of range is refused by its index,
and settings that pass stand at once, with a sample where the new interval has elapsed. -/

namespace Sys2Proof.Monitoring

open Sys2Proof.Machine Sys2Proof.Laws

/-! ### The request is taken (R187, R188) -/

theorem monitorOf_monitorBytes (f : MonitorFields) : monitorOf (monitorBytes f) = f := by
  have head16 : ∀ (v : BitVec 16) post, fieldAt 16 (fieldBytes v ++ post) 0 = v := fun v post => fieldAt16 [] post v rfl
  have last16 : ∀ v : BitVec 16, fieldAt 16 (fieldBytes v) 0 = v := fun v => by simpa using head16 v []
  have hot : byteAt (monitorBytes f) 2 = f.hotThreshold := rfl
  obtain ⟨interval, threshold, kT, kV, due, hard⟩ := f
  simp only [monitorOf, hot, MonitorFields.mk.injEq, true_and]
  simp only [monitorBytes, List.append_assoc]
  refine ⟨head16 _ _, ?_⟩
  simp [Appending.fieldAt_skip, Scanning.fieldAt_cons, fieldBytes_length, head16, last16]

theorem exec_setMonitor {s : State} {tag : Byte} {f : MonitorFields} (hA : s.Admits tag) :
    exec (.setMonitor tag f) s = .next (landed (takeSetMonitor tag f (taking tag (.setMonitor f) s))) :=
  congrArg Host.Outcome.next (hostRequest_taken (r := .setMonitor f) hA (by simp [Request.kind]) rfl
    (congrArg Request.setMonitor (monitorOf_monitorBytes f)))

/-! ### The checks of R131 -/

theorem firstFailing_none {checks : List Bool} (h : checks.all id = true) : firstFailing checks = none := by
  simpa [firstFailing, List.findIdx?_eq_none_iff] using h

theorem firstFailing_first {checks : List Bool} {n : Nat} (h : (checks.take n).all id = true)
    (hn : checks[n]? = some false) : firstFailing checks = some n := by
  induction checks generalizing n with
  | nil => simp at hn
  | cons b checks ih =>
    cases n with
    | zero =>
      obtain rfl : b = false := by simpa using hn
      rfl
    | succ n =>
      obtain ⟨rfl, hrest⟩ : b = true ∧ (checks.take n).all id = true := by simpa using h
      simpa [firstFailing, List.findIdx?_cons] using ih hrest (by simpa using hn)

/-- The six checks of R131, in the order of the settings' indices. -/
def monitorChecks (f : MonitorFields) : List Bool :=
  [10 ≤ f.sampleInterval.toNat && f.sampleInterval.toNat ≤ 1000,
    60 ≤ f.hotThreshold.toNat && f.hotThreshold.toNat ≤ 105, f.kT.toNat ≤ 500, f.kV.toNat ≤ 500,
    50 ≤ f.dueThreshold.toNat && f.dueThreshold.toNat ≤ 5000,
    f.dueThreshold.toNat + 1 ≤ f.hardLimit.toNat && f.hardLimit.toNat ≤ 10000]

theorem monitorFault_eq (f : MonitorFields) : monitorFault f = firstFailing (monitorChecks f) := by
  simp [monitorFault, monitorChecks, within]

/-! ### A sample that no command carries (R120, log 7) -/

theorem readStatus_queues (d : Fin 2) (s : State) : ∃ q w, s.readStatus d = s.setQueues q w := by
  unfold State.readStatus
  split
  · show ∃ q w, s.issue (statusTxn d) = s.setQueues q w
    unfold State.issue
    rw [if_pos (show (statusTxn d).origin = .statusRead from rfl)]
    split
    · exact ⟨_, _, rfl⟩
    · exact ⟨_, _, rfl⟩
  · exact ⟨s.arr.queue, s.arr.waiting, rfl⟩

theorem readStatus_each (order : List (Fin 2)) (s : State) :
    ∃ q w, forEach order State.readStatus s = s.setQueues q w := by
  induction order generalizing s with
  | nil => exact ⟨s.arr.queue, s.arr.waiting, rfl⟩
  | cons d order ih =>
    obtain ⟨q, w, hd⟩ := readStatus_queues d s
    obtain ⟨q', w', hrest⟩ := ih (s.readStatus d)
    refine ⟨q', w', ?_⟩
    show forEach order State.readStatus (s.readStatus d) = _
    rw [hrest, hd]
    rfl

theorem sampleFree_eq (s : State) : ∃ v n q w, v ≤ 2047 ∧ s.sampleFree =
    (({ s with freeDraws := n } : State).modMon fun m =>
      { m with supply := v, sinceMs := 0, subMs := 0 }).setQueues q w := by
  let v := Config.supplyMeasured s.freeDraws % 2048
  have hv : v ≤ 2047 := Nat.le_of_lt_succ (Nat.mod_lt _ (by decide))
  obtain ⟨order, n, hfree, -⟩ := freely_spec
    (allDies.filter fun d => (s.die d).state = .ready ∧ s.statusOutstanding d = false)
    { s with freeDraws := s.freeDraws + 1 }
  obtain ⟨q, w, hread⟩ := readStatus_each order (({ s with freeDraws := n } : State).modMon fun m =>
    { m with supply := v, sinceMs := 0, subMs := 0 })
  refine ⟨v, n, q, w, hv, ?_⟩
  rw [← hread]
  exact congrArg (fun p : List (Fin 2) × State => p.2.takeSample v p.1) hfree

/-! ### What SET_MONITOR answers (R131, R132) -/

section taken

variable {s : State} {tag : Byte} {f : MonitorFields}

/-- The state in which new monitor settings stand. -/
def withSettings (f : MonitorFields) (s : State) : State := { s with mon := { s.mon with settings := f } }

theorem takeSetMonitor_fault {n : Nat} (h : monitorFault f = some n) :
    takeSetMonitor tag f s = s.respond tag .setMonitor .badValue [BitVec.ofNat 8 n] := by
  unfold takeSetMonitor
  rw [h]
  rfl

theorem takeSetMonitor_early (h : monitorFault f = none) (hs : s.mon.sinceMs < f.sampleInterval.toNat) :
    takeSetMonitor tag f s = (withSettings f s).respond tag .setMonitor .ok [] := by
  unfold takeSetMonitor
  rw [h]
  exact if_neg (Nat.not_le.mpr hs)

theorem takeSetMonitor_elapsed (h : monitorFault f = none) (hs : f.sampleInterval.toNat ≤ s.mon.sinceMs) :
    takeSetMonitor tag f s = ((withSettings f s).respond tag .setMonitor .ok []).sampleFree := by
  unfold takeSetMonitor
  rw [h]
  exact if_pos hs

theorem landed_setMonitor (r : Result) (fields : List Byte) (hA : s.Admits tag) :
    landed ((taking tag (.setMonitor f) s).respond tag .setMonitor r fields) =
      s.answered tag .setMonitor r fields := landed_answer s tag (.setMonitor f) hA r fields

end taken

/-- Settles O45: the checks by index, then the settings with and without the sample that the new interval brings. -/
theorem setMonitor : Obligations.SetMonitor := by
  intro s tag f hA
  have hpass : (monitorChecks f).all id = true → monitorFault f = none := fun h =>
    (monitorFault_eq f).trans (firstFailing_none h)
  refine ⟨fun n hbefore hn => ?fault, fun hall hs => ?early, fun hall hs _ => ?elapsed⟩
  case fault =>
    have hfault : monitorFault f = some n := (monitorFault_eq f).trans (firstFailing_first hbefore hn)
    rw [exec_setMonitor hA, takeSetMonitor_fault hfault, landed_setMonitor _ _ hA]
  case early =>
    rw [exec_setMonitor hA, takeSetMonitor_early (s := taking tag (.setMonitor f) s) (hpass hall) hs]
    exact congrArg _ (landed_setMonitor (s := withSettings f s) .ok [] hA)
  case elapsed =>
    let u := (taking tag (.setMonitor f) (withSettings f s)).respond tag .setMonitor .ok []
    have hland : landed u = (withSettings f s).answered tag .setMonitor .ok [] := landed_setMonitor .ok [] hA
    have hlink := congrArg State.link hland
    have htable := congrArg State.table hland
    have htake : takeSetMonitor tag f (taking tag (.setMonitor f) s) = u.sampleFree :=
      takeSetMonitor_elapsed (hpass hall) hs
    obtain ⟨v, n, q, w, hv, hsample⟩ := sampleFree_eq u
    have hexec := exec_setMonitor (f := f) hA
    rw [htake, hsample] at hexec
    exact ⟨_, v, hexec, hv, rfl, hlink, htable, rfl, rfl, rfl⟩

end Sys2Proof.Monitoring
end

section
/-! PROOFS. A die arrives in RESTING or in OFF, or ends its wake, and the POWER that waits for it answers (R136, R137,
R140 to R142, R144). -/

namespace Sys2Proof.Resting

open Sys2Proof.Machine Sys2Proof.Laws

/-! ### The POWER that waits (R136, R142, R144) -/

theorem powerDone_run (s : State) :
    s.powerDone .run = true ↔ ∀ d : Fin 2, (s.die d).state ≠ .resting ∧ (s.die d).state ≠ .waking := by
  simp [State.powerDone, allDies, Fin.forall_fin_two]

theorem powerDone_rest (s : State) : s.powerDone .rest = true ↔ ∀ d : Fin 2, (s.die d).restTarget ≠ .rest := by
  simp [State.powerDone, allDies, Fin.forall_fin_two]

theorem checkPower_none {s : State} (h : s.arr.power = none) : s.checkPower = s := (checkPower_cases s).1 (.inl h)

theorem checkPower_waits {s : State} {p : PowerOp} (hp : s.arr.power = some p) (hd : ¬ s.powerDone p.level = true) :
    s.checkPower = s := (checkPower_cases s).1 (.inr ⟨p, hp, by simpa using hd⟩)

/-- The check of the POWER that waits concerns the link, the request table and the POWER itself. -/
theorem checkPower_frame (s : State) :
    ∃ l t p, s.checkPower = { s with link := l, table := t, arr := { s.arr with power := p } } := by
  unfold State.checkPower
  split
  next => exact ⟨s.link, s.table, s.arr.power, rfl⟩
  next =>
    split
    · exact ⟨_, _, _, rfl⟩
    · exact ⟨s.link, s.table, s.arr.power, rfl⟩

@[simp] theorem checkPower_die (s : State) (d : Fin 2) : s.checkPower.die d = s.die d := by
  obtain ⟨l, t, p, h⟩ := checkPower_frame s
  rw [h]
  rfl

@[simp] theorem checkPower_dir (s : State) : s.checkPower.dir = s.dir := by
  obtain ⟨l, t, p, h⟩ := checkPower_frame s
  rw [h]

@[simp] theorem checkPower_mem (s : State) : s.checkPower.mem = s.mem := by
  obtain ⟨l, t, p, h⟩ := checkPower_frame s
  rw [h]

/-! ### When a die may rest, or go OFF (R137, R144) -/

theorem readyToRest_iff (x : Die) : x.readyToRest = true ↔
    x.drained = true ∧ x.restTarget = .rest ∧ x.holdRefresh = false ∧ x.holdCal = false ∧ x.debt = 0 := by
  simp [Die.readyToRest, and_assoc]

theorem readyForOff_iff (x : Die) : x.readyForOff = true ↔
    x.drained = true ∧ x.restTarget = .deep ∧ x.holdRefresh = false ∧ x.holdCal = false := by
  simp [Die.readyForOff, and_assoc]

theorem enterResting_ready {s : State} {d : Fin 2} (h : (s.die d).readyToRest = true) :
    enterResting d s = s.becomeResting d := if_pos h

theorem enterResting_unready {s : State} {d : Fin 2} (h : ¬ (s.die d).readyToRest = true) : enterResting d s = s :=
  if_neg h

theorem enterResting_arrives {s : State} {d : Fin 2} (h : (s.die d).readyToRest = true) :
    s.RestArrives (enterResting d s) d := by
  obtain ⟨-, -, -, -, hdebt⟩ := (readyToRest_iff _).mp h
  rw [enterResting_ready h]
  exact becomeResting_arrives hdebt

theorem enterOff_ready {s : State} {d : Fin 2} (h : (s.die d).readyForOff = true) :
    enterOff d s = (s.becomeOff d).checkPower := if_pos h

theorem enterOff_unready {s : State} {d : Fin 2} (h : ¬ (s.die d).readyForOff = true) : enterOff d s = s := if_neg h

/-! ### A die becomes OFF (R144) -/

theorem forgetDie_cons (c : Host.Cell) (m : List Host.Cell) (d : Fin 2) : Memory.forgetDie (c :: m) d =
    if c.1 / dieBytes = d.val then Memory.forgetDie m d else c :: Memory.forgetDie m d := by
  by_cases h : c.1 / dieBytes = d.val <;> simp [Memory.forgetDie, h]

/-- The bytes of one die are gone, those of the other stay. -/
theorem read_forgetDie (m : List Host.Cell) (d : Fin 2) (a : Nat) :
    Memory.read (Memory.forgetDie m d) a = if a / dieBytes = d.val then Memory.blank else Memory.read m a := by
  induction m with
  | nil => simp [Memory.forgetDie, Memory.read]
  | cons c m ih =>
    rw [forgetDie_cons]
    by_cases hc : c.1 = a
    · subst hc
      by_cases hd : c.1 / dieBytes = d.val
      · simp only [hd, if_true, ih]
      · simp [hd, Memory.read]
    · have hread (l : List Host.Cell) : Memory.read (c :: l) a = Memory.read l a := if_neg hc
      split <;> simp only [hread, ih]

/-- What a die that becomes OFF changes: its record and its bytes, its calibration request and its status reads. -/
theorem becomeOff_frame (d : Fin 2) (s : State) : ∃ mon q w, s.becomeOff d =
    { (s.setDie d (s.die d).off).setQueues q w with mem := Memory.forgetDie s.mem d, mon := mon } := by
  obtain ⟨mon, hmon, -⟩ := dropPendingCal_mon d ((s.setDie d (s.die d).off).setMem (Memory.forgetDie s.mem d))
  unfold State.becomeOff
  rw [hmon]
  exact ⟨mon, _, _, rfl⟩

@[simp] theorem becomeOff_die_same (d : Fin 2) (s : State) : (s.becomeOff d).die d = (s.die d).off := by
  obtain ⟨mon, q, w, h⟩ := becomeOff_frame d s
  rw [h]
  exact setDie_die_same d (s.die d).off s

theorem becomeOff_die_other {d e : Fin 2} (he : e ≠ d) (s : State) : (s.becomeOff d).die e = s.die e := by
  obtain ⟨mon, q, w, h⟩ := becomeOff_frame d s
  rw [h]
  exact setDie_die_other he (s.die d).off s

@[simp] theorem becomeOff_dir (d : Fin 2) (s : State) : (s.becomeOff d).dir = s.dir := by
  obtain ⟨mon, q, w, h⟩ := becomeOff_frame d s
  rw [h]
  rfl

@[simp] theorem becomeOff_mem (d : Fin 2) (s : State) : (s.becomeOff d).mem = Memory.forgetDie s.mem d := by
  obtain ⟨mon, q, w, h⟩ := becomeOff_frame d s
  rw [h]

/-! ### The three arrivals -/

section arrivals

variable {s : State} {d : Fin 2}

theorem exec_enterResting_unready (h : ¬ (s.die d).readyToRest = true) : exec (.enterResting d) s = .next s :=
  congrArg Host.Outcome.next (enterResting_unready h)

theorem exec_enterOff_unready (h : ¬ (s.die d).readyForOff = true) : exec (.enterOff d) s = .next s :=
  congrArg Host.Outcome.next (enterOff_unready h)

theorem exec_enterOff_ready (h : (s.die d).readyForOff = true) :
    exec (.enterOff d) s = .next (s.becomeOff d).checkPower := congrArg Host.Outcome.next (enterOff_ready h)

theorem exec_wakeDelayElapsed (h : (s.die d).state = .waking) :
    exec (.wakeDelayElapsed d) s = .next (s.setDie d (s.die d).ready).checkPower :=
  congrArg Host.Outcome.next (if_pos h)

theorem exec_wakeDelayElapsed_awake (h : (s.die d).state ≠ .waking) : exec (.wakeDelayElapsed d) s = .next s :=
  congrArg Host.Outcome.next (if_neg h)

theorem die_or_otherDie (d e : Fin 2) : e = d ∨ e = otherDie d := by revert d e; decide

theorem ready_other_die : (s.setDie d (s.die d).ready).die (otherDie d) = s.die (otherDie d) :=
  setDie_die_other (otherDie_ne d) _ s

/-- The end of a wake leaves the POWER waiting where the other die keeps it from its moment (R136, R142). -/
theorem ready_checkPower_waits (h : s.arr.power = none ∨
      (∃ tag, s.arr.power = some ⟨tag, .rest⟩ ∧ (s.die (otherDie d)).restTarget = .rest) ∨
      (∃ tag, s.arr.power = some ⟨tag, .run⟩ ∧
        ((s.die (otherDie d)).state = .resting ∨ (s.die (otherDie d)).state = .waking))) :
    (s.setDie d (s.die d).ready).checkPower = s.setDie d (s.die d).ready := by
  rcases h with hnone | ⟨tag, hp, ho⟩ | ⟨tag, hp, ho⟩
  · exact checkPower_none hnone
  · refine checkPower_waits hp fun hdone => (powerDone_rest _).mp hdone (otherDie d) ?_
    rw [ready_other_die, ho]
  · refine checkPower_waits hp fun hdone => ?_
    obtain ⟨hrest, hwake⟩ := (powerDone_run _).mp hdone (otherDie d)
    rw [ready_other_die] at hrest hwake
    exact ho.elim hrest hwake

/-- With this die READY and the other neither RESTING nor WAKING, a POWER RUN has reached its moment (R142). -/
theorem ready_powerDone_run (hrest : (s.die (otherDie d)).state ≠ .resting)
    (hwake : (s.die (otherDie d)).state ≠ .waking) : (s.setDie d (s.die d).ready).powerDone .run = true := by
  refine (powerDone_run _).mpr fun e => ?_
  rcases die_or_otherDie d e with rfl | rfl
  · rw [setDie_die_same]
    exact ⟨by simp [Die.ready], by simp [Die.ready]⟩
  · rw [ready_other_die]
    exact ⟨hrest, hwake⟩

end arrivals

/-- Settles O48: each arrival where its condition holds, nothing where it does not, and the POWER by its moment. -/
theorem restArrivals : Obligations.RestArrivals := by
  refine ⟨fun s d => ⟨fun hdr ht hr hc hdebt => ?rests, fun h => exec_enterResting_unready ?staysAwake⟩, fun s d =>
    ⟨fun hdr ht hr hc => ?goesOff, fun h => exec_enterOff_unready ?staysOn, fun hw => ⟨fun h => ?wakes, ?answers⟩,
      exec_wakeDelayElapsed_awake⟩⟩
  case rests => exact ⟨_, rfl, enterResting_arrives ((readyToRest_iff _).mpr ⟨hdr, ht, hr, hc, hdebt⟩)⟩
  case staysAwake =>
    intro hready
    obtain ⟨hdr, ht, hr, hc, hdebt⟩ := (readyToRest_iff _).mp hready
    simp [hdr, ht, hr, hc, hdebt] at h
  case goesOff =>
    have hexec := exec_enterOff_ready ((readyForOff_iff _).mpr ⟨hdr, ht, hr, hc⟩)
    have hdie : (s.becomeOff d).checkPower.die d = (s.die d).off := by simp
    have hread (a : Nat) : Memory.read (s.becomeOff d).checkPower.mem a =
        if a / 268435456 = d.val then 0 else Memory.read s.mem a := by
      rw [checkPower_mem, becomeOff_mem]
      exact read_forgetDie s.mem d a
    refine ⟨_, hexec, ?_⟩
    rw [hdie, checkPower_die, becomeOff_die_other (otherDie_ne d), checkPower_dir, becomeOff_dir]
    exact ⟨rfl, rfl, rfl, rfl, rfl, rfl, rfl, rfl, rfl, fun a ha => (hread a).trans (if_pos ha),
      fun a ha => (hread a).trans (if_neg ha)⟩
  case staysOn =>
    intro hready
    obtain ⟨hdr, ht, hr, hc⟩ := (readyForOff_iff _).mp hready
    simp [hdr, ht, hr, hc] at h
  case wakes =>
    rw [exec_wakeDelayElapsed hw, ready_checkPower_waits h]
    rfl
  case answers =>
    intro tag hp hrest hwake
    rw [exec_wakeDelayElapsed hw, (checkPower_cases (s.setDie d (s.die d).ready)).2 ⟨tag, .run⟩ hp
      (ready_powerDone_run hrest hwake)]
    rfl

end Sys2Proof.Resting
end

section
/-! PROOFS. POWER RUN and POWER REST (R134, R136, R137, R140, R142): the checks of R134 in their order, then the dies
that begin to wake, or take the rest target and rest. -/

namespace Sys2Proof.Resting

open Sys2Proof.Machine Sys2Proof.Laws
open Sys2Proof.Appending (woken woken_resting woken_awake beginWake_die)
open Sys2Proof.Monitoring (landed_admitted)
open Sys2Proof.Clock (setDie_self)

/-! ### The checks of R134 -/

theorem powerFault_eq (s : State) (l : PowerLevel) : s.powerFault l =
    if s.arr.power ≠ none then some .busy
    else if l ≠ .run ∧ ∃ e ∈ s.table, kindHoldsRest e.kind = true then some .busy
    else if ∃ d : Fin 2, (s.die d).state = .initializing then some .busy
    else if l ≠ .run ∧ ∃ d : Fin 2, (s.die d).state = .waking ∨ (s.die d).restTarget ≠ .none then some .busy
    else if ∃ d : Fin 2, (s.die d).state = .ready ∨ (s.die d).state = .resting ∨
      l = .run ∧ (s.die d).state = .waking then none
    else some .state := by
  simp [State.powerFault, allDies, Fin.exists_fin_two, Option.isSome_iff_ne_none, Die.enteringRest, or_assoc]

section checks

variable {s : State} {l : PowerLevel}

theorem powerFault_waiting (h : s.arr.power ≠ none) : s.powerFault l = some .busy := by
  rw [powerFault_eq, if_pos h]

theorem powerFault_work (hl : l ≠ .run) (h : ∃ e ∈ s.table, kindHoldsRest e.kind = true) :
    s.powerFault l = some .busy := by
  rw [powerFault_eq, if_pos (c := _ ∧ _) ⟨hl, h⟩, ite_self]

theorem powerFault_onTheWay (hl : l ≠ .run)
    (h : ∃ d : Fin 2, (s.die d).state = .initializing ∨ (s.die d).state = .waking ∨ (s.die d).restTarget ≠ .none) :
    s.powerFault l = some .busy := by
  obtain ⟨d, hinit | hway⟩ := h
  · have hd : ∃ d : Fin 2, (s.die d).state = .initializing := ⟨d, hinit⟩
    rw [powerFault_eq, if_pos hd, ite_self, ite_self]
  · have hd : l ≠ .run ∧ ∃ d : Fin 2, (s.die d).state = .waking ∨ (s.die d).restTarget ≠ .none := ⟨hl, d, hway⟩
    rw [powerFault_eq, if_pos hd, ite_self, ite_self, ite_self]

variable (hp : s.arr.power = none) (hi : ∀ d : Fin 2, (s.die d).state ≠ .initializing)
include hp hi

theorem powerFault_run : s.powerFault .run = if ∃ d : Fin 2, (s.die d).state = .ready ∨ (s.die d).state = .resting ∨
    (s.die d).state = .waking then none else some .state := by
  simp [powerFault_eq, hp, hi]

theorem powerFault_down (ht : ∀ e ∈ s.table, kindHoldsRest e.kind = false)
    (hw : ∀ d : Fin 2, (s.die d).state ≠ .waking ∧ (s.die d).restTarget = .none)
    (h : ∃ d : Fin 2, (s.die d).state = .ready ∨ (s.die d).state = .resting) : s.powerFault l = none := by
  have hwork : ¬ (l ≠ .run ∧ ∃ e ∈ s.table, kindHoldsRest e.kind = true) := by
    rintro ⟨-, e, he, hk⟩
    simp [ht e he] at hk
  have hway : ¬ (l ≠ .run ∧ ∃ d : Fin 2, (s.die d).state = .waking ∨ (s.die d).restTarget ≠ .none) :=
    fun ⟨_, d, hd⟩ => hd.elim (hw d).1 fun k => k (hw d).2
  have hany : ∃ d : Fin 2, (s.die d).state = .ready ∨ (s.die d).state = .resting ∨
      l = .run ∧ (s.die d).state = .waking := h.imp fun _ hd => hd.imp id .inl
  rw [powerFault_eq, if_neg fun k => k hp, if_neg hwork, if_neg fun ⟨d, hd⟩ => hi d hd, if_neg hway, if_pos hany]

end checks

/-- The entry of the POWER itself does not hold it back. -/
theorem powerFault_taking (tag b : Byte) (s : State) (l : PowerLevel) :
    (taking tag (.power b) s).powerFault l = s.powerFault l := by
  have hk : kindHoldsRest (TableEntry.admitted tag .power).kind = false := rfl
  have ht : (s.table ++ [TableEntry.admitted tag .power]).any (fun e => kindHoldsRest e.kind) =
      s.table.any fun e => kindHoldsRest e.kind := by simp [hk]
  have hs : (taking tag (.power b) s).table = s.table ++ [TableEntry.admitted tag .power] := rfl
  unfold State.powerFault
  rw [hs, ht]
  rfl

/-! ### The request is taken -/

/-- The row of a POWER of a level (log 30). -/
abbrev powerRow (tag : Byte) : PowerLevel → Instr
  | .run => .powerRun tag
  | .rest => .powerRest tag
  | .deep => .powerDeep tag

theorem levelOf_code (l : PowerLevel) : levelOf l.code = some l := by cases l <;> rfl

/-- The state with a POWER in the request table. -/
abbrev withPower (p : PowerOp) (s : State) : State := s.modArr fun a => { a with power := some p }

/-- The state on which a POWER that passed its checks acts. -/
abbrev passing (tag : Byte) (l : PowerLevel) (s : State) : State :=
  withPower ⟨tag, l⟩ (taking tag (.power l.code) s)

section taken

variable {s u : State} {tag : Byte} {l : PowerLevel}

theorem takePower_answered {r : Result} (hr : r ≠ .state) (h : s.powerFault l = some r) :
    takePower tag l.code s = s.respond tag .power r [] := by
  unfold takePower
  rw [levelOf_code]
  dsimp only
  rw [h]
  split
  next k => exact absurd (Option.some.inj k) hr
  next k => rw [Option.some.inj k]
  next k => cases k

theorem takePower_state (h : s.powerFault l = some .state) :
    takePower tag l.code s = s.respond tag .power .state s.dieStates := by
  unfold takePower
  rw [levelOf_code]
  dsimp only
  rw [h]

theorem takePower_passed (h : s.powerFault l = none) :
    takePower tag l.code s = ((withPower ⟨tag, l⟩ s).applyPower l).checkPower := by
  unfold takePower
  rw [levelOf_code]
  dsimp only
  rw [h]

theorem exec_power (hA : s.Admits tag) : exec (powerRow tag l) s =
    .next (landed (takePower tag l.code (taking tag (.power l.code) s))) := by
  have hrow : exec (powerRow tag l) s = .next (hostRequest tag (.power l.code) s) := by cases l <;> rfl
  rw [hrow, hostRequest_taken (r := .power l.code) hA (by simp [Request.kind]) rfl rfl]
  rfl

theorem exec_power_busy (hA : s.Admits tag) (h : s.powerFault l = some .busy) :
    exec (powerRow tag l) s = .next (s.answered tag .power .busy []) := by
  rw [exec_power hA, takePower_answered (by decide) ((powerFault_taking tag l.code s l).trans h)]
  exact congrArg _ (landed_answer s tag (.power l.code) hA .busy [])

theorem exec_power_state (hA : s.Admits tag) (h : s.powerFault l = some .state) :
    exec (powerRow tag l) s = .next (s.answered tag .power .state [(s.die 0).state.code, (s.die 1).state.code]) := by
  rw [exec_power hA, takePower_state ((powerFault_taking tag l.code s l).trans h)]
  exact congrArg _ (landed_answer s tag (.power l.code) hA .state _)

theorem exec_power_passed (hA : s.Admits tag) (h : s.powerFault l = none) : exec (powerRow tag l) s =
    .next (landed ((passing tag l s).applyPower l).checkPower) := by
  rw [exec_power hA, takePower_passed ((powerFault_taking tag l.code s l).trans h)]

/-- A POWER that stays in the table, with the state that the array controller makes for the rest. -/
theorem exec_power_admitted (hA : s.Admits tag) (hu : u.Admits tag) (h : s.powerFault l = none)
    (happly : (passing tag l s).applyPower l = taking tag (.power l.code) u)
    (hwait : (taking tag (.power l.code) u).checkPower = taking tag (.power l.code) u) :
    exec (powerRow tag l) s = .next (u.admitted tag .power) := by
  rw [exec_power_passed hA h, happly, hwait]
  exact congrArg _ (landed_admitted (.power l.code) hu)

end taken

/-! ### Both dies changed in one way -/

/-- The state with each die record changed by `f`. -/
def eachDie (f : Die → Die) (s : State) : State := s.modArr fun a => { a with dies := a.dies.map f }

theorem eachDie_die (f : Die → Die) (s : State) (d : Fin 2) : (eachDie f s).die d = f (s.die d) := by
  simp [eachDie, State.modArr, State.die]

theorem setDie_both (f : Die → Die) (s : State) :
    (s.setDie 0 (f (s.die 0))).setDie 1 (f (s.die 1)) = eachDie f s := by
  have hdies : (s.arr.dies.set 0 (f s.arr.dies[0])).set 1 (f s.arr.dies[1]) = s.arr.dies.map f := by
    ext1 i hi
    match i, hi with
    | 0, _ | 1, _ => simp
  exact congrArg (fun dies => ({ s with arr := { s.arr with dies := dies } } : State)) hdies

/-! ### RUN (R140, R142) -/

theorem beginWake_eq (d : Fin 2) (s : State) : s.beginWake d = s.setDie d (woken (s.die d)) := by
  unfold State.beginWake woken
  split
  · rfl
  · exact (setDie_self s d).symm

theorem applyPower_run (s : State) : s.applyPower .run = eachDie woken s := by
  rw [← setDie_both, ← beginWake_eq]
  show (s.beginWake 0).beginWake 1 = _
  rw [beginWake_eq 1, beginWake_die, if_neg (by decide)]

theorem applyPower_run_awake {s : State} (h : ∀ d : Fin 2, (s.die d).state ≠ .resting) : s.applyPower .run = s := by
  rw [applyPower_run, ← setDie_both, woken_awake (h 0), woken_awake (h 1), setDie_self, setDie_self]

/-- A POWER that reaches its moment in the change that took it answers as if it had never waited. -/
theorem checkPower_withPower {s : State} {tag : Byte} {l : PowerLevel} (hp : s.arr.power = none)
    (hd : (withPower ⟨tag, l⟩ s).powerDone l = true) :
    (withPower ⟨tag, l⟩ s).checkPower = s.respond tag .power .ok s.dieStates := by
  rw [(checkPower_cases _).2 ⟨tag, l⟩ rfl hd, ← hp]
  rfl

section run

variable {s : State} {tag : Byte} (hA : s.Admits tag) (hf : s.powerFault .run = none)
include hA hf

theorem exec_powerRun_awake (hp : s.arr.power = none)
    (h : ∀ d : Fin 2, (s.die d).state ≠ .resting ∧ (s.die d).state ≠ .waking) : exec (.powerRun tag) s =
      .next (s.answered tag .power .ok [(s.die 0).state.code, (s.die 1).state.code]) := by
  have hexec := exec_power_passed hA hf
  rw [applyPower_run_awake (s := passing tag .run s) fun d => (h d).1,
    checkPower_withPower (s := taking tag (.power PowerLevel.run.code) s) hp ((powerDone_run _).mpr h)] at hexec
  rw [hexec]
  exact congrArg _ (landed_answer s tag (.power PowerLevel.run.code) hA .ok _)

theorem exec_powerRun_wakes (h : ∃ d : Fin 2, (s.die d).state = .resting) : exec (.powerRun tag) s =
    .next ((eachDie woken (withPower ⟨tag, .run⟩ s)).admitted tag .power) := by
  refine exec_power_admitted (l := .run) (u := eachDie woken (withPower ⟨tag, .run⟩ s)) hA hA hf
    (applyPower_run _) (checkPower_waits rfl fun hdone => ?_)
  obtain ⟨d, hd⟩ := h
  have hdie : (taking tag (.power PowerLevel.run.code) (eachDie woken (withPower ⟨tag, .run⟩ s))).die d =
      woken (s.die d) := eachDie_die woken (withPower ⟨tag, .run⟩ s) d
  have hawake := ((powerDone_run _).mp hdone d).2
  exact hawake ((congrArg Die.state hdie).trans (woken_resting hd))

end run

/-! ### REST (R136, R137) -/

/-- A die record that has taken the rest target REST. -/
def aimed (x : Die) : Die := { x with restTarget := .rest }

theorem readyToRest_aimed_iff (x : Die) : (aimed x).readyToRest = true ↔
    x.drained = true ∧ x.holdRefresh = false ∧ x.holdCal = false ∧ x.debt = 0 :=
  (readyToRest_iff _).trans (by simp [aimed, Die.drained, Die.quiet, Die.allIdle])

theorem aimRest_ready {s : State} {d : Fin 2} (h : (s.die d).state = .ready) :
    s.aimRest .rest d = s.setDie d (aimed (s.die d)) := if_pos h

theorem applyPower_rest {s : State} (h : ∀ d : Fin 2, (s.die d).state = .ready) :
    s.applyPower .rest = enterResting 1 (enterResting 0 (eachDie aimed s)) := by
  have hother : (s.setDie 0 (aimed (s.die 0))).die 1 = s.die 1 := setDie_die_other (by decide) _ s
  have haim : (s.aimRest .rest 0).aimRest .rest 1 = eachDie aimed s := by
    rw [aimRest_ready (h 0), aimRest_ready (by rw [hother]; exact h 1), hother, setDie_both]
  rw [← haim]
  rfl

theorem exec_powerRest_drains {s : State} {tag : Byte} (hA : s.Admits tag) (hf : s.powerFault .rest = none)
    (hready : ∀ d : Fin 2, (s.die d).state = .ready)
    (h : ∀ d : Fin 2, (s.die d).drained = false ∨ 0 < (s.die d).debt) :
    exec (.powerRest tag) s = .next ((eachDie aimed (withPower ⟨tag, .rest⟩ s)).admitted tag .power) := by
  let u := eachDie aimed (withPower ⟨tag, .rest⟩ s)
  let v := taking tag (.power PowerLevel.rest.code) u
  have hdie (d : Fin 2) : v.die d = aimed (s.die d) := eachDie_die aimed (withPower ⟨tag, .rest⟩ s) d
  have hstay (d : Fin 2) : enterResting d v = v := enterResting_unready fun hr => by
    rw [hdie, readyToRest_aimed_iff] at hr
    obtain ⟨hdrained, -, -, hdebt⟩ := hr
    rcases h d with hd | hd
    · rw [hd] at hdrained
      cases hdrained
    · omega
  refine exec_power_admitted (l := .rest) (u := u) hA hA hf ?applied (checkPower_waits rfl fun hdone => ?waits)
  case applied =>
    calc (passing tag .rest s).applyPower .rest
      _ = enterResting 1 (enterResting 0 v) := applyPower_rest hready
      _ = v := by rw [hstay 0, hstay 1]
  case waits => exact (powerDone_rest _).mp hdone 0 (congrArg Die.restTarget (hdie 0))

/-! ### Both dies rest in the change of the command (R137, log 15) -/

/-- No transaction is in the queue or waits for room. -/
abbrev NoTxns (s : State) : Prop := s.arr.queue = [] ∧ s.arr.waiting = []

theorem withdrawStatus_noTxns {s : State} (d : Fin 2) (h : NoTxns s) : NoTxns (s.withdrawStatus d) := by
  obtain ⟨hq, hw⟩ := h
  unfold State.withdrawStatus State.withdraw State.refill
  rw [hq, hw]
  exact ⟨rfl, rfl⟩

theorem checkPower_noTxns {s : State} (h : NoTxns s) : NoTxns s.checkPower := by
  obtain ⟨l, t, p, he⟩ := checkPower_frame s
  rw [he]
  exact h

theorem beginWake_noTxns {s : State} (d : Fin 2) (h : NoTxns s) : NoTxns (s.beginWake d) := by
  unfold State.beginWake
  split <;> exact h

theorem becomeResting_noTxns {s : State} (d : Fin 2) (h : NoTxns s) : NoTxns (s.becomeResting d) := by
  obtain ⟨mon, hmon, -⟩ := dropPendingCal_mon d (s.setDie d
    { s.die d with state := .resting, timer := none, restTarget := .none, driftHold := false })
  unfold State.becomeResting
  dsimp only
  rw [hmon]
  have hwithdrawn : NoTxns (State.withdrawStatus d { s.setDie d { s.die d with
      state := .resting, timer := none, restTarget := .none, driftHold := false } with mon := mon }) :=
    withdrawStatus_noTxns d h
  split
  · exact checkPower_noTxns (beginWake_noTxns d hwithdrawn)
  · exact checkPower_noTxns hwithdrawn

/-- The record `y` of a die that has come to rest from `x`. -/
abbrev Rested (x y : Die) : Prop :=
  y.state = .resting ∧ y.timer = none ∧ y.debt = 0 ∧ y.restTarget = .none ∧ y.hot = x.hot

section arrival

variable {s t : State} {d : Fin 2} {tag : Byte} (h : s.RestArrives t d) (hp : s.arr.power = some ⟨tag, .rest⟩)
include h hp

/-- The dies, the directory and the array after an arrival that no work meets. -/
theorem restArrives_rested (hq : NoTxns s) : Rested (s.die d) (t.die d) ∧ t.die (otherDie d) = s.die (otherDie d) ∧
    t.dir = s.dir ∧ t.mem = s.mem := by
  obtain ⟨htimer, hdebt, htarget, -, hhot, -, hother, hrests, -, -, -, hdir, hmem, -⟩ := h
  have hnotRun : ∀ p, s.arr.power = some p → p.level ≠ .run := by
    intro p hsome
    obtain rfl : ⟨tag, .rest⟩ = p := Option.some.inj (hp.symm.trans hsome)
    exact PowerLevel.noConfusion
  obtain ⟨hqueue, hwaiting⟩ := hq
  have hresting := hrests (by simp [hqueue]) (by simp [hwaiting]) hnotRun
  exact ⟨⟨hresting, htimer, hdebt, htarget, hhot⟩, hother, hdir, hmem⟩

theorem restArrives_waits (ho : (s.die (otherDie d)).restTarget = .rest) :
    t.link = s.link ∧ t.table = s.table ∧ t.arr.power = s.arr.power := by
  obtain ⟨-, -, -, -, -, -, -, -, -, -, -, -, -, hwaits, -⟩ := h
  exact hwaits (.inr (.inr ⟨tag, hp, ho⟩))

theorem restArrives_answers (ho : (s.die (otherDie d)).restTarget ≠ .rest) :
    t.link = { s.link with queue := s.link.queue
      ++ [⟨.response, tag, [0x22, 0, (t.die 0).state.code, (t.die 1).state.code], none⟩] } ∧
    t.table = s.table.filter (fun e => e.tag != tag) ∧ t.arr.power = none := by
  obtain ⟨-, -, -, -, -, -, -, -, -, -, -, -, -, -, hanswers⟩ := h
  exact hanswers tag hp ho

end arrival

/-- Two dies with nothing to drain rest one after the other, and the POWER REST answers with the second. -/
theorem enterResting_both {s : State} {tag : Byte} (hp : s.arr.power = some ⟨tag, .rest⟩) (hq : NoTxns s)
    (hready : ∀ d : Fin 2, (s.die d).readyToRest = true) :
    ∃ t, enterResting 1 (enterResting 0 s) = t ∧ (∀ d : Fin 2, Rested (s.die d) (t.die d)) ∧
      t.link = (s.respond tag .power .ok [4, 4]).link ∧ t.table = (s.respond tag .power .ok [4, 4]).table ∧
      t.arr.power = none ∧ t.dir = s.dir ∧ t.mem = s.mem := by
  let m := enterResting 0 s
  let t := enterResting 1 m
  have hm : s.RestArrives m 0 := enterResting_arrives (hready 0)
  have hmq : NoTxns m := by
    rw [show m = s.becomeResting 0 from enterResting_ready (hready 0)]
    exact becomeResting_noTxns 0 hq
  obtain ⟨-, htarget, -⟩ := (readyToRest_iff _).mp (hready 1)
  obtain ⟨hrest0, hm1, hmdir, hmmem⟩ := restArrives_rested hm hp hq
  replace hm1 : m.die 1 = s.die 1 := hm1
  obtain ⟨hmlink, hmtable, hmpower⟩ := restArrives_waits hm hp htarget
  have ht : m.RestArrives t 1 := enterResting_arrives (by rw [hm1]; exact hready 1)
  obtain ⟨hrest1, ht0, htdir, htmem⟩ := restArrives_rested ht (hmpower.trans hp) hmq
  replace ht0 : t.die 0 = m.die 0 := ht0
  rw [← ht0] at hrest0
  rw [hm1] at hrest1
  obtain ⟨hstate0, -, -, htarget0, -⟩ := id hrest0
  obtain ⟨hstate1, -⟩ := id hrest1
  have hno : (m.die 0).restTarget ≠ .rest := by
    rw [← ht0, htarget0]
    decide
  obtain ⟨htlink, httable, htpower⟩ := restArrives_answers ht (hmpower.trans hp) hno
  rw [hstate0, hstate1, hmlink] at htlink
  rw [hmtable] at httable
  exact ⟨t, rfl, Fin.forall_fin_two.mpr ⟨hrest0, hrest1⟩, htlink, httable, htpower, htdir.trans hmdir,
    htmem.trans hmmem⟩

theorem landed_link_congr {t u : State} (h : t.link = u.link) : (landed t).link = (landed u).link := by
  unfold landed
  rw [modLink_link, modLink_link, h]

theorem exec_powerRest_rests {s : State} {tag : Byte} (hA : s.Admits tag) (hf : s.powerFault .rest = none)
    (hq : NoTxns s) (hready : ∀ d : Fin 2, (s.die d).state = .ready)
    (h : ∀ d : Fin 2, (aimed (s.die d)).readyToRest = true) :
    ∃ t, exec (.powerRest tag) s = .next t ∧ (∀ d : Fin 2, Rested (s.die d) (t.die d)) ∧
      t.link = (s.answered tag .power .ok [4, 4]).link ∧ t.table = s.table ∧ t.arr.power = none ∧
      t.dir = s.dir ∧ t.mem = s.mem := by
  let w := eachDie aimed (passing tag .rest s)
  have hdie (d : Fin 2) : w.die d = aimed (s.die d) := eachDie_die aimed _ d
  obtain ⟨t, ht, hrested, hlink, htable, hpower, hdir, hmem⟩ :=
    enterResting_both (s := w) (tag := tag) rfl hq fun d => by rw [hdie]; exact h d
  have hland : landed ((taking tag (.power PowerLevel.rest.code) s).respond tag .power .ok [4, 4]) =
      s.answered tag .power .ok [4, 4] := landed_answer s tag (.power PowerLevel.rest.code) hA .ok [4, 4]
  have hexec := exec_power_passed hA hf
  rw [applyPower_rest (s := passing tag .rest s) hready, ht, checkPower_none hpower] at hexec
  refine ⟨_, hexec, fun d => ?_, ?_, ?_, hpower, hdir, hmem⟩
  · have := hrested d
    rwa [hdie] at this
  · rw [← hland]
    exact landed_link_congr hlink
  · have htables := congrArg State.table hland
    exact htable.trans htables

/-! ### The statement -/

theorem holdsRest_of_kind {k : Kind} (h : k = .append ∨ k = .fetch ∨ k = .scan ∨ k = .drop ∨ k = .preserve ∨
    k = .recover ∨ k = .calibrate ∨ k = .startArray) : kindHoldsRest k = true := by
  rcases h with rfl | rfl | rfl | rfl | rfl | rfl | rfl | rfl <;> rfl

theorem noTxns_of_dies {s : State} (h : ∀ d : Fin 2, ∀ x ∈ s.arr.queue ++ s.arr.waiting, x.die ≠ d) : NoTxns s :=
  List.append_eq_nil_iff.mp (List.eq_nil_iff_forall_not_mem.mpr fun x hx => h x.die x hx rfl)

/-- Settles O46: the refusals by the checks of R134, then what RUN makes of the dies, and REST. -/
theorem powerRunAndRest : Obligations.PowerRunAndRest := by
  refine ⟨fun s tag hA => ⟨fun hp => ?waiting, fun hp hi => ⟨fun hnone => ?noDie, fun hsome hawake => ?awake,
    fun hsome => ?wakes⟩⟩, fun s tag hA hp => ⟨fun h => ?busy, fun ht hready => ⟨fun h => ?drains, fun h => ?rests⟩⟩⟩
  case waiting =>
    have hbusy (l : PowerLevel) : s.powerFault l = some .busy := powerFault_waiting hp
    exact ⟨exec_power_busy hA (hbusy .run), exec_power_busy hA (hbusy .rest), exec_power_busy hA (hbusy .deep)⟩
  case noDie =>
    refine exec_power_state (l := .run) hA ((powerFault_run hp hi).trans (if_neg ?_))
    rintro ⟨d, hd⟩
    obtain ⟨hready, hresting, hwaking⟩ := hnone d
    exact hd.elim hready (Or.elim · hresting hwaking)
  case awake =>
    exact exec_powerRun_awake hA ((powerFault_run hp hi).trans (if_pos (hsome.imp fun _ => .inl))) hp hawake
  case wakes =>
    exact exec_powerRun_wakes hA ((powerFault_run hp hi).trans (if_pos (hsome.imp fun _ hd => .inr (.inl hd)))) hsome
  case busy =>
    have hbusy (l : PowerLevel) (hl : l ≠ .run) : s.powerFault l = some .busy :=
      h.elim (fun ⟨e, he, hk⟩ => powerFault_work hl ⟨e, he, holdsRest_of_kind hk⟩) (powerFault_onTheWay hl)
    exact ⟨exec_power_busy hA (hbusy .rest (by decide)), exec_power_busy hA (hbusy .deep (by decide))⟩
  all_goals
    have hf : s.powerFault .rest = none := powerFault_down hp (fun d => by simp [(hready d).1]) ht
      (fun d => ⟨by simp [(hready d).1], (hready d).2⟩) ⟨0, .inl (hready 0).1⟩
  case drains => exact exec_powerRest_drains hA hf (fun d => (hready d).1) h
  case rests =>
    refine exec_powerRest_rests hA hf (noTxns_of_dies fun d => ?_) (fun d => (hready d).1) fun d => ?_
    · obtain ⟨-, -, -, -, hnone⟩ := h d
      exact hnone
    · obtain ⟨hdrained, hdebt, hrefresh, hcal, -⟩ := h d
      exact (readyToRest_aimed_iff _).mpr ⟨hdrained, hrefresh, hcal, hdebt⟩

end Sys2Proof.Resting
end

section
/-! PROOFS. POWER DEEP (R134, R143, R144): every OPEN or SEALED series is LOST, a RESTING die is OFF at once, and a
READY die that is not drained takes the target DEEP. -/

namespace Sys2Proof.Resting

open Sys2Proof.Machine Sys2Proof.Laws

/-! ### The directory (R143) -/

/-- A run over distinct series ids that changes each entry by `f` changes those entries and no other. -/
theorem forEach_setEntry (f : Entry → Entry) {l : List (Fin 32)} (hl : l.Nodup) (s : State) (j : Fin 32) :
    (forEach l (fun i s => s.setEntry i (f (s.entry i))) s).entry j = if j ∈ l then f (s.entry j) else s.entry j := by
  induction l generalizing s with
  | nil => rfl
  | cons i l ih =>
    obtain ⟨hi, hl⟩ := List.nodup_cons.mp hl
    refine (ih hl (s.setEntry i (f (s.entry i)))).trans ?_
    by_cases hj : j = i
    · subst hj
      simp [hi]
    · rw [setEntry_entry_other hj]
      simp [hj]

theorem deepRestAll_entry (s : State) (i : Fin 32) : s.deepRestAll.entry i = (s.entry i).deepRest :=
  (forEach_setEntry Entry.deepRest (List.nodup_finRange 32) s i).trans (if_pos (List.mem_finRange i))

/-- What POWER DEEP makes of the directory changes nothing else. -/
theorem deepRestAll_frame (s : State) : ∃ dir, s.deepRestAll = { s with dir := dir } := by
  have run (l : List (Fin 32)) : ∀ s : State,
      ∃ dir, forEach l (fun i s => s.setEntry i (s.entry i).deepRest) s = { s with dir := dir } := by
    induction l with
    | nil => exact fun s => ⟨s.dir, rfl⟩
    | cons i l ih =>
      intro s
      obtain ⟨dir, h⟩ := ih (s.setEntry i (s.entry i).deepRest)
      exact ⟨dir, h⟩
  exact run allSeries s

theorem deepRest_taken {e : Entry} (h : e.state = .opened ∨ e.state = .sealed) : e.deepRest = e.toLost := by
  unfold Entry.deepRest
  rcases h with h | h <;> rw [h]

theorem deepRest_kept {e : Entry} (ho : e.state ≠ .opened) (hs : e.state ≠ .sealed) : e.deepRest = e := by
  unfold Entry.deepRest
  cases h : e.state with
  | opened => exact absurd h ho
  | sealed => exact absurd h hs
  | free | dropping | lost | recovering => rfl

@[simp] theorem aimRest_dir (x : RestTarget) (d : Fin 2) (s : State) : (s.aimRest x d).dir = s.dir := by
  unfold State.aimRest
  split <;> rfl

@[simp] theorem deepDie_dir (d : Fin 2) (s : State) : (s.deepDie d).dir = s.dir := by
  unfold State.deepDie
  split <;> simp

@[simp] theorem enterOff_dir (d : Fin 2) (s : State) : (enterOff d s).dir = s.dir := by
  unfold enterOff
  split <;> simp

theorem applyPower_deep_entry (s : State) (i : Fin 32) : (s.applyPower .deep).entry i = (s.entry i).deepRest := by
  have hdir : (s.applyPower .deep).dir = s.deepRestAll.dir := by simp [State.applyPower]
  rw [← deepRestAll_entry]
  exact congrArg (fun dir : Vector Entry 32 => dir[i]) hdir

/-! ### What leaves a die alone -/

/-- From `s` to `t` the record and the bytes of die `d` stay as they are. -/
def DieKept (d : Fin 2) (s t : State) : Prop :=
  t.die d = s.die d ∧ ∀ a, a / dieBytes = d.val → Memory.read t.mem a = Memory.read s.mem a

namespace DieKept

variable {d e : Fin 2} {s t u : State}

theorem refl (d : Fin 2) (s : State) : DieKept d s s := ⟨rfl, fun _ _ => rfl⟩

theorem trans (h : DieKept d s t) (k : DieKept d t u) : DieKept d s u :=
  ⟨k.1.trans h.1, fun a ha => (k.2 a ha).trans (h.2 a ha)⟩

theorem checkPower (d : Fin 2) (s : State) : DieKept d s s.checkPower :=
  ⟨checkPower_die s d, fun a _ => by rw [checkPower_mem]⟩

theorem deepRestAll (d : Fin 2) (s : State) : DieKept d s s.deepRestAll := by
  obtain ⟨dir, h⟩ := deepRestAll_frame s
  rw [h]
  exact refl d s

theorem becomeOff (h : d ≠ e) (s : State) : DieKept d s (s.becomeOff e) := by
  refine ⟨becomeOff_die_other h s, fun a ha => ?_⟩
  have hne : ¬ a / dieBytes = e.val := fun k => h (Fin.ext (ha.symm.trans k))
  rw [becomeOff_mem, read_forgetDie, if_neg hne]

theorem aimRest (h : d ≠ e) (x : RestTarget) (s : State) : DieKept d s (s.aimRest x e) := by
  unfold State.aimRest
  split
  · exact ⟨setDie_die_other h _ s, fun _ _ => rfl⟩
  · exact refl d s

theorem deepDie (h : d ≠ e) (s : State) : DieKept d s (s.deepDie e) := by
  unfold State.deepDie
  split
  · exact becomeOff h s
  · exact aimRest h .deep s

theorem enterOff (h : d ≠ e) (s : State) : DieKept d s (enterOff e s) := by
  unfold Machine.enterOff
  split
  · exact (becomeOff h s).trans (checkPower d _)
  · exact refl d s

/-- A die that may not become OFF stays as it is. -/
theorem enterOff_unready (h : ¬ (s.die d).readyForOff = true) : DieKept d s (Machine.enterOff d s) := by
  rw [Resting.enterOff_unready h]
  exact refl d s

end DieKept

/-! ### The dies (R143, R144) -/

/-- POWER DEEP acts on a die by `deepDie` alone, if that leaves the die on its way or already OFF. -/
theorem applyPower_deep_die (d : Fin 2) (s : State) : ∃ u, DieKept d s u ∧
    (¬ ((u.deepDie d).die d).readyForOff = true → DieKept d (u.deepDie d) (s.applyPower .deep)) := by
  match d with
  | 0 =>
    refine ⟨s.deepRestAll, .deepRestAll 0 s, fun h => ?_⟩
    have hother : DieKept 0 (s.deepRestAll.deepDie 0) ((s.deepRestAll.deepDie 0).deepDie 1) := .deepDie (by decide) _
    rw [← hother.1] at h
    exact hother.trans ((DieKept.enterOff_unready h).trans (.enterOff (by decide) _))
  | 1 =>
    refine ⟨s.deepRestAll.deepDie 0, (DieKept.deepRestAll 1 s).trans (.deepDie (by decide) _), fun h => ?_⟩
    have hother : DieKept 1 ((s.deepRestAll.deepDie 0).deepDie 1)
        (enterOff 0 ((s.deepRestAll.deepDie 0).deepDie 1)) := .enterOff (by decide) _
    rw [← hother.1] at h
    exact hother.trans (DieKept.enterOff_unready h)

section die

variable {s : State} {d : Fin 2}

theorem deepDie_resting (h : (s.die d).state = .resting) : s.deepDie d = s.becomeOff d := if_pos h

theorem deepDie_ready (h : (s.die d).state = .ready) :
    s.deepDie d = s.setDie d { s.die d with restTarget := .deep } := by
  have hne : ¬ (s.die d).state = .resting := by simp [h]
  unfold State.deepDie
  rw [if_neg hne]
  exact if_pos h

theorem applyPower_deep_resting (h : (s.die d).state = .resting) : (s.applyPower .deep).die d = (s.die d).off ∧
    ∀ a, a / dieBytes = d.val → Memory.read (s.applyPower .deep).mem a = 0 := by
  obtain ⟨u, ⟨hdie, -⟩, hafter⟩ := applyPower_deep_die d s
  rw [deepDie_resting (by rw [hdie]; exact h)] at hafter
  have hoff : (u.becomeOff d).die d = (s.die d).off := by rw [becomeOff_die_same, hdie]
  obtain ⟨hdied, hread⟩ := hafter (by simp [hoff, Die.off, Die.readyForOff])
  refine ⟨hdied.trans hoff, fun a ha => ?_⟩
  rw [hread a ha, becomeOff_mem, read_forgetDie, if_pos ha]
  rfl

theorem applyPower_deep_ready (h : (s.die d).state = .ready) (hd : (s.die d).drained = false) :
    (s.applyPower .deep).die d = { s.die d with restTarget := .deep } ∧
    ∀ a, a / dieBytes = d.val → Memory.read (s.applyPower .deep).mem a = Memory.read s.mem a := by
  obtain ⟨u, ⟨hdie, hbytes⟩, hafter⟩ := applyPower_deep_die d s
  rw [deepDie_ready (by rw [hdie]; exact h), hdie] at hafter
  have hundrained : ¬ Die.readyForOff { s.die d with restTarget := .deep } = true := by
    rw [readyForOff_iff]
    rintro ⟨hdrained, -⟩
    exact Bool.false_ne_true (hd.symm.trans hdrained)
  obtain ⟨haimed, hread⟩ := hafter (by rwa [setDie_die_same])
  exact ⟨haimed.trans (setDie_die_same ..), fun a ha => (hread a ha).trans (hbytes a ha)⟩

end die

/-! ### The request lands -/

theorem landed_checkPower_entry (s : State) (i : Fin 32) : (landed s.checkPower).entry i = s.entry i :=
  congrArg (fun dir : Vector Entry 32 => dir[i]) (checkPower_dir s)

theorem landed_checkPower_die (s : State) (d : Fin 2) : (landed s.checkPower).die d = s.die d := checkPower_die s d

theorem landed_checkPower_mem (s : State) : (landed s.checkPower).mem = s.mem := checkPower_mem s

/-- Settles O47: the checks of R134 pass, and each entry and each die stands as R143 and R144 leave it. -/
theorem powerDeep : Obligations.PowerDeep := by
  intro s tag hA hp ht hd hany
  have hf : s.powerFault .deep = none := powerFault_down hp (fun d => (hd d).1) ht (fun d => (hd d).2) hany
  let v := passing tag .deep s
  let t := landed (v.applyPower .deep).checkPower
  have hexec : exec (.powerDeep tag) s = .next t := exec_power_passed hA hf
  have hentry (i : Fin 32) : t.entry i = (s.entry i).deepRest :=
    (landed_checkPower_entry _ i).trans (applyPower_deep_entry v i)
  have hdie (d : Fin 2) : t.die d = (v.applyPower .deep).die d := landed_checkPower_die _ d
  have hmem : t.mem = (v.applyPower .deep).mem := landed_checkPower_mem _
  refine ⟨t, hexec, fun i h => ?lost, fun i ho hs => ?kept, fun d h => ?off, fun d h hdr => ?aimed⟩
  case lost =>
    rw [hentry, deepRest_taken h]
    rfl
  case kept => rw [hentry, deepRest_kept ho hs]
  case off =>
    obtain ⟨hoff, hread⟩ := applyPower_deep_resting (s := v) h
    rw [hdie, hoff, hmem]
    exact ⟨rfl, rfl, rfl, rfl, rfl, hread⟩
  case aimed =>
    rw [hdie, hmem]
    exact applyPower_deep_ready (s := v) h hdr

end Sys2Proof.Resting
end

section
/-! PROOFS. The requests of the preserve port: SET_PRESERVE_PORT (R150, R151), PRESERVE (R157, R158) and RECOVER (R162).
Their checks in order, the slot claims that they end, and the header read that an operation begins with. -/

namespace Sys2Proof.Preserving

open Sys2Proof.Machine Sys2Proof.Laws

/-! ### The request is taken -/

section taken

variable {s u : State} {tag : Byte} {r : Request}

/-- A request that its owner answers at once, with the state it makes for the rest. -/
theorem hostRequest_answered {res : Result} {fields : List Byte} (hA : s.Admits tag) (hk : r.kind ≠ .reset)
    (hl : r.kind.lengthOk r.payload.length = true) (hr : Request.ofPayload r.kind r.payload = r) (hu : u.Admits tag)
    (h : take tag r (taking tag r s) = (taking tag r u).respond tag r.kind res fields) :
    hostRequest tag r s = u.answered tag r.kind res fields := by
  rw [hostRequest_taken hA hk hl hr, h, landed_answer u tag r hu]

/-- A request that stays in the table, with the state that its owner makes for the rest. -/
theorem hostRequest_admitted (hA : s.Admits tag) (hk : r.kind ≠ .reset)
    (hl : r.kind.lengthOk r.payload.length = true) (hr : Request.ofPayload r.kind r.payload = r) (hu : u.Admits tag)
    (h : take tag r (taking tag r s) = taking tag r u) : hostRequest tag r s = u.admitted tag r.kind := by
  rw [hostRequest_taken hA hk hl hr, h, Monitoring.landed_admitted r hu]

end taken

/-! ### Slot claims (R12, R151, R158) -/

/-- The entry once the claim is gone that `hit` names. -/
def unclaimed (hit : SlotClaim → Bool) (e : Entry) : Entry :=
  if e.state ≠ .free ∧ ∃ c, e.image = some c ∧ hit c = true then { e with image := none, dirty := true } else e

theorem unclaimSlots_eq (hit : SlotClaim → Bool) (s : State) :
    s.unclaimSlots hit = forEach allSeries (fun i s => s.setEntry i (unclaimed hit (s.entry i))) s := by
  unfold State.unclaimSlots
  congr 1
  funext i s
  cases hc : (s.entry i).image with
  | none => simp [unclaimed, hc, Appending.setEntry_self]
  | some c =>
    by_cases h : (s.entry i).state ≠ .free ∧ hit c = true
    · simp [unclaimed, hc, h, Entry.unclaim]
    · simp [unclaimed, hc, h, Appending.setEntry_self]

/-- A run over series ids that changes entries changes nothing beside the directory. -/
theorem forEach_setEntry_frame (f : Entry → Entry) (l : List (Fin 32)) (s : State) :
    ∃ dir, forEach l (fun i s => s.setEntry i (f (s.entry i))) s = { s with dir := dir } := by
  induction l generalizing s with
  | nil => exact ⟨s.dir, rfl⟩
  | cons i l ih =>
    obtain ⟨dir, h⟩ := ih (s.setEntry i (f (s.entry i)))
    exact ⟨dir, h⟩

/-- The claims that `hit` names are gone, and nothing else changes. -/
theorem unclaimSlots_spec (hit : SlotClaim → Bool) (s : State) :
    ∃ dir, s.unclaimSlots hit = { s with dir := dir } ∧ ∀ j : Fin 32, dir[j] = unclaimed hit (s.entry j) := by
  obtain ⟨dir, hdir⟩ := forEach_setEntry_frame (unclaimed hit) allSeries s
  have hentry (j : Fin 32) := Resting.forEach_setEntry (unclaimed hit) (List.nodup_finRange 32) s j
  refine ⟨dir, (unclaimSlots_eq hit s).trans hdir, fun j => ?_⟩
  have hj : (forEach allSeries (fun i s => s.setEntry i (unclaimed hit (s.entry i))) s).entry j =
      unclaimed hit (s.entry j) := (hentry j).trans (if_pos (List.mem_finRange j))
  rw [hdir] at hj
  exact hj

/-! ### SET_PRESERVE_PORT (R150, R151) -/

/-- The ranges of R150, in the order of the settings' indices. -/
def portChecks (f : PortFields) : List Bool :=
  [1 ≤ f.setup.toNat && f.setup.toNat ≤ 16, 1 ≤ f.strobe.toNat && f.strobe.toNat ≤ 64,
    1 ≤ f.hold.toNat && f.hold.toNat ≤ 16, 1 ≤ f.turnaround.toNat && f.turnaround.toNat ≤ 8,
    f.waitEnable.toNat ≤ 1, f.waitPolarity.toNat ≤ 1, true, 1 ≤ f.slotCount.toNat && f.slotCount.toNat ≤ 64,
    2 ≤ f.slotPages.toNat && f.slotPages.toNat ≤ 63550]

theorem portFault_eq (f : PortFields) : portFault f =
    (firstFailing (portChecks f)).or (if 63550 < f.slotCount.toNat * f.slotPages.toNat then some 8 else none) := by
  have hwait : f.maxWaitCode.toNat ≤ 255 := Nat.le_of_lt_succ f.maxWaitCode.isLt
  have hranges : [within 1 16 f.setup.toNat, within 1 64 f.strobe.toNat, within 1 16 f.hold.toNat,
      within 1 8 f.turnaround.toNat, within 0 1 f.waitEnable.toNat, within 0 1 f.waitPolarity.toNat,
      within 0 255 f.maxWaitCode.toNat, within 1 64 f.slotCount.toNat, within 2 63550 f.slotPages.toNat] =
      portChecks f := by simp [portChecks, within, hwait]
  unfold portFault
  rw [hranges]
  cases firstFailing (portChecks f) <;> rfl

theorem portFault_first {f : PortFields} {n : Nat} (h : ((portChecks f).take n).all id = true)
    (hn : (portChecks f)[n]? = some false) : portFault f = some n := by
  rw [portFault_eq, Monitoring.firstFailing_first h hn]
  rfl

theorem portFault_product {f : PortFields} (h : (portChecks f).all id = true)
    (hp : 63550 < f.slotCount.toNat * f.slotPages.toNat) : portFault f = some 8 := by
  rw [portFault_eq, Monitoring.firstFailing_none h]
  exact if_pos hp

theorem portFault_none {f : PortFields} (h : (portChecks f).all id = true)
    (hp : f.slotCount.toNat * f.slotPages.toNat ≤ 63550) : portFault f = none := by
  rw [portFault_eq, Monitoring.firstFailing_none h]
  exact if_neg (Nat.not_lt.mpr hp)

/-- The claims that do not outlive a change of the geometry from `old` to `f`: all of them where a slot has another number
of pages, and those of the slots that are no more (R151). -/
def outgrown (f old : PortFields) (c : SlotClaim) : Bool :=
  f.slotPages ≠ old.slotPages ∨ f.slotCount ≠ old.slotCount ∧ f.slotCount.toNat ≤ c.slot

theorem unclaimed_outgrown (f old : PortFields) (e : Entry) : unclaimed (outgrown f old) e =
    if e.state ≠ .free ∧ (e.image ≠ none ∧ f.slotPages ≠ old.slotPages ∨
        f.slotCount ≠ old.slotCount ∧ ∃ c, e.image = some c ∧ f.slotCount.toNat ≤ c.slot)
      then { e with image := none, dirty := true } else e := by
  unfold unclaimed
  congr 1
  cases e.image with
  | none => simp
  | some c => simp [outgrown]

section settings

variable {s : State} {tag : Byte} {f : PortFields}

theorem takeSetPreservePort_busy (h : s.port.op ≠ none) :
    takeSetPreservePort tag f s = s.respond tag .setPreservePort .busy [] :=
  if_pos (Option.isSome_iff_ne_none.mpr h)

theorem takeSetPreservePort_fault {n : Nat} (ho : s.port.op = none) (h : portFault f = some n) :
    takeSetPreservePort tag f s = s.respond tag .setPreservePort .badValue [BitVec.ofNat 8 n] := by
  simp only [takeSetPreservePort, ho, h, Option.isSome_none, Bool.false_eq_true, if_false]
  rfl

/-- Settings that pass stand, and the claims go that do not outlive the change (R151). -/
theorem takeSetPreservePort_passed (ho : s.port.op = none) (h : portFault f = none) :
    ∃ dir, takeSetPreservePort tag f s = ({ s with dir := dir, port := { s.port with settings := f } } : State).respond
        tag .setPreservePort .ok [] ∧
      ∀ j : Fin 32, dir[j] = unclaimed (outgrown f s.port.settings) (s.entry j) := by
  let v : State := s.modPort fun p => { p with settings := f }
  have hpassed : takeSetPreservePort tag f s =
      (if f.slotPages ≠ s.port.settings.slotPages then v.unclaimSlots fun _ => true
        else if f.slotCount ≠ s.port.settings.slotCount then v.unclaimSlots fun c => f.slotCount.toNat ≤ c.slot
        else v).respond tag .setPreservePort .ok [] := by
    simp only [takeSetPreservePort, ho, h, Option.isSome_none, Bool.false_eq_true, if_false]
    rfl
  rw [hpassed]
  by_cases hp : f.slotPages ≠ s.port.settings.slotPages
  · rw [if_pos hp]
    obtain ⟨dir, hv, hdir⟩ := unclaimSlots_spec (fun _ => true) v
    refine ⟨dir, congrArg _ hv, fun j => (hdir j).trans ?_⟩
    exact congrArg (unclaimed · (s.entry j)) (funext fun c => by simp [outgrown, hp])
  · rw [if_neg hp]
    by_cases hc : f.slotCount ≠ s.port.settings.slotCount
    · rw [if_pos hc]
      obtain ⟨dir, hv, hdir⟩ := unclaimSlots_spec (fun c => f.slotCount.toNat ≤ c.slot) v
      refine ⟨dir, congrArg _ hv, fun j => (hdir j).trans ?_⟩
      exact congrArg (unclaimed · (s.entry j)) (funext fun c => by simp [outgrown, hp, hc])
    · rw [if_neg hc]
      exact ⟨s.dir, rfl, fun j => by simp [unclaimed, outgrown, hp, hc, State.entry]⟩

theorem portOf_portBytes (f : PortFields) : portOf (portBytes f) = f := by
  have hpages : fieldAt 16 (portBytes f) 8 = f.slotPages := by
    have h := fieldAt16 [f.setup, f.strobe, f.hold, f.turnaround, f.waitEnable, f.waitPolarity, f.maxWaitCode,
      f.slotCount] [] f.slotPages (k := 8) rfl
    rwa [List.append_nil] at h
  obtain ⟨⟩ := f
  simp only [portOf, hpages]
  rfl

theorem exec_setPreservePort_answered {u : State} {res : Result} {fields : List Byte} (hA : s.Admits tag)
    (hu : u.Admits tag) (h : takeSetPreservePort tag f (taking tag (.setPreservePort f) s) =
      (taking tag (.setPreservePort f) u).respond tag .setPreservePort res fields) :
    exec (.setPreservePort tag f) s = .next (u.answered tag .setPreservePort res fields) :=
  congrArg Host.Outcome.next (hostRequest_answered (r := .setPreservePort f) hA (by simp [Request.kind]) rfl
    (congrArg Request.setPreservePort (portOf_portBytes f)) hu h)

end settings

/-- Settles O56: the checks by index and their product, then the settings and the claims that go. -/
theorem setPreservePort : Obligations.SetPreservePort := by
  intro s tag f hA
  refine ⟨fun hop => ?busy, fun hop => ⟨fun n hbefore hn => ?fault, fun hall hp => ?product, fun hall hp => ?passed⟩⟩
  case busy => exact exec_setPreservePort_answered hA hA (takeSetPreservePort_busy hop)
  case fault =>
    exact exec_setPreservePort_answered hA hA (takeSetPreservePort_fault hop (portFault_first hbefore hn))
  case product =>
    exact exec_setPreservePort_answered hA hA (takeSetPreservePort_fault hop (portFault_product hall hp))
  case passed =>
    obtain ⟨dir, htake, hdir⟩ := takeSetPreservePort_passed (s := taking tag (.setPreservePort f) s) (tag := tag) hop
      (portFault_none hall hp)
    have hexec := exec_setPreservePort_answered (u := { s with dir := dir, port := { s.port with settings := f } })
      hA hA htake
    exact ⟨_, hexec, rfl, rfl, rfl, rfl, rfl, fun j => (hdir j).trans (unclaimed_outgrown f s.port.settings (s.entry j))⟩

/-! ### PRESERVE (R157, R158) -/

/-- The port once an operation has begun to read the header page of its slot (R158, R162). -/
def headerPort (op : ImageOp) (p : Port) : Port :=
  { p with
    op := some op
    transfer := some ⟨.read, op.slot * p.settings.slotPages.toNat, 0, [], 0, false, p.lastDir == .read⟩ }

theorem startPage_header (op : ImageOp) (s : State) :
    (s.modPort fun p => { p with op := some op }).startPage .read op.slot 0 [] = s.modPort (headerPort op) := by
  simp [State.startPage, State.modPort, headerPort, Port.slotPages]

/-- The operation record of a PRESERVE with its snapshot (R158). -/
def snapshotOp (tag slot : Byte) (i : Fin 32) (e : Entry) : ImageOp :=
  { ImageOp.start .preserve tag slot.toNat i with
    snapOldest := e.oldest, snapHead := e.committed, snapStamp := e.lastCommitted }

section preserve

variable {s : State} {tag series slot : Byte} {i : Fin 32}

theorem takePreserve_badValue (h : 32 ≤ series.toNat ∨ s.port.settings.slotCount.toNat ≤ slot.toNat) :
    takePreserve tag series slot s = s.respond tag .preserve .badValue [0xFF] := by
  unfold takePreserve
  cases hs : seriesOf series with
  | none => rfl
  | some i =>
    have hslot : s.port.settings.slotCount.toNat ≤ slot.toNat :=
      h.resolve_left fun hbad => by simp [Appending.seriesOf_bad hbad] at hs
    exact if_pos hslot

variable (hs : series.toNat = i.val) (hslot : slot.toNat < s.port.settings.slotCount.toNat)
include hs hslot

theorem takePreserve_state {r : Result} (h : refusalToRead (s.entry i).state = some r) :
    takePreserve tag series slot s = s.respond tag .preserve r [] := by
  have hslot' : ¬ s.port.slotCount ≤ slot.toNat := Nat.not_le.mpr hslot
  simp only [takePreserve, Appending.seriesOf_id hs, if_neg hslot', h]

variable (ho : (s.entry i).state = .opened ∨ (s.entry i).state = .sealed)
include ho

/-- What PRESERVE does of a series that can be read: the checks that are left (R157). -/
theorem takePreserve_readable : takePreserve tag series slot s =
    let n := (s.entry i).committed - (s.entry i).oldest
    if s.rangeUsable (s.entry i).base (s.entry i).count = false then s.respond tag .preserve .notReady []
    else if s.port.op.isSome then s.respond tag .preserve .busy []
    else if s.port.settings.slotPages.toNat < 1 + (n + 15) / 16 then
      s.respond tag .preserve .imageTooLarge (leBytes 4 n ++ leBytes 2 s.port.settings.slotPages.toNat)
    else
      (s.unclaimSlots fun c => c.slot == slot.toNat).modPort (headerPort (snapshotOp tag slot i (s.entry i))) := by
  have hslot' : ¬ s.port.slotCount ≤ slot.toNat := Nat.not_le.mpr hslot
  have hread : refusalToRead (s.entry i).state = none := by rcases ho with h | h <;> rw [h] <;> rfl
  rw [← startPage_header]
  simp only [takePreserve, Appending.seriesOf_id hs, if_neg hslot', hread]
  rfl

theorem takePreserve_notReady (hu : s.rangeUsable (s.entry i).base (s.entry i).count = false) :
    takePreserve tag series slot s = s.respond tag .preserve .notReady [] :=
  (takePreserve_readable hs hslot ho).trans (if_pos hu)

variable (hu : s.rangeUsable (s.entry i).base (s.entry i).count = true)
include hu

theorem takePreserve_busy (hop : s.port.op ≠ none) :
    takePreserve tag series slot s = s.respond tag .preserve .busy [] := by
  rw [takePreserve_readable hs hslot ho]
  exact (if_neg (by simp [hu])).trans (if_pos (Option.isSome_iff_ne_none.mpr hop))

variable (hop : s.port.op = none)
include hop

theorem takePreserve_tooLarge
    (h : s.port.settings.slotPages.toNat < 1 + ((s.entry i).committed - (s.entry i).oldest + 15) / 16) :
    takePreserve tag series slot s = s.respond tag .preserve .imageTooLarge
      (leBytes 4 ((s.entry i).committed - (s.entry i).oldest) ++ leBytes 2 s.port.settings.slotPages.toNat) := by
  rw [takePreserve_readable hs hslot ho]
  exact (if_neg (by simp [hu])).trans ((if_neg (by simp [hop])).trans (if_pos h))

/-- A PRESERVE that passes takes its snapshot, ends the claims on its slot and begins to read the header page (R158). -/
theorem takePreserve_passed
    (h : 1 + ((s.entry i).committed - (s.entry i).oldest + 15) / 16 ≤ s.port.settings.slotPages.toNat) :
    ∃ dir, takePreserve tag series slot s =
        { s with dir := dir, port := headerPort (snapshotOp tag slot i (s.entry i)) s.port } ∧
      ∀ j : Fin 32, dir[j] = unclaimed (fun c => c.slot == slot.toNat) (s.entry j) := by
  obtain ⟨dir, hv, hdir⟩ := unclaimSlots_spec (fun c => c.slot == slot.toNat) s
  refine ⟨dir, ?_, hdir⟩
  rw [takePreserve_readable hs hslot ho]
  refine (if_neg (by simp [hu])).trans ((if_neg (by simp [hop])).trans ((if_neg (Nat.not_lt.mpr h)).trans ?_))
  exact congrArg (State.modPort _) hv

end preserve

section rows

variable {s u : State} {tag series slot : Byte}

theorem exec_preserve_answered {res : Result} {fields : List Byte} (hA : s.Admits tag)
    (h : takePreserve tag series slot (taking tag (.preserve series slot) s) =
      (taking tag (.preserve series slot) s).respond tag .preserve res fields) :
    exec (.preserve tag series slot) s = .next (s.answered tag .preserve res fields) :=
  congrArg Host.Outcome.next (hostRequest_answered (r := .preserve series slot) hA (by simp [Request.kind]) rfl rfl hA h)

theorem exec_preserve_admitted (hA : s.Admits tag) (hu : u.Admits tag)
    (h : takePreserve tag series slot (taking tag (.preserve series slot) s) =
      taking tag (.preserve series slot) u) :
    exec (.preserve tag series slot) s = .next (u.admitted tag .preserve) :=
  congrArg Host.Outcome.next (hostRequest_admitted (r := .preserve series slot) hA (by simp [Request.kind]) rfl rfl hu h)

end rows

/-- Settles O57: the checks of R157 in their order, then the snapshot and the header read of R158. -/
theorem preserve : Obligations.Preserve := by
  intro s tag series slot hA
  refine ⟨fun h => exec_preserve_answered hA (takePreserve_badValue h), fun i hs hslot => ?_⟩
  have byState {r : Result} (h : refusalToRead (s.entry i).state = some r) :=
    exec_preserve_answered hA (takePreserve_state (s := taking tag (.preserve series slot) s) hs hslot h)
  refine ⟨?noSeries, fun h => byState (by rw [h]; rfl), fun h => byState (by rw [h]; rfl), fun ho =>
    ⟨fun hu => ?notReady, fun hu => ⟨fun hop => ?busy, fun hop hlarge => ?tooLarge, fun hop hfits => ?passed⟩⟩⟩
  case noSeries => rintro (h | h) <;> exact byState (by rw [h]; rfl)
  case notReady => exact exec_preserve_answered hA (takePreserve_notReady hs hslot ho hu)
  case busy => exact exec_preserve_answered hA (takePreserve_busy hs hslot ho hu hop)
  case tooLarge => exact exec_preserve_answered hA (takePreserve_tooLarge hs hslot ho hu hop hlarge)
  case passed =>
    obtain ⟨dir, htake, hdir⟩ := takePreserve_passed (s := taking tag (.preserve series slot) s) (tag := tag) hs hslot
      ho hu hop hfits
    have hexec := exec_preserve_admitted
      (u := { s with dir := dir, port := headerPort (snapshotOp tag slot i (s.entry i)) s.port }) hA hA htake
    refine ⟨_, _, hexec, rfl, rfl, rfl, rfl, rfl, rfl, rfl, rfl, rfl, rfl, fun j => (hdir j).trans ?_, rfl, rfl, rfl, rfl⟩
    simp [unclaimed, taking]

/-! ### RECOVER (R162) -/

section recover

variable {s : State} {tag slot target presence : Byte} {base : Half} {i : Fin 32}

/-- The base override of a RECOVER (R162, R187). -/
def overrideOf (presence : Byte) (base : Half) : Option Nat := if presence = 0 then none else some base.toNat

/-- The operation record of a RECOVER (R162). -/
def recoverOp (tag slot : Byte) (i : Fin 32) (presence : Byte) (base : Half) : ImageOp :=
  { ImageOp.start .recover tag slot.toNat i with baseOverride := overrideOf presence base }

theorem optional_base (presence : Byte) (base : Half) :
    (Machine.optional presence base).map BitVec.toNat = overrideOf presence base := by
  unfold Machine.optional overrideOf
  split <;> rfl

theorem overrideOf_high (presence : Byte) (base : Half) :
    32767 < (overrideOf presence base).getD 0 ↔ presence ≠ 0 ∧ 32768 ≤ base.toNat := by
  unfold overrideOf
  by_cases hp : presence = 0
  · simp [hp]
  · rw [if_neg hp]
    exact ⟨fun h => ⟨hp, h⟩, And.right⟩

theorem takeRecover_badValue (h : 32 ≤ target.toNat ∨ s.port.settings.slotCount.toNat ≤ slot.toNat ∨
      (presence ≠ 0 ∧ 32768 ≤ base.toNat)) :
    takeRecover tag slot target presence base s = s.respond tag .recover .badValue [0xFF] := by
  unfold takeRecover
  rw [optional_base]
  cases hs : seriesOf target with
  | none => rfl
  | some i =>
    refine if_pos ?_
    rcases h with hbad | hslot | hbase
    · simp [Appending.seriesOf_bad hbad] at hs
    · exact .inl hslot
    · exact .inr ((overrideOf_high presence base).mpr hbase)

variable (hs : target.toNat = i.val) (hslot : slot.toNat < s.port.settings.slotCount.toNat)
  (hbase : presence ≠ 0 → base.toNat < 32768)
include hs hslot hbase

/-- What RECOVER does once its fields are in range: the checks that are left (R162). -/
theorem takeRecover_inRange : takeRecover tag slot target presence base s =
    if (s.entry i).state ≠ .free ∧ (s.entry i).state ≠ .lost then s.respond tag .recover .seriesExists []
    else if (allDies.any fun d => (s.die d).usable) = false then s.respond tag .recover .notReady []
    else if s.port.op.isSome then s.respond tag .recover .busy []
    else s.modPort (headerPort (recoverOp tag slot i presence base)) := by
  have hfields : ¬ (s.port.slotCount ≤ slot.toNat ∨ 32767 < (overrideOf presence base).getD 0) := by
    rw [overrideOf_high]
    rintro (h | ⟨hp, h⟩)
    · exact Nat.not_le.mpr hslot h
    · exact Nat.not_le.mpr (hbase hp) h
  rw [← startPage_header]
  simp only [takeRecover, Appending.seriesOf_id hs, optional_base, if_neg hfields]
  rfl

theorem takeRecover_exists (hf : (s.entry i).state ≠ .free) (hl : (s.entry i).state ≠ .lost) :
    takeRecover tag slot target presence base s = s.respond tag .recover .seriesExists [] :=
  (takeRecover_inRange hs hslot hbase).trans (if_pos ⟨hf, hl⟩)

variable (ht : (s.entry i).state = .free ∨ (s.entry i).state = .lost)
include ht

theorem takeRecover_notReady (hd : ∀ d : Fin 2, (s.die d).usable = false) :
    takeRecover tag slot target presence base s = s.respond tag .recover .notReady [] := by
  rw [takeRecover_inRange hs hslot hbase, if_neg fun h => ht.elim h.1 h.2]
  exact if_pos (by simp [hd])

variable (hd : ∃ d : Fin 2, (s.die d).usable = true)
include hd

theorem takeRecover_ready : takeRecover tag slot target presence base s =
    if s.port.op.isSome then s.respond tag .recover .busy []
    else s.modPort (headerPort (recoverOp tag slot i presence base)) := by
  obtain ⟨d, hd⟩ := hd
  have hany : (allDies.any fun d => (s.die d).usable) = true :=
    List.any_eq_true.mpr ⟨d, (by decide : ∀ d : Fin 2, d ∈ allDies) d, hd⟩
  rw [takeRecover_inRange hs hslot hbase, if_neg fun h => ht.elim h.1 h.2, if_neg (by simp [hany])]

theorem takeRecover_busy (hop : s.port.op ≠ none) :
    takeRecover tag slot target presence base s = s.respond tag .recover .busy [] :=
  (takeRecover_ready hs hslot hbase ht hd).trans (if_pos (Option.isSome_iff_ne_none.mpr hop))

/-- A RECOVER that passes begins to read the header page of its slot (R162). -/
theorem takeRecover_passed (hop : s.port.op = none) : takeRecover tag slot target presence base s =
    s.modPort (headerPort (recoverOp tag slot i presence base)) :=
  (takeRecover_ready hs hslot hbase ht hd).trans (if_neg (by simp [hop]))

end recover

theorem recover_readsBack (slot target presence : Byte) (base : Half) :
    Request.ofPayload .recover (Request.recover slot target presence base).payload =
      .recover slot target presence base := by
  have hbase := fieldAt16 [slot, target, presence] [] base (k := 3) rfl
  rw [List.append_nil] at hbase
  exact congrArg (Request.recover slot target presence) hbase

section recoverRow

variable {s u : State} {tag slot target presence : Byte} {base : Half}

theorem exec_recover_answered {res : Result} {fields : List Byte} (hA : s.Admits tag)
    (h : takeRecover tag slot target presence base (taking tag (.recover slot target presence base) s) =
      (taking tag (.recover slot target presence base) s).respond tag .recover res fields) :
    exec (.recover tag slot target presence base) s = .next (s.answered tag .recover res fields) :=
  congrArg Host.Outcome.next (hostRequest_answered (r := .recover slot target presence base) hA (by simp [Request.kind])
    rfl (recover_readsBack ..) hA h)

theorem exec_recover_admitted (hA : s.Admits tag) (hu : u.Admits tag)
    (h : takeRecover tag slot target presence base (taking tag (.recover slot target presence base) s) =
      taking tag (.recover slot target presence base) u) :
    exec (.recover tag slot target presence base) s = .next (u.admitted tag .recover) :=
  congrArg Host.Outcome.next (hostRequest_admitted (r := .recover slot target presence base) hA (by simp [Request.kind])
    rfl (recover_readsBack ..) hu h)

end recoverRow

/-- Settles O58: the checks of R162 in their order, then the header read. -/
theorem recover : Obligations.Recover := by
  intro s tag slot target presence base hA
  refine ⟨fun h => exec_recover_answered hA (takeRecover_badValue h), fun i hs hslot hbase => ?_⟩
  refine ⟨fun hf hl => ?seriesExists, fun ht => ⟨fun hd => ?notReady, fun hd => ⟨fun hop => ?busy, fun hop => ?passed⟩⟩⟩
  case seriesExists => exact exec_recover_answered hA (takeRecover_exists hs hslot hbase hf hl)
  case notReady => exact exec_recover_answered hA (takeRecover_notReady hs hslot hbase ht hd)
  case busy => exact exec_recover_answered hA (takeRecover_busy hs hslot hbase ht hd hop)
  case passed =>
    have htake := takeRecover_passed (s := taking tag (.recover slot target presence base) s) (tag := tag) hs hslot
      hbase ht hd hop
    have hexec := exec_recover_admitted (u := s.modPort (headerPort (recoverOp tag slot i presence base))) hA hA htake
    exact ⟨_, _, hexec, rfl, rfl, rfl, rfl, rfl, rfl, rfl, rfl, rfl, rfl⟩

end Sys2Proof.Preserving
end

section
/-! PROOFS. The last access of each page of a PRESERVE (R152, R154, R158 to R161, R191): how an access ends, the header
pages a PRESERVE writes, and what follows each of its pages. -/

namespace Sys2Proof.Preserving

open Sys2Proof.Machine Sys2Proof.Laws

/-! ### The end of an access (R147, R149, R152) -/

/-- The transfer once its running access has ended: a READ takes the word. -/
def withWord (word : Half) (x : Transfer) : Transfer :=
  { x with words := if x.dir = .read then x.words ++ [word] else x.words }

theorem withWord_read {x : Transfer} (h : x.dir = .read) (word : Half) :
    withWord word x = { x with words := x.words ++ [word] } := by
  simp [withWord, h]

section access

variable {s : State} {x : Transfer} {level : Bool} {word : Half}

/-- An access that PWAIT does not extend ends: with the last one of the page, or with one that timed out or that the
operation wants no more behind it, the page transfer ends. -/
theorem portAccessEnd_ended (hx : s.port.transfer = some x) (hb : x.begun = true)
    (hw : x.timedOut = true ∨ s.port.waits level = false) : portAccessEnd level word s =
      if x.timedOut = true ∨ 263 ≤ x.index ∨ s.port.opOver = true then
        ((s.setTransfer none).pageEnd (withWord word x)).checkReset
      else s.setTransfer (some { withWord word x with index := x.index + 1, extension := 0 }) := by
  have hends : ¬ (x.timedOut = false ∧ s.port.waits level = true) := by
    rintro ⟨ht, hwait⟩
    rcases hw with h | h
    · simp [ht] at h
    · simp [hwait] at h
  obtain ⟨dir, page, index, words, extension, timedOut, begun⟩ := x
  obtain rfl : begun = true := hb
  cases dir <;> simp only [portAccessEnd, hx, hends, withWord, Bool.true_eq_false, if_true, if_false, reduceCtorEq]

variable {op : ImageOp}

theorem opOver_live (ho : s.port.op = some op) (hr : op.result = none) (ha : op.abandoned = false) :
    s.port.opOver = false := by
  simp [Port.opOver, ho, hr, ha]

/-- While no RESET is in progress, no RESET is answered behind what the end of a page leads to. -/
theorem checkReset_afterPage (hreset : s.link.reset = none) :
    ((s.setTransfer none).pageEnd x).checkReset = (s.setTransfer none).pageEnd x := by
  have hmoves : Moves True False True s ((s.setTransfer none).pageEnd x) := pageEnd_moves (setTransfer_moves .refl)
  obtain ⟨-, -, -, -, -, -, -, h⟩ := hmoves.sameIn
  exact checkReset_none (h.trans hreset)

/-- The last access of a page of an operation that goes on. -/
theorem exec_lastAccess (hx : s.port.transfer = some x) (ho : s.port.op = some op) (hr : op.result = none)
    (ha : op.abandoned = false) (hb : x.begun = true) (hreset : s.link.reset = none)
    (hlast : x.timedOut = true ∨ x.index = 263 ∧ s.port.waits level = false) :
    exec (.portAccessEnd level word) s = .next (if op.kind = .preserve
      then (s.setTransfer none).preservePageEnd op (withWord word x)
      else (s.setTransfer none).recoverPageEnd op (withWord word x)) := by
  have hover : x.timedOut = true ∨ 263 ≤ x.index ∨ s.port.opOver = true :=
    hlast.imp id fun h => .inl (Nat.le_of_eq h.1.symm)
  have hpage : (s.setTransfer none).pageEnd (withWord word x) = if op.kind = .preserve
      then (s.setTransfer none).preservePageEnd op (withWord word x)
      else (s.setTransfer none).recoverPageEnd op (withWord word x) := by
    have ho' : (s.setTransfer none).port.op = some op := ho
    cases hk : op.kind <;>
      simp only [State.pageEnd, ho', hr, ha, hk, Option.isSome_none, Bool.false_eq_true, if_false, if_true, reduceCtorEq]
  have hend := portAccessEnd_ended (word := word) hx hb (hlast.imp id And.right)
  rw [if_pos hover, checkReset_afterPage hreset, hpage] at hend
  exact congrArg Host.Outcome.next hend

end access

/-! ### The answer of an operation of which nothing is under way (R156, R189) -/

section ends

variable {s : State} {op : ImageOp}

theorem answer_eq_response (op : ImageOp) (r : Result) :
    op.answer r = Frame.response op.tag op.kind.kind r op.report := by
  unfold ImageOp.answer ImageOp.report Frame.response
  cases op.kind <;> rfl

/-- An operation of which no transaction and no access is left answers in the change in which it has its result. -/
theorem endOp_answers (r : Result) (detail : List Byte) (ho : s.port.op = some op) (hr : op.result = none)
    (ha : op.abandoned = false) (ht : s.port.transfer = none)
    (hq : ∀ y ∈ s.arr.queue ++ s.arr.waiting, y.origin.ofImage = false)
    (hd : (s.entry op.series).state ≠ .dropping) :
    ∃ q w, q ++ w = s.arr.queue ++ s.arr.waiting ∧ s.endOp r detail = { s with
      arr := { s.arr with queue := q, waiting := w }
      port := { s.port with op := none, transfer := none }
      table := s.table.filter fun e => e.tag != op.tag
      link := { s.link with queue := s.link.queue ++ [({ op with detail := detail } : ImageOp).answer r] } } := by
  rw [answer_eq_response { op with detail := detail }]
  exact endOp_now (op := op) r detail ho hr ha (by simp [Port.accessing, ht]) hq hd

theorem answer_preserve (hk : op.kind = .preserve) (r : Result) : ({ op with detail := [] } : ImageOp).answer r =
    ⟨.response, op.tag, [0x41, r.code] ++ op.preserveReport, none⟩ := by
  simp [ImageOp.answer, hk, ImageOp.preserveReport]

end ends

/-! ### The header page (R154, R158, R191) -/

theorem headerBytes_eq (h : ImageHeader) : headerBytes h = leBytes 4 0xC608A1D5 ++ [1, h.state] ++ leBytes 4 h.generation
    ++ [h.series, h.lanes, h.policy] ++ leBytes 2 h.base ++ leBytes 2 h.count ++ leBytes 4 h.oldest ++ leBytes 4 h.head
    ++ leBytes 6 h.firstStamp.toNat ++ leBytes 6 h.lastStamp.toNat ++ leBytes 4 h.records ++ [h.seriesState]
    ++ List.replicate 470 0xFF := by
  unfold headerBytes fillPage
  simp only [List.length_append, leBytes_length, fieldBytes_length, List.length_cons, List.length_nil]
  rfl

/-- The generation that follows the one of the page found at page 0; 1 where none can follow (R158). -/
theorem nextGeneration_eq (ws : List Half) (timedOut : Bool) :
    let page := classPage (bytesOfWords ws) timedOut
    let old := leNat ((page.2.drop 6).take 4)
    nextGeneration ws timedOut =
      if page.1 = .uncorrectable ∨ leNat (page.2.take 4) ≠ 0xC608A1D5 ∨ old = 4294967295 then 1 else old + 1 := by
  intro page old
  have hdef : nextGeneration ws timedOut =
      if page.1 ≠ .uncorrectable ∧ magicOk page.2 = true then if old = 4294967295 then 1 else old + 1 else 1 := rfl
  have hmagic : magicOk page.2 = true ↔ leNat (page.2.take 4) = 0xC608A1D5 := beq_iff_eq
  rw [hdef]
  by_cases hc : page.1 = .uncorrectable
  · simp [hc]
  · by_cases hm : leNat (page.2.take 4) = 0xC608A1D5
    · simp [hc, hm, hmagic]
    · simp [hc, hm, hmagic]

section pages

variable {s : State} {op : ImageOp}

theorem writeHeader_eq (phase : Phase) (complete : Bool) (ho : s.port.op = some op) :
    s.writeHeader phase complete = { s with port := { s.port with
      op := some { op with phase := phase, page := 0 }
      transfer := some ⟨.write, op.slot * s.port.settings.slotPages.toNat, 0, wordsOfBytes (pageBytes
        (headerBytes (op.headerFor (s.entry op.series) complete)) 0 op.generation 0), 0, false,
        s.port.lastDir == .write⟩ } } := by
  simp [State.writeHeader, ho, State.modOp, State.startPage, State.modPort, Port.slotPages]

/-! ### What follows a page (R158 to R160) -/

theorem preservePageEnd_headerRead (t : Transfer) (ho : s.port.op = some op) (hp : op.phase = .headerRead) :
    s.preservePageEnd op t = { s with port := { s.port with
      op := some { op with generation := nextGeneration t.words t.timedOut, phase := .headerWrite, page := 0 }
      transfer := some ⟨.write, op.slot * s.port.settings.slotPages.toNat, 0, wordsOfBytes (pageBytes
        (headerBytes (({ op with generation := nextGeneration t.words t.timedOut } : ImageOp).headerFor
          (s.entry op.series) false)) 0 (nextGeneration t.words t.timedOut) 0), 0, false,
        s.port.lastDir == .write⟩ } } := by
  have hdef : s.preservePageEnd op t =
      (s.modOp fun op => { op with generation := nextGeneration t.words t.timedOut }).writeHeader .headerWrite false := by
    simp only [State.preservePageEnd, hp]
  rw [hdef, writeHeader_eq (op := { op with generation := nextGeneration t.words t.timedOut }) .headerWrite false
    (by simp [State.modOp, State.modPort, ho])]
  simp only [State.modOp, State.modPort]
  rfl

/-- A write of a PRESERVE that timed out ends it (R161). -/
theorem preservePageEnd_timedOut {t : Transfer} (ht : t.timedOut = true)
    (hp : op.phase = .headerWrite ∨ op.phase = .pageWrite ∨ op.phase = .finalWrite) :
    s.preservePageEnd op t = s.endOp .portTimeout [] := by
  rcases hp with hp | hp | hp <;> simp only [State.preservePageEnd, hp, ht, if_true]

theorem preservePageEnd_headerWrite {t : Transfer} (ht : t.timedOut = false) (hp : op.phase = .headerWrite) :
    s.preservePageEnd op t = s.nextPreservePage 0 := by
  simp only [State.preservePageEnd, hp, ht, Bool.false_eq_true, if_false]

theorem preservePageEnd_pageWrite {t : Transfer} (ht : t.timedOut = false) (hp : op.phase = .pageWrite) :
    s.preservePageEnd op t =
      (s.modOp fun op => { op with pagesWritten := op.pagesWritten + 1 }).nextPreservePage op.page := by
  simp only [State.preservePageEnd, hp, ht, Bool.false_eq_true, if_false]

theorem preservePageEnd_finalWrite {t : Transfer} (ht : t.timedOut = false) (hp : op.phase = .finalWrite) :
    s.preservePageEnd op t = s.completePreserve op := by
  simp only [State.preservePageEnd, hp, ht, Bool.false_eq_true, if_false]

theorem nextPreservePage_last {k : Nat} (ho : s.port.op = some op) (h : dataPages op.records ≤ k) :
    s.nextPreservePage k = s.writeHeader .finalWrite true := by
  simp only [State.nextPreservePage, ho, if_pos h]

theorem nextPreservePage_more {k : Nat} (ho : s.port.op = some op) (h : k < dataPages op.records) :
    s.nextPreservePage k = s.preservePage (k + 1) := by
  simp only [State.nextPreservePage, ho, if_neg (Nat.not_le.mpr h)]

/-- The entry as a PRESERVE that completes leaves it (R160). -/
def preserved (op : ImageOp) (e : Entry) : Entry :=
  { e with image := some ⟨op.slot, op.snapHead⟩, dirty := if e.committed = op.snapHead then false else e.dirty }

/-- The COMPLETE header's end: the series names its slot, and the PRESERVE answers OK (R160). -/
theorem completePreserve_answers (ho : s.port.op = some op) (hr : op.result = none) (ha : op.abandoned = false)
    (ht : s.port.transfer = none) (hq : ∀ y ∈ s.arr.queue ++ s.arr.waiting, y.origin.ofImage = false)
    (hd : (s.entry op.series).state ≠ .dropping) :
    ∃ q w, s.completePreserve op = { s.setEntry op.series (preserved op (s.entry op.series)) with
      arr := { s.arr with queue := q, waiting := w }
      port := { s.port with op := none, transfer := none }
      table := s.table.filter fun e => e.tag != op.tag
      link := { s.link with queue := s.link.queue ++ [({ op with detail := [] } : ImageOp).answer .ok] } } := by
  obtain ⟨q, w, -, h⟩ := endOp_answers (s := s.setEntry op.series (preserved op (s.entry op.series))) .ok [] ho hr ha ht
    hq (by rw [setEntry_entry_same]; exact hd)
  exact ⟨q, w, h⟩

end pages

/-- The state between two pages of an operation: no page transfer runs. -/
def betweenPages (op : ImageOp) (s : State) : State := { s with port := { s.port with transfer := none, op := some op } }

theorem betweenPages_self {s : State} {op : ImageOp} (ho : s.port.op = some op) :
    s.setTransfer none = betweenPages op s := by
  simp [State.setTransfer, State.modPort, betweenPages, ← ho]

theorem betweenPages_modOp (f : ImageOp → ImageOp) (op : ImageOp) (s : State) :
    (betweenPages op s).modOp f = betweenPages (f op) s := rfl

/-- Settles O60: the last access of a page ends it, and each phase of a PRESERVE goes on as R158 to R161 say. -/
theorem preserveEnds : Obligations.PreserveEnds := by
  refine ⟨headerBytes_eq, ?_⟩
  intro s x op level word hx ho hk hr ha hb hreset hd hq e n full report header writes goesOn
  have hend (h : full ∨ x.timedOut = true) : exec (.portAccessEnd level word) s =
      .next ((betweenPages op s).preservePageEnd op (withWord word x)) := by
    have hlast : x.timedOut = true ∨ x.index = 263 ∧ s.port.waits level = false := h.elim (fun hf => .inr hf.2) .inl
    rw [exec_lastAccess hx ho hr ha hb hreset hlast, if_pos hk, betweenPages_self ho]
  have goes (k : Nat) (op' : ImageOp) (written : Nat) (hop : op' = { op with pagesWritten := written })
      (hexec : exec (.portAccessEnd level word) s = .next ((betweenPages op' s).nextPreservePage k)) :
      goesOn k op' := by
    have hn : op'.records = n := by subst hop; rfl
    refine ⟨fun hlast => ?complete, fun hmore hroom => ?page⟩
    case complete =>
      have hheader := writeHeader_eq (s := betweenPages op' s) .finalWrite true rfl
      rw [hexec, nextPreservePage_last (s := betweenPages op' s) rfl (hn ▸ hlast), hheader]
      subst hop
      rfl
    case page =>
      obtain ⟨dies, hpage⟩ := preservePage_room (s := betweenPages op' s) (k + 1) rfl hroom
      rw [nextPreservePage_more (s := betweenPages op' s) rfl (hn ▸ hmore), hpage] at hexec
      subst hop
      exact ⟨_, hexec, rfl, rfl, rfl, rfl, rfl, rfl, rfl⟩
  refine ⟨fun hp hdir hl => ?headerRead, fun hp _ hf => ?headerWrite, fun hp _ hf => ?pageWrite, fun hp _ hf => ?final,
    fun hp _ ht => ?timedOut⟩
  case headerRead =>
    intro page old generation
    have hgen : nextGeneration (withWord word x).words x.timedOut = generation := by
      rw [withWord_read hdir]
      exact nextGeneration_eq _ _
    rw [hend hl, preservePageEnd_headerRead (s := betweenPages op s) (withWord word x) rfl hp, ← hgen]
    rfl
  case headerWrite =>
    have hexec := (hend (.inl hf)).trans (congrArg _ (preservePageEnd_headerWrite (t := withWord word x) hf.1 hp))
    exact goes 0 op op.pagesWritten rfl hexec
  case pageWrite =>
    have hexec := (hend (.inl hf)).trans (congrArg _ (preservePageEnd_pageWrite (t := withWord word x) hf.1 hp))
    rw [betweenPages_modOp] at hexec
    exact goes op.page _ (op.pagesWritten + 1) rfl hexec
  case final =>
    obtain ⟨q, w, h⟩ := completePreserve_answers (s := betweenPages op s) rfl hr ha rfl hq hd
    have hpage := preservePageEnd_finalWrite (s := betweenPages op s) (t := withWord word x) hf.1 hp
    have hexec := (hend (.inl hf)).trans (congrArg _ (hpage.trans h))
    rw [answer_preserve hk] at hexec
    exact ⟨_, hexec, rfl, rfl, setEntry_entry_same op.series (preserved op e) s,
      fun j hj => setEntry_entry_other hj (preserved op e) s, rfl, rfl, rfl⟩
  case timedOut =>
    obtain ⟨q, w, -, h⟩ := endOp_answers (s := betweenPages op s) .portTimeout [] rfl hr ha rfl hq hd
    have hpage := preservePageEnd_timedOut (s := betweenPages op s) (t := withWord word x) ht hp
    have hexec := (hend (.inr ht)).trans (congrArg _ (hpage.trans h))
    rw [answer_preserve hk] at hexec
    exact ⟨_, hexec, rfl, rfl, rfl, rfl, rfl, rfl⟩

end Sys2Proof.Preserving
end

section
/-! PROOFS. An access of a page, step by step (R147 to R149), the end of an operation that has its result or that RESET
abandoned (R156, R169, R183), and the pages that a RECOVER reads (R163 to R166). -/

namespace Sys2Proof.Preserving

open Sys2Proof.Machine Sys2Proof.Laws

/-! ### An access (R147 to R149) -/

section steps

variable {s : State} {x : Transfer} {level : Bool} {word : Half}

theorem waits_iff (p : Port) (level : Bool) : p.waits level = true ↔
    p.settings.waitEnable = 1 ∧ (if p.settings.waitPolarity = 0 then level = false else level = true) := by
  unfold Port.waits
  by_cases hp : p.settings.waitPolarity = 0 <;> simp [hp]

/-- With no access running the three commands change nothing (log 3). -/
theorem exec_noTransfer (h : s.port.transfer = none) : exec .turnaroundElapsed s = .next s ∧
    exec (.portAccessEnd level word) s = .next s ∧ exec (.accessTimeout level) s = .next s := by
  refine ⟨congrArg Host.Outcome.next ?_, congrArg Host.Outcome.next ?_, congrArg Host.Outcome.next ?_⟩
  · simp only [turnaroundElapsed, h]
  · simp only [portAccessEnd, h]
  · simp only [accessTimeout, h]

theorem turnaroundElapsed_begins (hx : s.port.transfer = some x) (hb : x.begun = false) : turnaroundElapsed s =
    { s with port := { s.port with transfer := some { x with begun := true }, lastDir := x.dir } } := by
  simp only [turnaroundElapsed, hx, hb, Bool.false_eq_true, if_false]
  rfl

theorem turnaroundElapsed_begun (hx : s.port.transfer = some x) (hb : x.begun = true) : turnaroundElapsed s = s := by
  simp only [turnaroundElapsed, hx, hb, if_true]

theorem portAccessEnd_extended (hx : s.port.transfer = some x) (hb : x.begun = true) (ht : x.timedOut = false)
    (hw : s.port.waits level = true) (he : x.extension < (s.port.settings.maxWaitCode.toNat + 1) * 16) :
    portAccessEnd level word s = s.setTransfer (some { x with extension := x.extension + 1 }) := by
  have hlimit : x.extension < s.port.extensionLimit := he
  simp only [portAccessEnd, hx, hb, ht, hw, hlimit, Bool.true_eq_false, and_self, if_true, if_false]

theorem accessTimeout_active (hx : s.port.transfer = some x) (hb : x.begun = true) (ht : x.timedOut = false)
    (hw : s.port.waits level = true) : accessTimeout level s =
      s.setTransfer (some { x with extension := s.port.extensionLimit, timedOut := true }) := by
  simp only [accessTimeout, hx, hb, ht, hw, and_self, if_true]

theorem accessTimeout_inactive (hx : s.port.transfer = some x) (hw : s.port.waits level = false) :
    accessTimeout level s = s := by
  simp only [accessTimeout, hx, hw, Bool.false_eq_true, and_false, if_false]

/-- An access before the last one of its page: the next access begins. -/
theorem portAccessEnd_next {op : ImageOp} (hx : s.port.transfer = some x) (hb : x.begun = true)
    (ht : x.timedOut = false) (hw : s.port.waits level = false) (ho : s.port.op = some op) (hr : op.result = none)
    (ha : op.abandoned = false) (hi : x.index < 263) : portAccessEnd level word s =
      s.setTransfer (some { withWord word x with index := x.index + 1, extension := 0 }) := by
  rw [portAccessEnd_ended hx hb (.inr hw), if_neg]
  rintro (h | h | h)
  · simp [ht] at h
  · exact Nat.not_le.mpr hi h
  · simp [opOver_live ho hr ha] at h

end steps

/-! ### An operation that has its result, or that RESET abandoned (R156, R169, R183) -/

section settled

variable {s : State} {x : Transfer} {op : ImageOp} {level : Bool} {word : Half}

theorem pageEnd_ending {r : Result} (ho : s.port.op = some op) (hr : op.result = some r) (ha : op.abandoned = false) :
    s.pageEnd x = s.finishOp := by
  simp only [State.pageEnd, ho, ha, hr, Option.isSome_some, Bool.false_eq_true, if_false, if_true]

theorem pageEnd_abandoned (ho : s.port.op = some op) (ha : op.abandoned = true) :
    s.pageEnd x = s.modPort fun p => { p with op := none } := by
  simp only [State.pageEnd, ho, ha, if_true]

theorem imageIssued_iff (s : State) :
    s.imageIssued = true ↔ ∃ y ∈ s.arr.queue, y.issued = true ∧ y.origin.ofImage = true := by
  simp [State.imageIssued]

theorem requestWorkIssued_iff (s : State) :
    s.requestWorkIssued = true ↔ ∃ y ∈ s.arr.queue, y.issued = true ∧ y.origin ≠ .statusRead := by
  simp [State.requestWorkIssued]

/-- The last access of an operation that wants no further one. -/
theorem exec_overAccess (hx : s.port.transfer = some x) (hb : x.begun = true)
    (hw : x.timedOut = true ∨ s.port.waits level = false) (hover : s.port.opOver = true) :
    exec (.portAccessEnd level word) s = .next ((s.setTransfer none).pageEnd (withWord word x)).checkReset := by
  have hend := portAccessEnd_ended (word := word) hx hb hw
  rw [if_pos (.inr (.inr hover))] at hend
  exact congrArg Host.Outcome.next hend

/-- The RESET waits while a transaction that it discarded is ISSUED (R183, log 18). -/
theorem checkReset_waits (h : s.requestWorkIssued = true) : s.checkReset = s := by
  unfold State.checkReset
  split
  · rfl
  · simp only [h, Bool.true_or, if_true]

theorem checkReset_answers {r : ResetOp} (hr : s.link.reset = some r) (h : s.requestWorkIssued = false)
    (ha : s.port.accessing = false) : s.checkReset = { s with
      table := s.table.filter fun e => e.tag != r.tag
      link := { s.link with
        reset := none, bufs := Vector.replicate 2 ⟨.free, []⟩
        queue := s.link.queue ++ [⟨.response, r.tag,
          [0x05, 0, BitVec.ofNat 8 r.entriesRemoved, BitVec.ofNat 8 r.framesRemoved], none⟩] } } := by
  simp only [State.checkReset, hr, h, ha, Bool.or_self, Bool.false_eq_true, if_false]
  rfl

variable (hx : s.port.transfer = some x) (ho : s.port.op = some op) (hb : x.begun = true)
  (hw : x.timedOut = true ∨ s.port.waits level = false)
include hx ho hb hw

/-- Once its access has ended the abandoned operation is over; what is left is the RESET (R169). -/
theorem exec_abandonedAccess (ha : op.abandoned = true) : exec (.portAccessEnd level word) s =
    .next ({ s with port := { s.port with op := none, transfer := none } } : State).checkReset := by
  have hover : s.port.opOver = true := by simp [Port.opOver, ho, ha]
  rw [exec_overAccess hx hb hw hover, pageEnd_abandoned (s := s.setTransfer none) ho ha]
  rfl

variable {r : Result} (hr : op.result = some r) (ha : op.abandoned = false) (hreset : s.link.reset = none)
include hr ha hreset

theorem exec_endingAccess : exec (.portAccessEnd level word) s = .next (s.setTransfer none).finishOp := by
  have hover : s.port.opOver = true := by simp [Port.opOver, ho, hr]
  rw [exec_overAccess hx hb hw hover, checkReset_afterPage hreset, pageEnd_ending (s := s.setTransfer none) ho hr ha]

theorem exec_endingAccess_waits (hissued : ∃ y ∈ s.arr.queue, y.issued = true ∧ y.origin.ofImage = true) :
    exec (.portAccessEnd level word) s = .next (s.setTransfer none) := by
  have hwaits : (s.setTransfer none).finishOp = s.setTransfer none :=
    finishOp_waits (.inr ((imageIssued_iff _).mpr hissued))
  rw [exec_endingAccess hx ho hb hw hr ha hreset, hwaits]

theorem exec_endingAccess_answers (hidle : ∀ y ∈ s.arr.queue, y.origin.ofImage = true → y.issued = false) :
    ∃ t, exec (.portAccessEnd level word) s = .next t ∧ t.arr = s.arr ∧ s.OpAnswers t op r := by
  have himage : (s.setTransfer none).imageIssued = false := Bool.eq_false_iff.mpr fun h => by
    obtain ⟨y, hy, hi, ho⟩ := (imageIssued_iff _).mp h
    simp [hidle y hy ho] at hi
  obtain ⟨hanswers, harr, -⟩ := finishOp_answers (s := s.setTransfer none) ho hr rfl himage
  exact ⟨_, exec_endingAccess hx ho hb hw hr ha hreset, harr, hanswers⟩

end settled

/-! ### The tests of a header page (R163) -/

/-- Test 2: the magic and the format. -/
abbrev MagicSound (bytes : List Byte) : Prop := leNat ((bytes.drop 0).take 4) = 0xC608A1D5 ∧ byteAt bytes 4 = 1

/-- Test 3: the spare area of a header page. -/
abbrev SpareSound (bytes : List Byte) (h : ImageHeader) : Prop :=
  leNat ((bytes.drop 512).take 2) = 0 ∧ byteAt bytes 518 = 0 ∧ leNat ((bytes.drop 514).take 4) ≠ 0 ∧
    leNat ((bytes.drop 514).take 4) = h.generation

/-- Test 4: the fields of the header. -/
abbrev FieldsSound (h : ImageHeader) (slotPages : Nat) : Prop :=
  h.state.toNat ≤ 1 ∧ 1 ≤ h.lanes.toNat ∧ h.lanes.toNat ≤ 6 ∧ h.policy.toNat ≤ 1 ∧ 1 ≤ h.count ∧ h.count ≤ 4096 ∧
    (h.seriesState = 1 ∨ h.seriesState = 2) ∧ h.oldest ≤ h.head ∧ h.records = h.head - h.oldest ∧
    h.records ≤ 512 * h.count ∧ 1 + dataPages h.records ≤ slotPages

theorem consistent_iff (h : ImageHeader) (slotPages : Nat) : h.consistent slotPages = true ↔ FieldsSound h slotPages := by
  simp [ImageHeader.consistent, FieldsSound, within, SeriesState.code, and_assoc]

theorem magic_iff (bytes : List Byte) : ¬ (magicOk bytes = false ∨ byteAt bytes 4 ≠ 1) ↔ MagicSound bytes := by
  simp [magicOk, imageMagic, MagicSound]

theorem spare_iff (bytes : List Byte) (h : ImageHeader) : ¬ (pageIndexOf bytes ≠ 0 ∨ pageRecordsOf bytes ≠ 0 ∨
    pageGenerationOf bytes = 0 ∨ pageGenerationOf bytes ≠ h.generation) ↔ SpareSound bytes h := by
  have hrecords : pageRecordsOf bytes = 0 ↔ byteAt bytes 518 = 0 :=
    ⟨fun h => BitVec.eq_of_toNat_eq h, fun h => congrArg BitVec.toNat h⟩
  simp [SpareSound, pageIndexOf, pageGenerationOf, hrecords]

/-- The header that a RECOVER takes: a base override stands in it (log 23). -/
def overridden (op : ImageOp) (h : ImageHeader) : ImageHeader := { h with base := op.baseOverride.getD h.base }

section header

variable {s : State} {op : ImageOp} {t : Transfer} {page : PageClass × List Byte}
  (hpage : classPage (bytesOfWords t.words) t.timedOut = page)
include hpage

theorem recoverHeader_damaged (h : page.1 = .uncorrectable ∨ ¬ MagicSound page.2 ∨
    ¬ SpareSound page.2 (headerOf page.2) ∨ ¬ FieldsSound (headerOf page.2) s.port.settings.slotPages.toNat) :
    s.recoverHeader op t = s.endOp .imageDamaged [] := by
  unfold State.recoverHeader
  rw [hpage]
  by_cases h1 : page.1 = .uncorrectable
  · exact if_pos h1
  refine (if_neg h1).trans ?_
  by_cases h2 : MagicSound page.2
  · refine (if_neg ((magic_iff _).mpr h2)).trans ?_
    by_cases h3 : SpareSound page.2 (headerOf page.2)
    · refine (if_neg ((spare_iff _ _).mpr h3)).trans (if_pos ?_)
      have h4 := ((h.resolve_left h1).resolve_left (not_not_intro h2)).resolve_left (not_not_intro h3)
      exact Bool.eq_false_iff.mpr (mt (consistent_iff _ _).mp h4)
    · exact if_pos (Classical.not_not.mp (mt (spare_iff _ _).mp h3))
  · exact if_pos (Classical.not_not.mp (mt (magic_iff _).mp h2))

variable (h1 : page.1 ≠ .uncorrectable) (h2 : MagicSound page.2) (h3 : SpareSound page.2 (headerOf page.2))
  (h4 : FieldsSound (headerOf page.2) s.port.settings.slotPages.toNat)
include h1 h2 h3 h4

/-- A header page that passes the four tests: the image is incomplete, or the stripe step follows. -/
theorem recoverHeader_sound : s.recoverHeader op t = if (headerOf page.2).state ≠ 1
    then (s.modOp fun op => { op with generation := (headerOf page.2).generation }).endOp .imageIncomplete []
    else s.stripeStep op (overridden op (headerOf page.2)) := by
  unfold State.recoverHeader
  rw [hpage]
  have h4' : ¬ (headerOf page.2).consistent s.port.slotPages = false := by
    rw [Bool.not_eq_false]
    exact (consistent_iff _ _).mpr h4
  exact (if_neg h1).trans ((if_neg ((magic_iff _).mpr h2)).trans ((if_neg ((spare_iff _ _).mpr h3)).trans (if_neg h4')))

end header

/-! ### The stripe step (R164) -/

/-- The operation record once a header is taken. -/
def headed (h : ImageHeader) (op : ImageOp) : ImageOp := { op with generation := h.generation, header := some h }

/-- The operation record once the stripes are taken. -/
def striped (h : ImageHeader) (op : ImageOp) : ImageOp :=
  { headed h op with snapOldest := h.oldest, snapHead := h.head, snapStamp := h.lastStamp, lastStamp := h.firstStamp }

section completion

variable {s : State} {op : ImageOp} {h : ImageHeader}

/-- The entry as a RECOVER that completes leaves it (R166). -/
def recovered (op : ImageOp) (h : ImageHeader) (e : Entry) : Entry :=
  { e with
    state := if h.seriesState = 2 then .sealed else .opened
    dirty := false, image := some ⟨op.slot, op.snapHead⟩
    lastReserved := op.lastStamp, lastCommitted := op.lastStamp }

theorem recovered_state (op : ImageOp) (h : ImageHeader) (e : Entry) : (recovered op h e).state ≠ .dropping := by
  unfold recovered
  split <;> simp

theorem completeRecover_eq (ho : op.header = some h) : (betweenPages op s).completeRecover =
    (betweenPages op (s.setEntry op.series (recovered op h (s.entry op.series)))).endOp .ok [] := by
  simp only [State.completeRecover, betweenPages, ho]
  rfl

theorem recoverPage_eq (k : Nat) : (betweenPages op s).recoverPage k = { s with port := { s.port with
    op := some { op with phase := .pageRead, page := k }
    transfer := some ⟨.read, op.slot * s.port.settings.slotPages.toNat + k, 0, [], 0, false,
      s.port.lastDir == .read⟩ } } := rfl

end completion

section stripes

variable {s : State} {op : ImageOp} {h : ImageHeader}

theorem stripeStep_outside (hout : 32768 < h.base + h.count) :
    (betweenPages op s).stripeStep op h = (betweenPages (headed h op) s).endOp .badValue [0xFF] := if_pos hout

variable (hin : h.base + h.count ≤ 32768)
include hin

theorem stripeStep_unusable (hu : s.rangeUsable h.base h.count = false) :
    (betweenPages op s).stripeStep op h = (betweenPages (headed h op) s).endOp .noMemory [] :=
  (if_neg (Nat.not_lt.mpr hin)).trans (if_pos hu)

variable (hu : s.rangeUsable h.base h.count = true)
include hu

/-- With the range on usable dies, what decides is whether another series holds a stripe of it. -/
theorem stripeStep_usable {found : Option (Fin 32)} (hj : s.overlapping h.base h.count (some op.series) = found) :
    (betweenPages op s).stripeStep op h = found.elim
      (let u := betweenPages (striped h op) (s.setEntry op.series ((s.entry op.series).taken h))
        if h.records = 0 then u.completeRecover else u.recoverPage 1)
      fun j => (betweenPages (headed h op) s).endOp .overlap [BitVec.ofNat 8 j.val] := by
  have hin' : ¬ 32768 < h.base + h.count := Nat.not_lt.mpr hin
  have hu' : (betweenPages (headed h op) s).rangeUsable h.base h.count = true := hu
  have hj' : (betweenPages (headed h op) s).overlapping h.base h.count (some op.series) = found := hj
  have hdef : (betweenPages op s).modOp (fun op => { op with generation := h.generation, header := some h }) =
    betweenPages (headed h op) s := rfl
  unfold State.stripeStep
  simp only [hdef, hin', hu', hj', Bool.true_eq_false, if_false]
  cases found <;> rfl

theorem stripeStep_firstPage (hfree : s.overlapping h.base h.count (some op.series) = none) (hpos : 0 < h.records) :
    (betweenPages op s).stripeStep op h =
      (betweenPages (striped h op) (s.setEntry op.series ((s.entry op.series).taken h))).recoverPage 1 :=
  (stripeStep_usable hin hu hfree).trans (if_neg (Nat.ne_of_gt hpos))

/-- An image of no record is complete once its stripes are taken (R164). -/
theorem stripeStep_empty (hfree : s.overlapping h.base h.count (some op.series) = none) (hzero : h.records = 0) :
    (betweenPages op s).stripeStep op h = (betweenPages (striped h op) (s.setEntry op.series
      (recovered (striped h op) h ((s.entry op.series).taken h)))).endOp .ok [] := by
  let u := s.setEntry op.series ((s.entry op.series).taken h)
  have hdone : (betweenPages (striped h op) u).completeRecover =
      (betweenPages (striped h op) (u.setEntry op.series (recovered (striped h op) h (u.entry op.series)))).endOp .ok [] :=
    completeRecover_eq rfl
  rw [setEntry_entry_same, Appending.setEntry_setEntry] at hdone
  exact (stripeStep_usable hin hu hfree).trans ((if_pos hzero).trans hdone)

end stripes

/-! ### The answers of a RECOVER (R166, R167, R189) -/

section answers

variable {s : State} {op : ImageOp}

theorem answer_recover (hk : op.kind = .recover) (r : Result) (detail : List Byte) :
    ({ op with detail := detail } : ImageOp).answer r = ⟨.response, op.tag,
      [0x42, r.code, BitVec.ofNat 8 op.series.val, BitVec.ofNat 8 op.slot] ++ leBytes 4 op.generation
        ++ headerFields op.header ++ leBytes 2 op.damaged ++ leBytes 2 op.timedOut ++ leBytes 2 op.corrected
        ++ detail, none⟩ := by
  simp [ImageOp.answer, hk, ImageOp.recoverReport]

/-- `op'` is the operation `op`, with what it has learnt of its image since. -/
structure SameOp (op op' : ImageOp) : Prop where
  kind : op'.kind = op.kind
  tag : op'.tag = op.tag
  slot : op'.slot = op.slot
  series : op'.series = op.series
  damaged : op'.damaged = op.damaged
  timedOut : op'.timedOut = op.timedOut
  corrected : op'.corrected = op.corrected
  result : op'.result = op.result
  abandoned : op'.abandoned = op.abandoned

theorem SameOp.learnt (op : ImageOp) (generation : Nat) (header : Option ImageHeader) :
    SameOp op { op with generation := generation, header := header } :=
  ⟨rfl, rfl, rfl, rfl, rfl, rfl, rfl, rfl, rfl⟩

theorem SameOp.striped (op : ImageOp) (h : ImageHeader) : SameOp op (striped h op) :=
  ⟨rfl, rfl, rfl, rfl, rfl, rfl, rfl, rfl, rfl⟩

/-- A RECOVER that ends between two pages with no write on its way answers, and nothing else is left of it. -/
theorem endOp_recover {op' : ImageOp} (hs : SameOp op op') (r : Result) (detail : List Byte) (hk : op.kind = .recover)
    (hr : op.result = none) (ha : op.abandoned = false)
    (hq : ∀ y ∈ s.arr.queue ++ s.arr.waiting, y.origin.ofImage = false) (hd : (s.entry op.series).state ≠ .dropping) :
    ∃ t, (betweenPages op' s).endOp r detail = t ∧ t.arr.queue ++ t.arr.waiting = s.arr.queue ++ s.arr.waiting ∧
      t = { s with
        arr := { s.arr with queue := t.arr.queue, waiting := t.arr.waiting }
        port := { s.port with op := none, transfer := none }
        table := s.table.filter fun e => e.tag != op.tag
        link := { s.link with queue := s.link.queue ++ [⟨.response, op.tag,
          [0x42, r.code, BitVec.ofNat 8 op.series.val, BitVec.ofNat 8 op.slot] ++ leBytes 4 op'.generation
            ++ headerFields op'.header ++ leBytes 2 op.damaged ++ leBytes 2 op.timedOut ++ leBytes 2 op.corrected
            ++ detail, none⟩] } } := by
  obtain ⟨q, w, hqw, h⟩ := endOp_answers (s := betweenPages op' s) r detail rfl (hs.result.trans hr)
    (hs.abandoned.trans ha) rfl hq (by rw [hs.series]; exact hd)
  rw [answer_recover (hs.kind.trans hk), hs.tag, hs.series, hs.slot, hs.damaged, hs.timedOut, hs.corrected] at h
  exact ⟨_, h, hqw, rfl⟩

end answers

/-! ### A data page (R165) -/

/-- The page as read is damaged. -/
abbrev Damaged (op : ImageOp) (h : ImageHeader) (n : Nat) (page : PageClass × List Byte) : Prop :=
  let read := recordsOf n page.2
  page.1 = .uncorrectable ∨ leNat ((page.2.drop 512).take 2) ≠ op.page ∨
    leNat ((page.2.drop 514).take 4) ≠ h.generation ∨ (byteAt page.2 518).toNat ≠ n ∨
    ¬ (op.lastStamp :: read.map Record.stamp).Pairwise (fun a b => a.toNat ≤ b.toNat) ∨
    ∃ r ∈ read, h.lastStamp.toNat < r.stamp.toNat

theorem pageSound_iff (op : ImageOp) (h : ImageHeader) (n : Nat) (page : PageClass × List Byte) :
    pageSound page.1 page.2 h op.page n op.lastStamp = true ↔ ¬ Damaged op h n page := by
  simp [pageSound, Damaged, stampsRise_iff, pageIndexOf, pageGenerationOf, pageRecordsOf, and_assoc]

/-- The records formed from a page. -/
def formedFrom (op : ImageOp) (h : ImageHeader) (page : PageClass × List Byte) : List Record :=
  if pageSound page.1 page.2 h op.page op.pageRecords op.lastStamp = true
  then (recordsOf op.pageRecords page.2).map (maskLanes h.lanes.toNat)
  else List.replicate op.pageRecords (damagedRecord h.lanes.toNat op.lastStamp)

/-- The operation record once a data page is judged, its records aside. -/
def judged (op : ImageOp) (h : ImageHeader) (page : PageClass × List Byte) (timedOut : Bool) : ImageOp :=
  let sound := pageSound page.1 page.2 h op.page op.pageRecords op.lastStamp
  { op with
    lastStamp := ((formedFrom op h page).getLast?.map Record.stamp).getD op.lastStamp
    damaged := op.damaged + (!sound).toNat
    timedOut := op.timedOut + timedOut.toNat
    corrected := op.corrected + (sound && page.1 == .corrected).toNat }

section data

variable {s : State} {op : ImageOp} {h : ImageHeader} {page : PageClass × List Byte} {t : Transfer}

theorem formedFrom_length : (formedFrom op h page).length = op.pageRecords := by
  unfold formedFrom
  split <;> simp [recordsOf_length]

theorem recoverData_eq (hpage : classPage (bytesOfWords t.words) t.timedOut = page) :
    (betweenPages op s).recoverData op h t =
      let u := betweenPages { judged op h page t.timedOut with formed := formedFrom op h page } s
      if s.imageOutstanding = true then u else u.issueFormed := by
  unfold State.recoverData
  rw [hpage]
  rfl

theorem imageOutstanding_iff (s : State) : s.imageOutstanding = true ↔
    (∃ y ∈ s.arr.queue, y.live = true ∧ y.origin.ofImage = true) ∨ ∃ y ∈ s.arr.waiting, y.origin.ofImage = true := by
  simp [State.imageOutstanding]

/-- With no transaction of the operation anywhere, none is outstanding. -/
theorem imageOutstanding_none (h : ∀ y ∈ s.arr.queue ++ s.arr.waiting, y.origin.ofImage = false) :
    s.imageOutstanding = false := by
  refine Bool.eq_false_iff.mpr fun hout => ?_
  rcases (imageOutstanding_iff s).mp hout with ⟨y, hy, -, ho⟩ | ⟨y, hy, ho⟩
  · simp [h y (List.mem_append_left _ hy)] at ho
  · simp [h y (List.mem_append_right _ hy)] at ho

theorem imageOutstanding_some (h : ∃ y ∈ s.arr.queue ++ s.arr.waiting, y.live = true ∧ y.origin.ofImage = true) :
    s.imageOutstanding = true := by
  obtain ⟨y, hy, hl, ho⟩ := h
  exact (imageOutstanding_iff s).mpr ((List.mem_append.mp hy).imp (fun hy => ⟨y, hy, hl, ho⟩) fun hy => ⟨y, hy, ho⟩)

theorem formedFrom_damaged (hd : Damaged op h op.pageRecords page) :
    formedFrom op h page = List.replicate op.pageRecords (damagedRecord h.lanes.toNat op.lastStamp) :=
  if_neg fun hs => (pageSound_iff ..).mp hs hd

theorem formedFrom_sound (hs : ¬ Damaged op h op.pageRecords page) :
    formedFrom op h page = (recordsOf op.pageRecords page.2).map (maskLanes h.lanes.toNat) :=
  if_pos ((pageSound_iff ..).mpr hs)

theorem judged_damaged (timedOut : Bool) (hd : Damaged op h op.pageRecords page) :
    (judged op h page timedOut).damaged = op.damaged + 1 ∧
      (judged op h page timedOut).corrected = op.corrected := by
  have hs : pageSound page.1 page.2 h op.page op.pageRecords op.lastStamp = false :=
    Bool.eq_false_iff.mpr fun hs => (pageSound_iff ..).mp hs hd
  simp [judged, hs]

theorem judged_sound (timedOut : Bool) (hn : ¬ Damaged op h op.pageRecords page) :
    (judged op h page timedOut).damaged = op.damaged ∧
      (judged op h page timedOut).corrected = op.corrected + if page.1 = .corrected then 1 else 0 := by
  have hs : pageSound page.1 page.2 h op.page op.pageRecords op.lastStamp = true := (pageSound_iff ..).mpr hn
  refine ⟨by simp [judged, hs], ?_⟩
  show op.corrected + (pageSound page.1 page.2 h op.page op.pageRecords op.lastStamp && page.1 == .corrected).toNat = _
  rw [hs]
  by_cases hc : page.1 = .corrected <;> simp [hc]

/-- With no write outstanding the records formed are written, and the next page is read (R165). -/
theorem recoverData_issues (hpage : classPage (bytesOfWords t.words) t.timedOut = page) (hp : op.phase = .pageRead)
    (hq : ∀ y ∈ s.arr.queue ++ s.arr.waiting, y.origin.ofImage = false) (hroom : s.arr.queue.length + 2 ≤ 32) :
    ∃ dies, (betweenPages op s).recoverData op h t = { s with
      arr := { s.arr with
        dies := dies
        queue := s.arr.queue ++ ((s.entry op.series).cut op.pageFirst op.pageRecords).map fun part =>
          (s.entry op.series).txn .recoverWrite .write part.1 part.2
            (((formedFrom op h page).drop (part.1 - op.pageFirst)).take part.2) }
      port := if op.page < dataPages op.records then { s.port with
          op := some { judged op h page t.timedOut with formed := [], page := op.page + 1 }
          transfer := some ⟨.read, op.slot * s.port.settings.slotPages.toNat + (op.page + 1), 0, [], 0, false,
            s.port.lastDir == .read⟩ }
        else { s.port with transfer := none, op := some { judged op h page t.timedOut with formed := [] } } } := by
  obtain ⟨dies, hissue⟩ := issueFormed_room
    (s := betweenPages { judged op h page t.timedOut with formed := formedFrom op h page } s) rfl hroom
  have hidle : ¬ s.imageOutstanding = true := by simp [imageOutstanding_none hq]
  have hphase : (judged op h page t.timedOut).phase = .pageRead := hp
  have hlen : (formedFrom op h page).length = op.pageRecords := formedFrom_length
  refine ⟨dies, ((recoverData_eq hpage).trans (if_neg hidle)).trans (hissue.trans ?_)⟩
  rw [← hphase]
  show ({ s with arr := { s.arr with
    dies := dies
    queue := s.arr.queue ++ ((s.entry op.series).cut op.pageFirst (formedFrom op h page).length).map _ }, port := _ } :
      State) = _
  rw [hlen]
  rfl

end data

/-- Settles O59: the steps of an access, the end of an operation that is over, and each page of a RECOVER. -/
theorem portAccess : Obligations.PortAccess := by
  refine ⟨?steps, ?settled, ?recovers⟩
  case steps =>
    intro s level word
    refine ⟨exec_noTransfer, ?_⟩
    intro x hx active limit
    have hactive : s.port.waits level = true ↔ active := waits_iff s.port level
    refine ⟨fun hb => congrArg _ (turnaroundElapsed_begins hx hb), fun hb => congrArg _ (turnaroundElapsed_begun hx hb),
      fun hb ht hact => ⟨fun he => ?extended, ?timesOut⟩, fun hb ht hact => ⟨?inactive, fun op ho hr ha hi => ?next⟩⟩
    case extended => exact congrArg _ (portAccessEnd_extended hx hb ht (hactive.mpr hact) he)
    case timesOut => exact congrArg _ (accessTimeout_active hx hb ht (hactive.mpr hact))
    all_goals have hw : s.port.waits level = false := Bool.eq_false_iff.mpr (mt hactive.mp hact)
    case inactive => exact congrArg _ (accessTimeout_inactive hx hw)
    case next => exact congrArg _ (portAccessEnd_next hx hb ht hw ho hr ha hi)
  case settled =>
    intro s level word x op hx ho hb hw
    refine ⟨fun r hr ha hreset => ⟨exec_endingAccess_waits hx ho hb hw hr ha hreset,
      exec_endingAccess_answers hx ho hb hw hr ha hreset⟩, ?reset⟩
    case reset =>
      intro r ha hreset left
      have hexec : exec (.portAccessEnd level word) s = .next left.checkReset :=
        exec_abandonedAccess hx ho hb hw ha
      refine ⟨fun hissued => ?waits, fun hidle => ?answers⟩
      case waits => rw [hexec, checkReset_waits ((requestWorkIssued_iff left).mpr hissued)]
      case answers =>
        have hwork : left.requestWorkIssued = false := Bool.eq_false_iff.mpr fun h => by
          obtain ⟨y, hy, hi, him⟩ := (requestWorkIssued_iff left).mp h
          exact him (hidle y hy hi)
        rw [hexec, checkReset_answers (s := left) hreset hwork rfl]
  case recovers =>
    intro s level word x op hx ho hk hr ha hb hdir hreset hlast page field starts
    have hend : exec (.portAccessEnd level word) s =
        .next ((betweenPages op s).recoverPageEnd op (withWord word x)) := by
      rw [exec_lastAccess hx ho hr ha hb hreset hlast, if_neg (by simp [hk]), betweenPages_self ho]
    have hpage : classPage (bytesOfWords (withWord word x).words) (withWord word x).timedOut = page := by
      rw [withWord_read hdir]
    refine ⟨?header, ?data⟩
    case header =>
      intro hp hheader _ hstate hq h sound2 sound3 sound4 ends known
      have hd : (s.entry op.series).state ≠ .dropping := by rcases hstate with h | h <;> simp [h]
      have hrec : exec (.portAccessEnd level word) s =
          .next ((betweenPages op s).recoverHeader op (withWord word x)) := by
        rw [hend]
        simp only [State.recoverPageEnd, hp]
      have closes {op' : ImageOp} {dir : Vector Entry 32} (r : Result) (detail : List Byte) (hs : SameOp op op')
          (hd : dir[op.series].state ≠ .dropping) (hexec : exec (.portAccessEnd level word) s =
            .next ((betweenPages op' { s with dir := dir }).endOp r detail)) :
          ends r.code op'.generation (headerFields op'.header) detail dir := by
        obtain ⟨t, ht, hrest⟩ := endOp_recover (s := { s with dir := dir }) hs r detail hk hr ha hq hd
        exact ⟨t, hexec.trans (congrArg _ ht), hrest⟩
      refine ⟨fun hbad => ?damaged, fun h1 h2 h3 h4 => ?sound⟩
      case damaged =>
        have := closes (op' := op) .imageDamaged [] (.learnt op _ _) hd
          (hrec.trans (congrArg _ (recoverHeader_damaged hpage hbad)))
        rwa [hheader] at this
      case sound =>
        have hsound := hrec.trans (congrArg _ (recoverHeader_sound (s := betweenPages op s) hpage h1 h2 h3 h4))
        refine ⟨fun h0 => ?incomplete, fun hcomplete => ⟨fun hout => ?outside, fun hin =>
          ⟨fun hu => ?unusable, fun j hu hj => ?overlaps, fun hu hfree => ?taken⟩⟩⟩
        case incomplete =>
          have := closes (op' := { op with generation := h.generation }) .imageIncomplete []
            (.learnt op _ _) hd
            (hsound.trans (congrArg _ (if_pos (by rw [show (headerOf page.2).state = 0 from h0]; decide))))
          rwa [hheader] at this
        all_goals
          have hstripe : exec (.portAccessEnd level word) s = .next ((betweenPages op s).stripeStep op h) :=
            hsound.trans (congrArg _ (if_neg (not_not_intro hcomplete)))
          have refuses (r : Result) (detail : List Byte) (hstep : (betweenPages op s).stripeStep op h =
              (betweenPages (headed h op) s).endOp r detail) : ends r.code h.generation known detail s.dir :=
            closes (op' := headed h op) (dir := s.dir) r detail (.learnt op _ _) hd
              (hstripe.trans (congrArg _ hstep))
        case outside => exact refuses .badValue [0xFF] (stripeStep_outside hout)
        case unusable => exact refuses .noMemory [] (stripeStep_unusable hin hu)
        case overlaps => exact refuses .overlap [BitVec.ofNat 8 j.val] (stripeStep_usable hin hu hj)
        case taken =>
          intro taken
          refine ⟨fun hpos => ?firstPage, fun hzero => ?empty⟩
          case firstPage => exact hstripe.trans (congrArg _ (stripeStep_firstPage hin hu hfree hpos))
          case empty =>
            have hentry := setEntry_entry_same op.series (recovered (striped h op) h taken) s
            have hstate := congrArg Entry.state hentry
            exact closes (op' := striped h op) (dir := s.dir.set op.series (recovered (striped h op) h taken)) .ok []
              (.striped op h) (fun hd => recovered_state _ _ _ (hstate.symm.trans hd))
              (hstripe.trans (congrArg _ (stripeStep_empty hin hu hfree hzero)))
    case data =>
      intro h hp hh n read damaged lost
      have hrec : exec (.portAccessEnd level word) s =
          .next ((betweenPages op s).recoverData op h (withWord word x)) := by
        rw [hend]
        simp only [State.recoverPageEnd, hp, hh]
      refine ⟨formedFrom op h page, formedFrom_damaged, formedFrom_sound, judged op h page x.timedOut, rfl,
        judged_damaged _, judged_sound _, fun hbusy => ?busy, fun hidle hroom => ?issues⟩
      case busy =>
        rw [hrec, recoverData_eq hpage]
        exact congrArg _ (if_pos (imageOutstanding_some (s := s) hbusy))
      case issues =>
        obtain ⟨dies, hissue⟩ := recoverData_issues (h := h) hpage hp hidle hroom
        rw [hissue] at hrec
        exact ⟨_, hrec, rfl, rfl, rfl, rfl, rfl, rfl, rfl⟩

end Sys2Proof.Preserving
end

section
/-! PROOFS. The completion of a preserve read (R156, R159 to R161): what is left on its way once the read has left the
queue, the page that its records belong to, and the ways in which the completion ends the operation. -/

namespace Sys2Proof.Preserving

open Sys2Proof.Machine Sys2Proof.Laws

/-! ### The read leaves the queue (R95, R97) -/

/-- The queue once the read of a bank has left it. -/
abbrev queueLeft (s : State) (d : Fin 2) (b : Fin 8) : List Txn := s.arr.queue.eraseP fun y => y.issued && y.isFor d b

/-- The read leaves the queue; what waits on after that has waited before. -/
theorem completeRead_queues (s : State) (d : Fin 2) (b : Fin 8) : ∃ q w, s.completeRead d b = s.setQueues q w ∧
    q ++ w = queueLeft s d b ++ s.arr.waiting ∧ ∀ y ∈ w, y ∈ s.arr.waiting := by
  let room := 32 - (queueLeft s d b).length
  refine ⟨queueLeft s d b ++ s.arr.waiting.take room, s.arr.waiting.drop room, rfl, ?_, fun y => List.mem_of_mem_drop⟩
  rw [List.append_assoc, List.take_append_drop]

section leaving

variable {s : State} {d : Fin 2} {b : Fin 8} {x : Txn} (hx : s.issuedAt d b = some x)
include hx

/-- Another transaction of a kind that the completed one has is left exactly where two of it were queued. -/
theorem queueLeft_kind {kind : Txn → Bool} (hk : kind x = true) :
    (∃ y ∈ queueLeft s d b, kind y = true) ↔ 2 ≤ (s.arr.queue.filter kind).length := by
  have hcount : ((queueLeft s d b).filter kind).length + 1 = (s.arr.queue.filter kind).length := eraseP_kind hx hk
  constructor
  · rintro ⟨y, hy, hky⟩
    have := List.length_pos_of_mem (List.mem_filter.mpr ⟨hy, hky⟩)
    omega
  · intro h
    exact filter_pos (by omega)

variable (ho : x.origin.ofImage = true)
include ho

/-- Another transaction of the operation is left ISSUED exactly where two were ISSUED. -/
theorem completeRead_imageIssued (hw : ∀ y ∈ s.arr.waiting, y.issued = false) :
    (s.completeRead d b).imageIssued = true ↔
      2 ≤ (s.arr.queue.filter fun y => y.issued && y.origin.ofImage).length := by
  obtain ⟨q, w, hv, hqw, hsub⟩ := completeRead_queues s d b
  have hissued : x.issued = true := by
    have := List.find?_some hx
    simp only [Bool.and_eq_true] at this
    exact this.1
  rw [hv, imageIssued_iff, ← queueLeft_kind hx (kind := fun y => y.issued && y.origin.ofImage) (by simp [hissued, ho])]
  constructor
  · rintro ⟨y, hy, hi, him⟩
    have hmem : y ∈ queueLeft s d b ++ s.arr.waiting := hqw ▸ List.mem_append_left w hy
    rcases List.mem_append.mp hmem with hy | hy
    · exact ⟨y, hy, by simp [hi, him]⟩
    · simp [hw y hy] at hi
  · rintro ⟨y, hy, hk⟩
    obtain ⟨hi, him⟩ : y.issued = true ∧ y.origin.ofImage = true := by simpa using hk
    have hmem : y ∈ q ++ w := hqw ▸ List.mem_append_left _ hy
    rcases List.mem_append.mp hmem with hy | hy
    · exact ⟨y, hy, hi, him⟩
    · simp [hw y (hsub y hy)] at hi

/-- With another transaction of the operation not ended on its way, one is left outstanding. -/
theorem completeRead_outstanding (hl : x.live = true)
    (h : 2 ≤ (s.arr.queue.filter fun y => y.live && y.origin.ofImage).length ∨
      ∃ y ∈ s.arr.waiting, y.live = true ∧ y.origin.ofImage = true) :
    (s.completeRead d b).imageOutstanding = true := by
  obtain ⟨q, w, hv, hqw, -⟩ := completeRead_queues s d b
  rw [hv]
  refine imageOutstanding_some ?_
  show ∃ y ∈ q ++ w, y.live = true ∧ y.origin.ofImage = true
  rw [hqw]
  rcases h with h | ⟨y, hy, hk⟩
  · obtain ⟨y, hy, hk⟩ := (queueLeft_kind hx (kind := fun y => y.live && y.origin.ofImage) (by simp [hl, ho])).mpr h
    exact ⟨y, List.mem_append_left _ hy, by simpa using hk⟩
  · exact ⟨y, List.mem_append_right _ hy, hk⟩

omit ho in
/-- With the last outstanding transaction complete, none is left. -/
theorem completeRead_lastOutstanding (hlast : (s.arr.queue.filter fun y => y.live && y.origin.ofImage) = [x])
    (hw : ∀ y ∈ s.arr.waiting, y.origin.ofImage = false) : (s.completeRead d b).imageOutstanding = false := by
  obtain ⟨q, w, hv, hqw, hsub⟩ := completeRead_queues s d b
  have hleft := eraseP_only hx hlast
  rw [hv]
  refine Bool.eq_false_iff.mpr fun hout => ?_
  rcases (imageOutstanding_iff _).mp hout with ⟨y, hy, hl, him⟩ | ⟨y, hy, him⟩
  · have hmem : y ∈ queueLeft s d b ++ s.arr.waiting := hqw ▸ List.mem_append_left w hy
    rcases List.mem_append.mp hmem with hy | hy
    · simpa [hl, him] using hleft y hy
    · simp [hw y hy] at him
  · simp [hw y (hsub y hy)] at him

end leaving

/-! ### The command (R97, R159) -/

section command

variable {s : State} {d : Fin 2} {b : Fin 8} {x : Txn} {op : ImageOp} {first : Nat} {second : Bool}
  (hreset : s.link.reset = none) (hx : s.issuedAt d b = some x) (hori : x.origin = .preserveRead first second)
  (ho : s.port.op = some op)
include hreset hx hori ho

theorem exec_preserveRead_live (hl : x.live = true) : exec (.preserveReadComplete d b) s =
    .next ((s.completeRead d b).preserveRead op first second x.data) := by
  have ho' : (s.completeRead d b).port.op = some op := ho
  have e : preserveReadComplete d b s = ((s.completeRead d b).preserveRead op first second x.data).checkReset := by
    simp only [preserveReadComplete, hx, hori, ho', hl, if_true]
  rw [Scanning.checkReset_afterRead hreset (preserveRead_moves .refl)] at e
  exact congrArg Host.Outcome.next e

theorem exec_preserveRead_dead (hl : x.live = false) : exec (.preserveReadComplete d b) s =
    .next (s.completeRead d b).finishOp := by
  have ho' : (s.completeRead d b).port.op = some op := ho
  have e : preserveReadComplete d b s = (s.completeRead d b).finishOp.checkReset := by
    simp only [preserveReadComplete, hx, hori, ho', hl, Bool.false_eq_true, if_false]
  rw [Scanning.checkReset_afterRead hreset (finishOp_moves .refl)] at e
  exact congrArg Host.Outcome.next e

end command

/-! ### The page that is built (R159, R160) -/

/-- The operation record once the records of a read are in their part of the page. -/
def withHalf (second : Bool) (data : List Record) (op : ImageOp) : ImageOp :=
  { op with half0 := if second then op.half0 else data, half1 := if second then data else op.half1 }

section page

variable {s : State} {op : ImageOp} {first : Nat} {second : Bool} {data : List Record} (ho : s.port.op = some op)
  (hn : (s.entry op.series).oldest ≤ first)
include ho hn

theorem preserveRead_eq : s.preserveRead op first second data =
    let u : State := { s with port := { s.port with op := some (withHalf second data op) } }
    if s.imageOutstanding = true then u else u.writePage := by
  have hplaced : (s.modOp fun op => if second then { op with half1 := data } else { op with half0 := data }) =
      { s with port := { s.port with op := some (withHalf second data op) } } := by
    cases second <;> simp [State.modOp, State.modPort, ho, withHalf]
  unfold State.preserveRead
  rw [if_neg (Nat.not_lt.mpr hn), hplaced]
  rfl

theorem preserveRead_waits (hout : s.imageOutstanding = true) : s.preserveRead op first second data =
    { s with port := { s.port with op := some (withHalf second data op) } } :=
  (preserveRead_eq ho hn).trans (if_pos hout)

/-- With the last read of the page complete, the page is formed and its write begins. -/
theorem preserveRead_writes (hout : s.imageOutstanding = false) {r : Record}
    (hr : ((withHalf second data op).half0 ++ (withHalf second data op).half1).head? = some r) :
    s.preserveRead op first second data = { s with port := { s.port with
      op := some { withHalf second data op with
        phase := .pageWrite, firstStamp := if op.page = 1 then r.stamp else op.firstStamp }
      transfer := some ⟨.write, op.slot * s.port.settings.slotPages.toNat + op.page, 0, wordsOfBytes (pageBytes
        (fillPage (recordsBytes ((withHalf second data op).half0 ++ (withHalf second data op).half1))) op.page
        op.generation op.pageRecords), 0, false, s.port.lastDir == .write⟩ } } := by
  rw [preserveRead_eq ho hn]
  refine (if_neg (by simp [hout])).trans ?_
  simp only [State.writePage, hr]
  rfl

end page

theorem fillPage_records (rs : List Record) :
    fillPage (recordsBytes rs) = recordsBytes rs ++ List.replicate (512 - 32 * rs.length) 0xFF := by
  rw [fillPage, recordsBytes_length]

/-! ### A number that is overtaken (R159, R161) -/

/-- Withdrawn work is left ISSUED exactly where it was ISSUED. -/
theorem withdrawn_issued {mine : Origin → Bool} {aq aw q w : List Txn} (h : Withdrawn mine aq aw q w)
    (hw : ∀ y ∈ aw, y.issued = false) : (q.any fun y => y.issued && mine y.origin) =
      aq.any fun y => y.issued && mine y.origin := by
  rw [Bool.eq_iff_iff, List.any_eq_true, List.any_eq_true]
  constructor
  · rintro ⟨y, hy, hk⟩
    obtain ⟨hi, hm⟩ : y.issued = true ∧ mine y.origin = true := by simpa using hk
    obtain ⟨z, hz, horigin, hissued, -⟩ := h.source y (List.mem_append_left _ hy)
    rcases List.mem_append.mp hz with hz | hz
    · exact ⟨z, hz, by rw [← horigin, ← hissued]; exact hk⟩
    · rw [hissued, hw z hz] at hi
      cases hi
  · rintro ⟨y, hy, hk⟩
    obtain ⟨hi, hm⟩ : y.issued = true ∧ mine y.origin = true := by simpa using hk
    obtain ⟨z, hz, horigin, hissued⟩ := h.stay y hy hi
    exact ⟨z, hz, by simp [hissued, horigin, hm]⟩

section overtaken

variable {s : State} {d : Fin 2} {b : Fin 8} {x : Txn} {op : ImageOp} {first : Nat} {second : Bool}
  (hreset : s.link.reset = none) (hx : s.issuedAt d b = some x) (hori : x.origin = .preserveRead first second)
  (ho : s.port.op = some op) (hl : x.live = true) (hr : op.result = none) (ha : op.abandoned = false)
  (hover : first < (s.entry op.series).oldest) (ht : s.port.transfer = none)
  (hw : ∀ y ∈ s.arr.waiting, y.issued = false)
include hreset hx hori ho hl hr ha hover ht hw

/-- A read below the oldest number ends the operation: what is left of its transactions, and when it answers. -/
theorem exec_overtaken : ∃ t q w, exec (.preserveReadComplete d b) s = .next t ∧
    t.arr = { s.arr with queue := q, waiting := w } ∧
    (∀ y ∈ q ++ w, y.origin.ofImage = true → y.issued = true ∧ y.live = false) ∧
    (2 ≤ (s.arr.queue.filter fun y => y.issued && y.origin.ofImage).length → t = { s with
      arr := t.arr
      table := s.table.map fun e => if e.tag = op.tag then { e with state := .ending } else e
      port := { s.port with
        transfer := none
        op := some { op with phase := .ending, result := some .overtaken, detail := [] } } }) ∧
    ((s.arr.queue.filter fun y => y.issued && y.origin.ofImage).length < 2 →
      s.OpAnswers t { op with detail := [] } .overtaken) := by
  let v := s.completeRead d b
  obtain ⟨q, w, hv, hqw, hsub⟩ := completeRead_queues s d b
  have hexec : exec (.preserveReadComplete d b) s = .next (v.endOp .overtaken []) :=
    (exec_preserveRead_live hreset hx hori ho hl).trans (congrArg _ (if_pos hover))
  obtain ⟨q', w', hleft, harr, -, hanswers, hends⟩ := endOp_spec (s := v) .overtaken [] ho hr ha
  have hacc : v.port.accessing = false := by
    show s.port.accessing = false
    simp [Port.accessing, ht]
  have hnew : ∀ y ∈ v.arr.waiting, y.issued = false := by
    show ∀ y ∈ (s.completeRead d b).arr.waiting, y.issued = false
    rw [hv]
    exact fun y hy => hw y (hsub y hy)
  have hissued : (q'.any fun y => y.issued && y.origin.ofImage) = v.imageIssued := withdrawn_issued hleft hnew
  have him : x.origin.ofImage = true := by rw [hori]; rfl
  have hbusy : (v.port.accessing = true ∨ (q'.any fun y => y.issued && y.origin.ofImage) = true) ↔
      2 ≤ (s.arr.queue.filter fun y => y.issued && y.origin.ofImage).length := by
    rw [hacc, hissued, completeRead_imageIssued hx him hw]
    simp
  refine ⟨v.endOp .overtaken [], q', w', hexec, harr, hleft.gone, fun h => ?waits, fun h => ?answers⟩
  case waits =>
    rw [hends (hbusy.mpr h), hacc]
    rfl
  case answers => exact hanswers fun hb => Nat.not_le.mpr h (hbusy.mp hb)

end overtaken

/-- Settles O54: the check by the laws of R153, then each way in which the completion of a preserve read goes on. -/
theorem preserveReadComplete : Obligations.PreserveReadComplete := by
  refine ⟨fun checked h => checkBytes_bits h, fun bytes h => ⟨rfl, classPage_class h⟩, ?formed, ?completion⟩
  case formed =>
    intro data index generation records hd checked page
    have hlen : checked.length = 519 := by simp [checked, leBytes_length, hd]
    exact ⟨rfl, classPage_formed hd index generation records, fun n hn => classPage_one hlen hn,
      fun m hm n hn hne => classPage_two hlen hm hn hne⟩
  case completion =>
    intro s d b x op first second hreset hx hori ho outstanding issued completes
    have him : x.origin.ofImage = true := by rw [hori]; rfl
    have completed {port : Port} (hexec : exec (.preserveReadComplete d b) s =
        .next { s.completeRead d b with port := port }) : ∃ t, completes t port := by
      obtain ⟨q, w, hv, hqw, -⟩ := completeRead_queues s d b
      rw [hv] at hexec
      exact ⟨_, hexec, hqw, rfl⟩
    refine ⟨fun hl hk _ hr ha => ⟨fun hn => ?placed, fun hover hd ht hw => ?overtaken⟩,
      fun r hl hr ha hw => ⟨fun hbusy => ?discarded, fun ht hlast => ?answers⟩⟩
    case placed =>
      intro half0 half1 rs
      have hlive := exec_preserveRead_live hreset hx hori ho hl
      refine ⟨fun hout => ?waits, fun r hhead hlast hw => ?writes⟩
      case waits =>
        have hleft := completeRead_outstanding hx him hl hout
        exact completed (hlive.trans (congrArg _ (preserveRead_waits (s := s.completeRead d b) ho hn hleft)))
      case writes =>
        have hleft := completeRead_lastOutstanding hx hlast hw
        rw [preserveRead_writes (s := s.completeRead d b) ho hn hleft hhead, fillPage_records] at hlive
        exact completed hlive
    case overtaken =>
      obtain ⟨t, q, w, hexec, harr, hgone, hwaits, hanswers⟩ := exec_overtaken hreset hx hori ho hl hr ha hover ht hw
      have hleft : ∀ y ∈ t.arr.queue ++ t.arr.waiting, y.origin.ofImage = true → y.issued = true ∧ y.live = false := by
        rw [harr]
        exact hgone
      by_cases h2 : 2 ≤ issued.length
      · have ht := hwaits h2
        refine ⟨t, hexec, by rw [ht], by rw [ht], hleft, fun _ => ⟨by rw [ht], by rw [ht], by rw [ht]⟩, fun hone => ?_⟩
        simp [hone] at h2
      · obtain ⟨hport, -, -, hmem, hanswer, -⟩ := hanswers (Nat.lt_of_not_le h2)
        obtain ⟨hdir, -, htable, hlink⟩ := hanswer (.inl hd)
        rw [answer_preserve hk] at hlink
        exact ⟨t, hexec, hdir, hmem, hleft, fun h => absurd h h2, fun _ => ⟨by rw [hport], htable, hlink⟩⟩
    all_goals have hdead := exec_preserveRead_dead hreset hx hori ho hl
    case discarded =>
      have hwaits : (s.completeRead d b).finishOp = s.completeRead d b :=
        finishOp_waits (hbusy.imp id (completeRead_imageIssued hx him hw).mpr)
      rw [hwaits] at hdead
      exact completed hdead
    case answers =>
      have hidle : (s.completeRead d b).imageIssued = false := Bool.eq_false_iff.mpr fun h => by
        have h2 : 2 ≤ issued.length := (completeRead_imageIssued hx him hw).mp h
        simp [hlast] at h2
      exact ⟨_, hdead, (finishOp_answers (s := s.completeRead d b) ho hr ht hidle).1⟩

end Sys2Proof.Preserving
end

section
/-! PROOFS. Request payloads (R188): each layout reads back, and so every request does. -/

namespace Sys2Proof.Formats

open Sys2Proof.Laws

theorem createPayload_readsBack (series : Byte) (base count : Half) (lanes policy : Byte) :
    Request.ofPayload .create (Request.create series base count lanes policy).payload =
      .create series base count lanes policy :=
  have hbase := fieldAt16 [series] (fieldBytes count ++ [lanes, policy]) base rfl
  have hcount := fieldAt16 ([series] ++ fieldBytes base) [lanes, policy] count rfl
  congr (congrArg (Request.create series · · lanes policy) hbase) hcount

theorem fetchPayload_readsBack (series : Byte) (first : BitVec 32) (count : Byte) :
    Request.ofPayload .fetch (Request.fetch series first count).payload = .fetch series first count :=
  congrArg (Request.fetch series · count) (fieldAt32 [series] [count] first rfl)

theorem timingOf_timingBytes (f : TimingFields) : timingOf (timingBytes f) = f := by
  have head16 : ∀ (v : BitVec 16) post, fieldAt 16 (fieldBytes v ++ post) 0 = v := fun v post => fieldAt16 [] post v rfl
  obtain ⟨openDelay, closeDelay, latency, recovery, interval, duration, short, long, wake, reference⟩ := f
  simp only [timingOf, timingBytes, List.append_assoc, TimingFields.mk.injEq]
  refine ⟨rfl, rfl, rfl, rfl, ?interval, ?duration, ?short, ?long, rfl, rfl⟩
  all_goals simp [Scanning.fieldAt_cons, Appending.fieldAt_skip, fieldBytes_length, head16]

/-- Settles O12, kind by kind: a payload of single bytes reads back as it stands, any other by the law of its layout. -/
theorem requestReadsBack : Obligations.RequestReadsBack := by
  intro r
  match r with
  | .identify | .status | .reset | .startArray => rfl
  | .setLink _ | .cancel _ | .seal _ | .drop _ | .describe _ | .power _ | .calibrate .. | .preserve .. => rfl
  | .create series base count lanes policy => exact createPayload_readsBack series base count lanes policy
  | .append series count records => exact Appending.appendPayload_readsBack series count records
  | .fetch series first count => exact fetchPayload_readsBack series first count
  | .scan f => exact congrArg Request.scan (Scanning.scanOf_scanBytes f)
  | .setArrayTiming f => exact congrArg Request.setArrayTiming (timingOf_timingBytes f)
  | .setMonitor f => exact congrArg Request.setMonitor (Monitoring.monitorOf_monitorBytes f)
  | .setPreservePort f => exact congrArg Request.setPreservePort (Preserving.portOf_portBytes f)
  | .recover slot target presence base => exact Preserving.recover_readsBack slot target presence base

end Sys2Proof.Formats
end

section
/-! PROOFS. The queue of commands (logs 3 and 29): a step takes its front, and no command touches it. -/

namespace Sys2Proof.Queue

open Sys2Proof.Machine Sys2Proof.Laws

/-- No update that a command is made of touches the queue; even RESET_N carries it over. -/
theorem moves_pending {p q ap : Prop} {s t : State} (h : Moves p q ap s t) : t.pending = s.pending := by
  induction h with
  | refl => rfl
  | restart _ _ _ _ ih => exact ih
  | link _ _ _ _ ih | table _ _ _ ih | entry _ _ _ _ ih | fetches _ _ ih | drops _ _ ih | ctxs _ _ ih
  | die _ _ _ _ ih | queues _ _ _ _ ih | arr _ _ _ _ _ ih | mon _ _ _ ih | port _ _ ih | mem _ _ _ _ ih
  | draws _ _ ih => exact ih

/-- Row by row: every arm of `exec` gives its command a next state, never a fault or a refusal (log 3). -/
theorem exec_answers (c : Instr) (s : State) : ∃ t, exec c s = .next t := by
  cases c <;> exact ⟨_, rfl⟩

theorem exec_pending {c : Instr} {s t : State} (h : exec c s = .next t) : t.pending = s.pending :=
  moves_pending (exec_moves (p := True) (ap := True) (fun _ => trivial) (.inl trivial) h)

/-- Settles O1: with a command in front, the first branch of `step` is taken. -/
theorem stepTakesFrontCommand : Obligations.StepTakesFrontCommand := by
  intro c rest s hp
  calc step s
    _ = exec c (s.setPending rest) := by unfold step; rw [hp]
    _ = exec c { s with pending := rest } := rfl

/-- Settles O3: each row answers, and what it answers was reached by updates that leave the queue. -/
theorem everyCommandAnswers : Obligations.EveryCommandAnswers := by
  intro c s
  obtain ⟨t, ht⟩ := exec_answers c s
  exact ⟨t, ht, exec_pending ht⟩

end Sys2Proof.Queue
end
